-- ==== Sys2Proof/Word.lean ====
section
/-! DEFINITION. The register words and the elements of CORE. The widths PROB_W, COEF_W, CNT_W of the elements are
parameters of the model (R8, D6, D16, D17 "OPEN"), so an element is a number, and the operations that store one
reduce it to its width (log 17). No rule views two elements as one value (R71), so no byte order exists (R72). -/

namespace Sys2Proof

/-- One register of the register map: a 32-bit word selected by its number (R30). -/
abbrev Word := BitVec 32

/-- One probability element of PROB, PARETO, CATP or CAT6P, below 2^PROB_W (R70). -/
abbrev Prob := Nat

/-- One stored coefficient: the value of its COEF_W-bit two's complement pattern (R70). -/
abbrev Coef := Int

/-- One counter of CNTC or CNTE, unsigned, below 2^CNT_W (R70, R242). -/
abbrev Count := Nat

end Sys2Proof
end

