-- ==== Sys2Proof/Syntax.lean ====
section
/-! DEFINITION. The syntax of CORE's instructions: every row of spec/opcode_table.json is one constructor.
An instruction is a host command (R110) or a token of the coefficient syntax (R113, R114, R115); a token in Z-form is
a row of its own. `s` is the sign character (R120), `a` the extra bits, the first one the most significant
(R118, R119). -/

namespace Sys2Proof

/-- The 26 rows of the opcode table. Commands have no operand field (R111). The extra bits of CAT1..CAT5 have the fixed
number CATBITS[k] = k (R8); those of CAT6 are as many as CAT6P has entries before its first zero (R119), so they are
a list, in the order they are read. -/
inductive Instr where
  | decodeCoefs
  | decodeBlock
  | softReset
  | eob
  | zero
  | one (s : Bool)
  | two (s : Bool)
  | three (s : Bool)
  | four (s : Bool)
  | cat1 (a : BitVec 1) (s : Bool)
  | cat2 (a : BitVec 2) (s : Bool)
  | cat3 (a : BitVec 3) (s : Bool)
  | cat4 (a : BitVec 4) (s : Bool)
  | cat5 (a : BitVec 5) (s : Bool)
  | cat6 (a : List Bool) (s : Bool)
  | zeroZ
  | oneZ (s : Bool)
  | twoZ (s : Bool)
  | threeZ (s : Bool)
  | fourZ (s : Bool)
  | cat1Z (a : BitVec 1) (s : Bool)
  | cat2Z (a : BitVec 2) (s : Bool)
  | cat3Z (a : BitVec 3) (s : Bool)
  | cat4Z (a : BitVec 4) (s : Bool)
  | cat5Z (a : BitVec 5) (s : Bool)
  | cat6Z (a : List Bool) (s : Bool)
  deriving DecidableEq, Repr

/-- The "format" column of the opcode table (R125): a word written to CMD, or a decision string in E-form or Z-form. -/
inductive Form where
  | cmd
  | tokenE
  | tokenZ
  deriving DecidableEq, Repr

/-- The format of an instruction (R110, R113). -/
def Instr.form : Instr → Form
  | .decodeCoefs | .decodeBlock | .softReset => .cmd
  | .eob | .zero | .one _ | .two _ | .three _ | .four _ => .tokenE
  | .cat1 _ _ | .cat2 _ _ | .cat3 _ _ | .cat4 _ _ | .cat5 _ _ | .cat6 _ _ => .tokenE
  | .zeroZ | .oneZ _ | .twoZ _ | .threeZ _ | .fourZ _ => .tokenZ
  | .cat1Z _ _ | .cat2Z _ _ | .cat3Z _ _ | .cat4Z _ _ | .cat5Z _ _ | .cat6Z _ _ => .tokenZ

end Sys2Proof
end

