-- ==== Sys2Proof/WellFormed.lean ====
section
/-! DEFINITION. Which instructions are well formed. One check exists: the number of extra bits of CAT6 is the
table's m, the index of the first zero of CAT6P (R119); every other operand has its width in its type. -/

namespace Sys2Proof

/-- `i` is an instruction of a machine whose CAT6P has its first zero at index `m` (R119; m = 14 with the default
table, R125). -/
def Instr.wf (m : Nat) : Instr → Bool
  | .cat6 a _ => a.length == m
  | .cat6Z a _ => a.length == m
  | .decodeCoefs | .decodeBlock | .softReset => true
  | .eob | .zero | .one _ | .two _ | .three _ | .four _ => true
  | .cat1 _ _ | .cat2 _ _ | .cat3 _ _ | .cat4 _ _ | .cat5 _ _ => true
  | .zeroZ | .oneZ _ | .twoZ _ | .threeZ _ | .fourZ _ => true
  | .cat1Z _ _ | .cat2Z _ _ | .cat3Z _ _ | .cat4Z _ _ | .cat5Z _ _ => true

end Sys2Proof
end

