-- ==== Sys2Proof/Decode.lean ====
section
/-! DEFINITION. Decoding and encoding: CMD words (R110), decision strings (R113 to R116), and the opcode
table's words. A decision string is the list of the bit source's answers in request order; `m` is the number of
extra bits of CAT6, the index of the first zero of CAT6P, `none` where the table has no zero (then no
string spells a CAT6 token: the walk aborts, R285). -/

namespace Sys2Proof

/-- The number a bit string spells, first character most significant (R118, R119). -/
def bitsValue (bs : List Bool) : Nat := bs.foldl (fun v b => 2 * v + b.toNat) 0

/-- The bits of a field in the order they are read, most significant first (R118). -/
def msbFirst {n : Nat} (a : BitVec n) : List Bool := (List.range n).map a.getMsbD

/-! ## Commands -/

/-- OPC is bits[7:0] of the word; bits[31:8] are ignored (R110). `none`: a reserved OPC (R112). -/
def decodeCmd (w : Word) : Option Instr :=
  match (w.setWidth 8).toNat with
  | 1 => some .decodeCoefs
  | 2 => some .decodeBlock
  | 3 => some .softReset
  | _ => none

/-! ## Tokens -/

/-- A token other than EOB without its form: what the walk below the EOB node finds. -/
inductive Leaf where
  | zero
  | one (s : Bool)
  | two (s : Bool)
  | three (s : Bool)
  | four (s : Bool)
  | cat1 (a : BitVec 1) (s : Bool)
  | cat2 (a : BitVec 2) (s : Bool)
  | cat3 (a : BitVec 3) (s : Bool)
  | cat4 (a : BitVec 4) (s : Bool)
  | cat5 (a : BitVec 5) (s : Bool)
  | cat6 (a : List Bool) (s : Bool)
  deriving DecidableEq, Repr

/-- The token in E-form (R114). -/
def Leaf.eForm : Leaf → Instr
  | .zero => .zero
  | .one s => .one s
  | .two s => .two s
  | .three s => .three s
  | .four s => .four s
  | .cat1 a s => .cat1 a s
  | .cat2 a s => .cat2 a s
  | .cat3 a s => .cat3 a s
  | .cat4 a s => .cat4 a s
  | .cat5 a s => .cat5 a s
  | .cat6 a s => .cat6 a s

/-- The token in Z-form (R115). -/
def Leaf.zForm : Leaf → Instr
  | .zero => .zeroZ
  | .one s => .oneZ s
  | .two s => .twoZ s
  | .three s => .threeZ s
  | .four s => .fourZ s
  | .cat1 a s => .cat1Z a s
  | .cat2 a s => .cat2Z a s
  | .cat3 a s => .cat3Z a s
  | .cat4 a s => .cat4Z a s
  | .cat5 a s => .cat5Z a s
  | .cat6 a s => .cat6Z a s

/-- `n` extra bits and the sign that follows them (R121): the extra bits, the sign, the rest of the string. -/
def extraThenSign (n : Nat) (bs : List Bool) : Option (List Bool × Bool × List Bool) :=
  match bs.drop n with
  | s :: rest => some (bs.take n, s, rest)
  | [] => none

/-- The extra bits of CATk as its n-bit field. -/
def catLeaf (n : Nat) (mk : BitVec n → Bool → Leaf) (bs : List Bool) : Option (Leaf × List Bool) :=
  (extraThenSign n bs).map fun x => (mk (BitVec.ofNat n (bitsValue x.1)) x.2.1, x.2.2)

/-- The Z-form table of R115 read as a prefix code: the token a string begins with and the rest of the string. `none`: the
string ends inside the token. -/
def decodeLeaf (m : Option Nat) : List Bool → Option (Leaf × List Bool)
  | false :: r => some (.zero, r)
  | true :: false :: s :: r => some (.one s, r)
  | true :: true :: false :: false :: s :: r => some (.two s, r)
  | true :: true :: false :: true :: false :: s :: r => some (.three s, r)
  | true :: true :: false :: true :: true :: s :: r => some (.four s, r)
  | true :: true :: true :: false :: false :: r => catLeaf 1 .cat1 r
  | true :: true :: true :: false :: true :: r => catLeaf 2 .cat2 r
  | true :: true :: true :: true :: false :: false :: r => catLeaf 3 .cat3 r
  | true :: true :: true :: true :: false :: true :: r => catLeaf 4 .cat4 r
  | true :: true :: true :: true :: true :: false :: r => catLeaf 5 .cat5 r
  | true :: true :: true :: true :: true :: true :: r =>
    match m with
    | some n => (extraThenSign n r).map fun x => (.cat6 x.1 x.2.1, x.2.2)
    | none => none
  | _ => none

/-- The Z-form token a string begins with (R115). -/
def decodeZ (m : Option Nat) (bs : List Bool) : Option (Instr × List Bool) :=
  (decodeLeaf m bs).map fun x => (x.1.zForm, x.2)

/-- The E-form token a string begins with (R114): EOB is `0`; any other is `1` and its Z-form string (R113). -/
def decodeE (m : Option Nat) : List Bool → Option (Instr × List Bool)
  | [] => none
  | false :: r => some (.eob, r)
  | true :: r => (decodeLeaf m r).map fun x => (x.1.eForm, x.2)

/-! ## Codes: one decoder for the three formats -/

/-- What stands for an instruction: a word written to CMD or a decision string. -/
inductive Code where
  | word (w : Word)
  | answers (bs : List Bool)
  deriving DecidableEq, Repr

/-- The string is the token and nothing more. -/
def wholeString : Option (Instr × List Bool) → Option Instr
  | some (i, []) => some i
  | some (_, _ :: _) => none
  | none => none

/-- The decoder: total on every code of every format, rejecting (`none`) a reserved OPC, a string that does not
spell exactly one token of the format, and a code of the wrong kind. -/
def decode (m : Option Nat) : Form → Code → Option Instr
  | .cmd, .word w => decodeCmd w
  | .tokenE, .answers bs => wholeString (decodeE m bs)
  | .tokenZ, .answers bs => wholeString (decodeZ m bs)
  | .cmd, .answers _ => none
  | .tokenE, .word _ => none
  | .tokenZ, .word _ => none

/-! ## The encoder, written from the tables of R110, R114 and R115 -/

/-- The CMD word of a command, upper bits zero (R110); zero for a token, which has none. -/
def encodeWord : Instr → Word
  | .decodeCoefs => 0x00000001#32
  | .decodeBlock => 0x00000002#32
  | .softReset => 0x00000003#32
  | .eob | .zero | .one _ | .two _ | .three _ | .four _ => 0#32
  | .cat1 _ _ | .cat2 _ _ | .cat3 _ _ | .cat4 _ _ | .cat5 _ _ | .cat6 _ _ => 0#32
  | .zeroZ | .oneZ _ | .twoZ _ | .threeZ _ | .fourZ _ => 0#32
  | .cat1Z _ _ | .cat2Z _ _ | .cat3Z _ _ | .cat4Z _ _ | .cat5Z _ _ | .cat6Z _ _ => 0#32

/-- The decision string of a token (E-form R114, Z-form R115); empty for a command, which has none. -/
def encodeBits : Instr → List Bool
  | .decodeCoefs | .decodeBlock | .softReset => []
  | .eob => [false]
  | .zero => [true, false]
  | .one s => [true, true, false, s]
  | .two s => [true, true, true, false, false, s]
  | .three s => [true, true, true, false, true, false, s]
  | .four s => [true, true, true, false, true, true, s]
  | .cat1 a s => [true, true, true, true, false, false] ++ msbFirst a ++ [s]
  | .cat2 a s => [true, true, true, true, false, true] ++ msbFirst a ++ [s]
  | .cat3 a s => [true, true, true, true, true, false, false] ++ msbFirst a ++ [s]
  | .cat4 a s => [true, true, true, true, true, false, true] ++ msbFirst a ++ [s]
  | .cat5 a s => [true, true, true, true, true, true, false] ++ msbFirst a ++ [s]
  | .cat6 a s => [true, true, true, true, true, true, true] ++ a ++ [s]
  | .zeroZ => [false]
  | .oneZ s => [true, false, s]
  | .twoZ s => [true, true, false, false, s]
  | .threeZ s => [true, true, false, true, false, s]
  | .fourZ s => [true, true, false, true, true, s]
  | .cat1Z a s => [true, true, true, false, false] ++ msbFirst a ++ [s]
  | .cat2Z a s => [true, true, true, false, true] ++ msbFirst a ++ [s]
  | .cat3Z a s => [true, true, true, true, false, false] ++ msbFirst a ++ [s]
  | .cat4Z a s => [true, true, true, true, false, true] ++ msbFirst a ++ [s]
  | .cat5Z a s => [true, true, true, true, true, false] ++ msbFirst a ++ [s]
  | .cat6Z a s => [true, true, true, true, true, true] ++ a ++ [s]

/-- The code of an instruction in its format. -/
def encode (i : Instr) : Code :=
  match i.form with
  | .cmd => .word (encodeWord i)
  | .tokenE => .answers (encodeBits i)
  | .tokenZ => .answers (encodeBits i)

/-! ## The opcode table's words -/

/-- The characters of a number, the first one its leading 1 bit; `[false]` for 0. Every token but EOB and ZERO.Z begins
with the character 1, so the string is as long as the number. -/
def tableString (w : Nat) : List Bool :=
  if w = 0 then [false] else (List.range (w.log2 + 1)).map fun i => w.testBit (w.log2 - i)

/-- The instruction of a word of the opcode table. A command row is its CMD word (8 bits, the mask's, or 32). A token row
is its decision string, first character the most significant bit, last character bit 0 (the numbering of the
table's own CAT1 and CAT2.Z rows). A string that spells a whole E-form token is that token, else the
Z-form token it spells; CAT6 has the table's 14 extra bits (R125). Log 15. -/
def decodeTableWord (nbits w : Nat) : Option Instr :=
  let v := w % 2 ^ nbits
  let string := tableString v
  let token :=
    match wholeString (decodeE (some 14) string) with
    | some i => some i
    | none => wholeString (decodeZ (some 14) string)
  if nbits = 32 then decodeCmd (BitVec.ofNat 32 v)
  else if nbits = 8 then
    match decodeCmd (BitVec.ofNat 32 v) with
    | some i => some i
    | none => token
  else token

end Sys2Proof
end

