-- ==== Sys2Proof/Machine/Memory.lean ====
section
/-! DEFINITION. The one form in which every space of R70 is held: a list of (index, element) pairs, indices strictly
rising, of the elements that have been written. What an index that is not listed reads as is said by the
space's read in Machine/Operands.lean: it is a free value (R56), so no listed element is known to equal it and the form
drops none (log 6). An access moves one element (R71, R74); reads have no side effect (R75). -/

namespace Sys2Proof.Machine.Memory

variable {α : Type}

/-- The element listed at an index. -/
def lookup : List (Nat × α) → Nat → Option α
  | [], _ => none
  | (k, v) :: m, a => if k = a then some v else lookup m a

/-- MemWrite of one element: list `v` at `a`, in place of what was listed there. -/
def insert : List (Nat × α) → Nat → α → List (Nat × α)
  | [], a, v => [(a, v)]
  | (k, w) :: m, a, v =>
    if a < k then (a, v) :: (k, w) :: m
    else if a = k then (a, v) :: m
    else (k, w) :: insert m a v

/-- The canonical form: the indices rise strictly. -/
abbrev wf (m : List (Nat × α)) : Prop := (m.map Prod.fst).Pairwise (· < ·)

end Sys2Proof.Machine.Memory
end

