-- ==== Sys2Proof/Config.lean ====
section
/-! DEFINITION. The implementation parameters of R8 that the spec leaves open, and the free values.
The parameters are held in State (field `par`, no step writes it), so that every statement over all states
speaks of every contents; their default contents stand in Machine/Tables.lean. -/

namespace Sys2Proof

/-- The spaces HOST may read and write while CORE is idle (R70, R90). -/
inductive HostSpace where
  | coef | ctxa | ctxl | prob | cntc | cnte
  deriving DecidableEq, Repr

/-- The implementation parameters "the model takes as an argument" (R8, R80, 93 U14). A machine's parameters never
change (R80 "no agent writes them after construction").

* `bandt`: BANDT, listed by the flattened index `t * 1024 + c` (R79); an element that is not listed holds
  the default of R142, so every contents of the space can be written down;
* `energy`: ENERGY, one class per token number (R70, R225);
* `catp`: CATP, entry `[k - 1][i]` (R70, R204);
* `cat6p`: CAT6P; its length is CAT6_LEN (R206, R207);
* `paretoRows`: PARETO_ROWS (R8, D37);
* `ctxaLen`, `ctxlLen`: CTXA_LEN and CTXL_LEN (R8 "open", D23);
* `probW`, `coefW`, `dqW`, `cntW`, `pmodeW`: the widths PROB_W, COEF_W, DQ_W, CNT_W, PMODE_W in bits (R8, D6, D17, D18,
  D16, D24);
* `nsym`: NSYM, the counters of CNTC that one tuple has (R8, D14). -/
structure Params where
  bandt : List (Nat × BitVec 3)
  energy : Vector (BitVec 3) 12
  catp : Vector (Vector Prob 5) 5
  cat6p : List Prob
  paretoRows : Nat
  ctxaLen : Nat
  ctxlLen : Nat
  probW : Nat
  coefW : Nat
  dqW : Nat
  cntW : Nat
  pmodeW : Nat
  nsym : Nat
  deriving DecidableEq, Repr

namespace Config

/-- The contents of PARETO, entry `[r][j]`: the spec gives no element of it (R80, N5 "Do not assume ... any pareto
value"), so it is a constant with no body, of which a read takes the low PROB_W bits. CORE only passes its elements on to the bit
source (R85). Log 5. -/
opaque pareto : Nat → Nat → Nat

/-- FREE VALUE. What an element of a space holds after a hardware reset: "a free input of the launch state under no law"
(R55, R56, 93 U16). The arguments are the space, the number of hardware resets before (State.resetNo) and the
flattened index (R79); a read takes it to the element's width. Log 6. -/
opaque powerOn : HostSpace → Nat → Nat → Nat

/-- FREE VALUE. What TOKC reads at a position that the current command has not written: "any value in 0..7"
(R46, 93 U4, U16). The first argument is the number of the command (State.cmdNo, a counter that every
command start advances), the second the position. Log 7. -/
opaque staleToken : Nat → Nat → BitVec 3

end Config
end Sys2Proof
end

