-- ==== Sys2Proof/Machine/Tables.lean ====
section
/-! DEFINITION. The fixed numbers of R8 and the default contents of the fixed tables that the spec supplies (R142,
R204, R207, R225; each "from general knowledge, not in source", a parameter of the model: log 5). -/

namespace Sys2Proof.Machine

/-- maxEob(t) = 16 << (2*t): 16, 64, 256, 1024 (R8). -/
def maxEob (t : BitVec 2) : Nat := 16 <<< (2 * t.toNat)

/-- shift(t): 1 for the largest transform, else 0 (R8, R223). -/
def dequantShift (t : BitVec 2) : Nat := if t = 3#2 then 1 else 0

/-- The entries of CTXA and of CTXL a block covers, 1 << TXSIZE (R262). -/
def footprint (t : BitVec 2) : Nat := 1 <<< t.toNat

/-- CATMIN[k], k = 1..6 (R8, R190). -/
def catMin : Nat → Nat
  | 1 => 5
  | 2 => 7
  | 3 => 11
  | 4 => 19
  | 5 => 35
  | _ => 67

/-- CATBITS[k] = k for k = 1..5 (R8, R190). -/
def catBits (k : Nat) : Nat := k

/-- The default of BANDT for TXSIZE = 0 (R142). -/
def defaultBand4x4 : List (BitVec 3) :=
  [0#3, 1#3, 1#3, 2#3, 2#3, 2#3, 3#3, 3#3, 3#3, 3#3, 4#3, 4#3, 4#3, 5#3, 5#3, 5#3]

/-- The default of BANDT for TXSIZE = 1, 2, 3, the same function of the scan index for all three (R142). -/
def defaultBandLarge (c : Nat) : BitVec 3 :=
  if c = 0 then 0#3
  else if c ≤ 2 then 1#3
  else if c ≤ 5 then 2#3
  else if c ≤ 9 then 3#3
  else if c ≤ 20 then 4#3
  else 5#3

/-- The default contents of BANDT:[t][c] for c < maxEob(t) (R142). An entry with c >= maxEob(t) is not used (R70) and the spec gives
it no contents: it is 5 here (DESIGN CHOICE, log 5), and no step reads it. -/
def defaultBand (t : BitVec 2) (c : Nat) : BitVec 3 :=
  if t = 0#2 then defaultBand4x4.getD c 5#3 else defaultBandLarge c

/-- The default contents of ENERGY, by token number 0..11 (R225). -/
def defaultEnergy : Vector (BitVec 3) 12 :=
  #v[0#3, 1#3, 2#3, 3#3, 3#3, 4#3, 4#3, 5#3, 5#3, 5#3, 5#3, 5#3]

/-- The default contents of CATP (R204); entries with i >= CATBITS[k] are not used (R70). -/
def defaultCatp : Vector (Vector Prob 5) 5 :=
  #v[#v[159, 0, 0, 0, 0],
     #v[165, 145, 0, 0, 0],
     #v[173, 148, 140, 0, 0],
     #v[176, 155, 140, 135, 0],
     #v[180, 157, 141, 134, 130]]

/-- The default contents of CAT6P, CAT6_LEN = 15 (R207). -/
def defaultCat6p : List Prob :=
  [254, 254, 254, 252, 249, 243, 230, 196, 177, 153, 140, 133, 130, 129, 0]

/-- The parameters of the machine after reset: the spec's defaults (R8, R142, R204, R207, R225). CTXA_LEN and CTXL_LEN are
"open" (R8): 65536 entries, so that every value of the 16-bit AOFF and LOFF names one (DESIGN CHOICE, log 5). -/
def defaultParams : Params where
  bandt := []
  energy := defaultEnergy
  catp := defaultCatp
  cat6p := defaultCat6p
  paretoRows := 255
  ctxaLen := 65536
  ctxlLen := 65536
  probW := 8
  coefW := 16
  dqW := 16
  cntW := 32
  pmodeW := 8
  nsym := 4

end Sys2Proof.Machine
end

