-- ==== Sys2Proof/Machine/State.lean ====
section
/-! DEFINITION. The state of CORE and of the agents around it, and the state after a hardware reset.
CORE: the working registers (R21), the status and control registers (R30), the token cache (R45) and the spaces
(R70). Beside CORE, as plain data: the parameters (R8), the scan provider's tables (R76, R77), the bit source's
answers and the requests it was sent (R84), and the host's pending actions (R90). -/

namespace Sys2Proof.Machine

/-- The values of NODE (R23). Numbers 17..31 of the 5-bit register are never written by any rule. -/
inductive Node where
  | idle | eob | zero | one | lowval | two | three | highlow | catone | cat34 | catthree | catfive
  | extra | cat6 | sign | wb | entry
  deriving DecidableEq, Repr

/-- The token numbers of TOK, in the order of R26: 0 ZERO, 1 ONE, 2 TWO, 3 THREE, 4 FOUR, 5..10 CAT1..CAT6, 11 EOB. -/
inductive Token where
  | zero | one | two | three | four | cat1 | cat2 | cat3 | cat4 | cat5 | cat6 | eob
  deriving DecidableEq, Repr

/-- The error codes of STATUS.ERR (R281); 6..15 are never produced. -/
inductive Err where
  | none | bitstreamExhausted | outOfRangeProbability | malformedCategory6 | illegalCommand | illegalConfig
  deriving DecidableEq, Repr

/-- An answer of the bit source (R84). -/
inductive Answer where
  | bit (b : Bool)
  | exhausted
  deriving DecidableEq, Repr

/-- A request to the bit source (R84): probability-shaped with its PROB_W-bit p, or raw. -/
inductive Request where
  | p (p : Prob)
  | raw
  deriving DecidableEq, Repr

/-- One entry of TOKC (R45): the energy class, and the number of the command that wrote it (the model's own mark, by
which a read knows whether the running command has written the entry, R46; log 7). -/
structure TokEntry where
  cls : BitVec 3
  cmd : Nat
  deriving DecidableEq, Repr

/-- What CORE presents to SCANPROV when a command starts (R76). -/
structure ScanKey where
  tx : BitVec 2
  pt : BitVec 1
  pm : Nat
  deriving DecidableEq, Repr

/-- One scan table and its neighbour table (R76, R77): the 10-bit elements by index. An index that is not listed holds the
element of the table SCAN[c] = c, NB[2c] = NB[2c+1] = c - 1, so every contents can be written down (log 3). -/
structure ScanTable where
  scan : List (Nat × BitVec 10)
  nb : List (Nat × BitVec 10)
  deriving DecidableEq, Repr

/-- SCANPROV (R6): the table of each key, the table of every key not listed, and the selected key (R50(b)). -/
structure ScanProv where
  tables : List (ScanKey × ScanTable)
  other : ScanTable
  selected : ScanKey
  deriving DecidableEq, Repr

/-- What HOST may do (R90, R257) and the hardware reset (R321). An element of a space is written as a number, of which the
space takes the low bits of its element's width (log 18). -/
inductive HostAct where
  | writeReg (n : Nat) (w : Word)
  | readReg (n : Nat)
  | writeSpace (sp : HostSpace) (i : Nat) (v : Nat)
  | readSpace (sp : HostSpace) (i : Nat)
  | bindSource (as : List Answer)
  | hardwareReset
  deriving DecidableEq, Repr

/-- A pending action of HOST: while CORE is busy it lands after `wait` more node visits; while CORE is idle, at once
(CORE takes no step then, R255). Log 4. -/
structure HostEvent where
  wait : Nat
  act : HostAct
  deriving DecidableEq, Repr

/-- The machine. Widths are those of R21 and R30. A field whose width is a parameter (DQ_DC, DQ_AC, PMODE, the elements of
COEF, PROB, CNTC, CNTE; PROW, VAL, ACC and XI, whose width follows PARETO_ROWS and CAT6_LEN) is a number (log 17). -/
structure State where
  /-- NODE (R21, R23) -/
  node : Node
  /-- C, the scan index (R24) -/
  c : BitVec 11
  /-- CTX (R25) -/
  ctx : BitVec 3
  /-- BAND (R25) -/
  band : BitVec 3
  /-- PROW, the pareto row (R166) -/
  prow : Nat
  /-- TOK (R26) -/
  tok : Token
  /-- VAL, the unsigned magnitude (R27) -/
  val : Nat
  /-- ACC, the CAT6 accumulator (R27) -/
  acc : Nat
  /-- XI, the extra-bit index (R27) -/
  xi : Nat
  /-- CMDK: 0 DECODE_COEFS, 1 DECODE_BLOCK (R21) -/
  cmdk : BitVec 1
  /-- STATUS.BUSY (R32) -/
  busy : Bool
  /-- STATUS.DONE (R32) -/
  done : Bool
  /-- STATUS.OVF, sticky (R32) -/
  ovf : Bool
  /-- STATUS.ERR (R32, R281) -/
  err : Err
  /-- EOB (R35) -/
  eob : BitVec 11
  /-- ERRINFO.ENODE (R36) -/
  enode : Node
  /-- ERRINFO.EC (R36) -/
  ec : BitVec 11
  /-- CFG.FPAR (R33) -/
  fpar : BitVec 1
  /-- TXSIZE (R34) -/
  txsize : BitVec 2
  /-- PTYPE (R34) -/
  ptype : BitVec 1
  /-- REF (R34) -/
  ref : BitVec 1
  /-- DQ_DC, DQ_W bits (R34) -/
  dqDc : Nat
  /-- DQ_AC, DQ_W bits (R34) -/
  dqAc : Nat
  /-- ECTX (R37) -/
  ectx : BitVec 3
  /-- AOFF (R30) -/
  aoff : BitVec 16
  /-- LOFF (R30) -/
  loff : BitVec 16
  /-- PMODE, PMODE_W bits (R30) -/
  pmode : Nat
  /-- TOKC (R45): an entry for every position ever written, by position -/
  tokc : List (Nat × TokEntry)
  /-- COEF (R70): the elements written since power-on, by position -/
  coef : List (Nat × Coef)
  /-- CTXA (R70) -/
  ctxa : List (Nat × BitVec 8)
  /-- CTXL (R70) -/
  ctxl : List (Nat × BitVec 8)
  /-- PROB (R70), by the flattened index of R79 -/
  prob : List (Nat × Prob)
  /-- CNTC (R70), by the flattened index of R79 -/
  cntc : List (Nat × Count)
  /-- CNTE (R70), by the flattened index of R79 -/
  cnte : List (Nat × Count)
  /-- the implementation parameters (R8); no step writes them -/
  par : Params
  /-- SCANPROV (R6, R76, R77) -/
  scanprov : ScanProv
  /-- BITSRC: the answers still to come, in request order; past the end every answer is EXHAUSTED (R84, R87; log 2) -/
  answers : List Answer
  /-- the requests BITSRC has been sent, newest first (R84) -/
  requests : List Request
  /-- HOST's pending actions, next first (R90; log 4) -/
  host : List HostEvent
  /-- the value the last read of HOST returned (R31, R90) -/
  rdata : Nat
  /-- the model's own counter: the number of the last command started (log 7) -/
  cmdNo : Nat
  /-- the model's own counter: how many hardware resets there have been since power-on (log 6) -/
  resetNo : Nat
  /-- the model's own switch, which no step writes: false, and a step of CORE is one node visit (R6); true, and where a token
  begins whose answers are all there a step runs it whole (log 1) -/
  tokenSteps : Bool
  deriving DecidableEq, Repr

/-- Why a step stops although CORE goes on: a state that no run reaches has broken an index the rules rely on. SAFE. -/
inductive Fault where
  /-- Raised by a read of SCAN at a scan index C >= ME: R24 "`C < ME` at the start of every visit of nodes 1 to 14". -/
  | scanIndex
  /-- Raised by N_EXTRA when TOK is not CAT1..CAT5 or XI is not below CATBITS: R203 "0 <= i < n". -/
  | extraIndex
  deriving DecidableEq, Repr

/-- Why a step is refused: HOST or SCANPROV has broken an obligation and the spec gives the case no effect ("a model
should refuse"). SAFE: the model stops where the hardware would do something unspecified. -/
inductive Refusal where
  /-- The instruction of this mnemonic has no meaning yet. Raised by exec's arm. SAFE. -/
  | notModelled (mnemonic : String)
  /-- Raised by the launch of a command whose SCAN is not a permutation of 0..ME-1 (R73, R326, 93 U5), and in states that no
  run reaches by a visit that uses an element not below ME. SAFE. -/
  | scanTable
  /-- Raised by the launch of a command whose NB names a position not decoded before (R73, R327, 93 U4, U6), and in states that
  no run reaches by CTXSEL where an element is not below ME. SAFE. -/
  | neighbourTable
  /-- Raised where a node reads PROB with CTX or BAND above 5: a BANDT or ENERGY element is above 5 (R147, R330). SAFE. -/
  | outsideProb
  /-- Raised by the launch of a DECODE_BLOCK where AOFF + n exceeds CTXA_LEN (R73, R329, 93 U6), and by N_ENTRY and N_WB in
  states that no run reaches. SAFE. -/
  | footprintAbove
  /-- Raised by the launch of a DECODE_BLOCK where LOFF + n exceeds CTXL_LEN (R73, R329, 93 U6), and by N_ENTRY and N_WB in
  states that no run reaches. SAFE. -/
  | footprintLeft
  /-- Raised by a HOST access to a space, or to the bit source, while BUSY = 1 (R90, 93 U8). SAFE. -/
  | hostAccessWhileBusy
  /-- Raised by a HOST access to an index outside the space's shape (R73). SAFE. -/
  | hostIndex
  deriving DecidableEq, Repr

/-- What a step answers. -/
abbrev Result := Host.Outcome State Fault Refusal

/-- The machine right after a hardware reset (R55, R320): every register zero, CORE idle. What R55 leaves unspecified is
free (R56): the spaces list nothing, and an element that is not listed is a free value (log 6), so is TOKC's (log 7).
SCANPROV, BITSRC and HOST are not state of CORE: the placeholder tables of log 3, no answer, no pending action. -/
def State.reset : State where
  node := .idle
  c := 0#11
  ctx := 0#3
  band := 0#3
  prow := 0
  tok := .zero
  val := 0
  acc := 0
  xi := 0
  cmdk := 0#1
  busy := false
  done := false
  ovf := false
  err := .none
  eob := 0#11
  enode := .idle
  ec := 0#11
  fpar := 0#1
  txsize := 0#2
  ptype := 0#1
  ref := 0#1
  dqDc := 0
  dqAc := 0
  ectx := 0#3
  aoff := 0#16
  loff := 0#16
  pmode := 0
  tokc := []
  coef := []
  ctxa := []
  ctxl := []
  prob := []
  cntc := []
  cnte := []
  par := defaultParams
  scanprov := ⟨[], ⟨[], []⟩, ⟨0#2, 0#1, 0⟩⟩
  answers := []
  requests := []
  host := []
  rdata := 0
  cmdNo := 0
  resetNo := 0
  tokenSteps := false

end Sys2Proof.Machine
end

