-- ==== Sys2Proof/Machine/Operands.lean ====
section
/-! DEFINITION. Every operand form of CORE: the numbers of R10, the elements of the spaces a rule reads, the
abbreviations of R12, the positions that SCAN and NB give, the probability of each request (R117), the
dequantisation factor (R222). -/

namespace Sys2Proof.Machine

/-! ## Reads that can stop -/

/-- Why a read stops the step: a fault or a refusal. -/
inductive Stop where
  | fault (f : Fault)
  | refuse (r : Refusal)
  deriving DecidableEq, Repr

/-- Go on with the value of a read, or stop as it says. -/
def need {α : Type} (x : Except Stop α) (k : α → Result) : Result :=
  match x with
  | .ok a => k a
  | .error (.fault f) => .fault f
  | .error (.refuse r) => .refused r

/-- Go on from the next state of a result, or stop as it stopped. -/
def thenDo (r : Result) (k : State → Result) : Result :=
  match r with
  | .next s => k s
  | .fault f => .fault f
  | .refused e => .refused e

/-! ## Numbers of a width (R10) -/

/-- sext_N(v): the N-bit pattern v as a two's complement number. -/
def sext (n : Nat) (v : Int) : Int := if v < ((2 ^ (n - 1) : Nat) : Int) then v else v - ((2 ^ n : Nat) : Int)

/-- wrap_N(z) = sext_N(z mod 2^N). -/
def wrap (n : Nat) (z : Int) : Int := sext n (z % ((2 ^ n : Nat) : Int))

/-! ## The elements of the spaces: what is listed, else the free value of the hardware reset (R56) -/

/-- MemRead(COEF:p, 1): a number of COEF_W bits, two's complement (R70). -/
def coefAt (s : State) (p : Nat) : Coef :=
  (Memory.lookup s.coef p).getD (wrap s.par.coefW (Config.powerOn .coef 0 p))

/-- MemRead(CTXA:i, 1). -/
def ctxaAt (s : State) (i : Nat) : BitVec 8 :=
  (Memory.lookup s.ctxa i).getD (BitVec.ofNat 8 (Config.powerOn .ctxa s.resetNo i))

/-- MemRead(CTXL:i, 1). -/
def ctxlAt (s : State) (i : Nat) : BitVec 8 :=
  (Memory.lookup s.ctxl i).getD (BitVec.ofNat 8 (Config.powerOn .ctxl s.resetNo i))

/-- MemRead(PROB:i, 1), by the flattened index (R79). -/
def probAt (s : State) (i : Nat) : Prob :=
  (Memory.lookup s.prob i).getD (Config.powerOn .prob s.resetNo i % 2 ^ s.par.probW)

/-- MemRead(CNTC:i, 1), by the flattened index (R79). -/
def cntcAt (s : State) (i : Nat) : Count :=
  (Memory.lookup s.cntc i).getD (Config.powerOn .cntc 0 i % 2 ^ s.par.cntW)

/-- MemRead(CNTE:i, 1), by the flattened index (R79). -/
def cnteAt (s : State) (i : Nat) : Count :=
  (Memory.lookup s.cnte i).getD (Config.powerOn .cnte 0 i % 2 ^ s.par.cntW)

/-! ## Abbreviations of R12 -/

/-- ME = maxEob(x[TXSIZE]) (R12). -/
def me (s : State) : Nat := maxEob s.txsize

/-- The number of the current (TXSIZE, PTYPE, REF, BAND, CTX), the common part of the flattenings of R79. -/
def rowIndex (s : State) : Nat :=
  (((s.txsize.toNat * 2 + s.ptype.toNat) * 2 + s.ref.toNat) * 6 + s.band.toNat) * 6 + s.ctx.toNat

/-- prob[j], j = 0 EOB, 1 ZERO, 2 ONE (R146): the element of PROB at the current row. Outside the shape of PROB when BAND
or CTX is above 5 (R147). -/
def probSel (s : State) (j : Nat) : Except Stop Prob :=
  if s.band.toNat ≤ 5 ∧ s.ctx.toNat ≤ 5 then .ok (probAt s (rowIndex s * 3 + j))
  else .error (.refuse .outsideProb)

/-- par[j] = PARETO:[x[PROW]][j] (R12). -/
def parSel (s : State) (j : Nat) : Prob := Config.pareto s.prow j % 2 ^ s.par.probW

/-! ## SCAN and NB -/

/-- The tables SCANPROV has selected (R76). -/
def scanTable (s : State) : ScanTable :=
  match s.scanprov.tables.find? fun e => e.1 == s.scanprov.selected with
  | some e => e.2
  | none => s.scanprov.other

/-- The element SCAN:c (R76). -/
def scanAt (s : State) (c : Nat) : BitVec 10 :=
  (Memory.lookup (scanTable s).scan c).getD (BitVec.ofNat 10 c)

/-- The element NB:i (R77). -/
def nbAt (s : State) (i : Nat) : BitVec 10 :=
  (Memory.lookup (scanTable s).nb i).getD (BitVec.ofNat 10 (i / 2 - 1))

/-- The position of the current scan index (R24): SCAN has ME elements, each below ME (R70, R326). -/
def scanPos (s : State) : Except Stop Nat :=
  if me s ≤ s.c.toNat then .error (.fault .scanIndex)
  else if (scanAt s s.c.toNat).toNat < me s then .ok (scanAt s s.c.toNat).toNat
  else .error (.refuse .scanTable)

/-- The position NB:i, below ME (R77, R327). -/
def neighbourPos (s : State) (i : Nat) : Except Stop Nat :=
  if (nbAt s i).toNat < me s then .ok (nbAt s i).toNat else .error (.refuse .neighbourTable)

/-- The `k` scan indices from `c` on have positions below ME, none of them in the set `seen` of positions (bit p says that p is
in it) and none occurring twice. -/
def scanFrom (s : State) : Nat → Nat → Nat → Bool
  | 0, _, _ => true
  | k + 1, c, seen =>
    decide ((scanAt s c).toNat < me s) && !seen.testBit (scanAt s c).toNat
      && scanFrom s k (c + 1) (seen ||| 1 <<< (scanAt s c).toNat)

/-- SCAN's obligation: the ME elements are a permutation of 0..ME-1 (R326). -/
def scanOk (s : State) : Bool := scanFrom s (me s) 0 0

/-- Of the `k` scan indices from `c` on, each but scan index 0 has both neighbours among the positions of the scan indices
below it, which are the set `seen`. -/
def nbFrom (s : State) : Nat → Nat → Nat → Bool
  | 0, _, _ => true
  | k + 1, c, seen =>
    (c == 0 || seen.testBit (nbAt s (2 * c)).toNat && seen.testBit (nbAt s (2 * c + 1)).toNat)
      && nbFrom s k (c + 1) (seen ||| 1 <<< (scanAt s c).toNat)

/-- NB's obligation: both neighbours of scan index c >= 1 are positions scan[j] with j < c (R327). -/
def nbOk (s : State) : Bool := nbFrom s (me s) 0 0

/-! ## TOKC and the fixed tables -/

/-- MemRead(TOKC:p, 1): the class written in the running command, else "any value in 0..7" (R46). -/
def tokClass (s : State) (p : Nat) : BitVec 3 :=
  match Memory.lookup s.tokc p with
  | some e => if e.cmd = s.cmdNo then e.cls else Config.staleToken s.cmdNo p
  | none => Config.staleToken s.cmdNo p

/-- BANDT:[x[TXSIZE]][c] (R141, R142). -/
def bandAt (s : State) (c : Nat) : BitVec 3 :=
  (Memory.lookup s.par.bandt (s.txsize.toNat * 1024 + c)).getD (defaultBand s.txsize c)

/-- The token number (R26). -/
def Token.num : Token → Fin 12
  | .zero => 0
  | .one => 1
  | .two => 2
  | .three => 3
  | .four => 4
  | .cat1 => 5
  | .cat2 => 6
  | .cat3 => 7
  | .cat4 => 8
  | .cat5 => 9
  | .cat6 => 10
  | .eob => 11

/-- ENERGY:k for the token number k (R225). -/
def energyOf (s : State) (k : Token) : BitVec 3 := s.par.energy[k.num]

/-- CATP:[k-1][i], for k = 1..5 and i < CATBITS[k] (R70, R203). -/
def catpSel (s : State) (k i : Nat) : Except Stop Prob :=
  if h : 1 ≤ k ∧ k ≤ 5 ∧ i < catBits k ∧ i < 5 then
    .ok ((s.par.catp[k - 1]'(by omega))[i]'(by omega))
  else .error (.fault .extraIndex)

/-- m, the number of extra bits of CAT6: the index of the first zero of CAT6P (R119); `none` where it has no zero. -/
def cat6Bits (par : Params) : Option Nat := par.cat6p.findIdx? fun p => p == 0

/-! ## The dequantisation factor -/

/-- DQ_DC at scan index 0, DQ_AC thereafter: the test is on the scan index (R222). -/
def dequantFactor (s : State) : Nat := if s.c = 0#11 then s.dqDc else s.dqAc

/-- mag = (VAL * dqv) >> sh: the exact product, then the floor shift (R221, R223). -/
def dequantMag (s : State) : Nat := (s.val * dequantFactor s) >>> dequantShift s.txsize

/-! ## The context arrays -/

/-- Some of the `n` entries from `off` on is not zero (R261); `read` is MemRead of the array. -/
def anySet (read : Nat → BitVec 8) (off n : Nat) : Bool := (List.range n).any fun i => read (off + i) != 0#8

end Sys2Proof.Machine
end

