-- ==== Sys2Proof/Machine/Flags.lean ====
section
/-! DEFINITION. The flags of CORE, which are the fields of STATUS (R32), and the words HOST reads for STATUS and
ERRINFO (R30). No token and no node writes a flag other than as R32 states. -/

namespace Sys2Proof.Machine

/-- OVF is set when the stored value, of `n` = COEF_W bits, differs from the exact one (R223). -/
def overflows (n : Nat) (z : Int) : Bool := wrap n z != z

/-- The 4-bit code of an error (R281). -/
def Err.code : Err → BitVec 4
  | .none => 0#4
  | .bitstreamExhausted => 1#4
  | .outOfRangeProbability => 2#4
  | .malformedCategory6 => 3#4
  | .illegalCommand => 4#4
  | .illegalConfig => 5#4

/-- The 5-bit number of a node (R23). -/
def Node.num : Node → BitVec 5
  | .idle => 0#5
  | .eob => 1#5
  | .zero => 2#5
  | .one => 3#5
  | .lowval => 4#5
  | .two => 5#5
  | .three => 6#5
  | .highlow => 7#5
  | .catone => 8#5
  | .cat34 => 9#5
  | .catthree => 10#5
  | .catfive => 11#5
  | .extra => 12#5
  | .cat6 => 13#5
  | .sign => 14#5
  | .wb => 15#5
  | .entry => 16#5

/-- STATUS: [0] BUSY, [1] DONE, [2] OVF, [3] zero, [7:4] ERR (R30). -/
def statusWord (s : State) : Word :=
  s.err.code.setWidth 32 <<< 4 ||| (BitVec.ofBool s.ovf).setWidth 32 <<< 2
    ||| (BitVec.ofBool s.done).setWidth 32 <<< 1 ||| (BitVec.ofBool s.busy).setWidth 32

/-- ERRINFO: [4:0] ENODE, [15:5] zero, [26:16] EC (R30, R36). -/
def errinfoWord (s : State) : Word := s.ec.setWidth 32 <<< 16 ||| s.enode.num.setWidth 32

end Sys2Proof.Machine
end

