-- ==== Sys2Proof/Machine/Ops.lean ====
section
/-! DEFINITION. The named operations the node and command rules share: the requests to the bit source (R84), the
abort (R286) and the way out of it (R268, R287), finish (R258), the micro-operations BANDSEL, CTXSEL, RESELECT
(R141, R144, R148) and count, countE (R242, R243), the stores to COEF and TOKC, and the advance of C (R224). -/

namespace Sys2Proof.Machine

/-! ## Taking an error, and leaving it -/

/-- `raise E`: CORE's only trap entry (R286). ENODE and EC are saved, ERR set, BUSY and DONE cleared, CORE idle;
everything else stays as it is. -/
def raise (e : Err) (s : State) : State :=
  { s with
    enode := if s.busy then s.node else .idle
    ec := if s.busy then s.c else 0#11
    err := e
    busy := false
    done := false
    node := .idle }

/-- What SOFT_RESET clears (R268, R55); the only way out of the aborted state (R287). Configuration registers, TOKC, every
space and BITSRC are untouched. -/
def clearCore (s : State) : State :=
  { s with
    node := .idle
    c := 0#11
    ctx := 0#3
    band := 0#3
    prow := 0
    tok := .zero
    val := 0
    acc := 0
    xi := 0
    cmdk := 0#1
    busy := false
    done := false
    ovf := false
    err := .none
    eob := 0#11
    enode := .idle
    ec := 0#11 }

/-! ## Requests to the bit source -/

/-- The answer BITSRC will give to the next request: the next of the list, EXHAUSTED past its end (R84, R87). -/
def nextAnswer (s : State) : Answer :=
  match s.answers with
  | a :: _ => a
  | [] => .exhausted

/-- BITSRC has been sent `r` and has answered: one answer is used up (R75, R84). -/
def sent (r : Request) (s : State) : State :=
  { s with requests := r :: s.requests, answers := s.answers.tail }

/-- One request answered `ans`: go on with the bit, or `raise BitstreamExhausted` before anything else of the visit (R86,
R282). -/
def request (r : Request) (ans : Answer) (s : State) (k : Bool → State → Result) : Result :=
  match ans with
  | .bit b => k b (sent r s)
  | .exhausted => .next (raise .bitstreamExhausted (sent r s))

/-- ReadBit(p) (R11, R84). -/
def readBit (p : Prob) (ans : Answer) (s : State) (k : Bool → State → Result) : Result :=
  request (.p p) ans s k

/-- ReadRaw() (R11, R84). -/
def readRaw (ans : Answer) (s : State) (k : Bool → State → Result) : Result := request .raw ans s k

/-! ## Working registers -/

/-- `pc <- N`: the next node visit is of node `n` (R11). -/
def goto (n : Node) (s : State) : State := { s with node := n }

/-- TOK <- k (R26). -/
def setTok (k : Token) (s : State) : State := { s with tok := k }

/-- CTX <- v (R25). -/
def setCtx (v : BitVec 3) (s : State) : State := { s with ctx := v }

/-- C <- C + 1 (R24). -/
def nextIndex (s : State) : State := { s with c := s.c + 1#11 }

/-- The token number and the magnitude are known: TOK and VAL, then the sign (R166, R171, R173). -/
def resolve (k : Token) (m : Nat) (s : State) : State := { s with tok := k, val := m, node := .sign }

/-! ## Finishing a block -/

/-- finish(e) (R258). -/
def finish (e : BitVec 11) (s : State) : State :=
  if s.cmdk = 1#1 then { s with eob := e, node := .wb }
  else { s with eob := e, node := .idle, busy := false, done := true }

/-! ## Counters -/

/-- The counted symbol classes (R244). -/
inductive Sym where
  | zero | one | twoPlus | eobModel
  deriving DecidableEq, Repr

/-- The class number s of R244. -/
def Sym.num : Sym → Nat
  | .zero => 0
  | .one => 1
  | .twoPlus => 2
  | .eobModel => 3

/-- (n + 1) mod 2^CNT_W (R242, R243). -/
def increment (s : State) (n : Count) : Count := (n + 1) % 2 ^ s.par.cntW

/-- The element of CNTC of a class at the current tuple (R79). -/
def classIndex (y : Sym) (s : State) : Nat := rowIndex s * s.par.nsym + y.num

/-- count(s) (R242), gated by CFG.FPAR (R241). -/
def count (y : Sym) (s : State) : State :=
  if s.fpar = 0#1 then
    { s with cntc := Memory.insert s.cntc (classIndex y s) (increment s (cntcAt s (classIndex y s))) }
  else s

/-- countE() (R243), gated by CFG.FPAR (R241). -/
def countE (s : State) : State :=
  if s.fpar = 0#1 then
    { s with cnte := Memory.insert s.cnte (rowIndex s) (increment s (cnteAt s (rowIndex s))) }
  else s

/-! ## Band and context -/

/-- BANDSEL(c) (R141). -/
def bandsel (c : Nat) (s : State) : State := { s with band := bandAt s c }

/-- (a + b + 1) >> 1 (R144). -/
def average (a b : BitVec 3) : BitVec 3 := BitVec.ofNat 3 ((a.toNat + b.toNat + 1) >>> 1)

/-- CTXSEL(c) (R144). -/
def ctxsel (c : Nat) (s : State) : Except Stop State :=
  match neighbourPos s (2 * c), neighbourPos s (2 * c + 1) with
  | .ok n0, .ok n1 => .ok (setCtx (average (tokClass s n0) (tokClass s n1)) s)
  | .error e, _ => .error e
  | .ok _, .error e => .error e

/-- RESELECT() at the already incremented C: CTXSEL, then BANDSEL (R148). -/
def reselect (s : State) : Except Stop State :=
  match ctxsel s.c.toNat s with
  | .ok t => .ok (bandsel s.c.toNat t)
  | .error e => .error e

/-! ## Stores and the advance -/

/-- MemWrite(COEF:pos, 1, v) (R163, R223). -/
def storeCoef (pos : Nat) (v : Coef) (s : State) : State :=
  { s with coef := Memory.insert s.coef pos v }

/-- MemWrite(TOKC:pos, 1, ENERGY[k]) (R163, R224). -/
def storeToken (pos : Nat) (k : Token) (s : State) : State :=
  { s with tokc := Memory.insert s.tokc pos ⟨energyOf s k, s.cmdNo⟩ }

/-- C <- C + 1, then finish(ME) at the end of the block, else RESELECT and the node `n` (R163, R221, R224). -/
def advance (n : Node) (s : State) : Result :=
  if (nextIndex s).c.toNat < me s then need (reselect (nextIndex s)) fun t => .next (goto n t)
  else .next (finish (BitVec.ofNat 11 (me s)) (nextIndex s))

/-- The `n` entries from `off` on all become `f`, in ascending order (R264). -/
def fill (m : List (Nat × BitVec 8)) (off : Nat) (f : BitVec 8) : Nat → List (Nat × BitVec 8)
  | 0 => m
  | n + 1 => Memory.insert (fill m off f n) (off + n) f

end Sys2Proof.Machine
end

