-- ==== Sys2Proof/Machine/Category.lean ====
section
/-! DEFINITION. The category parser: the five selector nodes and the extra-bit readers (42_category.md). The selector order
is fixed (R200). -/

namespace Sys2Proof.Machine

/-- Node N_HIGHLOW (R191). -/
def nodeHighlow (ans : Answer) (s : State) : Result :=
  readBit (parSel s 3) ans s fun b s => .next (goto (if b then .cat34 else .catone) s)

/-- CAT1..CAT5 is resolved: its minimum in VAL, no extra bit read yet (R193, R197, R199). -/
def startExtra (k : Token) (n : Nat) (s : State) : State :=
  { s with tok := k, val := catMin n, xi := 0, node := .extra }

/-- Node N_CATONE (R193). -/
def nodeCatone (ans : Answer) (s : State) : Result :=
  readBit (parSel s 4) ans s fun b s => .next (if b then startExtra .cat2 2 s else startExtra .cat1 1 s)

/-- Node N_CAT34 (R195). -/
def nodeCat34 (ans : Answer) (s : State) : Result :=
  readBit (parSel s 5) ans s fun b s => .next (goto (if b then .catfive else .catthree) s)

/-- Node N_CATTHREE (R197). -/
def nodeCatthree (ans : Answer) (s : State) : Result :=
  readBit (parSel s 6) ans s fun b s => .next (if b then startExtra .cat4 4 s else startExtra .cat3 3 s)

/-- CAT6 is resolved: accumulator and index cleared (R199). -/
def startCat6 (s : State) : State := { s with tok := .cat6, acc := 0, xi := 0, node := .cat6 }

/-- Node N_CATFIVE (R199). -/
def nodeCatfive (ans : Answer) (s : State) : Result :=
  readBit (parSel s 7) ans s fun b s =>
    .next (if b then startCat6 s else startExtra .cat5 5 s)

/-- k = x[TOK] - 4, the category number of N_EXTRA (R203). -/
def category (s : State) : Nat := s.tok.num.val - 4

/-- What one extra bit of CATk does, n = CATBITS[k] (R203). -/
def takeExtra (n : Nat) (b : Bool) (s : State) : State :=
  { s with
    val := s.val + b.toNat <<< (n - 1 - s.xi)
    xi := s.xi + 1
    node := if s.xi + 1 = n then .sign else .extra }

/-- Node N_EXTRA: one extra bit of CAT1..CAT5, the most significant first (R203). -/
def nodeExtra (ans : Answer) (s : State) : Result :=
  need (catpSel s (category s) s.xi) fun p =>
    readBit p ans s fun b s => .next (takeExtra (catBits (category s)) b s)

/-- What one extra bit of CAT6 does (R206). -/
def takeCat6 (b : Bool) (s : State) : State :=
  { s with acc := 2 * s.acc + b.toNat, xi := s.xi + 1, node := .cat6 }

/-- What the terminator of CAT6P does (R206). -/
def endCat6 (s : State) : State := { s with val := catMin 6 + s.acc, node := .sign }

/-- Node N_CAT6: one extra bit of CAT6; or the terminator, which makes no request; or, past the table's last entry,
MalformedCategory6 (R206, R285, R289(c)). -/
def nodeCat6 (ans : Answer) (s : State) : Result :=
  match s.par.cat6p[s.xi]? with
  | none => .next (raise .malformedCategory6 s)
  | some p =>
    if p = 0 then .next (endCat6 s)
    else readBit p ans s fun b s => .next (takeCat6 b s)

/-- The coming visit is one of N_CAT6 that makes no request: the terminator or the cap (R206). -/
def cat6AsksNothing (s : State) : Bool :=
  s.node == .cat6 &&
    match s.par.cat6p[s.xi]? with
    | none => true
    | some p => p == 0

end Sys2Proof.Machine
end

