-- ==== Sys2Proof/Machine/Dequant.lean ====
section
/-! DEFINITION. The dequantisation engine: node N_SIGN, the tail of every non-zero token (43_dequant.md). -/

namespace Sys2Proof.Machine

/-- v: the dequantised magnitude, negated if the sign bit is 1; the sign is applied after the shift (R223). -/
def signedCoef (neg : Bool) (mag : Nat) : Int := if neg then -(mag : Int) else (mag : Int)

/-- STATUS.OVF <- 1 if the value did not fit; OVF is sticky (R32, R223). -/
def noteOverflow (o : Bool) (s : State) : State := { s with ovf := s.ovf || o }

/-- The store of N_SIGN: COEF gets the low COEF_W bits, OVF is set when they are not the value (R223), TOKC gets the token's
energy class (R224). -/
def storeSigned (pos : Nat) (neg : Bool) (s : State) : State :=
  let v := signedCoef neg (dequantMag s)
  storeToken pos s.tok (noteOverflow (overflows s.par.coefW v) (storeCoef pos (wrap s.par.coefW v) s))

/-- Node N_SIGN (R221). -/
def nodeSign (ans : Answer) (s : State) : Result :=
  readRaw ans s fun neg s =>
    need (scanPos s) fun pos => advance .eob (storeSigned pos neg s)

end Sys2Proof.Machine
end

