-- ==== Sys2Proof/Machine/Orchestrator.lean ====
section
/-! DEFINITION. The block orchestrator: the acceptance of a command (R256), the three host commands (R259, R260, R268)
and the nodes N_ENTRY and N_WB of DECODE_BLOCK (R261, R264). -/

namespace Sys2Proof.Machine

/-! ## Commands -/

/-- The order of checks at a CMD write (R256, R289(a)): ignored while BUSY, ignored while ERR is set. -/
def accept (s : State) (k : State → Result) : Result :=
  if s.busy then .next s
  else if s.err ≠ .none then .next s
  else k s

/-- A command starts (R256): STATUS, CMDK and C, and (TXSIZE, PTYPE, PMODE) is presented to SCANPROV (R76). OVF, EOB and
ERRINFO are not changed. `kind` is OPC - 1. -/
def startCommand (kind : BitVec 1) (s : State) : State :=
  { s with
    done := false
    busy := true
    cmdk := kind
    c := 0#11
    scanprov := { s.scanprov with selected := ⟨s.txsize, s.ptype, s.pmode⟩ }
    cmdNo := s.cmdNo + 1 }

/-- The n = 1 << TXSIZE entries from AOFF in CTXA and from LOFF in CTXL exist (R73, R329). -/
def withFootprint (s : State) (k : State → Result) : Result :=
  if s.aoff.toNat + footprint s.txsize ≤ s.par.ctxaLen then
    if s.loff.toNat + footprint s.txsize ≤ s.par.ctxlLen then k s else .refused .footprintLeft
  else .refused .footprintAbove

/-- The launch: `t` is the state of the accepted command. One that breaks an obligation of SCANPROV or HOST has no specified
effect and is refused (R73, R326, R327, R329, D33, 93 U4, U5, U6). -/
def launch (t : State) : Result :=
  if scanOk t then
    if nbOk t then
      if t.cmdk = 1#1 then withFootprint t .next else .next t
    else .refused .neighbourTable
  else .refused .scanTable

/-- DECODE_COEFS accepted: CTX <- ECTX, BANDSEL(0), the walk begins at N_EOB (R149, R256). -/
def startCoefs (s : State) : State :=
  goto .eob (setCtx s.ectx (bandsel 0 (startCommand 0#1 s)))

/-- Command DECODE_COEFS (R256, R259). -/
def execDecodeCoefs (s : State) : Result :=
  accept s fun s => if s.ectx.toNat > 5 then .next (raise .illegalConfig s) else launch (startCoefs s)

/-- DECODE_BLOCK accepted (R256). -/
def startBlock (s : State) : State := goto .entry (startCommand 1#1 s)

/-- Command DECODE_BLOCK (R256, R260). -/
def execDecodeBlock (s : State) : Result :=
  accept s fun s => launch (startBlock s)

/-- Command SOFT_RESET (R268): accepted whenever BUSY = 0, whatever ERR is. -/
def execSoftReset (s : State) : Result := if s.busy then .next s else .next (clearCore s)

/-- A CMD write with a reserved OPC (R112, R284). -/
def reservedCommand (s : State) : Result := accept s fun s => .next (raise .illegalCommand s)

/-! ## The nodes of DECODE_BLOCK -/

/-- ea + el (R261): on how many sides some covered entry is not zero. -/
def entryContext (s : State) : BitVec 3 :=
  BitVec.ofNat 3 ((anySet (ctxaAt s) s.aoff.toNat (footprint s.txsize)).toNat
    + (anySet (ctxlAt s) s.loff.toNat (footprint s.txsize)).toNat)

/-- ECTX <- v (R37, R261). -/
def setEctx (v : BitVec 3) (s : State) : State := { s with ectx := v }

/-- Node N_ENTRY (R261). -/
def nodeEntry (s : State) : Result :=
  withFootprint s fun s =>
    .next (goto .eob (bandsel 0 (setCtx (entryContext s) (setEctx (entryContext s) s))))

/-- f = 1 if EOB > 0 (R264). -/
def nonzeroFlag (s : State) : BitVec 8 := if s.eob.toNat > 0 then 1#8 else 0#8

/-- The write-back of the has-nonzero flag, and the normal end of DECODE_BLOCK (R264). -/
def writeBack (s : State) : State :=
  { s with
    ctxa := fill s.ctxa s.aoff.toNat (nonzeroFlag s) (footprint s.txsize)
    ctxl := fill s.ctxl s.loff.toNat (nonzeroFlag s) (footprint s.txsize)
    node := .idle
    busy := false
    done := true }

/-- Node N_WB (R264). -/
def nodeWb (s : State) : Result := withFootprint s fun s => .next (writeBack s)

end Sys2Proof.Machine
end

