-- ==== Sys2Proof/Machine/Tree.lean ====
section
/-! DEFINITION. The token tree walker: the nodes EOB, ZERO, ONE, LOW_VAL, TWO, THREE (41_token_tree.md). Each node rule
takes the answer BITSRC gives if the visit makes a request. -/

namespace Sys2Proof.Machine

/-- Node N_EOB (R161). -/
def nodeEob (ans : Answer) (s : State) : Result :=
  need (probSel s 0) fun p =>
    readBit p ans s fun b s =>
      if b then .next (goto .zero (countE s))
      else .next (finish s.c (setTok .eob (count .eobModel (countE s))))

/-- What the answer 0 of N_ZERO does: the ZERO token (R163, R164). -/
def zeroToken (s : State) : Result :=
  need (scanPos s) fun pos =>
    advance .zero (setTok .zero (storeToken pos .zero (storeCoef pos 0 (count .zero s))))

/-- Node N_ZERO (R163). -/
def nodeZero (ans : Answer) (s : State) : Result :=
  need (probSel s 1) fun p =>
    readBit p ans s fun b s => if b then .next (goto .one s) else zeroToken s

/-- The pareto row p2 - 1 exists (R168). -/
def paretoRow (s : State) (p2 : Prob) : Bool := p2 != 0 && p2 - 1 < s.par.paretoRows

/-- PROW <- p2 - 1, then N_LOWVAL (R166). -/
def selectRow (p2 : Prob) (s : State) : State := { s with prow := p2 - 1, node := .lowval }

/-- Node N_ONE (R166): the TWO_PLUS count comes before the check of the pareto row, PROW after it. -/
def nodeOne (ans : Answer) (s : State) : Result :=
  need (probSel s 2) fun p2 =>
    readBit p2 ans s fun b s =>
      if b then
        if paretoRow s p2 then .next (selectRow p2 (count .twoPlus s))
        else .next (raise .outOfRangeProbability (count .twoPlus s))
      else .next (resolve .one 1 (count .one s))

/-- Node N_LOWVAL (R169). -/
def nodeLowval (ans : Answer) (s : State) : Result :=
  readBit (parSel s 0) ans s fun b s => .next (goto (if b then .highlow else .two) s)

/-- Node N_TWO (R171). -/
def nodeTwo (ans : Answer) (s : State) : Result :=
  readBit (parSel s 1) ans s fun b s =>
    .next (if b then goto .three s else resolve .two 2 s)

/-- Node N_THREE, with the implicit "4" (R173). -/
def nodeThree (ans : Answer) (s : State) : Result :=
  readBit (parSel s 2) ans s fun b s =>
    .next (if b then resolve .four 4 s else resolve .three 3 s)

end Sys2Proof.Machine
end

