-- ==== Sys2Proof/Machine/Visit.lean ====
section
/-! DEFINITION. One node visit, the step of CORE (R6, R160), and the walk of a decision script (R123). -/

namespace Sys2Proof.Machine

/-- The visit of the node that NODE names (R160), `ans` being BITSRC's answer if the visit makes a request. N_IDLE: CORE
takes no step of its own (R255). -/
def visitWith (ans : Answer) (s : State) : Result :=
  match s.node with
  | .idle => .next s
  | .eob => nodeEob ans s
  | .zero => nodeZero ans s
  | .one => nodeOne ans s
  | .lowval => nodeLowval ans s
  | .two => nodeTwo ans s
  | .three => nodeThree ans s
  | .highlow => nodeHighlow ans s
  | .catone => nodeCatone ans s
  | .cat34 => nodeCat34 ans s
  | .catthree => nodeCatthree ans s
  | .catfive => nodeCatfive ans s
  | .extra => nodeExtra ans s
  | .cat6 => nodeCat6 ans s
  | .sign => nodeSign ans s
  | .wb => nodeWb s
  | .entry => nodeEntry s

/-- One node visit with the answer BITSRC has (R6): the step of CORE. -/
def visit (s : State) : Result := visitWith (nextAnswer s) s

/-- The visit of N_CAT6 that makes no request, where it stands before the next answer (R206 "the terminator visit makes no
request"). -/
def settle (s : State) : Result := if cat6AsksNothing s then nodeCat6 .exhausted s else .next s

/-- Walk a decision script: each item is a node and BITSRC's answer to the request of its visit (R123). The walk goes on
while CORE stands at the node the script names; where it does not (an abort has ended the command, or CORE does not
stand where the token begins) no further visit is made. Log 16. -/
def walk : List (Node × Bool) → State → Result
  | [], s => .next s
  | (n, b) :: rest, s =>
    thenDo (settle s) fun s =>
      if s.node = n then thenDo (visitWith (.bit b) s) (walk rest) else .next s

end Sys2Proof.Machine
end

