-- ==== Sys2Proof/Machine/Tokens.lean ====
section
/-! DEFINITION. The tokens (R162 to R175, R208 to R213): the meaning of a token is its decision script, the nodes and
answers of R114, walked by CORE. The Z-form of a token begins at N_ZERO, the E-form at N_EOB (R113). -/

namespace Sys2Proof.Machine

/-- The extra bits of CAT1..CAT5 as script items. -/
def extraScript {n : Nat} (a : BitVec n) : List (Node × Bool) := (msbFirst a).map fun b => (.extra, b)

/-- The extra bits of CAT6 as script items. -/
def cat6Script (a : List Bool) : List (Node × Bool) := a.map fun b => (.cat6, b)

/-- The script of a token below N_EOB: the Z-form column of R115 with the nodes of R114. -/
def leafScript : Leaf → List (Node × Bool)
  | .zero => [(.zero, false)]
  | .one s => [(.zero, true), (.one, false), (.sign, s)]
  | .two s => [(.zero, true), (.one, true), (.lowval, false), (.two, false), (.sign, s)]
  | .three s => [(.zero, true), (.one, true), (.lowval, false), (.two, true), (.three, false), (.sign, s)]
  | .four s => [(.zero, true), (.one, true), (.lowval, false), (.two, true), (.three, true), (.sign, s)]
  | .cat1 a s =>
    [(.zero, true), (.one, true), (.lowval, true), (.highlow, false), (.catone, false)] ++ extraScript a ++ [(.sign, s)]
  | .cat2 a s =>
    [(.zero, true), (.one, true), (.lowval, true), (.highlow, false), (.catone, true)] ++ extraScript a ++ [(.sign, s)]
  | .cat3 a s =>
    [(.zero, true), (.one, true), (.lowval, true), (.highlow, true), (.cat34, false), (.catthree, false)]
      ++ extraScript a ++ [(.sign, s)]
  | .cat4 a s =>
    [(.zero, true), (.one, true), (.lowval, true), (.highlow, true), (.cat34, false), (.catthree, true)]
      ++ extraScript a ++ [(.sign, s)]
  | .cat5 a s =>
    [(.zero, true), (.one, true), (.lowval, true), (.highlow, true), (.cat34, true), (.catfive, false)]
      ++ extraScript a ++ [(.sign, s)]
  | .cat6 a s =>
    [(.zero, true), (.one, true), (.lowval, true), (.highlow, true), (.cat34, true), (.catfive, true)]
      ++ cat6Script a ++ [(.sign, s)]

/-- A token in Z-form (R115). -/
def execZ (l : Leaf) (s : State) : Result := walk (leafScript l) s

/-- A token other than EOB in E-form: the EOB node answers 1, then the Z-form string (R113, R114). -/
def execE (l : Leaf) (s : State) : Result := walk ((.eob, true) :: leafScript l) s

/-- Token EOB (R162). -/
def execEob (s : State) : Result := walk [(.eob, false)] s

/-- Token ZERO, E-form `10` (R164). -/
def execZero (s : State) : Result := execE .zero s
/-- Token ONE, E-form `110s` (R167). -/
def execOne (neg : Bool) (s : State) : Result := execE (.one neg) s
/-- Token TWO, E-form `11100s` (R172). -/
def execTwo (neg : Bool) (s : State) : Result := execE (.two neg) s
/-- Token THREE, E-form `111010s` (R174). -/
def execThree (neg : Bool) (s : State) : Result := execE (.three neg) s
/-- Token FOUR, E-form `111011s` (R175). -/
def execFour (neg : Bool) (s : State) : Result := execE (.four neg) s
/-- Token CAT1, E-form `111100as` (R208). -/
def execCat1 (a : BitVec 1) (neg : Bool) (s : State) : Result := execE (.cat1 a neg) s
/-- Token CAT2, E-form `111101aas` (R209). -/
def execCat2 (a : BitVec 2) (neg : Bool) (s : State) : Result := execE (.cat2 a neg) s
/-- Token CAT3, E-form `1111100aaas` (R210). -/
def execCat3 (a : BitVec 3) (neg : Bool) (s : State) : Result := execE (.cat3 a neg) s
/-- Token CAT4, E-form `1111101aaaas` (R211). -/
def execCat4 (a : BitVec 4) (neg : Bool) (s : State) : Result := execE (.cat4 a neg) s
/-- Token CAT5, E-form `1111110aaaaas` (R212). -/
def execCat5 (a : BitVec 5) (neg : Bool) (s : State) : Result := execE (.cat5 a neg) s
/-- Token CAT6, E-form `1111111`, the extra bits, `s` (R213). -/
def execCat6 (a : List Bool) (neg : Bool) (s : State) : Result := execE (.cat6 a neg) s

/-- Token ZERO, Z-form `0` (R164). -/
def execZeroZ (s : State) : Result := execZ .zero s
/-- Token ONE, Z-form `10s` (R167). -/
def execOneZ (neg : Bool) (s : State) : Result := execZ (.one neg) s
/-- Token TWO, Z-form `1100s` (R172). -/
def execTwoZ (neg : Bool) (s : State) : Result := execZ (.two neg) s
/-- Token THREE, Z-form `11010s` (R174). -/
def execThreeZ (neg : Bool) (s : State) : Result := execZ (.three neg) s
/-- Token FOUR, Z-form `11011s` (R175). -/
def execFourZ (neg : Bool) (s : State) : Result := execZ (.four neg) s
/-- Token CAT1, Z-form `11100as` (R208). -/
def execCat1Z (a : BitVec 1) (neg : Bool) (s : State) : Result := execZ (.cat1 a neg) s
/-- Token CAT2, Z-form `11101aas` (R209). -/
def execCat2Z (a : BitVec 2) (neg : Bool) (s : State) : Result := execZ (.cat2 a neg) s
/-- Token CAT3, Z-form `111100aaas` (R210). -/
def execCat3Z (a : BitVec 3) (neg : Bool) (s : State) : Result := execZ (.cat3 a neg) s
/-- Token CAT4, Z-form `111101aaaas` (R211). -/
def execCat4Z (a : BitVec 4) (neg : Bool) (s : State) : Result := execZ (.cat4 a neg) s
/-- Token CAT5, Z-form `111110aaaaas` (R212). -/
def execCat5Z (a : BitVec 5) (neg : Bool) (s : State) : Result := execZ (.cat5 a neg) s
/-- Token CAT6, Z-form `111111`, the extra bits, `s` (R213). -/
def execCat6Z (a : List Bool) (neg : Bool) (s : State) : Result := execZ (.cat6 a neg) s

end Sys2Proof.Machine
end

