-- ==== Sys2Proof/Machine/Dispatch.lean ====
section
/-! DEFINITION. exec: one arm per row of the opcode table. -/

namespace Sys2Proof.Machine

def exec (i : Instr) (s : State) : Host.Outcome State Fault Refusal :=
  match i with
  | .decodeCoefs => Sys2Proof.Machine.execDecodeCoefs s
  | .decodeBlock => Sys2Proof.Machine.execDecodeBlock s
  | .softReset => Sys2Proof.Machine.execSoftReset s
  | .eob => Sys2Proof.Machine.execEob s
  | .zero => Sys2Proof.Machine.execZero s
  | .one neg => Sys2Proof.Machine.execOne neg s
  | .two neg => Sys2Proof.Machine.execTwo neg s
  | .three neg => Sys2Proof.Machine.execThree neg s
  | .four neg => Sys2Proof.Machine.execFour neg s
  | .cat1 a neg => Sys2Proof.Machine.execCat1 a neg s
  | .cat2 a neg => Sys2Proof.Machine.execCat2 a neg s
  | .cat3 a neg => Sys2Proof.Machine.execCat3 a neg s
  | .cat4 a neg => Sys2Proof.Machine.execCat4 a neg s
  | .cat5 a neg => Sys2Proof.Machine.execCat5 a neg s
  | .cat6 a neg => Sys2Proof.Machine.execCat6 a neg s
  | .zeroZ => Sys2Proof.Machine.execZeroZ s
  | .oneZ neg => Sys2Proof.Machine.execOneZ neg s
  | .twoZ neg => Sys2Proof.Machine.execTwoZ neg s
  | .threeZ neg => Sys2Proof.Machine.execThreeZ neg s
  | .fourZ neg => Sys2Proof.Machine.execFourZ neg s
  | .cat1Z a neg => Sys2Proof.Machine.execCat1Z a neg s
  | .cat2Z a neg => Sys2Proof.Machine.execCat2Z a neg s
  | .cat3Z a neg => Sys2Proof.Machine.execCat3Z a neg s
  | .cat4Z a neg => Sys2Proof.Machine.execCat4Z a neg s
  | .cat5Z a neg => Sys2Proof.Machine.execCat5Z a neg s
  | .cat6Z a neg => Sys2Proof.Machine.execCat6Z a neg s

end Sys2Proof.Machine
end

