-- ==== Sys2Proof/Machine/HostPort.lean ====
section
/-! DEFINITION. HOST's side: register access (R30, R31, R257), CMD writes (R110, R256), access to the spaces (R70, R90),
the bit source, the hardware reset (R321); and the decoding of the token that BITSRC's coming answers spell. -/

namespace Sys2Proof.Machine

/-! ## Registers -/

/-- The word a read of register `n` returns (R30): bits above a register's width read as zero, CMD and the numbers 0x0E and
above read as zero. -/
def regWord (s : State) (n : Nat) : Word :=
  match n with
  | 0x01 => statusWord s
  | 0x02 => s.eob.setWidth 32
  | 0x03 => errinfoWord s
  | 0x04 => s.fpar.setWidth 32
  | 0x05 => s.txsize.setWidth 32
  | 0x06 => s.ptype.setWidth 32
  | 0x07 => s.ref.setWidth 32
  | 0x08 => BitVec.ofNat 32 s.dqDc
  | 0x09 => BitVec.ofNat 32 s.dqAc
  | 0x0A => s.ectx.setWidth 32
  | 0x0B => s.aoff.setWidth 32
  | 0x0C => s.loff.setWidth 32
  | 0x0D => BitVec.ofNat 32 s.pmode
  | _ => 0#32

/-- A write of a register other than CMD while idle (R30, R31): a RW register takes the low bits of the word, a write of any
other number is ignored. -/
def storeReg (n : Nat) (w : Word) (s : State) : State :=
  match n with
  | 0x04 => { s with fpar := w.setWidth 1 }
  | 0x05 => { s with txsize := w.setWidth 2 }
  | 0x06 => { s with ptype := w.setWidth 1 }
  | 0x07 => { s with ref := w.setWidth 1 }
  | 0x08 => { s with dqDc := w.toNat % 2 ^ s.par.dqW }
  | 0x09 => { s with dqAc := w.toNat % 2 ^ s.par.dqW }
  | 0x0A => { s with ectx := w.setWidth 3 }
  | 0x0B => { s with aoff := w.setWidth 16 }
  | 0x0C => { s with loff := w.setWidth 16 }
  | 0x0D => { s with pmode := w.toNat % 2 ^ s.par.pmodeW }
  | _ => s

/-- A write of word `w` to CMD (R110, R256): the command it decodes to, or a reserved OPC (R112). -/
def command (w : Word) (s : State) : Result :=
  match decodeCmd w with
  | some i => exec i s
  | none => reservedCommand s

/-- A register write of HOST (R31): while BUSY nothing happens, CMD included. -/
def writeReg (n : Nat) (w : Word) (s : State) : Result :=
  if s.busy then .next s
  else if n = 0 then command w s
  else .next (storeReg n w s)

/-! ## Spaces -/

/-- The number of elements of a space (R70, R79). -/
def spaceSize (s : State) : HostSpace → Nat
  | .coef => 1024
  | .ctxa => s.par.ctxaLen
  | .ctxl => s.par.ctxlLen
  | .prob => 1728
  | .cntc => 576 * s.par.nsym
  | .cnte => 576

/-- The element HOST reads, as the number its bits spell: for COEF the COEF_W-bit pattern (log 18). -/
def spaceElem (s : State) (sp : HostSpace) (i : Nat) : Nat :=
  match sp with
  | .coef => (coefAt s i % ((2 ^ s.par.coefW : Nat) : Int)).toNat
  | .ctxa => (ctxaAt s i).toNat
  | .ctxl => (ctxlAt s i).toNat
  | .prob => probAt s i
  | .cntc => cntcAt s i
  | .cnte => cnteAt s i

/-- HOST writes one element, of which the space takes the low bits (log 18). -/
def storeSpace (sp : HostSpace) (i : Nat) (v : Nat) (s : State) : State :=
  match sp with
  | .coef => { s with coef := Memory.insert s.coef i (wrap s.par.coefW v) }
  | .ctxa => { s with ctxa := Memory.insert s.ctxa i (BitVec.ofNat 8 v) }
  | .ctxl => { s with ctxl := Memory.insert s.ctxl i (BitVec.ofNat 8 v) }
  | .prob => { s with prob := Memory.insert s.prob i (v % 2 ^ s.par.probW) }
  | .cntc => { s with cntc := Memory.insert s.cntc i (v % 2 ^ s.par.cntW) }
  | .cnte => { s with cnte := Memory.insert s.cnte i (v % 2 ^ s.par.cntW) }

/-- HOST may touch the spaces and the bit source while BUSY = 0 only (R90). -/
def whileIdle (s : State) (k : State → Result) : Result :=
  if s.busy then .refused .hostAccessWhileBusy else k s

/-- An index within the space's shape (R70, R73). -/
def withinSpace (sp : HostSpace) (i : Nat) (s : State) (k : State → Result) : Result :=
  if i < spaceSize s sp then k s else .refused .hostIndex

/-! ## The hardware reset -/

/-- The hardware reset (R55, R321): every register as after power-on; the running command ends with no completion and no error
code; COEF, TOKC, the counters and BITSRC are left as they are (R321). CTXA, CTXL and PROB, which R55 leaves unspecified,
hold free values anew (R56; log 6, log 12). The parameters, SCANPROV and HOST's pending actions are no state of CORE. -/
def hardwareReset (s : State) : State :=
  { clearCore s with
    fpar := 0#1
    txsize := 0#2
    ptype := 0#1
    ref := 0#1
    dqDc := 0
    dqAc := 0
    ectx := 0#3
    aoff := 0#16
    loff := 0#16
    pmode := 0
    ctxa := []
    ctxl := []
    prob := []
    resetNo := s.resetNo + 1 }

/-- One action of HOST. -/
def hostAct (a : HostAct) (s : State) : Result :=
  match a with
  | .writeReg n w => writeReg n w s
  | .readReg n => .next { s with rdata := (regWord s n).toNat }
  | .writeSpace sp i v =>
    whileIdle s fun s => withinSpace sp i s fun s => .next (storeSpace sp i v s)
  | .readSpace sp i =>
    whileIdle s fun s => withinSpace sp i s fun s => .next { s with rdata := spaceElem s sp i }
  | .bindSource as => whileIdle s fun s => .next { s with answers := as }
  | .hardwareReset => .next (hardwareReset s)

/-- The next step is HOST's: CORE is idle (it takes no step of its own, R255) or the action is due. Log 4. -/
def hostMoves (s : State) (e : HostEvent) : Bool := s.node == .idle || e.wait == 0

/-! ## The coming token -/

/-- The bits among the next `n` answers, up to an EXHAUSTED. -/
def answeredBits : Nat → List Answer → List Bool
  | n + 1, .bit b :: as => b :: answeredBits n as
  | _, _ => []

/-- At most so many answers spell one token: 8 + m with a CAT6 token (R121), 13 without. -/
def longestToken (s : State) : Nat := 13 + (cat6Bits s.par).getD 0

/-- The token that the coming answers spell where a token begins: at N_EOB in E-form, at N_ZERO in Z-form (R113). `none`: CORE
stands inside a token or between blocks, or the source is exhausted inside the token. -/
def fetch (s : State) : Option Instr :=
  match s.node with
  | .eob => (decodeE (cat6Bits s.par) (answeredBits (longestToken s) s.answers)).map Prod.fst
  | .zero => (decodeZ (cat6Bits s.par) (answeredBits (longestToken s) s.answers)).map Prod.fst
  | _ => none

/-- A command DECODE_COEFS has been launched and CORE stands at the node `n` where a token begins. Of what HOST loads before
a command (R322), prob[2] of the current row is loaded, with 1, the least element that selects a pareto row. -/
def placedLaunch (n : Node) (s : State) : State :=
  let t := { startCoefs s with node := n, err := .none }
  { t with prob := Memory.insert t.prob (rowIndex t * 3 + 2) 1 }

/-- The state in which the answers `bs` come next at the node `n` where a token begins, and the next step runs the whole token:
CORE stands at `n` already, or a launched DECODE_COEFS does; no action of HOST is pending. Log 14. -/
def placeToken (n : Node) (bs : List Bool) (s : State) : State :=
  let t := if s.node = n then s else placedLaunch n s
  { t with answers := bs.map .bit ++ t.answers, host := [], tokenSteps := true }

/-- The state in which HOST's next action is the write of `w` to CMD, due at once. -/
def placeCommand (w : Word) (s : State) : State := { s with host := ⟨0, .writeReg 0 w⟩ :: s.host }

/-- The state in which the next step runs the instruction of an opcode table word. -/
def placeWord (s : State) (nbits w : Nat) : State :=
  match decodeTableWord nbits w with
  | none => placeCommand (BitVec.ofNat 32 (w % 2 ^ nbits)) s
  | some i =>
    match i.form with
    | .cmd => placeCommand (BitVec.ofNat 32 (w % 2 ^ nbits)) s
    | .tokenE => placeToken .eob (encodeBits i) s
    | .tokenZ => placeToken .zero (encodeBits i) s

end Sys2Proof.Machine
end

