-- ==== Sys2Proof/Machine/Step.lean ====
section
/-! DEFINITION. One step of the machine, and the placing of one instruction where the next step runs it.
Which agent moves is plain data in State: HOST's pending actions and their waits (log 4). A step of CORE is one node visit
(R6). Only where the model's own switch `tokenSteps` is on, which it is not at reset and which no step writes, and no action of
HOST is pending, does one step run the visits of a whole token (log 1). -/

namespace Sys2Proof.Machine

/-- The step: HOST's action when one is pending and due, else one node visit (R6). With `tokenSteps` on and no action of HOST
pending: the token that the coming answers spell where a token begins, else one node visit. -/
def step (s : State) : Host.Outcome State Fault Refusal :=
  match s.host with
  | e :: rest =>
    if hostMoves s e then hostAct e.act { s with host := rest }
    else visit { s with host := ⟨e.wait - 1, e.act⟩ :: rest }
  | [] =>
    if s.tokenSteps then
      match fetch s with
      | some i => exec i s
      | none => visit s
    else visit s

/-- `s` with one instruction of the opcode table where the next step runs it (log 14). -/
def State.withFetchWord (s : State) (nbits w : Nat) : State := placeWord s nbits w

end Sys2Proof.Machine
end

