-- ==== Sys2Proof/Safety.lean ====
section
/-! DEFINITION. The vocabulary of the statements: reading one element, when a token can run, what a token's row of the
spec's tables says, what a run that meets the obligations looks like, and the invariants. -/

namespace Sys2Proof.Machine

/-! ## One element, one result -/

/-- prob[j] of the current row (R12, R146). -/
def probOf (s : State) (j : Nat) : Prob := probAt s (rowIndex s * 3 + j)

/-- The position of the current scan index, scan[c] (R24). -/
def position (s : State) : Nat := (scanAt s s.c.toNat).toNat

/-- The state of a result that is a next state. -/
def nextState (r : Result) : Option State :=
  match r with
  | .next s => some s
  | .fault _ => none
  | .refused _ => none

/-- `n` node visits, stopping at the first fault or refusal: CORE alone, HOST silent. -/
def runVisits : Nat → State → Result
  | 0, s => .next s
  | n + 1, s => thenDo (visit s) (runVisits n)

/-! ## When a token can run -/

/-- BAND and CTX are inside the shape of PROB (R25, R70). -/
def InRow (s : State) : Prop := s.band.toNat ≤ 5 ∧ s.ctx.toNat ≤ 5

/-- The current scan index is below ME, its position is below ME, and so are the two neighbour positions of the next scan
index, if there is one (R24, R73, R76, R77). -/
def PlaceReady (s : State) : Prop :=
  s.c.toNat < me s ∧ position s < me s ∧
    (s.c.toNat + 1 < me s →
      (nbAt s (2 * (s.c.toNat + 1))).toNat < me s ∧ (nbAt s (2 * (s.c.toNat + 1) + 1)).toNat < me s)

/-- The pareto row prob[2] - 1 exists (R166, R168). -/
def ParetoReady (s : State) : Prop := 1 ≤ probOf s 2 ∧ probOf s 2 - 1 < s.par.paretoRows

/-- The node at which a token of the form begins (R113): `true` is the E-form. -/
def startNode (eForm : Bool) : Node := if eForm then .eob else .zero

/-- The row of the opcode table: the E-form or the Z-form of a token (R114, R115). -/
def rowOf (eForm : Bool) (l : Leaf) : Instr := if eForm then l.eForm else l.zForm

/-! ## What the tables of the spec say of a token -/

/-- The token number (R114). -/
def leafToken : Leaf → Token
  | .zero => .zero
  | .one _ => .one
  | .two _ => .two
  | .three _ => .three
  | .four _ => .four
  | .cat1 _ _ => .cat1
  | .cat2 _ _ => .cat2
  | .cat3 _ _ => .cat3
  | .cat4 _ _ => .cat4
  | .cat5 _ _ => .cat5
  | .cat6 _ _ => .cat6

/-- The magnitude column of R114. -/
def leafMagnitude : Leaf → Nat
  | .zero => 0
  | .one _ => 1
  | .two _ => 2
  | .three _ => 3
  | .four _ => 4
  | .cat1 a _ => 5 + a.toNat
  | .cat2 a _ => 7 + a.toNat
  | .cat3 a _ => 11 + a.toNat
  | .cat4 a _ => 19 + a.toNat
  | .cat5 a _ => 35 + a.toNat
  | .cat6 a _ => 67 + bitsValue a

/-- The sign character (R120); ZERO has none. -/
def leafSign : Leaf → Bool
  | .zero => false
  | .one s | .two s | .three s | .four s => s
  | .cat1 _ s | .cat2 _ s | .cat3 _ s | .cat4 _ s | .cat5 _ s | .cat6 _ s => s

/-- The counted class of a token (R244). -/
def leafClass : Leaf → Sym
  | .zero => .zero
  | .one _ => .one
  | .two _ | .three _ | .four _ => .twoPlus
  | .cat1 _ _ | .cat2 _ _ | .cat3 _ _ | .cat4 _ _ | .cat5 _ _ | .cat6 _ _ => .twoPlus

/-- The token goes past the ONE node: its magnitude is 2 or more (R166). -/
def isLarge (l : Leaf) : Bool := leafClass l == .twoPlus

/-- par[j] of the row that the ONE node selects, prob[2] - 1 (R117). -/
def paretoRequest (s : State) (j : Nat) : Request := .p (Config.pareto (probOf s 2 - 1) j % 2 ^ s.par.probW)

/-- The first `n` extra-bit requests of CATk (R117). -/
def catpRequests (s : State) (k : Fin 5) (n : Nat) : List Request :=
  (List.range n).map fun i => .p ((s.par.catp[k])[i]?.getD 0)

/-- The first `n` extra-bit requests of CAT6 (R117). -/
def cat6Requests (s : State) (n : Nat) : List Request := (s.par.cat6p.take n).map .p

/-- The requests of a token below the EOB node, in order (R117): the p of each character, and RAW for the sign. -/
def leafRequests (s : State) : Leaf → List Request
  | .zero => [.p (probOf s 1)]
  | .one _ => [.p (probOf s 1), .p (probOf s 2), .raw]
  | .two _ => [.p (probOf s 1), .p (probOf s 2), paretoRequest s 0, paretoRequest s 1, .raw]
  | .three _ | .four _ =>
    [.p (probOf s 1), .p (probOf s 2), paretoRequest s 0, paretoRequest s 1, paretoRequest s 2, .raw]
  | .cat1 _ _ =>
    [.p (probOf s 1), .p (probOf s 2), paretoRequest s 0, paretoRequest s 3, paretoRequest s 4]
      ++ catpRequests s 0 1 ++ [.raw]
  | .cat2 _ _ =>
    [.p (probOf s 1), .p (probOf s 2), paretoRequest s 0, paretoRequest s 3, paretoRequest s 4]
      ++ catpRequests s 1 2 ++ [.raw]
  | .cat3 _ _ =>
    [.p (probOf s 1), .p (probOf s 2), paretoRequest s 0, paretoRequest s 3, paretoRequest s 5, paretoRequest s 6]
      ++ catpRequests s 2 3 ++ [.raw]
  | .cat4 _ _ =>
    [.p (probOf s 1), .p (probOf s 2), paretoRequest s 0, paretoRequest s 3, paretoRequest s 5, paretoRequest s 6]
      ++ catpRequests s 3 4 ++ [.raw]
  | .cat5 _ _ =>
    [.p (probOf s 1), .p (probOf s 2), paretoRequest s 0, paretoRequest s 3, paretoRequest s 5, paretoRequest s 7]
      ++ catpRequests s 4 5 ++ [.raw]
  | .cat6 a _ =>
    [.p (probOf s 1), .p (probOf s 2), paretoRequest s 0, paretoRequest s 3, paretoRequest s 5, paretoRequest s 7]
      ++ cat6Requests s a.length ++ [.raw]

/-- The requests of a token in either form (R113): the E-form asks prob[0] first. -/
def rowRequests (eForm : Bool) (s : State) (l : Leaf) : List Request :=
  (if eForm then [.p (probOf s 0)] else []) ++ leafRequests s l

/-- The dequantised value of magnitude `m` before it is stored (R222, R223): the factor of the scan index, the product halved
(rounded down) for the largest transform only, then the sign. -/
def coefValue (s : State) (m : Nat) (neg : Bool) : Int :=
  let factor := if s.c.toNat = 0 then s.dqDc else s.dqAc
  let mag := if s.txsize = 3#2 then m * factor / 2 else m * factor
  if neg then -(mag : Int) else mag

/-- PROW, XI and ACC after a token: the nodes that write them are those of R166, R193 to R206; the rest leave them over from
the previous token (R27). -/
def leafProw (s : State) (l : Leaf) : Nat := if isLarge l then probOf s 2 - 1 else s.prow

/-- XI after a token: the number of extra bits read, for a category token (R27). -/
def leafXi (s : State) : Leaf → Nat
  | .zero | .one _ | .two _ | .three _ | .four _ => s.xi
  | .cat1 _ _ => 1
  | .cat2 _ _ => 2
  | .cat3 _ _ => 3
  | .cat4 _ _ => 4
  | .cat5 _ _ => 5
  | .cat6 a _ => a.length

/-- ACC after a token: the accumulated extra bits, for CAT6 (R27). -/
def leafAcc (s : State) : Leaf → Nat
  | .cat6 a _ => bitsValue a
  | .zero | .one _ | .two _ | .three _ | .four _ => s.acc
  | .cat1 _ _ | .cat2 _ _ | .cat3 _ _ | .cat4 _ _ | .cat5 _ _ => s.acc

/-! ## What running a token leaves -/

/-- `t` with the fields a token may write put back to those of `s`: equal to `s` when nothing else was written. -/
def putBack (s t : State) : State :=
  { t with
    node := s.node, c := s.c, ctx := s.ctx, band := s.band, prow := s.prow, tok := s.tok, val := s.val, acc := s.acc,
    xi := s.xi, busy := s.busy, done := s.done, ovf := s.ovf, eob := s.eob, tokc := s.tokc, coef := s.coef,
    cntc := s.cntc, cnte := s.cnte, answers := s.answers, requests := s.requests }

/-- What ends or continues the block after the token of scan index c (R224, R258): the next scan index with its band and
context and the node `n`, or finish(ME). -/
def AfterToken (n : Node) (s t : State) : Prop :=
  t.c.toNat = s.c.toNat + 1 ∧
  if s.c.toNat + 1 < me s then
    t.node = n ∧ t.busy = s.busy ∧ t.done = s.done ∧ t.eob = s.eob ∧ t.band = bandAt s (s.c.toNat + 1) ∧
    t.ctx.toNat =
      ((tokClass t (nbAt s (2 * (s.c.toNat + 1))).toNat).toNat
        + (tokClass t (nbAt s (2 * (s.c.toNat + 1) + 1)).toNat).toNat + 1) / 2
  else
    t.eob.toNat = me s ∧ t.band = s.band ∧ t.ctx = s.ctx ∧
    if s.cmdk = 1#1 then t.node = .wb ∧ t.busy = s.busy ∧ t.done = s.done
    else t.node = .idle ∧ t.busy = false ∧ t.done = true

/-- What running the token `l` does (R164, R167, R172 to R175, R208 to R213 with R117, R221 to R224, R242 to R245): the store
of the dequantised coefficient and of the energy class at scan[c] and nowhere else, OVF, the counts, the requests sent
and the answers used up, the advance; and that nothing else changes. -/
structure TokenDone (eForm : Bool) (l : Leaf) (s t : State) : Prop where
  coef : ∀ p, coefAt t p =
    if p = position s then wrap s.par.coefW (coefValue s (leafMagnitude l) (leafSign l)) else coefAt s p
  token : ∀ p, tokClass t p = if p = position s then energyOf s (leafToken l) else tokClass s p
  overflow : t.ovf = (s.ovf ||
    decide (wrap s.par.coefW (coefValue s (leafMagnitude l) (leafSign l)) ≠ coefValue s (leafMagnitude l) (leafSign l)))
  classCount : ∀ i, cntcAt t i =
    if s.fpar = 0#1 ∧ i = rowIndex s * s.par.nsym + (leafClass l).num then (cntcAt s i + 1) % 2 ^ s.par.cntW else cntcAt s i
  eobCount : ∀ i, cnteAt t i = if eForm = true ∧ s.fpar = 0#1 ∧ i = rowIndex s then (cnteAt s i + 1) % 2 ^ s.par.cntW else cnteAt s i
  requests : t.requests = (rowRequests eForm s l).reverse ++ s.requests
  answers : t.answers = s.answers.drop (rowRequests eForm s l).length
  tok : t.tok = leafToken l
  magnitude : t.val = if l = .zero then s.val else leafMagnitude l
  prow : t.prow = leafProw s l
  xi : t.xi = leafXi s l
  acc : t.acc = leafAcc s l
  after : AfterToken (if l = .zero then .zero else .eob) s t
  frame : putBack s t = s

/-- The row of the table completes: exec answers a next state, and that state is what the rules say. -/
def Completes (eForm : Bool) (l : Leaf) (s : State) : Prop :=
  ∃ t, exec (rowOf eForm l) s = .next t ∧ TokenDone eForm l s t

/-- What an abort with error `e` at node `n` leaves, after `k` more requests `reqs` of the command (R286): ENODE and EC, the
STATUS fields, CORE idle; the counts made before the raise; everything else as it was. -/
structure Aborted (e : Err) (n : Node) (s t : State) : Prop where
  err : t.err = e
  enode : t.enode = n
  ec : t.ec = s.c
  status : t.busy = false ∧ t.done = false
  node : t.node = .idle
  coef : t.coef = s.coef
  tokc : t.tokc = s.tokc
  contexts : t.ctxa = s.ctxa ∧ t.ctxl = s.ctxl
  eob : t.eob = s.eob
  c : t.c = s.c

/-! ## Requests of a visit -/

/-- The request the coming visit makes (R23, R117); `none` where it makes none: N_IDLE, N_ENTRY, N_WB, the terminator and the
cap of N_CAT6 (R282). -/
def visitRequest (s : State) : Option Request :=
  match s.node with
  | .idle | .wb | .entry => none
  | .eob => some (.p (probOf s 0))
  | .zero => some (.p (probOf s 1))
  | .one => some (.p (probOf s 2))
  | .lowval => some (.p (Config.pareto s.prow 0 % 2 ^ s.par.probW))
  | .two => some (.p (Config.pareto s.prow 1 % 2 ^ s.par.probW))
  | .three => some (.p (Config.pareto s.prow 2 % 2 ^ s.par.probW))
  | .highlow => some (.p (Config.pareto s.prow 3 % 2 ^ s.par.probW))
  | .catone => some (.p (Config.pareto s.prow 4 % 2 ^ s.par.probW))
  | .cat34 => some (.p (Config.pareto s.prow 5 % 2 ^ s.par.probW))
  | .catthree => some (.p (Config.pareto s.prow 6 % 2 ^ s.par.probW))
  | .catfive => some (.p (Config.pareto s.prow 7 % 2 ^ s.par.probW))
  | .extra =>
    match catpSel s (category s) s.xi with
    | .ok p => some (.p p)
    | .error _ => none
  | .cat6 =>
    match s.par.cat6p[s.xi]? with
    | some p => if p = 0 then none else some (.p p)
    | none => none
  | .sign => some .raw

/-! ## Invariants of every state a step can reach -/

/-- The nodes 1 to 14: the visits that decode a token (R24). -/
def walking (n : Node) : Bool :=
  match n with
  | .idle | .wb | .entry => false
  | .eob | .zero | .one | .lowval | .two | .three | .highlow | .catone | .cat34 | .catthree | .catfive => true
  | .extra | .cat6 | .sign => true

/-- The nodes that use PROW (R21). -/
def usesRow (n : Node) : Bool :=
  match n with
  | .lowval | .two | .three | .highlow | .catone | .cat34 | .catthree | .catfive => true
  | .idle | .eob | .zero | .one | .extra | .cat6 | .sign | .wb | .entry => false

/-- The magnitudes of a token number (R26, R27). -/
def MagnitudeOf (par : Params) (k : Token) (m : Nat) : Prop :=
  match k with
  | .zero | .eob => False
  | .one => m = 1
  | .two => m = 2
  | .three => m = 3
  | .four => m = 4
  | .cat1 => 5 ≤ m ∧ m ≤ 6
  | .cat2 => 7 ≤ m ∧ m ≤ 10
  | .cat3 => 11 ≤ m ∧ m ≤ 18
  | .cat4 => 19 ≤ m ∧ m ≤ 34
  | .cat5 => 35 ≤ m ∧ m ≤ 66
  | .cat6 => 67 ≤ m ∧ m ≤ 67 + 2 ^ (par.cat6p.length - 1) - 1

/-- Every index listed is below `n`. -/
def Below {α : Type} (n : Nat) (m : List (Nat × α)) : Prop := ∀ e ∈ m, e.1 < n

/-- Every number listed is below `n`. -/
def Fits (n : Nat) (m : List (Nat × Nat)) : Prop := ∀ e ∈ m, e.2 < n

/-- The parameters that an implementation can have (R8, R30, R70): a coefficient has at least one bit, the classes of
R244 have counters of their own, DQ_DC, DQ_AC and PMODE lie in a 32-bit register, and the elements of the
probability tables have PROB_W bits. -/
structure ParamsLegal (par : Params) : Prop where
  coefW : 1 ≤ par.coefW
  nsym : 4 ≤ par.nsym
  dqW : par.dqW ≤ 32
  pmodeW : par.pmodeW ≤ 32
  catp : ∀ row ∈ par.catp.toList, ∀ p ∈ row.toList, p < 2 ^ par.probW
  cat6p : ∀ p ∈ par.cat6p, p < 2 ^ par.probW

/-- SCANPROV's obligation on SCAN: the elements are a permutation of 0..ME-1 (R326). -/
def ScanLegal (s : State) : Prop :=
  (∀ c < me s, (scanAt s c).toNat < me s) ∧ ∀ i < me s, ∀ j < me s, scanAt s i = scanAt s j → i = j

/-- SCANPROV's obligation on NB: both neighbours of scan index c are positions scan[j] with j < c (R327). -/
def NbLegal (s : State) : Prop :=
  ∀ c, 1 ≤ c → c < me s →
    (∃ j < c, nbAt s (2 * c) = scanAt s j) ∧ (∃ j < c, nbAt s (2 * c + 1) = scanAt s j)

/-- HOST's obligation on the footprint of DECODE_BLOCK (R329). -/
def FootprintLegal (s : State) : Prop :=
  s.aoff.toNat + 2 ^ s.txsize.toNat ≤ s.par.ctxaLen ∧ s.loff.toNat + 2 ^ s.txsize.toNat ≤ s.par.ctxlLen

/-- `s` with the table selected that a command started now selects (R76). -/
def presented (s : State) : State :=
  { s with scanprov := { s.scanprov with selected := ⟨s.txsize, s.ptype, s.pmode⟩ } }

/-- The invariant of the machine: what the rules say holds in every reachable state, for every contents of the
tables, every answer of the bit source and every action of HOST. -/
structure Lawful (s : State) : Prop where
  /-- R8: no step writes the parameters -/
  par : ParamsLegal s.par
  /-- R255: N_IDLE if and only if BUSY = 0 -/
  idle_iff : s.node = .idle ↔ s.busy = false
  /-- R32: exactly one of the four STATUS states -/
  status : (s.busy = true → s.done = false ∧ s.err = .none) ∧ (s.done = true → s.err = .none)
  /-- R24 -/
  c_le : s.c.toNat ≤ 1024 ∧ (s.busy = true → s.c.toNat ≤ me s)
  /-- R24: C < ME at the start of every visit of nodes 1 to 14 -/
  c_lt : walking s.node = true → s.c.toNat < me s
  /-- R261: N_ENTRY is visited at scan index 0, of DECODE_BLOCK -/
  entry : s.node = .entry → s.c = 0#11 ∧ s.cmdk = 1#1
  /-- R258, R264: N_WB is visited at the end of DECODE_BLOCK -/
  wb : s.node = .wb → s.cmdk = 1#1
  /-- R35: EOB is in 0..1024 -/
  eob_le : s.eob.toNat ≤ 1024
  /-- R21: PROW is in 0..PARETO_ROWS-1 where it is used -/
  row : usesRow s.node = true → s.prow < s.par.paretoRows
  /-- R203: 0 <= i < n, and VAL is CATMIN[k] plus the extra bits read so far -/
  extra : s.node = .extra → 1 ≤ category s ∧ category s ≤ 5 ∧ s.xi < category s ∧
    ∃ read < 2 ^ s.xi, s.val = catMin (category s) + read * 2 ^ (category s - s.xi)
  /-- R206: XI <= CAT6_LEN, ACC below 2^XI -/
  cat6 : s.node = .cat6 → s.tok = .cat6 ∧ s.xi ≤ s.par.cat6p.length ∧ s.acc < 2 ^ s.xi
  /-- R220, R221: at N_SIGN TOK and VAL are a non-zero token and one of its magnitudes -/
  sign : s.node = .sign → MagnitudeOf s.par s.tok s.val
  /-- R326, R327, R329, D33: a running command was launched with tables and a footprint that meet the obligations -/
  launched : s.busy = true → ScanLegal s ∧ NbLegal s ∧ (s.cmdk = 1#1 → FootprintLegal s)
  /-- R30, R34: the registers whose width is a parameter -/
  registers : s.dqDc < 2 ^ s.par.dqW ∧ s.dqAc < 2 ^ s.par.dqW ∧ s.pmode < 2 ^ s.par.pmodeW
  /-- the canonical form of every space, its shape and the width of its elements (R70) -/
  coef_wf : Memory.wf s.coef ∧ Below 1024 s.coef ∧
    ∀ e ∈ s.coef, -((2 ^ (s.par.coefW - 1) : Nat) : Int) ≤ e.2 ∧ e.2 < ((2 ^ (s.par.coefW - 1) : Nat) : Int)
  tokc_wf : Memory.wf s.tokc ∧ Below 1024 s.tokc
  ctxa_wf : Memory.wf s.ctxa ∧ Below s.par.ctxaLen s.ctxa
  ctxl_wf : Memory.wf s.ctxl ∧ Below s.par.ctxlLen s.ctxl
  prob_wf : Memory.wf s.prob ∧ Below 1728 s.prob ∧ Fits (2 ^ s.par.probW) s.prob
  cntc_wf : Memory.wf s.cntc ∧ Below (576 * s.par.nsym) s.cntc ∧ Fits (2 ^ s.par.cntW) s.cntc
  cnte_wf : Memory.wf s.cnte ∧ Below 576 s.cnte ∧ Fits (2 ^ s.par.cntW) s.cnte

/-! ## Runs that meet the obligations on the fixed tables -/

/-- The obligation on the fixed tables that a running command uses (R330): bands and energy classes are in 0..5. -/
structure Obliged (s : State) : Prop where
  bands : ∀ c < me s, (bandAt s c).toNat ≤ 5
  energies : ∀ k, (energyOf s k).toNat ≤ 5

/-- A state of a run in which the obligations hold (those of SCANPROV and HOST are in `Lawful.launched`): BAND and CTX are in
0..5 while a token is decoded (R25, R147), and TOKC holds a class in 0..5, written by the running command, at the
position of every scan index below C (R46, R327). -/
structure Decoding (s : State) : Prop where
  lawful : Lawful s
  obliged : Obliged s
  inRow : walking s.node = true → InRow s
  written : walking s.node = true → ∀ j < s.c.toNat,
    ∃ e, Memory.lookup s.tokc (scanAt s j).toNat = some e ∧ e.cmd = s.cmdNo ∧ e.cls.toNat ≤ 5

/-- Node visits of the longest token: CAT6 in E-form (R341), but for a CAT6P shorter than 5 CAT5, which makes 13 (log 20). -/
def tokenVisits (s : State) : Nat := max (s.par.cat6p.length + 8) 13

/-- Requests of the longest token: CAT6 in E-form (R341), but for a CAT6P shorter than 6 CAT5, which makes 13 (log 20). -/
def tokenRequests (s : State) : Nat := max (s.par.cat6p.length + 7) 13

/-- The writes to COEF of the coming visit, and its writes to TOKC: one of each at N_ZERO answered 0 and at N_SIGN answered a
bit (R163, R223, R224). -/
def visitStores (s : State) : Nat :=
  match s.node, nextAnswer s with
  | .zero, .bit false | .sign, .bit _ => 1
  | _, _ => 0

/-- The element of CNTC that the coming visit increments (R244): a class of the current tuple, with FPAR = 0. -/
def visitClassCount (s : State) : Option Nat :=
  if s.fpar = 0#1 then
    match s.node, nextAnswer s with
    | .eob, .bit false => some (classIndex .eobModel s)
    | .zero, .bit false => some (classIndex .zero s)
    | .one, .bit false => some (classIndex .one s)
    | .one, .bit true => some (classIndex .twoPlus s)
    | _, _ => none
  else none

/-- The element of CNTE that the coming visit increments (R243): the current tuple, at N_EOB answered a bit, with FPAR = 0. -/
def visitEobCount (s : State) : Option Nat :=
  if s.fpar = 0#1 then
    match s.node, nextAnswer s with
    | .eob, .bit _ => some (rowIndex s)
    | _, _ => none
  else none

/-- The counter increments of the coming visit. -/
def visitIncrements (s : State) : Nat := (visitClassCount s).toList.length + (visitEobCount s).toList.length

/-- The sum of `f` over the next `n` visits of a run of CORE alone. -/
def runTotal (f : State → Nat) : Nat → State → Nat
  | 0, _ => 0
  | n + 1, s => f s + match nextState (visit s) with
    | some t => runTotal f n t
    | none => 0

/-- A bound on the node visits a running command still makes (R341, R342): whole scan indices, the rest of the current
token, and the write-back. -/
def visitsLeft (s : State) : Nat :=
  match s.node with
  | .idle => 0
  | .wb => 1
  | .entry => me s * tokenVisits s + 2
  | .eob => (me s - s.c.toNat - 1) * tokenVisits s + tokenVisits s + 1
  | .zero => (me s - s.c.toNat - 1) * tokenVisits s + (tokenVisits s - 1) + 1
  | .one => (me s - s.c.toNat - 1) * tokenVisits s + (tokenVisits s - 2) + 1
  | .lowval => (me s - s.c.toNat - 1) * tokenVisits s + (tokenVisits s - 3) + 1
  | .highlow => (me s - s.c.toNat - 1) * tokenVisits s + (tokenVisits s - 4) + 1
  | .cat34 => (me s - s.c.toNat - 1) * tokenVisits s + (tokenVisits s - 5) + 1
  | .catfive => (me s - s.c.toNat - 1) * tokenVisits s + (tokenVisits s - 6) + 1
  | .two => (me s - s.c.toNat - 1) * tokenVisits s + 3 + 1
  | .three => (me s - s.c.toNat - 1) * tokenVisits s + 2 + 1
  | .catone => (me s - s.c.toNat - 1) * tokenVisits s + 4 + 1
  | .catthree => (me s - s.c.toNat - 1) * tokenVisits s + 6 + 1
  | .extra => (me s - s.c.toNat - 1) * tokenVisits s + (category s - s.xi + 1) + 1
  | .cat6 => (me s - s.c.toNat - 1) * tokenVisits s + (s.par.cat6p.length + 1 - s.xi) + 1
  | .sign => (me s - s.c.toNat - 1) * tokenVisits s + 1 + 1

/-! ## Views that hide part of the state -/

/-- The state without FPAR and the counters (R241). -/
def hideCounts (s : State) : State := { s with fpar := 0#1, cntc := [], cnte := [] }

/-- The state without the answers still to come (R289). -/
def hideAnswers (s : State) : State := { s with answers := [] }

/-- Two results are the same as far as a view shows. -/
def SameResult (view : State → State) (a b : Result) : Prop :=
  match a, b with
  | .next s, .next t => view s = view t
  | .fault e, .fault f => e = f
  | .refused e, .refused f => e = f
  | _, _ => False

/-! ## HOST's registers -/

/-- The width of a RW register (R30). -/
def regWidth (par : Params) : Nat → Nat
  | 0x04 => 1
  | 0x05 => 2
  | 0x06 => 1
  | 0x07 => 1
  | 0x08 => par.dqW
  | 0x09 => par.dqW
  | 0x0A => 3
  | 0x0B => 16
  | 0x0C => 16
  | 0x0D => par.pmodeW
  | _ => 0

/-- `t` with the control registers put back to those of `s`: equal to `s` when nothing else was written. -/
def putBackControl (s t : State) : State :=
  { t with
    fpar := s.fpar, txsize := s.txsize, ptype := s.ptype, ref := s.ref, dqDc := s.dqDc, dqAc := s.dqAc,
    ectx := s.ectx, aoff := s.aoff, loff := s.loff, pmode := s.pmode }

/-- The width of a space's element (R70). -/
def spaceWidth (par : Params) : HostSpace → Nat
  | .coef => par.coefW
  | .ctxa | .ctxl => 8
  | .prob => par.probW
  | .cntc | .cnte => par.cntW

/-- `t` with the spaces HOST may write put back to those of `s`. -/
def putBackSpaces (s t : State) : State :=
  { t with coef := s.coef, ctxa := s.ctxa, ctxl := s.ctxl, prob := s.prob, cntc := s.cntc, cnte := s.cnte }

end Sys2Proof.Machine
end

