-- ==== Sys2Proof/Certificates/Slice0/Obligations.lean ====
section
/-! DEFINITION. The statements for the provers. Each docstring names the rule it formalises, or the log entry it rests on. -/

open Sys2Proof Sys2Proof.Machine

/-! ## Reset and the host's side -/

/-- R55, R320: after a hardware reset every working, status and control register is zero and CORE is idle. -/
def Obligations.ResetLeavesRegistersZeroAndIdle : Prop :=
  State.reset.node = .idle ∧ State.reset.c = 0#11 ∧ State.reset.ctx = 0#3 ∧ State.reset.band = 0#3 ∧
  State.reset.prow = 0 ∧ State.reset.tok.num = 0 ∧ State.reset.val = 0 ∧ State.reset.acc = 0 ∧
  State.reset.xi = 0 ∧ State.reset.cmdk = 0#1 ∧ ∀ n, regWord State.reset n = 0#32

/-- The invariant holds after reset. -/
def Obligations.ResetMeetsInvariant : Prop := Lawful State.reset

/-- R321, R55: a hardware reset at any moment leaves the registers as after power-on, and the parameters, COEF, TOKC, the
counters and BITSRC as they were. (CTXA, CTXL and PROB, which R55 leaves unspecified, list nothing after it and read as free
values, log 6 and log 12: nothing is stated of them.) -/
def Obligations.HardwareResetEndsTheCommand : Prop :=
  ∀ s, ∃ t, hostAct .hardwareReset s = .next t ∧
    t.node = .idle ∧ t.c = 0#11 ∧ t.ctx = 0#3 ∧ t.band = 0#3 ∧ t.prow = 0 ∧ t.tok.num = 0 ∧ t.val = 0 ∧
    t.acc = 0 ∧ t.xi = 0 ∧ t.cmdk = 0#1 ∧ (∀ n, regWord t n = 0#32) ∧
    t.coef = s.coef ∧ t.tokc = s.tokc ∧ t.cntc = s.cntc ∧ t.cnte = s.cnte ∧ t.answers = s.answers ∧
    t.requests = s.requests ∧ t.par = s.par ∧ t.scanprov = s.scanprov

/-- R30, R31: while idle a write of a RW register stores the low bits of the word up to the register's width, never raises,
and changes nothing else; it reads back so. CMD, EOB, STATUS, ERRINFO and the numbers from 0x0E on are not RW: a
write of one of the last three or of a number from 0x0E on changes nothing. -/
def Obligations.RegisterWritesStoreLowBits : Prop :=
  ∀ s w, s.busy = false →
    (∀ n, 4 ≤ n → n ≤ 13 → ∃ t, hostAct (.writeReg n w) s = .next t ∧
      (regWord t n).toNat = w.toNat % 2 ^ regWidth s.par n ∧
      (∀ m, m ≠ n → regWord t m = regWord s m) ∧ putBackControl s t = s) ∧
    (∀ n, 1 ≤ n → n ≤ 3 ∨ 14 ≤ n → hostAct (.writeReg n w) s = .next s)

/-- R31: while BUSY = 1 a register write changes nothing, whatever the register, CMD included. -/
def Obligations.BusyIgnoresRegisterWrites : Prop :=
  ∀ s n w, s.busy = true → hostAct (.writeReg n w) s = .next s

/-- R30, R31: a read is always performed, returns the current value and changes nothing else. What each register of the map
reads as: STATUS and ERRINFO have the fields of R30; EOB and the ten RW registers are the field of their name; CMD
and the numbers from 0x0E on read as zero. (A register whose width is a parameter, R8, is read through the 32 bits of
its word, R30.) -/
def Obligations.RegisterReadsReturnTheFields : Prop :=
  ∀ s, (∀ n, hostAct (.readReg n) s = .next { s with rdata := (regWord s n).toNat }) ∧
    regWord s 0x00 = 0#32 ∧
    (regWord s 0x01).toNat = s.busy.toNat + 2 * s.done.toNat + 4 * s.ovf.toNat + 16 * s.err.code.toNat ∧
    (regWord s 0x02).toNat = s.eob.toNat ∧
    (regWord s 0x03).toNat = s.enode.num.toNat + 65536 * s.ec.toNat ∧
    (regWord s 0x04).toNat = s.fpar.toNat ∧
    (regWord s 0x05).toNat = s.txsize.toNat ∧
    (regWord s 0x06).toNat = s.ptype.toNat ∧
    (regWord s 0x07).toNat = s.ref.toNat ∧
    (regWord s 0x08).toNat = s.dqDc % 2 ^ 32 ∧
    (regWord s 0x09).toNat = s.dqAc % 2 ^ 32 ∧
    (regWord s 0x0A).toNat = s.ectx.toNat ∧
    (regWord s 0x0B).toNat = s.aoff.toNat ∧
    (regWord s 0x0C).toNat = s.loff.toNat ∧
    (regWord s 0x0D).toNat = s.pmode % 2 ^ 32 ∧
    (∀ n, 0x0E ≤ n → regWord s n = 0#32) ∧
    (Lawful s → s.dqDc < 2 ^ 32 ∧ s.dqAc < 2 ^ 32 ∧ s.pmode < 2 ^ 32)

/-- R256, R112, R284, R287 and the order of R289(a): what a write of `w` to CMD does, by OPC = bits[7:0] of `w`. -/
def Obligations.CommandWritesFollowTheOrderOfChecks : Prop :=
  ∀ s w, let opc := w.toNat % 256
    (s.busy = true → hostAct (.writeReg 0 w) s = .next s) ∧
    (s.busy = false → opc = 3 → hostAct (.writeReg 0 w) s = exec .softReset s) ∧
    (s.busy = false → opc ≠ 3 → s.err ≠ .none → hostAct (.writeReg 0 w) s = .next s) ∧
    (s.busy = false → s.err = .none → opc ≠ 1 → opc ≠ 2 → opc ≠ 3 →
      hostAct (.writeReg 0 w) s =
        .next { s with err := .illegalCommand, done := false, enode := .idle, ec := 0#11, node := .idle }) ∧
    (s.busy = false → s.err = .none → opc = 1 → hostAct (.writeReg 0 w) s = exec .decodeCoefs s) ∧
    (s.busy = false → s.err = .none → opc = 2 → hostAct (.writeReg 0 w) s = exec .decodeBlock s)

/-- R259, R256, R149: DECODE_COEFS with ECTX in 0..5, while idle with no error, where SCANPROV has met its obligations (R326,
R327, D33: "a model refuses launches that break them"), starts at N_EOB with C = 0, CTX = ECTX and BAND = BANDT[t][0]; OVF,
EOB, ERRINFO, every control register and every space are unchanged. The first access of TOKC sees a new command (cmdNo,
log 7). -/
def Obligations.DecodeCoefsStartsTheWalk : Prop :=
  ∀ s, s.busy = false → s.err = .none → s.ectx.toNat ≤ 5 → ScanLegal (presented s) → NbLegal (presented s) →
    exec .decodeCoefs s = .next { s with
      done := false, busy := true, cmdk := 0#1, c := 0#11, ctx := s.ectx, band := bandAt s 0, node := .eob,
      scanprov := { s.scanprov with selected := ⟨s.txsize, s.ptype, s.pmode⟩ }, cmdNo := s.cmdNo + 1 }

/-- R284: DECODE_COEFS with ECTX above 5, while idle with no error, raises IllegalConfig: ERR, DONE and ERRINFO, nothing else. -/
def Obligations.DecodeCoefsRejectsABadEntryContext : Prop :=
  ∀ s, s.busy = false → s.node = .idle → s.err = .none → 5 < s.ectx.toNat →
    exec .decodeCoefs s = .next { s with err := .illegalConfig, done := false, enode := .idle, ec := 0#11 }

/-- R260, R256: DECODE_BLOCK, while idle with no error, where SCANPROV and HOST have met their obligations (R326, R327, R329, D33),
starts at N_ENTRY with C = 0, whatever ECTX holds. -/
def Obligations.DecodeBlockStartsAtEntry : Prop :=
  ∀ s, s.busy = false → s.err = .none → ScanLegal (presented s) → NbLegal (presented s) → FootprintLegal s →
    exec .decodeBlock s = .next { s with
      done := false, busy := true, cmdk := 1#1, c := 0#11, node := .entry,
      scanprov := { s.scanprov with selected := ⟨s.txsize, s.ptype, s.pmode⟩ }, cmdNo := s.cmdNo + 1 }

/-- R268: SOFT_RESET while idle, whatever ERR is, clears the working registers, STATUS, EOB and ERRINFO; the configuration
registers, ECTX, TOKC, every space and BITSRC are unchanged. While BUSY it is ignored. -/
def Obligations.SoftResetClearsTheErrorState : Prop :=
  (∀ s, s.busy = false → exec .softReset s = .next { s with
      node := .idle, c := 0#11, ctx := 0#3, band := 0#3, prow := 0, tok := .zero, val := 0, acc := 0, xi := 0,
      cmdk := 0#1, done := false, ovf := false, err := .none, eob := 0#11, enode := .idle, ec := 0#11 }) ∧
  (∀ s, s.busy = true → exec .softReset s = .next s)

/-- R90: while idle HOST writes one element of a space: it reads back as the low bits of the number written, as many as the
element has (R70), every other element of every space reads as before, and nothing else changes. (The low bits: log 18.) -/
def Obligations.HostSpaceWritesChangeOneElement : Prop :=
  ∀ s sp i v, s.busy = false → i < spaceSize s sp →
    ∃ t, hostAct (.writeSpace sp i v) s = .next t ∧
      spaceElem t sp i = v % 2 ^ spaceWidth s.par sp ∧
      (∀ sq j, (sq ≠ sp ∨ j ≠ i) → spaceElem t sq j = spaceElem s sq j) ∧ putBackSpaces s t = s

/-- R90, 93 U8: an access of HOST to a space or to the bit source while BUSY = 1 is refused. -/
def Obligations.HostSpaceAccessWhileBusyIsRefused : Prop :=
  ∀ s, s.busy = true →
    (∀ sp i v, hostAct (.writeSpace sp i v) s = .refused .hostAccessWhileBusy) ∧
    (∀ sp i, hostAct (.readSpace sp i) s = .refused .hostAccessWhileBusy) ∧
    (∀ as, hostAct (.bindSource as) s = .refused .hostAccessWhileBusy)

/-- R90, R70: while idle HOST reads one element of a space, zero-extended (log 18), and gives the bit source its answers (log 2);
nothing else changes. The element HOST reads is the one CORE reads and writes (COEF by its COEF_W-bit pattern), PROB's
the one the nodes ask with; the spaces have the shapes of R70 (CNTC with NSYM classes for each tuple). -/
def Obligations.HostReadsSpacesAndBindsTheSource : Prop :=
  (∀ s, s.busy = false →
    (∀ sp i, i < spaceSize s sp → hostAct (.readSpace sp i) s = .next { s with rdata := spaceElem s sp i }) ∧
    (∀ as, hostAct (.bindSource as) s = .next { s with answers := as })) ∧
  (∀ s i, (spaceElem s .coef i : Int) = coefAt s i % 2 ^ s.par.coefW ∧ spaceElem s .ctxa i = (ctxaAt s i).toNat ∧
    spaceElem s .ctxl i = (ctxlAt s i).toNat ∧ spaceElem s .cntc i = cntcAt s i ∧ spaceElem s .cnte i = cnteAt s i) ∧
  (∀ s j, spaceElem s .prob (rowIndex s * 3 + j) = probOf s j) ∧
  (∀ s, spaceSize s .coef = 1024 ∧ spaceSize s .ctxa = s.par.ctxaLen ∧ spaceSize s .ctxl = s.par.ctxlLen ∧
    spaceSize s .prob = 1728 ∧ spaceSize s .cntc = 4 * 2 * 2 * 6 * 6 * s.par.nsym ∧ spaceSize s .cnte = 576)

/-! ## Encoding -/

/-- R110, R114, R115: words and strings written out from the tables of the spec decode to what they stand for. -/
def Obligations.SpelledOutCodesDecode : Prop :=
  decode (some 14) .cmd (.word 0x00000001#32) = some .decodeCoefs ∧
  decode (some 14) .cmd (.word 0xABCDEF01#32) = some .decodeCoefs ∧
  decode (some 14) .cmd (.word 0x00000002#32) = some .decodeBlock ∧
  decode (some 14) .cmd (.word 0x00000100#32) = none ∧
  decode (some 14) .tokenE (.answers [false]) = some .eob ∧
  decode (some 14) .tokenE (.answers [true, true, true, false, true, true, true]) = some (.four true) ∧
  decode (some 14) .tokenE (.answers [true, true, true, true, false, true, true, false, false]) =
    some (.cat2 2#2 false) ∧
  decode (some 14) .tokenZ (.answers [true, true, true, true, false, false, true, false, true, true]) =
    some (.cat3Z 5#3 true)

/-- Every well-formed instruction is decoded from its own code, with every operand: no bit of an encoding is dropped (R110,
R114, R115). -/
def Obligations.DecodeReadsBackEveryEncoding : Prop :=
  ∀ (m : Nat) (i : Instr), i.wf m = true → decode (some m) i.form (encode i) = some i

/-- A code that decodes is the code of a well-formed instruction of that format; a CMD word is known up to its ignored
bits[31:8] (R110). -/
def Obligations.DecodedCodesAreEncodings : Prop :=
  ∀ (m : Nat) (f : Form) (code : Code) (i : Instr), decode (some m) f code = some i →
    i.form = f ∧ i.wf m = true ∧
    match code with
    | .word w => w.toNat % 256 = (encodeWord i).toNat
    | .answers bs => bs = encodeBits i

/-- R121, R122: every string that is long enough begins with a token, E-form and Z-form alike, and with exactly one: its string is
the part the decoder takes, and no string of another token begins the same string. -/
def Obligations.EveryStringSpellsExactlyOneToken : Prop :=
  ∀ (m : Nat) (bs : List Bool), 13 + m ≤ bs.length →
    (∃ i rest, decodeE (some m) bs = some (i, rest) ∧ bs = encodeBits i ++ rest ∧
      ∀ j, j.form = .tokenE → j.wf m = true → encodeBits j <+: bs → j = i) ∧
    (∃ i rest, decodeZ (some m) bs = some (i, rest) ∧ bs = encodeBits i ++ rest ∧
      ∀ j, j.form = .tokenZ → j.wf m = true → encodeBits j <+: bs → j = i)

/-! ## The step -/

/-- A write of HOST to CMD that is due runs the instruction the word decodes to (R110, R256); `rest` are the actions after it. -/
def Obligations.StepRunsTheCommandWord : Prop :=
  ∀ s e rest w i, s.host = e :: rest → e.act = .writeReg 0 w → s.node = .idle → s.busy = false →
    decodeCmd w = some i → step s = exec i { s with host := rest }

/-- With the switch tokenSteps on (log 1) and no action of HOST pending, where a token begins and BITSRC's coming answers spell the
token `i`, the step is exec of `i` (R113). -/
def Obligations.StepRunsTheComingToken : Prop :=
  ∀ s i rest, s.host = [] → s.tokenSteps = true →
    ((s.node = .eob ∧ decodeE (cat6Bits s.par) (answeredBits (longestToken s) s.answers) = some (i, rest)) ∨
     (s.node = .zero ∧ decodeZ (cat6Bits s.par) (answeredBits (longestToken s) s.answers) = some (i, rest))) →
    step s = exec i s

/-- R6: a step of CORE is one node visit, and a step makes at most one request: HOST silent, or an action of HOST waiting, which
then waits one visit less (log 4). This is so in every run from reset: the switch tokenSteps (log 1) is off there, and no step
turns it on. -/
def Obligations.StepIsOneNodeVisit : Prop :=
  (∀ s, s.host = [] → s.tokenSteps = false → step s = visit s) ∧
  (∀ s n a rest, s.host = ⟨n + 1, a⟩ :: rest → s.node ≠ .idle → step s = visit { s with host := ⟨n, a⟩ :: rest }) ∧
  (∀ s t, s.tokenSteps = false → step s = .next t →
    t.requests = s.requests ∨ ∃ r, visitRequest s = some r ∧ t.requests = r :: s.requests) ∧
  (∀ s t, step s = .next t → t.tokenSteps = s.tokenSteps) ∧
  State.reset.tokenSteps = false

/-- The step after placing a word of the opcode table runs the instruction the word decodes to (log 14): at the state itself
for a command, at the placed state for a token. -/
def Obligations.PlacedWordRunsItsInstruction : Prop :=
  ∀ s nbits w i, cat6Bits s.par = some 14 → decodeTableWord nbits w = some i →
    step (s.withFetchWord nbits w) =
      exec i (match i.form with | .cmd => s | .tokenE => s.withFetchWord nbits w | .tokenZ => s.withFetchWord nbits w)

/-- R6, R263, D1: with no action of HOST pending, a step is a number of node visits, at most those of the longest token, and no
more, whether the switch tokenSteps is on or off, and whether the step ends in a next state, a fault or a refusal. -/
def Obligations.TokenStepIsARunOfNodeVisits : Prop :=
  ∀ s, s.host = [] → ∃ k, 1 ≤ k ∧ k ≤ longestToken s + 1 ∧ step s = runVisits k s

/-- R113, R115: a token in E-form is the EOB node answering 1 and then the token in Z-form. -/
def Obligations.EFormIsEobContinueThenZForm : Prop :=
  ∀ l s, s.node = .eob →
    exec (rowOf true l) s = thenDo (visitWith (.bit true) s) (exec (rowOf false l))

/-! ## Tokens -/

/-- R162: token EOB at N_EOB completes: one request prob[0], one eob-branch count and one EOB_MODEL count, finish(c); nothing of
COEF, TOKC or C changes. -/
def Obligations.EobTokenEndsTheBlock : Prop :=
  ∀ s, s.node = .eob → InRow s → ∃ t, exec .eob s = .next t ∧
    t.eob = s.c ∧ t.tok = .eob ∧
    (∀ i, cnteAt t i = if s.fpar = 0#1 ∧ i = rowIndex s then (cnteAt s i + 1) % 2 ^ s.par.cntW else cnteAt s i) ∧
    (∀ i, cntcAt t i = if s.fpar = 0#1 ∧ i = rowIndex s * s.par.nsym + 3 then (cntcAt s i + 1) % 2 ^ s.par.cntW else cntcAt s i) ∧
    t.requests = .p (probOf s 0) :: s.requests ∧ t.answers = s.answers.drop 1 ∧
    (if s.cmdk = 1#1 then t.node = .wb ∧ t.busy = s.busy ∧ t.done = s.done
     else t.node = .idle ∧ t.busy = false ∧ t.done = true) ∧
    { t with eob := s.eob, tok := s.tok, cnte := s.cnte, cntc := s.cntc, requests := s.requests, answers := s.answers,
             node := s.node, busy := s.busy, done := s.done } = s

/-- R164, R163: token ZERO completes in both forms: COEF and TOKC at scan[c] get 0 and ENERGY[0], one ZERO count, C advances, the
next token is in Z-form or the block is full; no other element or register changes. -/
def Obligations.ZeroTokenCompletes : Prop :=
  ∀ eForm s, s.node = startNode eForm → InRow s → PlaceReady s → Completes eForm .zero s

/-- R167: token ONE completes in both forms, with both signs. -/
def Obligations.OneTokenCompletes : Prop :=
  ∀ eForm neg s, s.node = startNode eForm → InRow s → PlaceReady s → Completes eForm (.one neg) s

/-- R172, R174, R175: tokens TWO, THREE and FOUR complete in both forms, where prob[2] selects a pareto row. -/
def Obligations.LowValueTokensComplete : Prop :=
  ∀ eForm neg s, s.node = startNode eForm → InRow s → PlaceReady s → ParetoReady s →
    Completes eForm (.two neg) s ∧ Completes eForm (.three neg) s ∧ Completes eForm (.four neg) s

/-- R208 to R212: tokens CAT1 to CAT5 complete in both forms, with every value of their extra bits. -/
def Obligations.CategoryTokensComplete : Prop :=
  ∀ eForm neg s, s.node = startNode eForm → InRow s → PlaceReady s → ParetoReady s →
    (∀ a, Completes eForm (.cat1 a neg) s) ∧ (∀ a, Completes eForm (.cat2 a neg) s) ∧
    (∀ a, Completes eForm (.cat3 a neg) s) ∧ (∀ a, Completes eForm (.cat4 a neg) s) ∧
    (∀ a, Completes eForm (.cat5 a neg) s)

/-- R213: token CAT6 completes in both forms, with as many extra bits as CAT6P has entries before its first zero. -/
def Obligations.Cat6TokenCompletes : Prop :=
  ∀ eForm a neg s, s.node = startNode eForm → InRow s → PlaceReady s → ParetoReady s →
    cat6Bits s.par = some a.length → Completes eForm (.cat6 a neg) s

/-- R283, R168, R248: every token of magnitude 2 or more aborts with OutOfRangeProbability where prob[2] selects no pareto row:
after the ONE node's request and the TWO_PLUS count, before PROW, COEF or TOKC is written. -/
def Obligations.NoParetoRowAbortsLargeTokens : Prop :=
  ∀ eForm l s, s.node = startNode eForm → s.busy = true → InRow s → ¬ ParetoReady s → isLarge l = true →
    ∃ t, exec (rowOf eForm l) s = .next t ∧ Aborted .outOfRangeProbability .one s t ∧
      t.requests = ((if eForm then [Request.p (probOf s 0)] else []) ++ [Request.p (probOf s 1), Request.p (probOf s 2)]).reverse
        ++ s.requests ∧
      (∀ i, cntcAt t i = if s.fpar = 0#1 ∧ i = rowIndex s * s.par.nsym + 2 then (cntcAt s i + 1) % 2 ^ s.par.cntW else cntcAt s i) ∧
      (∀ i, cnteAt t i = if eForm = true ∧ s.fpar = 0#1 ∧ i = rowIndex s then (cnteAt s i + 1) % 2 ^ s.par.cntW else cnteAt s i) ∧
      t.prow = s.prow ∧ t.tok = s.tok ∧ t.val = s.val

/-- R285: where CAT6P has no zero entry, CAT6 aborts with MalformedCategory6 after CAT6_LEN extra-bit requests, whatever the
answers. -/
def Obligations.UnterminatedTableAbortsCat6 : Prop :=
  ∀ eForm a neg s, s.node = startNode eForm → s.busy = true → InRow s → ParetoReady s →
    cat6Bits s.par = none → a.length = s.par.cat6p.length →
    ∃ t, exec (rowOf eForm (.cat6 a neg)) s = .next t ∧ Aborted .malformedCategory6 .cat6 s t ∧
      t.xi = s.par.cat6p.length ∧ t.acc = bitsValue a ∧
      t.requests.length = s.requests.length + (if eForm then 7 else 6) + s.par.cat6p.length

/-! ## Node visits -/

/-- R282, R86: where BITSRC answers EXHAUSTED to the request of a visit, the command is aborted with BitstreamExhausted, ENODE
the node, EC the scan index, and nothing else of the visit has taken effect; a visit that makes no request cannot raise it. -/
def Obligations.ExhaustionAbortsBeforeAnyEffect : Prop :=
  (∀ s r, s.busy = true → InRow s → visitRequest s = some r → nextAnswer s = .exhausted →
    visit s = .next { s with
      requests := r :: s.requests, answers := s.answers.tail, err := .bitstreamExhausted, enode := s.node, ec := s.c,
      busy := false, done := false, node := .idle }) ∧
  (∀ s t, visitRequest s = none → visit s = .next t → t.err = .bitstreamExhausted → s.err = .bitstreamExhausted)

/-- R23, R75, R84, R85, R117: a visit makes the one request of its node with its p passed on unchanged, and uses one answer; a
visit of N_IDLE, N_ENTRY or N_WB, and the terminator and the cap of N_CAT6, make none. -/
def Obligations.EveryVisitMakesTheRequestOfItsNode : Prop :=
  ∀ s t, visit s = .next t →
    (∀ r, visitRequest s = some r → t.requests = r :: s.requests ∧ t.answers = s.answers.tail) ∧
    (visitRequest s = none → t.requests = s.requests ∧ t.answers = s.answers)

/-- R176: the transition table of the tree, one line per node and answer, and the abort of its last column. -/
def Obligations.VisitsFollowTheTransitionTable : Prop :=
  (∀ s t, nextAnswer s = .exhausted → visitRequest s ≠ none → visit s = .next t →
    t.node = .idle ∧ t.err = .bitstreamExhausted) ∧
  ∀ s b t, nextAnswer s = .bit b → visit s = .next t →
    let done := if s.cmdk = 1#1 then Node.wb else Node.idle
    match s.node, b with
    | .idle, _ => t = s
    | .eob, false => t.node = done ∧ t.eob = s.c
    | .eob, true => t.node = .zero
    | .zero, false =>
      t.c = s.c + 1#11 ∧ if s.c.toNat + 1 = me s then t.node = done ∧ t.eob.toNat = me s else t.node = .zero
    | .zero, true => t.node = .one
    | .one, false => t.node = .sign ∧ t.val = 1
    | .one, true =>
      (ParetoReady s → t.node = .lowval) ∧ (¬ ParetoReady s → t.node = .idle ∧ t.err = .outOfRangeProbability)
    | .lowval, false => t.node = .two
    | .lowval, true => t.node = .highlow
    | .two, false => t.node = .sign ∧ t.val = 2
    | .two, true => t.node = .three
    | .three, false => t.node = .sign ∧ t.val = 3
    | .three, true => t.node = .sign ∧ t.val = 4
    | .highlow, false => t.node = .catone
    | .highlow, true => t.node = .cat34
    | .catone, false => t.node = .extra ∧ t.tok = .cat1
    | .catone, true => t.node = .extra ∧ t.tok = .cat2
    | .cat34, false => t.node = .catthree
    | .cat34, true => t.node = .catfive
    | .catthree, false => t.node = .extra ∧ t.tok = .cat3
    | .catthree, true => t.node = .extra ∧ t.tok = .cat4
    | .catfive, false => t.node = .extra ∧ t.tok = .cat5
    | .catfive, true => t.node = .cat6 ∧ t.tok = .cat6
    | .extra, _ => t.node = if s.xi + 1 = category s then .sign else .extra
    | .cat6, _ =>
      match s.par.cat6p[s.xi]? with
      | none => t.node = .idle ∧ t.err = .malformedCategory6
      | some p => t.node = if p = 0 then .sign else .cat6
    | .sign, _ =>
      t.c = s.c + 1#11 ∧ if s.c.toNat + 1 < me s then t.node = .eob else t.node = done ∧ t.eob.toNat = me s
    | .wb, _ => t.node = .idle
    | .entry, _ => t.node = .eob

/-- R203: N_EXTRA sends CATP[k-1][i]; answered `b` it adds `b` at its place value, most significant bit first, and goes on to
the sign after the last extra bit; answered EXHAUSTED it raises BitstreamExhausted and leaves VAL and XI. -/
def Obligations.ExtraBitsAreReadMostSignificantFirst : Prop :=
  ∀ s, s.node = .extra → 1 ≤ category s → category s ≤ 5 → s.xi < category s →
    ∃ p t, (s.par.catp[category s - 1]?.bind fun row => row[s.xi]?) = some p ∧ visit s = .next t ∧
      t.requests = .p p :: s.requests ∧ t.answers = s.answers.tail ∧
      match nextAnswer s with
      | .bit b =>
        t.val = s.val + (if b then 2 ^ (category s - 1 - s.xi) else 0) ∧ t.xi = s.xi + 1 ∧
        t.node = (if s.xi + 1 = category s then .sign else .extra) ∧
        { t with val := s.val, xi := s.xi, node := s.node, requests := s.requests, answers := s.answers } = s
      | .exhausted => t.err = .bitstreamExhausted ∧ t.node = .idle ∧ t.val = s.val ∧ t.xi = s.xi

/-- R206: N_CAT6 at a non-zero entry answered `b` shifts `b` into ACC; at the zero entry it makes no request and VAL becomes 67 +
ACC; past the table's last entry it raises MalformedCategory6. -/
def Obligations.Cat6LoopAccumulatesUntilTheTerminator : Prop :=
  ∀ s, s.node = .cat6 →
    (∀ p b, s.par.cat6p[s.xi]? = some p → p ≠ 0 → nextAnswer s = .bit b →
      visit s = .next { s with
        acc := 2 * s.acc + b.toNat, xi := s.xi + 1, requests := .p p :: s.requests, answers := s.answers.tail }) ∧
    (∀ p, s.par.cat6p[s.xi]? = some p → p ≠ 0 → nextAnswer s = .exhausted → ∃ t, visit s = .next t ∧
      t.err = .bitstreamExhausted ∧ t.acc = s.acc ∧ t.xi = s.xi ∧ t.val = s.val ∧ t.requests = .p p :: s.requests) ∧
    (s.par.cat6p[s.xi]? = some 0 → visit s = .next { s with val := 67 + s.acc, node := .sign }) ∧
    (s.xi = s.par.cat6p.length → s.busy = true → ∃ t, visit s = .next t ∧
      Aborted .malformedCategory6 .cat6 s t ∧ t.requests = s.requests ∧ t.answers = s.answers)

/-- R286: `raise E` saves NODE and C while a command runs and zeros otherwise, sets ERR, clears BUSY and DONE, makes CORE idle, and
leaves every other register and every space as it is. -/
def Obligations.RaiseSavesNodeAndIndex : Prop :=
  ∀ e s,
    (s.busy = true → (raise e s).enode = s.node ∧ (raise e s).ec = s.c) ∧
    (s.busy = false → (raise e s).enode.num = 0#5 ∧ (raise e s).ec = 0#11) ∧
    (raise e s).err = e ∧ (raise e s).busy = false ∧ (raise e s).done = false ∧ (raise e s).node = .idle ∧
    { raise e s with enode := s.enode, ec := s.ec, err := s.err, busy := s.busy, done := s.done, node := s.node } = s

/-- R258: finish(e) writes EOB; DECODE_BLOCK goes on to N_WB still busy, DECODE_COEFS ends with DONE = 1; nothing else changes.
N_EOB calls it with e = c, N_ZERO and N_SIGN with e = ME, and e is at most ME. -/
def Obligations.FinishWritesEobAndEndsOrWritesBack : Prop :=
  (∀ e s, (finish e s).eob = e ∧
    (s.cmdk = 1#1 → (finish e s).node = .wb ∧ (finish e s).busy = s.busy ∧ (finish e s).done = s.done) ∧
    (s.cmdk = 0#1 → (finish e s).node = .idle ∧ (finish e s).busy = false ∧ (finish e s).done = true) ∧
    { finish e s with eob := s.eob, node := s.node, busy := s.busy, done := s.done } = s) ∧
  (∀ s t, Lawful s → visit s = .next t → t.eob ≠ s.eob →
    (s.node = .eob ∧ t.eob = s.c ∨ (s.node = .zero ∨ s.node = .sign) ∧ t.eob.toNat = me s) ∧ t.eob.toNat ≤ me s)

/-- R261: N_ENTRY sets ECTX and CTX to the number of sides, above and left, on which some covered entry is not zero, BAND to
BANDT[t][0], and goes to N_EOB with no request; nothing else changes. -/
def Obligations.EntryContextCountsTheSidesThatAreSet : Prop :=
  ∀ s, s.node = .entry → s.aoff.toNat + 2 ^ s.txsize.toNat ≤ s.par.ctxaLen →
    s.loff.toNat + 2 ^ s.txsize.toNat ≤ s.par.ctxlLen →
    ∃ t ea el, visit s = .next t ∧
      (ea = 1 ↔ ∃ i < 2 ^ s.txsize.toNat, ctxaAt s (s.aoff.toNat + i) ≠ 0#8) ∧
      (el = 1 ↔ ∃ i < 2 ^ s.txsize.toNat, ctxlAt s (s.loff.toNat + i) ≠ 0#8) ∧ ea ≤ 1 ∧ el ≤ 1 ∧
      t.ectx.toNat = ea + el ∧ t.ctx = t.ectx ∧ t.band = bandAt s 0 ∧ t.node = .eob ∧
      { t with ectx := s.ectx, ctx := s.ctx, band := s.band, node := s.node } = s

/-- R264, R262: N_WB writes the flag EOB > 0 to the n = 1 << TXSIZE entries of CTXA from AOFF and of CTXL from LOFF and to no other
entry, and ends the command with DONE = 1; nothing else changes. -/
def Obligations.WriteBackFillsTheFootprintOnly : Prop :=
  ∀ s, s.node = .wb → s.aoff.toNat + 2 ^ s.txsize.toNat ≤ s.par.ctxaLen →
    s.loff.toNat + 2 ^ s.txsize.toNat ≤ s.par.ctxlLen →
    ∃ t f, visit s = .next t ∧ f = (if s.eob.toNat > 0 then 1#8 else 0#8) ∧
      (∀ i, ctxaAt t i = if s.aoff.toNat ≤ i ∧ i < s.aoff.toNat + 2 ^ s.txsize.toNat then f else ctxaAt s i) ∧
      (∀ i, ctxlAt t i = if s.loff.toNat ≤ i ∧ i < s.loff.toNat + 2 ^ s.txsize.toNat then f else ctxlAt s i) ∧
      t.node = .idle ∧ t.busy = false ∧ t.done = true ∧
      { t with ctxa := s.ctxa, ctxl := s.ctxl, node := s.node, busy := s.busy, done := s.done } = s

/-- R144, R145, R150, R147: the context bucket is the rounded average of the two classes: the class itself when both are the
same, symmetric, and in 0..5 when both are. -/
def Obligations.ContextIsTheRoundedAverage : Prop :=
  ∀ s c, (nbAt s (2 * c)).toNat < me s → (nbAt s (2 * c + 1)).toNat < me s → ∃ t, ctxsel c s = .ok t ∧
    t.ctx.toNat =
      ((tokClass s (nbAt s (2 * c)).toNat).toNat + (tokClass s (nbAt s (2 * c + 1)).toNat).toNat + 1) / 2 ∧
    (nbAt s (2 * c) = nbAt s (2 * c + 1) → t.ctx = tokClass s (nbAt s (2 * c)).toNat) ∧
    ((tokClass s (nbAt s (2 * c)).toNat).toNat ≤ 5 → (tokClass s (nbAt s (2 * c + 1)).toNat).toNat ≤ 5 →
      t.ctx.toNat ≤ 5) ∧
    { t with ctx := s.ctx } = s

/-- R241, R242, R243: a counter micro-operation adds 1 modulo 2^CNT_W to the one element of the current tuple and changes nothing
else; with FPAR = 1 it changes nothing. -/
def Obligations.CountersAddOneToOneElement : Prop :=
  ∀ y s,
    (s.fpar = 0#1 →
      (∀ i, cntcAt (count y s) i =
        if i = rowIndex s * s.par.nsym + y.num then (cntcAt s i + 1) % 2 ^ s.par.cntW else cntcAt s i) ∧
      (∀ i, cnteAt (countE s) i = if i = rowIndex s then (cnteAt s i + 1) % 2 ^ s.par.cntW else cnteAt s i) ∧
      { count y s with cntc := s.cntc } = s ∧ { countE s with cnte := s.cnte } = s) ∧
    (s.fpar = 1#1 → count y s = s ∧ countE s = s)

/-- R223, R10: the stored coefficient is the number of COEF_W bits, two's complement, that differs from the value by a multiple of
2^COEF_W, and OVF is set exactly when the value lies outside the range of such numbers. -/
def Obligations.StoredCoefficientWrapsAndSetsOvf : Prop :=
  ∀ (n : Nat) (v : Int), 1 ≤ n →
    -2 ^ (n - 1) ≤ wrap n v ∧ wrap n v < 2 ^ (n - 1) ∧ (2 : Int) ^ n ∣ v - wrap n v ∧
    (overflows n v = true ↔ v < -2 ^ (n - 1) ∨ 2 ^ (n - 1) ≤ v)

/-- R73, R326, R327, R329, D33 with 93 U4, U5, U6: a launch that breaks an obligation of SCANPROV or HOST is refused by name: a SCAN
that is no permutation of 0..ME-1; an NB that names a position not decoded before; for DECODE_BLOCK a footprint that
leaves CTXA or CTXL. Three more stops are the model's choice of place: a read of PROB with BAND or CTX above 5 is refused at
the visit (R147; log 8); a bad element or footprint is refused at the visit that uses it in states no launch leads to (log 9,
log 10); an index outside a space is refused to HOST (R73; log 11). -/
def Obligations.BrokenObligationsAreRefused : Prop :=
  (∀ s, s.busy = false → s.err = .none → s.ectx.toNat ≤ 5 →
    (¬ ScanLegal (presented s) → exec .decodeCoefs s = .refused .scanTable) ∧
    (ScanLegal (presented s) → ¬ NbLegal (presented s) → exec .decodeCoefs s = .refused .neighbourTable)) ∧
  (∀ s, s.busy = false → s.err = .none →
    (¬ ScanLegal (presented s) → exec .decodeBlock s = .refused .scanTable) ∧
    (ScanLegal (presented s) → ¬ NbLegal (presented s) → exec .decodeBlock s = .refused .neighbourTable) ∧
    (ScanLegal (presented s) → NbLegal (presented s) → s.par.ctxaLen < s.aoff.toNat + 2 ^ s.txsize.toNat →
      exec .decodeBlock s = .refused .footprintAbove) ∧
    (ScanLegal (presented s) → NbLegal (presented s) → s.aoff.toNat + 2 ^ s.txsize.toNat ≤ s.par.ctxaLen →
      s.par.ctxlLen < s.loff.toNat + 2 ^ s.txsize.toNat → exec .decodeBlock s = .refused .footprintLeft)) ∧
  (∀ s, s.node = .eob ∨ s.node = .zero ∨ s.node = .one → ¬ InRow s → visit s = .refused .outsideProb) ∧
  (∀ s b, s.node = .sign ∨ s.node = .zero ∧ b = false ∧ InRow s → nextAnswer s = .bit b → s.c.toNat < me s →
    (me s ≤ position s → visit s = .refused .scanTable) ∧
    (position s < me s → s.c.toNat + 1 < me s →
      me s ≤ (nbAt s (2 * (s.c.toNat + 1))).toNat ∨ me s ≤ (nbAt s (2 * (s.c.toNat + 1) + 1)).toNat →
      visit s = .refused .neighbourTable)) ∧
  (∀ s, s.node = .entry ∨ s.node = .wb →
    (s.par.ctxaLen < s.aoff.toNat + 2 ^ s.txsize.toNat → visit s = .refused .footprintAbove) ∧
    (s.aoff.toNat + 2 ^ s.txsize.toNat ≤ s.par.ctxaLen → s.par.ctxlLen < s.loff.toNat + 2 ^ s.txsize.toNat →
      visit s = .refused .footprintLeft)) ∧
  (∀ s sp i v, s.busy = false → spaceSize s sp ≤ i →
    hostAct (.writeSpace sp i v) s = .refused .hostIndex ∧ hostAct (.readSpace sp i) s = .refused .hostIndex)

/-! ## Rules of the whole machine -/

/-- The invariant is kept by every step, whatever the tables, the answers and the actions of HOST. -/
def Obligations.EveryStepKeepsTheInvariant : Prop :=
  ∀ s t, Lawful s → step s = .next t → Lawful t

/-- From a state that meets the invariant no step faults: the faults are those of states no run reaches (R24, R203). -/
def Obligations.NoFaultUnderTheInvariant : Prop :=
  ∀ s f, Lawful s → step s ≠ .fault f

/-- R147, R326, R327, R329, R330: where the obligations hold (Decoding) and no action of HOST is pending, a step is never refused and
never faults, and they still hold after it. A command establishes them: the state that an accepted DECODE_COEFS or
DECODE_BLOCK leaves from an idle state that meets the invariant is Decoding, where the fixed tables meet R330. -/
def Obligations.MetObligationsNeverStop : Prop :=
  (∀ s, Decoding s → s.host = [] → ∃ t, step s = .next t ∧ Decoding t ∧ t.host = []) ∧
  (∀ s t, Lawful s → s.busy = false → exec .decodeCoefs s = .next t ∨ exec .decodeBlock s = .next t → t.busy = true →
    Obliged t → Decoding t)

/-- R342: every node visit of a running command lowers the bound on the visits it still makes. (The bound takes for the longest
token the longer of CAT6 and CAT5: log 20.) -/
def Obligations.EveryVisitLowersTheBound : Prop :=
  ∀ s t, Lawful s → s.busy = true → visit s = .next t → visitsLeft t < visitsLeft s

/-- R341, R342: every command ends: from any state of a run that meets the obligations, CORE is idle after at most ME * V + 2 node
visits, having made at most ME * Q requests, ME writes to COEF, ME writes to TOKC and 2 * ME counter increments, and from its
first node at least one request. V = CAT6_LEN + 8 and Q = CAT6_LEN + 7 are those of CAT6 in E-form, where no other token is
longer: V from CAT6_LEN = 5 on, Q from 6 on, else 13, those of CAT5 (log 20); for TXSIZE = 3 and CAT6_LEN = 15, ME * Q = 22528.
What is counted of a visit is what it does: its writes to COEF and TOKC, at scan[c], and its counter increments. -/
def Obligations.EveryCommandEndsWithinTheBound : Prop :=
  (∀ s n, Decoding s → n = me s * tokenVisits s + 2 → ∃ t,
    runVisits n s = .next t ∧ t.busy = false ∧ t.node = .idle ∧
    t.requests.length ≤ s.requests.length + me s * tokenRequests s ∧
    runTotal visitStores n s ≤ me s ∧ runTotal visitIncrements n s ≤ 2 * me s ∧
    (s.node = .eob ∨ s.node = .entry → s.requests.length + 1 ≤ t.requests.length)) ∧
  (∀ s, (5 ≤ s.par.cat6p.length → tokenVisits s = s.par.cat6p.length + 8) ∧
    (6 ≤ s.par.cat6p.length → tokenRequests s = s.par.cat6p.length + 7) ∧
    (s.txsize = 3#2 → s.par.cat6p.length = 15 → me s * tokenRequests s = 22528)) ∧
  (∀ s t, visit s = .next t →
    (visitStores s = 0 → t.coef = s.coef ∧ t.tokc = s.tokc) ∧
    (visitStores s ≠ 0 → visitStores s = 1 ∧ ∃ v e,
      t.coef = Memory.insert s.coef (position s) v ∧ t.tokc = Memory.insert s.tokc (position s) e) ∧
    (∀ i, cntcAt t i = if visitClassCount s = some i then (cntcAt s i + 1) % 2 ^ s.par.cntW else cntcAt s i) ∧
    (∀ i, cnteAt t i = if visitEobCount s = some i then (cnteAt s i + 1) % 2 ^ s.par.cntW else cnteAt s i))

/-- R165: the one EOB-node answer 1 and then ME answers 0 end the block with EOB = ME, in 1 + ME visits and requests, with one
eob-branch count, at scan index 0, and no EOB_MODEL count, every position of the scan zero. -/
def Obligations.TrailingZeroRunEndsAtMaxEob : Prop :=
  ∀ s rest, Decoding s → s.node = .eob → s.c = 0#11 →
    s.answers = .bit true :: (List.replicate (me s) (.bit false) ++ rest) →
    ∃ t, runVisits (me s + 1) s = .next t ∧ t.eob.toNat = me s ∧ t.answers = rest ∧
      t.requests.length = s.requests.length + me s + 1 ∧
      (∀ i, cnteAt t i = if s.fpar = 0#1 ∧ i = rowIndex s then (cnteAt s i + 1) % 2 ^ s.par.cntW else cnteAt s i) ∧
      (∀ r, cntcAt t (r * s.par.nsym + 3) = cntcAt s (r * s.par.nsym + 3)) ∧
      (∀ j < me s, coefAt t (scanAt s j).toNat = 0) ∧
      if s.cmdk = 1#1 then t.node = .wb else t.node = .idle ∧ t.done = true

/-- R241: with FPAR = 1 the counter micro-operations do nothing; with FPAR = 0 they count; and the gate affects nothing else: two
states that differ only in FPAR and the counters take the same visit, but for FPAR and the counters. -/
def Obligations.CounterGateAffectsNothingElse : Prop :=
  (∀ y s, s.fpar = 1#1 → count y s = s ∧ countE s = s) ∧
  (∀ y s, s.fpar = 0#1 →
    cntcAt (count y s) (rowIndex s * s.par.nsym + y.num) =
      (cntcAt s (rowIndex s * s.par.nsym + y.num) + 1) % 2 ^ s.par.cntW ∧
    cnteAt (countE s) (rowIndex s) = (cnteAt s (rowIndex s) + 1) % 2 ^ s.par.cntW) ∧
  (∀ s t, hideCounts s = hideCounts t → SameResult hideCounts (visit s) (visit t))

/-- R289, R84: a visit does not look ahead: it depends on BITSRC's next answer and on none after it. -/
def Obligations.VisitsDoNotLookAhead : Prop :=
  ∀ s t, hideAnswers s = hideAnswers t → nextAnswer s = nextAnswer t →
    SameResult hideAnswers (visit s) (visit t)

/-- R20, R21, R80, R257: a node visit writes no control register but ECTX (N_ENTRY), nor PROB, nor the parameters, nor anything of
HOST or SCANPROV. -/
def Obligations.VisitsWriteNoControlRegister : Prop :=
  ∀ s t, visit s = .next t →
    { t with
      node := s.node, c := s.c, ctx := s.ctx, band := s.band, prow := s.prow, tok := s.tok, val := s.val, acc := s.acc,
      xi := s.xi, busy := s.busy, done := s.done, ovf := s.ovf, err := s.err, eob := s.eob, enode := s.enode,
      ec := s.ec, ectx := s.ectx, tokc := s.tokc, coef := s.coef, ctxa := s.ctxa, ctxl := s.ctxl, cntc := s.cntc,
      cnte := s.cnte, answers := s.answers, requests := s.requests } = s ∧
    (s.node ≠ .entry → t.ectx = s.ectx)

/-- R70, R163, R220, R265, R282: COEF and TOKC are written by N_ZERO answered 0 and by N_SIGN answered a bit only, at scan[c] only;
CTXA and CTXL by N_WB only, so by no visit that aborts; the counters by N_EOB, N_ZERO and N_ONE only, and never with
FPAR = 1 (R33, R244). -/
def Obligations.VisitsStoreOnlyWhereTheRulesSay : Prop :=
  ∀ s t, visit s = .next t →
    (∀ p, p ≠ position s → coefAt t p = coefAt s p ∧ tokClass t p = tokClass s p) ∧
    (s.node ≠ .zero → s.node ≠ .sign → t.coef = s.coef ∧ t.tokc = s.tokc) ∧
    (s.node = .zero → nextAnswer s ≠ .bit false → t.coef = s.coef ∧ t.tokc = s.tokc) ∧
    (s.node = .sign → nextAnswer s = .exhausted → t.coef = s.coef ∧ t.tokc = s.tokc) ∧
    (s.node ≠ .wb ∨ t.err ≠ s.err → t.ctxa = s.ctxa ∧ t.ctxl = s.ctxl) ∧
    (s.node ≠ .eob → t.cnte = s.cnte) ∧
    (s.node ≠ .eob → s.node ≠ .zero → s.node ≠ .one → t.cntc = s.cntc) ∧
    (s.fpar = 1#1 → t.cntc = s.cntc ∧ t.cnte = s.cnte)

/-- R24: a visit leaves C as it is or adds 1, and adds 1 only at N_ZERO answered 0 and at N_SIGN. -/
def Obligations.IndexOnlyCountsUp : Prop :=
  ∀ s t, Lawful s → visit s = .next t →
    t.c = s.c ∨
    (t.c.toNat = s.c.toNat + 1 ∧ (s.node = .sign ∨ s.node = .zero) ∧ nextAnswer s ≠ .exhausted ∧
      (s.node = .zero → nextAnswer s = .bit false))

/-- R35: a visit changes EOB only where it finishes a block, and then to the final C, which is at most ME; an abort leaves it, and
so does a command start. -/
def Obligations.EobRegisterIsWrittenOnlyByFinish : Prop :=
  (∀ s t, Lawful s → visit s = .next t → t.eob ≠ s.eob →
    (s.node = .eob ∨ s.node = .zero ∨ s.node = .sign) ∧ t.eob = t.c ∧ t.c.toNat ≤ me s ∧ t.err = .none ∧
    (t.node = .wb ∨ t.node = .idle ∧ t.done = true)) ∧
  (∀ e s, (raise e s).eob = s.eob) ∧
  (∀ s t, exec .decodeCoefs s = .next t ∨ exec .decodeBlock s = .next t → t.eob = s.eob)

/-- R25: CTX and BAND are written together, at command start and after every increment of C that leaves C below ME, and between
those writes they do not change. -/
def Obligations.ContextAndBandFollowTheIndex : Prop :=
  (∀ s t, s.busy = false → s.err = .none → s.ectx.toNat ≤ 5 → exec .decodeCoefs s = .next t →
    t.c = 0#11 ∧ t.ctx = s.ectx ∧ t.band = bandAt s 0) ∧
  (∀ s t, s.node = .entry → visit s = .next t → t.ctx = t.ectx ∧ t.band = bandAt s 0) ∧
  (∀ s t, s.node ≠ .entry → visit s = .next t →
    (t.c ≠ s.c → t.c.toNat < me s → t.band = bandAt s t.c.toNat ∧
      t.ctx.toNat =
        ((tokClass t (nbAt s (2 * t.c.toNat)).toNat).toNat
          + (tokClass t (nbAt s (2 * t.c.toNat + 1)).toNat).toNat + 1) / 2) ∧
    (t.c = s.c ∨ me s ≤ t.c.toNat → t.ctx = s.ctx ∧ t.band = s.band))

/-- R32, R287: OVF and ERR are sticky: a step clears one of them only by a SOFT_RESET written to CMD or a hardware reset, an action of
HOST that was next. -/
def Obligations.OnlyResetsClearOvfAndErr : Prop :=
  ∀ s t, Lawful s → step s = .next t →
    (s.ovf = true ∧ t.ovf = false) ∨ (s.err ≠ .none ∧ t.err ≠ s.err) →
    ∃ e rest, s.host = e :: rest ∧
      (e.act = .hardwareReset ∨ ∃ w, e.act = .writeReg 0 w ∧ w.toNat % 256 = 3)

/-- R255: while CORE is idle a visit changes nothing, and of the actions of HOST only a write to CMD whose OPC is 1 or 2 makes it
leave N_IDLE. -/
def Obligations.IdleIsLeftOnlyByADecodeCommand : Prop :=
  ∀ s, Lawful s → s.node = .idle →
    visit s = .next s ∧
    ∀ a t, hostAct a s = .next t → t.node ≠ .idle →
      ∃ w, a = .writeReg 0 w ∧ (w.toNat % 256 = 1 ∨ w.toNat % 256 = 2)
end

