-- ==== Sys2Proof/Laws/Decode.lean ====
section
/-! SUPPORT. The small lemmas of the decoder's definitions: the bits of a field and their number, the extra bits and the
sign behind them. -/

namespace Sys2Proof

@[simp] theorem length_msbFirst {n : Nat} (a : BitVec n) : (msbFirst a).length = n := by simp [msbFirst]

@[simp] theorem bitsValue_nil : bitsValue [] = 0 := rfl

/-- One more bit at the end doubles the number (R118). -/
theorem bitsValue_append_singleton (bs : List Bool) (b : Bool) :
    bitsValue (bs ++ [b]) = 2 * bitsValue bs + b.toNat := by simp [bitsValue]

theorem bitsValue_lt (bs : List Bool) : bitsValue bs < 2 ^ bs.length := by
  induction bs using List.reverseRecOn with
  | nil => simp
  | append_singleton bs b ih =>
    have := Bool.toNat_le b
    rw [bitsValue_append_singleton, List.length_append, List.length_singleton, Nat.pow_succ]
    omega

/-- The first `k` bits of a field are its `k` most significant bits. -/
theorem bitsValue_range {n : Nat} (a : BitVec n) (k : Nat) (h : k ≤ n) :
    bitsValue ((List.range k).map a.getMsbD) = a.toNat / 2 ^ (n - k) := by
  induction k with
  | zero => simp [Nat.div_eq_of_lt a.isLt]
  | succ k ih =>
    rw [List.range_succ, List.map_append, List.map_singleton, bitsValue_append_singleton, ih (by omega)]
    have hk : n - k = (n - (k + 1)) + 1 := by omega
    have hb : (a.getMsbD k).toNat = a.toNat / 2 ^ (n - (k + 1)) % 2 := by
      have hm : a.getMsbD k = a.toNat.testBit (n - 1 - k) := by
        rw [BitVec.getMsbD, BitVec.getLsbD]; simp; omega
      rw [hm, Nat.toNat_testBit, show n - 1 - k = n - (k + 1) by omega]
    rw [hb, hk, Nat.pow_succ, ← Nat.div_div_eq_div_mul]
    omega

/-- The bits of a field spell the field (R118). -/
@[simp] theorem bitsValue_msbFirst {n : Nat} (a : BitVec n) : bitsValue (msbFirst a) = a.toNat := by
  rw [msbFirst, bitsValue_range a n (Nat.le_refl n)]; simp

/-- Two strings of the same length that spell the same number are the same. -/
theorem eq_of_bitsValue_eq {as bs : List Bool} (hl : as.length = bs.length) (h : bitsValue as = bitsValue bs) :
    as = bs := by
  induction as using List.reverseRecOn generalizing bs with
  | nil => exact (List.length_eq_zero_iff.mp (by simpa using hl.symm)).symm
  | append_singleton as a ih =>
    rcases List.eq_nil_or_concat bs with rfl | ⟨bs, b, rfl⟩
    · simp at hl
    · rw [List.concat_eq_append] at *
      simp only [List.length_append, List.length_singleton, Nat.add_right_cancel_iff] at hl
      rw [bitsValue_append_singleton, bitsValue_append_singleton] at h
      have ha := Bool.toNat_le a
      have hb := Bool.toNat_le b
      rw [ih hl (by omega), show a = b by cases a <;> cases b <;> simp_all <;> omega]

/-- A string of `n` bits is the field it spells. -/
theorem msbFirst_ofNat_bitsValue (bs : List Bool) : msbFirst (BitVec.ofNat bs.length (bitsValue bs)) = bs := by
  refine eq_of_bitsValue_eq (by simp) ?_
  rw [bitsValue_msbFirst, BitVec.toNat_ofNat, Nat.mod_eq_of_lt (bitsValue_lt bs)]

/-- The extra bits and the sign are read back from the front of a string (R121). -/
@[simp] theorem extraThenSign_append (a : List Bool) (s : Bool) (rest : List Bool) :
    extraThenSign a.length (a ++ s :: rest) = some (a, s, rest) := by
  simp [extraThenSign]

/-- What extraThenSign reads is the front of the string. -/
theorem extraThenSign_eq_some {n : Nat} {bs a rest : List Bool} {s : Bool} :
    extraThenSign n bs = some (a, s, rest) ↔ bs = a ++ s :: rest ∧ a.length = n := by
  constructor
  · unfold extraThenSign
    intro h
    split at h
    · next s' r hd =>
      cases h
      have hl : n < bs.length := by
        by_contra hl
        rw [List.drop_eq_nil_of_le (by omega)] at hd
        cases hd
      exact ⟨by rw [← hd, List.take_append_drop], by rw [List.length_take]; omega⟩
    · cases h
  · rintro ⟨rfl, rfl⟩
    exact extraThenSign_append a s rest

/-- The extra bits of CATk are read back (R114, R115). -/
theorem catLeaf_msbFirst {n : Nat} (mk : BitVec n → Bool → Leaf) (a : BitVec n) (s : Bool) (rest : List Bool) :
    catLeaf n mk (msbFirst a ++ s :: rest) = some (mk a s, rest) := by
  have h := extraThenSign_append (msbFirst a) s rest
  rw [length_msbFirst] at h
  simp [catLeaf, h]

end Sys2Proof
end

