-- ==== Sys2Proof/Laws/Memory.lean ====
section
/-! SUPPORT. The laws of the spaces: read after write, and every write keeps the canonical form. -/

namespace Sys2Proof.Machine.Memory

variable {α : Type}

@[simp] theorem lookup_nil (a : Nat) : lookup ([] : List (Nat × α)) a = none := rfl

theorem lookup_insert_same (m : List (Nat × α)) (a : Nat) (v : α) : lookup (insert m a v) a = some v := by
  induction m with
  | nil => simp [insert, lookup]
  | cons e m ih =>
    obtain ⟨k, w⟩ := e
    by_cases h₁ : a < k
    · simp [insert, h₁, lookup]
    · by_cases h₂ : a = k
      · simp [insert, h₂, lookup]
      · simp [insert, h₁, h₂, lookup, Ne.symm h₂, ih]

theorem lookup_insert_other {a b : Nat} (h : b ≠ a) (m : List (Nat × α)) (v : α) :
    lookup (insert m a v) b = lookup m b := by
  induction m with
  | nil => simp [insert, lookup, Ne.symm h]
  | cons e m ih =>
    obtain ⟨k, w⟩ := e
    by_cases h₁ : a < k
    · simp [insert, h₁, lookup, Ne.symm h]
    · by_cases h₂ : a = k
      · subst h₂; simp [insert, lookup, Ne.symm h]
      · simp only [insert, h₁, h₂, if_false, lookup, ih]

/-- Read after write, at the written index and at every other one. -/
theorem lookup_insert (m : List (Nat × α)) (a b : Nat) (v : α) :
    lookup (insert m a v) b = if b = a then some v else lookup m b := by
  split
  · next h => rw [h, lookup_insert_same]
  · next h => exact lookup_insert_other h m v

/-- The same where an index that is not listed reads as `d`. -/
theorem getD_insert (m : List (Nat × α)) (a b : Nat) (v d : α) :
    (lookup (insert m a v) b).getD d = if b = a then v else (lookup m b).getD d := by
  rw [lookup_insert]; split <;> rfl

/-- A write lists what it wrote and what was listed. -/
theorem mem_insert (m : List (Nat × α)) (a : Nat) (v : α) {x : Nat × α} (h : x ∈ insert m a v) :
    x = (a, v) ∨ x ∈ m := by
  induction m with
  | nil => exact Or.inl (by simpa [insert] using h)
  | cons e m ih =>
    obtain ⟨k, w⟩ := e
    unfold insert at h
    split at h
    · rcases List.mem_cons.mp h with h | h
      · exact Or.inl h
      · exact Or.inr h
    · split at h
      · rcases List.mem_cons.mp h with h | h
        · exact Or.inl h
        · exact Or.inr (List.mem_cons_of_mem _ h)
      · rcases List.mem_cons.mp h with h | h
        · exact Or.inr (h ▸ List.mem_cons_self)
        · exact (ih h).imp_right (List.mem_cons_of_mem _)

/-- A property of the listed pairs that the written pair has is kept. -/
theorem forall_mem_insert {p : Nat × α → Prop} {m : List (Nat × α)} {a : Nat} {v : α} (h : ∀ e ∈ m, p e) (hv : p (a, v)) :
    ∀ e ∈ insert m a v, p e := fun e he => (mem_insert m a v he).elim (fun h => h ▸ hv) (h e)

/-- A write keeps the canonical form. -/
theorem wf_insert (m : List (Nat × α)) (a : Nat) (v : α) (h : wf m) : wf (insert m a v) := by
  induction m with
  | nil => simp [wf, insert]
  | cons e m ih =>
    obtain ⟨k, w⟩ := e
    simp only [wf, List.map_cons, List.pairwise_cons] at h
    obtain ⟨hk, hm⟩ := h
    unfold insert
    split
    · next hlt =>
      simp only [wf, List.map_cons, List.pairwise_cons, List.mem_cons]
      exact ⟨fun b hb => hb.elim (fun e => e ▸ hlt) fun hb => hlt.trans (hk b hb), hk, hm⟩
    · next hnlt =>
      split
      · next heq =>
        simp only [wf, List.map_cons, List.pairwise_cons]
        exact ⟨fun b hb => heq ▸ hk b hb, hm⟩
      · next hne =>
        simp only [wf, List.map_cons, List.pairwise_cons]
        refine ⟨fun b hb => ?_, ih hm⟩
        obtain ⟨x, hx, rfl⟩ := List.mem_map.mp hb
        rcases mem_insert m a v hx with rfl | hx
        · omega
        · exact hk _ (List.mem_map.mpr ⟨x, hx, rfl⟩)

theorem wf_nil : wf ([] : List (Nat × α)) := List.Pairwise.nil

end Sys2Proof.Machine.Memory
end

