-- ==== Sys2Proof/Laws/State.lean ====
section
/-! SUPPORT. One lemma per field per update: what each named update of State does to each field, so that no later proof
unfolds a record update. -/

namespace Sys2Proof.Machine

/-! ## sent -/

@[simp] theorem sent_node (r : Request) (s : State) : (sent r s).node = s.node := rfl
@[simp] theorem sent_c (r : Request) (s : State) : (sent r s).c = s.c := rfl
@[simp] theorem sent_ctx (r : Request) (s : State) : (sent r s).ctx = s.ctx := rfl
@[simp] theorem sent_band (r : Request) (s : State) : (sent r s).band = s.band := rfl
@[simp] theorem sent_prow (r : Request) (s : State) : (sent r s).prow = s.prow := rfl
@[simp] theorem sent_tok (r : Request) (s : State) : (sent r s).tok = s.tok := rfl
@[simp] theorem sent_val (r : Request) (s : State) : (sent r s).val = s.val := rfl
@[simp] theorem sent_acc (r : Request) (s : State) : (sent r s).acc = s.acc := rfl
@[simp] theorem sent_xi (r : Request) (s : State) : (sent r s).xi = s.xi := rfl
@[simp] theorem sent_cmdk (r : Request) (s : State) : (sent r s).cmdk = s.cmdk := rfl
@[simp] theorem sent_busy (r : Request) (s : State) : (sent r s).busy = s.busy := rfl
@[simp] theorem sent_done (r : Request) (s : State) : (sent r s).done = s.done := rfl
@[simp] theorem sent_ovf (r : Request) (s : State) : (sent r s).ovf = s.ovf := rfl
@[simp] theorem sent_err (r : Request) (s : State) : (sent r s).err = s.err := rfl
@[simp] theorem sent_eob (r : Request) (s : State) : (sent r s).eob = s.eob := rfl
@[simp] theorem sent_enode (r : Request) (s : State) : (sent r s).enode = s.enode := rfl
@[simp] theorem sent_ec (r : Request) (s : State) : (sent r s).ec = s.ec := rfl
@[simp] theorem sent_fpar (r : Request) (s : State) : (sent r s).fpar = s.fpar := rfl
@[simp] theorem sent_txsize (r : Request) (s : State) : (sent r s).txsize = s.txsize := rfl
@[simp] theorem sent_ptype (r : Request) (s : State) : (sent r s).ptype = s.ptype := rfl
@[simp] theorem sent_ref (r : Request) (s : State) : (sent r s).ref = s.ref := rfl
@[simp] theorem sent_dqDc (r : Request) (s : State) : (sent r s).dqDc = s.dqDc := rfl
@[simp] theorem sent_dqAc (r : Request) (s : State) : (sent r s).dqAc = s.dqAc := rfl
@[simp] theorem sent_ectx (r : Request) (s : State) : (sent r s).ectx = s.ectx := rfl
@[simp] theorem sent_aoff (r : Request) (s : State) : (sent r s).aoff = s.aoff := rfl
@[simp] theorem sent_loff (r : Request) (s : State) : (sent r s).loff = s.loff := rfl
@[simp] theorem sent_pmode (r : Request) (s : State) : (sent r s).pmode = s.pmode := rfl
@[simp] theorem sent_tokc (r : Request) (s : State) : (sent r s).tokc = s.tokc := rfl
@[simp] theorem sent_coef (r : Request) (s : State) : (sent r s).coef = s.coef := rfl
@[simp] theorem sent_ctxa (r : Request) (s : State) : (sent r s).ctxa = s.ctxa := rfl
@[simp] theorem sent_ctxl (r : Request) (s : State) : (sent r s).ctxl = s.ctxl := rfl
@[simp] theorem sent_prob (r : Request) (s : State) : (sent r s).prob = s.prob := rfl
@[simp] theorem sent_cntc (r : Request) (s : State) : (sent r s).cntc = s.cntc := rfl
@[simp] theorem sent_cnte (r : Request) (s : State) : (sent r s).cnte = s.cnte := rfl
@[simp] theorem sent_par (r : Request) (s : State) : (sent r s).par = s.par := rfl
@[simp] theorem sent_scanprov (r : Request) (s : State) : (sent r s).scanprov = s.scanprov := rfl
@[simp] theorem sent_answers (r : Request) (s : State) : (sent r s).answers = s.answers.tail := rfl
@[simp] theorem sent_requests (r : Request) (s : State) : (sent r s).requests = r :: s.requests := rfl
@[simp] theorem sent_host (r : Request) (s : State) : (sent r s).host = s.host := rfl
@[simp] theorem sent_rdata (r : Request) (s : State) : (sent r s).rdata = s.rdata := rfl
@[simp] theorem sent_cmdNo (r : Request) (s : State) : (sent r s).cmdNo = s.cmdNo := rfl
@[simp] theorem sent_resetNo (r : Request) (s : State) : (sent r s).resetNo = s.resetNo := rfl
@[simp] theorem sent_tokenSteps (r : Request) (s : State) : (sent r s).tokenSteps = s.tokenSteps := rfl

/-! ## raise -/

@[simp] theorem raise_node (e : Err) (s : State) : (raise e s).node = .idle := rfl
@[simp] theorem raise_c (e : Err) (s : State) : (raise e s).c = s.c := rfl
@[simp] theorem raise_ctx (e : Err) (s : State) : (raise e s).ctx = s.ctx := rfl
@[simp] theorem raise_band (e : Err) (s : State) : (raise e s).band = s.band := rfl
@[simp] theorem raise_prow (e : Err) (s : State) : (raise e s).prow = s.prow := rfl
@[simp] theorem raise_tok (e : Err) (s : State) : (raise e s).tok = s.tok := rfl
@[simp] theorem raise_val (e : Err) (s : State) : (raise e s).val = s.val := rfl
@[simp] theorem raise_acc (e : Err) (s : State) : (raise e s).acc = s.acc := rfl
@[simp] theorem raise_xi (e : Err) (s : State) : (raise e s).xi = s.xi := rfl
@[simp] theorem raise_cmdk (e : Err) (s : State) : (raise e s).cmdk = s.cmdk := rfl
@[simp] theorem raise_busy (e : Err) (s : State) : (raise e s).busy = false := rfl
@[simp] theorem raise_done (e : Err) (s : State) : (raise e s).done = false := rfl
@[simp] theorem raise_ovf (e : Err) (s : State) : (raise e s).ovf = s.ovf := rfl
@[simp] theorem raise_err (e : Err) (s : State) : (raise e s).err = e := rfl
@[simp] theorem raise_eob (e : Err) (s : State) : (raise e s).eob = s.eob := rfl
@[simp] theorem raise_enode (e : Err) (s : State) : (raise e s).enode = if s.busy then s.node else .idle := rfl
@[simp] theorem raise_ec (e : Err) (s : State) : (raise e s).ec = if s.busy then s.c else 0#11 := rfl
@[simp] theorem raise_fpar (e : Err) (s : State) : (raise e s).fpar = s.fpar := rfl
@[simp] theorem raise_txsize (e : Err) (s : State) : (raise e s).txsize = s.txsize := rfl
@[simp] theorem raise_ptype (e : Err) (s : State) : (raise e s).ptype = s.ptype := rfl
@[simp] theorem raise_ref (e : Err) (s : State) : (raise e s).ref = s.ref := rfl
@[simp] theorem raise_dqDc (e : Err) (s : State) : (raise e s).dqDc = s.dqDc := rfl
@[simp] theorem raise_dqAc (e : Err) (s : State) : (raise e s).dqAc = s.dqAc := rfl
@[simp] theorem raise_ectx (e : Err) (s : State) : (raise e s).ectx = s.ectx := rfl
@[simp] theorem raise_aoff (e : Err) (s : State) : (raise e s).aoff = s.aoff := rfl
@[simp] theorem raise_loff (e : Err) (s : State) : (raise e s).loff = s.loff := rfl
@[simp] theorem raise_pmode (e : Err) (s : State) : (raise e s).pmode = s.pmode := rfl
@[simp] theorem raise_tokc (e : Err) (s : State) : (raise e s).tokc = s.tokc := rfl
@[simp] theorem raise_coef (e : Err) (s : State) : (raise e s).coef = s.coef := rfl
@[simp] theorem raise_ctxa (e : Err) (s : State) : (raise e s).ctxa = s.ctxa := rfl
@[simp] theorem raise_ctxl (e : Err) (s : State) : (raise e s).ctxl = s.ctxl := rfl
@[simp] theorem raise_prob (e : Err) (s : State) : (raise e s).prob = s.prob := rfl
@[simp] theorem raise_cntc (e : Err) (s : State) : (raise e s).cntc = s.cntc := rfl
@[simp] theorem raise_cnte (e : Err) (s : State) : (raise e s).cnte = s.cnte := rfl
@[simp] theorem raise_par (e : Err) (s : State) : (raise e s).par = s.par := rfl
@[simp] theorem raise_scanprov (e : Err) (s : State) : (raise e s).scanprov = s.scanprov := rfl
@[simp] theorem raise_answers (e : Err) (s : State) : (raise e s).answers = s.answers := rfl
@[simp] theorem raise_requests (e : Err) (s : State) : (raise e s).requests = s.requests := rfl
@[simp] theorem raise_host (e : Err) (s : State) : (raise e s).host = s.host := rfl
@[simp] theorem raise_rdata (e : Err) (s : State) : (raise e s).rdata = s.rdata := rfl
@[simp] theorem raise_cmdNo (e : Err) (s : State) : (raise e s).cmdNo = s.cmdNo := rfl
@[simp] theorem raise_resetNo (e : Err) (s : State) : (raise e s).resetNo = s.resetNo := rfl
@[simp] theorem raise_tokenSteps (e : Err) (s : State) : (raise e s).tokenSteps = s.tokenSteps := rfl

/-! ## clearCore -/

@[simp] theorem clearCore_node (s : State) : (clearCore s).node = .idle := rfl
@[simp] theorem clearCore_c (s : State) : (clearCore s).c = 0#11 := rfl
@[simp] theorem clearCore_ctx (s : State) : (clearCore s).ctx = 0#3 := rfl
@[simp] theorem clearCore_band (s : State) : (clearCore s).band = 0#3 := rfl
@[simp] theorem clearCore_prow (s : State) : (clearCore s).prow = 0 := rfl
@[simp] theorem clearCore_tok (s : State) : (clearCore s).tok = .zero := rfl
@[simp] theorem clearCore_val (s : State) : (clearCore s).val = 0 := rfl
@[simp] theorem clearCore_acc (s : State) : (clearCore s).acc = 0 := rfl
@[simp] theorem clearCore_xi (s : State) : (clearCore s).xi = 0 := rfl
@[simp] theorem clearCore_cmdk (s : State) : (clearCore s).cmdk = 0#1 := rfl
@[simp] theorem clearCore_busy (s : State) : (clearCore s).busy = false := rfl
@[simp] theorem clearCore_done (s : State) : (clearCore s).done = false := rfl
@[simp] theorem clearCore_ovf (s : State) : (clearCore s).ovf = false := rfl
@[simp] theorem clearCore_err (s : State) : (clearCore s).err = .none := rfl
@[simp] theorem clearCore_eob (s : State) : (clearCore s).eob = 0#11 := rfl
@[simp] theorem clearCore_enode (s : State) : (clearCore s).enode = .idle := rfl
@[simp] theorem clearCore_ec (s : State) : (clearCore s).ec = 0#11 := rfl
@[simp] theorem clearCore_fpar (s : State) : (clearCore s).fpar = s.fpar := rfl
@[simp] theorem clearCore_txsize (s : State) : (clearCore s).txsize = s.txsize := rfl
@[simp] theorem clearCore_ptype (s : State) : (clearCore s).ptype = s.ptype := rfl
@[simp] theorem clearCore_ref (s : State) : (clearCore s).ref = s.ref := rfl
@[simp] theorem clearCore_dqDc (s : State) : (clearCore s).dqDc = s.dqDc := rfl
@[simp] theorem clearCore_dqAc (s : State) : (clearCore s).dqAc = s.dqAc := rfl
@[simp] theorem clearCore_ectx (s : State) : (clearCore s).ectx = s.ectx := rfl
@[simp] theorem clearCore_aoff (s : State) : (clearCore s).aoff = s.aoff := rfl
@[simp] theorem clearCore_loff (s : State) : (clearCore s).loff = s.loff := rfl
@[simp] theorem clearCore_pmode (s : State) : (clearCore s).pmode = s.pmode := rfl
@[simp] theorem clearCore_tokc (s : State) : (clearCore s).tokc = s.tokc := rfl
@[simp] theorem clearCore_coef (s : State) : (clearCore s).coef = s.coef := rfl
@[simp] theorem clearCore_ctxa (s : State) : (clearCore s).ctxa = s.ctxa := rfl
@[simp] theorem clearCore_ctxl (s : State) : (clearCore s).ctxl = s.ctxl := rfl
@[simp] theorem clearCore_prob (s : State) : (clearCore s).prob = s.prob := rfl
@[simp] theorem clearCore_cntc (s : State) : (clearCore s).cntc = s.cntc := rfl
@[simp] theorem clearCore_cnte (s : State) : (clearCore s).cnte = s.cnte := rfl
@[simp] theorem clearCore_par (s : State) : (clearCore s).par = s.par := rfl
@[simp] theorem clearCore_scanprov (s : State) : (clearCore s).scanprov = s.scanprov := rfl
@[simp] theorem clearCore_answers (s : State) : (clearCore s).answers = s.answers := rfl
@[simp] theorem clearCore_requests (s : State) : (clearCore s).requests = s.requests := rfl
@[simp] theorem clearCore_host (s : State) : (clearCore s).host = s.host := rfl
@[simp] theorem clearCore_rdata (s : State) : (clearCore s).rdata = s.rdata := rfl
@[simp] theorem clearCore_cmdNo (s : State) : (clearCore s).cmdNo = s.cmdNo := rfl
@[simp] theorem clearCore_resetNo (s : State) : (clearCore s).resetNo = s.resetNo := rfl
@[simp] theorem clearCore_tokenSteps (s : State) : (clearCore s).tokenSteps = s.tokenSteps := rfl

/-! ## bandsel -/

@[simp] theorem bandsel_node (i : Nat) (s : State) : (bandsel i s).node = s.node := rfl
@[simp] theorem bandsel_c (i : Nat) (s : State) : (bandsel i s).c = s.c := rfl
@[simp] theorem bandsel_ctx (i : Nat) (s : State) : (bandsel i s).ctx = s.ctx := rfl
@[simp] theorem bandsel_band (i : Nat) (s : State) : (bandsel i s).band = bandAt s i := rfl
@[simp] theorem bandsel_prow (i : Nat) (s : State) : (bandsel i s).prow = s.prow := rfl
@[simp] theorem bandsel_tok (i : Nat) (s : State) : (bandsel i s).tok = s.tok := rfl
@[simp] theorem bandsel_val (i : Nat) (s : State) : (bandsel i s).val = s.val := rfl
@[simp] theorem bandsel_acc (i : Nat) (s : State) : (bandsel i s).acc = s.acc := rfl
@[simp] theorem bandsel_xi (i : Nat) (s : State) : (bandsel i s).xi = s.xi := rfl
@[simp] theorem bandsel_cmdk (i : Nat) (s : State) : (bandsel i s).cmdk = s.cmdk := rfl
@[simp] theorem bandsel_busy (i : Nat) (s : State) : (bandsel i s).busy = s.busy := rfl
@[simp] theorem bandsel_done (i : Nat) (s : State) : (bandsel i s).done = s.done := rfl
@[simp] theorem bandsel_ovf (i : Nat) (s : State) : (bandsel i s).ovf = s.ovf := rfl
@[simp] theorem bandsel_err (i : Nat) (s : State) : (bandsel i s).err = s.err := rfl
@[simp] theorem bandsel_eob (i : Nat) (s : State) : (bandsel i s).eob = s.eob := rfl
@[simp] theorem bandsel_enode (i : Nat) (s : State) : (bandsel i s).enode = s.enode := rfl
@[simp] theorem bandsel_ec (i : Nat) (s : State) : (bandsel i s).ec = s.ec := rfl
@[simp] theorem bandsel_fpar (i : Nat) (s : State) : (bandsel i s).fpar = s.fpar := rfl
@[simp] theorem bandsel_txsize (i : Nat) (s : State) : (bandsel i s).txsize = s.txsize := rfl
@[simp] theorem bandsel_ptype (i : Nat) (s : State) : (bandsel i s).ptype = s.ptype := rfl
@[simp] theorem bandsel_ref (i : Nat) (s : State) : (bandsel i s).ref = s.ref := rfl
@[simp] theorem bandsel_dqDc (i : Nat) (s : State) : (bandsel i s).dqDc = s.dqDc := rfl
@[simp] theorem bandsel_dqAc (i : Nat) (s : State) : (bandsel i s).dqAc = s.dqAc := rfl
@[simp] theorem bandsel_ectx (i : Nat) (s : State) : (bandsel i s).ectx = s.ectx := rfl
@[simp] theorem bandsel_aoff (i : Nat) (s : State) : (bandsel i s).aoff = s.aoff := rfl
@[simp] theorem bandsel_loff (i : Nat) (s : State) : (bandsel i s).loff = s.loff := rfl
@[simp] theorem bandsel_pmode (i : Nat) (s : State) : (bandsel i s).pmode = s.pmode := rfl
@[simp] theorem bandsel_tokc (i : Nat) (s : State) : (bandsel i s).tokc = s.tokc := rfl
@[simp] theorem bandsel_coef (i : Nat) (s : State) : (bandsel i s).coef = s.coef := rfl
@[simp] theorem bandsel_ctxa (i : Nat) (s : State) : (bandsel i s).ctxa = s.ctxa := rfl
@[simp] theorem bandsel_ctxl (i : Nat) (s : State) : (bandsel i s).ctxl = s.ctxl := rfl
@[simp] theorem bandsel_prob (i : Nat) (s : State) : (bandsel i s).prob = s.prob := rfl
@[simp] theorem bandsel_cntc (i : Nat) (s : State) : (bandsel i s).cntc = s.cntc := rfl
@[simp] theorem bandsel_cnte (i : Nat) (s : State) : (bandsel i s).cnte = s.cnte := rfl
@[simp] theorem bandsel_par (i : Nat) (s : State) : (bandsel i s).par = s.par := rfl
@[simp] theorem bandsel_scanprov (i : Nat) (s : State) : (bandsel i s).scanprov = s.scanprov := rfl
@[simp] theorem bandsel_answers (i : Nat) (s : State) : (bandsel i s).answers = s.answers := rfl
@[simp] theorem bandsel_requests (i : Nat) (s : State) : (bandsel i s).requests = s.requests := rfl
@[simp] theorem bandsel_host (i : Nat) (s : State) : (bandsel i s).host = s.host := rfl
@[simp] theorem bandsel_rdata (i : Nat) (s : State) : (bandsel i s).rdata = s.rdata := rfl
@[simp] theorem bandsel_cmdNo (i : Nat) (s : State) : (bandsel i s).cmdNo = s.cmdNo := rfl
@[simp] theorem bandsel_resetNo (i : Nat) (s : State) : (bandsel i s).resetNo = s.resetNo := rfl
@[simp] theorem bandsel_tokenSteps (i : Nat) (s : State) : (bandsel i s).tokenSteps = s.tokenSteps := rfl

/-! ## storeCoef -/

@[simp] theorem storeCoef_node (p : Nat) (v : Coef) (s : State) : (storeCoef p v s).node = s.node := rfl
@[simp] theorem storeCoef_c (p : Nat) (v : Coef) (s : State) : (storeCoef p v s).c = s.c := rfl
@[simp] theorem storeCoef_ctx (p : Nat) (v : Coef) (s : State) : (storeCoef p v s).ctx = s.ctx := rfl
@[simp] theorem storeCoef_band (p : Nat) (v : Coef) (s : State) : (storeCoef p v s).band = s.band := rfl
@[simp] theorem storeCoef_prow (p : Nat) (v : Coef) (s : State) : (storeCoef p v s).prow = s.prow := rfl
@[simp] theorem storeCoef_tok (p : Nat) (v : Coef) (s : State) : (storeCoef p v s).tok = s.tok := rfl
@[simp] theorem storeCoef_val (p : Nat) (v : Coef) (s : State) : (storeCoef p v s).val = s.val := rfl
@[simp] theorem storeCoef_acc (p : Nat) (v : Coef) (s : State) : (storeCoef p v s).acc = s.acc := rfl
@[simp] theorem storeCoef_xi (p : Nat) (v : Coef) (s : State) : (storeCoef p v s).xi = s.xi := rfl
@[simp] theorem storeCoef_cmdk (p : Nat) (v : Coef) (s : State) : (storeCoef p v s).cmdk = s.cmdk := rfl
@[simp] theorem storeCoef_busy (p : Nat) (v : Coef) (s : State) : (storeCoef p v s).busy = s.busy := rfl
@[simp] theorem storeCoef_done (p : Nat) (v : Coef) (s : State) : (storeCoef p v s).done = s.done := rfl
@[simp] theorem storeCoef_ovf (p : Nat) (v : Coef) (s : State) : (storeCoef p v s).ovf = s.ovf := rfl
@[simp] theorem storeCoef_err (p : Nat) (v : Coef) (s : State) : (storeCoef p v s).err = s.err := rfl
@[simp] theorem storeCoef_eob (p : Nat) (v : Coef) (s : State) : (storeCoef p v s).eob = s.eob := rfl
@[simp] theorem storeCoef_enode (p : Nat) (v : Coef) (s : State) : (storeCoef p v s).enode = s.enode := rfl
@[simp] theorem storeCoef_ec (p : Nat) (v : Coef) (s : State) : (storeCoef p v s).ec = s.ec := rfl
@[simp] theorem storeCoef_fpar (p : Nat) (v : Coef) (s : State) : (storeCoef p v s).fpar = s.fpar := rfl
@[simp] theorem storeCoef_txsize (p : Nat) (v : Coef) (s : State) : (storeCoef p v s).txsize = s.txsize := rfl
@[simp] theorem storeCoef_ptype (p : Nat) (v : Coef) (s : State) : (storeCoef p v s).ptype = s.ptype := rfl
@[simp] theorem storeCoef_ref (p : Nat) (v : Coef) (s : State) : (storeCoef p v s).ref = s.ref := rfl
@[simp] theorem storeCoef_dqDc (p : Nat) (v : Coef) (s : State) : (storeCoef p v s).dqDc = s.dqDc := rfl
@[simp] theorem storeCoef_dqAc (p : Nat) (v : Coef) (s : State) : (storeCoef p v s).dqAc = s.dqAc := rfl
@[simp] theorem storeCoef_ectx (p : Nat) (v : Coef) (s : State) : (storeCoef p v s).ectx = s.ectx := rfl
@[simp] theorem storeCoef_aoff (p : Nat) (v : Coef) (s : State) : (storeCoef p v s).aoff = s.aoff := rfl
@[simp] theorem storeCoef_loff (p : Nat) (v : Coef) (s : State) : (storeCoef p v s).loff = s.loff := rfl
@[simp] theorem storeCoef_pmode (p : Nat) (v : Coef) (s : State) : (storeCoef p v s).pmode = s.pmode := rfl
@[simp] theorem storeCoef_tokc (p : Nat) (v : Coef) (s : State) : (storeCoef p v s).tokc = s.tokc := rfl
@[simp] theorem storeCoef_coef (p : Nat) (v : Coef) (s : State) : (storeCoef p v s).coef = Memory.insert s.coef p v := rfl
@[simp] theorem storeCoef_ctxa (p : Nat) (v : Coef) (s : State) : (storeCoef p v s).ctxa = s.ctxa := rfl
@[simp] theorem storeCoef_ctxl (p : Nat) (v : Coef) (s : State) : (storeCoef p v s).ctxl = s.ctxl := rfl
@[simp] theorem storeCoef_prob (p : Nat) (v : Coef) (s : State) : (storeCoef p v s).prob = s.prob := rfl
@[simp] theorem storeCoef_cntc (p : Nat) (v : Coef) (s : State) : (storeCoef p v s).cntc = s.cntc := rfl
@[simp] theorem storeCoef_cnte (p : Nat) (v : Coef) (s : State) : (storeCoef p v s).cnte = s.cnte := rfl
@[simp] theorem storeCoef_par (p : Nat) (v : Coef) (s : State) : (storeCoef p v s).par = s.par := rfl
@[simp] theorem storeCoef_scanprov (p : Nat) (v : Coef) (s : State) : (storeCoef p v s).scanprov = s.scanprov := rfl
@[simp] theorem storeCoef_answers (p : Nat) (v : Coef) (s : State) : (storeCoef p v s).answers = s.answers := rfl
@[simp] theorem storeCoef_requests (p : Nat) (v : Coef) (s : State) : (storeCoef p v s).requests = s.requests := rfl
@[simp] theorem storeCoef_host (p : Nat) (v : Coef) (s : State) : (storeCoef p v s).host = s.host := rfl
@[simp] theorem storeCoef_rdata (p : Nat) (v : Coef) (s : State) : (storeCoef p v s).rdata = s.rdata := rfl
@[simp] theorem storeCoef_cmdNo (p : Nat) (v : Coef) (s : State) : (storeCoef p v s).cmdNo = s.cmdNo := rfl
@[simp] theorem storeCoef_resetNo (p : Nat) (v : Coef) (s : State) : (storeCoef p v s).resetNo = s.resetNo := rfl
@[simp] theorem storeCoef_tokenSteps (p : Nat) (v : Coef) (s : State) : (storeCoef p v s).tokenSteps = s.tokenSteps := rfl

/-! ## storeToken -/

@[simp] theorem storeToken_node (p : Nat) (k : Token) (s : State) : (storeToken p k s).node = s.node := rfl
@[simp] theorem storeToken_c (p : Nat) (k : Token) (s : State) : (storeToken p k s).c = s.c := rfl
@[simp] theorem storeToken_ctx (p : Nat) (k : Token) (s : State) : (storeToken p k s).ctx = s.ctx := rfl
@[simp] theorem storeToken_band (p : Nat) (k : Token) (s : State) : (storeToken p k s).band = s.band := rfl
@[simp] theorem storeToken_prow (p : Nat) (k : Token) (s : State) : (storeToken p k s).prow = s.prow := rfl
@[simp] theorem storeToken_tok (p : Nat) (k : Token) (s : State) : (storeToken p k s).tok = s.tok := rfl
@[simp] theorem storeToken_val (p : Nat) (k : Token) (s : State) : (storeToken p k s).val = s.val := rfl
@[simp] theorem storeToken_acc (p : Nat) (k : Token) (s : State) : (storeToken p k s).acc = s.acc := rfl
@[simp] theorem storeToken_xi (p : Nat) (k : Token) (s : State) : (storeToken p k s).xi = s.xi := rfl
@[simp] theorem storeToken_cmdk (p : Nat) (k : Token) (s : State) : (storeToken p k s).cmdk = s.cmdk := rfl
@[simp] theorem storeToken_busy (p : Nat) (k : Token) (s : State) : (storeToken p k s).busy = s.busy := rfl
@[simp] theorem storeToken_done (p : Nat) (k : Token) (s : State) : (storeToken p k s).done = s.done := rfl
@[simp] theorem storeToken_ovf (p : Nat) (k : Token) (s : State) : (storeToken p k s).ovf = s.ovf := rfl
@[simp] theorem storeToken_err (p : Nat) (k : Token) (s : State) : (storeToken p k s).err = s.err := rfl
@[simp] theorem storeToken_eob (p : Nat) (k : Token) (s : State) : (storeToken p k s).eob = s.eob := rfl
@[simp] theorem storeToken_enode (p : Nat) (k : Token) (s : State) : (storeToken p k s).enode = s.enode := rfl
@[simp] theorem storeToken_ec (p : Nat) (k : Token) (s : State) : (storeToken p k s).ec = s.ec := rfl
@[simp] theorem storeToken_fpar (p : Nat) (k : Token) (s : State) : (storeToken p k s).fpar = s.fpar := rfl
@[simp] theorem storeToken_txsize (p : Nat) (k : Token) (s : State) : (storeToken p k s).txsize = s.txsize := rfl
@[simp] theorem storeToken_ptype (p : Nat) (k : Token) (s : State) : (storeToken p k s).ptype = s.ptype := rfl
@[simp] theorem storeToken_ref (p : Nat) (k : Token) (s : State) : (storeToken p k s).ref = s.ref := rfl
@[simp] theorem storeToken_dqDc (p : Nat) (k : Token) (s : State) : (storeToken p k s).dqDc = s.dqDc := rfl
@[simp] theorem storeToken_dqAc (p : Nat) (k : Token) (s : State) : (storeToken p k s).dqAc = s.dqAc := rfl
@[simp] theorem storeToken_ectx (p : Nat) (k : Token) (s : State) : (storeToken p k s).ectx = s.ectx := rfl
@[simp] theorem storeToken_aoff (p : Nat) (k : Token) (s : State) : (storeToken p k s).aoff = s.aoff := rfl
@[simp] theorem storeToken_loff (p : Nat) (k : Token) (s : State) : (storeToken p k s).loff = s.loff := rfl
@[simp] theorem storeToken_pmode (p : Nat) (k : Token) (s : State) : (storeToken p k s).pmode = s.pmode := rfl
@[simp] theorem storeToken_tokc (p : Nat) (k : Token) (s : State) : (storeToken p k s).tokc = Memory.insert s.tokc p ⟨energyOf s k, s.cmdNo⟩ := rfl
@[simp] theorem storeToken_coef (p : Nat) (k : Token) (s : State) : (storeToken p k s).coef = s.coef := rfl
@[simp] theorem storeToken_ctxa (p : Nat) (k : Token) (s : State) : (storeToken p k s).ctxa = s.ctxa := rfl
@[simp] theorem storeToken_ctxl (p : Nat) (k : Token) (s : State) : (storeToken p k s).ctxl = s.ctxl := rfl
@[simp] theorem storeToken_prob (p : Nat) (k : Token) (s : State) : (storeToken p k s).prob = s.prob := rfl
@[simp] theorem storeToken_cntc (p : Nat) (k : Token) (s : State) : (storeToken p k s).cntc = s.cntc := rfl
@[simp] theorem storeToken_cnte (p : Nat) (k : Token) (s : State) : (storeToken p k s).cnte = s.cnte := rfl
@[simp] theorem storeToken_par (p : Nat) (k : Token) (s : State) : (storeToken p k s).par = s.par := rfl
@[simp] theorem storeToken_scanprov (p : Nat) (k : Token) (s : State) : (storeToken p k s).scanprov = s.scanprov := rfl
@[simp] theorem storeToken_answers (p : Nat) (k : Token) (s : State) : (storeToken p k s).answers = s.answers := rfl
@[simp] theorem storeToken_requests (p : Nat) (k : Token) (s : State) : (storeToken p k s).requests = s.requests := rfl
@[simp] theorem storeToken_host (p : Nat) (k : Token) (s : State) : (storeToken p k s).host = s.host := rfl
@[simp] theorem storeToken_rdata (p : Nat) (k : Token) (s : State) : (storeToken p k s).rdata = s.rdata := rfl
@[simp] theorem storeToken_cmdNo (p : Nat) (k : Token) (s : State) : (storeToken p k s).cmdNo = s.cmdNo := rfl
@[simp] theorem storeToken_resetNo (p : Nat) (k : Token) (s : State) : (storeToken p k s).resetNo = s.resetNo := rfl
@[simp] theorem storeToken_tokenSteps (p : Nat) (k : Token) (s : State) : (storeToken p k s).tokenSteps = s.tokenSteps := rfl

/-! ## startCommand -/

@[simp] theorem startCommand_node (k : BitVec 1) (s : State) : (startCommand k s).node = s.node := rfl
@[simp] theorem startCommand_c (k : BitVec 1) (s : State) : (startCommand k s).c = 0#11 := rfl
@[simp] theorem startCommand_ctx (k : BitVec 1) (s : State) : (startCommand k s).ctx = s.ctx := rfl
@[simp] theorem startCommand_band (k : BitVec 1) (s : State) : (startCommand k s).band = s.band := rfl
@[simp] theorem startCommand_prow (k : BitVec 1) (s : State) : (startCommand k s).prow = s.prow := rfl
@[simp] theorem startCommand_tok (k : BitVec 1) (s : State) : (startCommand k s).tok = s.tok := rfl
@[simp] theorem startCommand_val (k : BitVec 1) (s : State) : (startCommand k s).val = s.val := rfl
@[simp] theorem startCommand_acc (k : BitVec 1) (s : State) : (startCommand k s).acc = s.acc := rfl
@[simp] theorem startCommand_xi (k : BitVec 1) (s : State) : (startCommand k s).xi = s.xi := rfl
@[simp] theorem startCommand_cmdk (k : BitVec 1) (s : State) : (startCommand k s).cmdk = k := rfl
@[simp] theorem startCommand_busy (k : BitVec 1) (s : State) : (startCommand k s).busy = true := rfl
@[simp] theorem startCommand_done (k : BitVec 1) (s : State) : (startCommand k s).done = false := rfl
@[simp] theorem startCommand_ovf (k : BitVec 1) (s : State) : (startCommand k s).ovf = s.ovf := rfl
@[simp] theorem startCommand_err (k : BitVec 1) (s : State) : (startCommand k s).err = s.err := rfl
@[simp] theorem startCommand_eob (k : BitVec 1) (s : State) : (startCommand k s).eob = s.eob := rfl
@[simp] theorem startCommand_enode (k : BitVec 1) (s : State) : (startCommand k s).enode = s.enode := rfl
@[simp] theorem startCommand_ec (k : BitVec 1) (s : State) : (startCommand k s).ec = s.ec := rfl
@[simp] theorem startCommand_fpar (k : BitVec 1) (s : State) : (startCommand k s).fpar = s.fpar := rfl
@[simp] theorem startCommand_txsize (k : BitVec 1) (s : State) : (startCommand k s).txsize = s.txsize := rfl
@[simp] theorem startCommand_ptype (k : BitVec 1) (s : State) : (startCommand k s).ptype = s.ptype := rfl
@[simp] theorem startCommand_ref (k : BitVec 1) (s : State) : (startCommand k s).ref = s.ref := rfl
@[simp] theorem startCommand_dqDc (k : BitVec 1) (s : State) : (startCommand k s).dqDc = s.dqDc := rfl
@[simp] theorem startCommand_dqAc (k : BitVec 1) (s : State) : (startCommand k s).dqAc = s.dqAc := rfl
@[simp] theorem startCommand_ectx (k : BitVec 1) (s : State) : (startCommand k s).ectx = s.ectx := rfl
@[simp] theorem startCommand_aoff (k : BitVec 1) (s : State) : (startCommand k s).aoff = s.aoff := rfl
@[simp] theorem startCommand_loff (k : BitVec 1) (s : State) : (startCommand k s).loff = s.loff := rfl
@[simp] theorem startCommand_pmode (k : BitVec 1) (s : State) : (startCommand k s).pmode = s.pmode := rfl
@[simp] theorem startCommand_tokc (k : BitVec 1) (s : State) : (startCommand k s).tokc = s.tokc := rfl
@[simp] theorem startCommand_coef (k : BitVec 1) (s : State) : (startCommand k s).coef = s.coef := rfl
@[simp] theorem startCommand_ctxa (k : BitVec 1) (s : State) : (startCommand k s).ctxa = s.ctxa := rfl
@[simp] theorem startCommand_ctxl (k : BitVec 1) (s : State) : (startCommand k s).ctxl = s.ctxl := rfl
@[simp] theorem startCommand_prob (k : BitVec 1) (s : State) : (startCommand k s).prob = s.prob := rfl
@[simp] theorem startCommand_cntc (k : BitVec 1) (s : State) : (startCommand k s).cntc = s.cntc := rfl
@[simp] theorem startCommand_cnte (k : BitVec 1) (s : State) : (startCommand k s).cnte = s.cnte := rfl
@[simp] theorem startCommand_par (k : BitVec 1) (s : State) : (startCommand k s).par = s.par := rfl
@[simp] theorem startCommand_scanprov (k : BitVec 1) (s : State) : (startCommand k s).scanprov = { s.scanprov with selected := ⟨s.txsize, s.ptype, s.pmode⟩ } := rfl
@[simp] theorem startCommand_answers (k : BitVec 1) (s : State) : (startCommand k s).answers = s.answers := rfl
@[simp] theorem startCommand_requests (k : BitVec 1) (s : State) : (startCommand k s).requests = s.requests := rfl
@[simp] theorem startCommand_host (k : BitVec 1) (s : State) : (startCommand k s).host = s.host := rfl
@[simp] theorem startCommand_rdata (k : BitVec 1) (s : State) : (startCommand k s).rdata = s.rdata := rfl
@[simp] theorem startCommand_cmdNo (k : BitVec 1) (s : State) : (startCommand k s).cmdNo = s.cmdNo + 1 := rfl
@[simp] theorem startCommand_resetNo (k : BitVec 1) (s : State) : (startCommand k s).resetNo = s.resetNo := rfl
@[simp] theorem startCommand_tokenSteps (k : BitVec 1) (s : State) : (startCommand k s).tokenSteps = s.tokenSteps := rfl

/-! ## startExtra -/

@[simp] theorem startExtra_node (k : Token) (n : Nat) (s : State) : (startExtra k n s).node = .extra := rfl
@[simp] theorem startExtra_c (k : Token) (n : Nat) (s : State) : (startExtra k n s).c = s.c := rfl
@[simp] theorem startExtra_ctx (k : Token) (n : Nat) (s : State) : (startExtra k n s).ctx = s.ctx := rfl
@[simp] theorem startExtra_band (k : Token) (n : Nat) (s : State) : (startExtra k n s).band = s.band := rfl
@[simp] theorem startExtra_prow (k : Token) (n : Nat) (s : State) : (startExtra k n s).prow = s.prow := rfl
@[simp] theorem startExtra_tok (k : Token) (n : Nat) (s : State) : (startExtra k n s).tok = k := rfl
@[simp] theorem startExtra_val (k : Token) (n : Nat) (s : State) : (startExtra k n s).val = catMin n := rfl
@[simp] theorem startExtra_acc (k : Token) (n : Nat) (s : State) : (startExtra k n s).acc = s.acc := rfl
@[simp] theorem startExtra_xi (k : Token) (n : Nat) (s : State) : (startExtra k n s).xi = 0 := rfl
@[simp] theorem startExtra_cmdk (k : Token) (n : Nat) (s : State) : (startExtra k n s).cmdk = s.cmdk := rfl
@[simp] theorem startExtra_busy (k : Token) (n : Nat) (s : State) : (startExtra k n s).busy = s.busy := rfl
@[simp] theorem startExtra_done (k : Token) (n : Nat) (s : State) : (startExtra k n s).done = s.done := rfl
@[simp] theorem startExtra_ovf (k : Token) (n : Nat) (s : State) : (startExtra k n s).ovf = s.ovf := rfl
@[simp] theorem startExtra_err (k : Token) (n : Nat) (s : State) : (startExtra k n s).err = s.err := rfl
@[simp] theorem startExtra_eob (k : Token) (n : Nat) (s : State) : (startExtra k n s).eob = s.eob := rfl
@[simp] theorem startExtra_enode (k : Token) (n : Nat) (s : State) : (startExtra k n s).enode = s.enode := rfl
@[simp] theorem startExtra_ec (k : Token) (n : Nat) (s : State) : (startExtra k n s).ec = s.ec := rfl
@[simp] theorem startExtra_fpar (k : Token) (n : Nat) (s : State) : (startExtra k n s).fpar = s.fpar := rfl
@[simp] theorem startExtra_txsize (k : Token) (n : Nat) (s : State) : (startExtra k n s).txsize = s.txsize := rfl
@[simp] theorem startExtra_ptype (k : Token) (n : Nat) (s : State) : (startExtra k n s).ptype = s.ptype := rfl
@[simp] theorem startExtra_ref (k : Token) (n : Nat) (s : State) : (startExtra k n s).ref = s.ref := rfl
@[simp] theorem startExtra_dqDc (k : Token) (n : Nat) (s : State) : (startExtra k n s).dqDc = s.dqDc := rfl
@[simp] theorem startExtra_dqAc (k : Token) (n : Nat) (s : State) : (startExtra k n s).dqAc = s.dqAc := rfl
@[simp] theorem startExtra_ectx (k : Token) (n : Nat) (s : State) : (startExtra k n s).ectx = s.ectx := rfl
@[simp] theorem startExtra_aoff (k : Token) (n : Nat) (s : State) : (startExtra k n s).aoff = s.aoff := rfl
@[simp] theorem startExtra_loff (k : Token) (n : Nat) (s : State) : (startExtra k n s).loff = s.loff := rfl
@[simp] theorem startExtra_pmode (k : Token) (n : Nat) (s : State) : (startExtra k n s).pmode = s.pmode := rfl
@[simp] theorem startExtra_tokc (k : Token) (n : Nat) (s : State) : (startExtra k n s).tokc = s.tokc := rfl
@[simp] theorem startExtra_coef (k : Token) (n : Nat) (s : State) : (startExtra k n s).coef = s.coef := rfl
@[simp] theorem startExtra_ctxa (k : Token) (n : Nat) (s : State) : (startExtra k n s).ctxa = s.ctxa := rfl
@[simp] theorem startExtra_ctxl (k : Token) (n : Nat) (s : State) : (startExtra k n s).ctxl = s.ctxl := rfl
@[simp] theorem startExtra_prob (k : Token) (n : Nat) (s : State) : (startExtra k n s).prob = s.prob := rfl
@[simp] theorem startExtra_cntc (k : Token) (n : Nat) (s : State) : (startExtra k n s).cntc = s.cntc := rfl
@[simp] theorem startExtra_cnte (k : Token) (n : Nat) (s : State) : (startExtra k n s).cnte = s.cnte := rfl
@[simp] theorem startExtra_par (k : Token) (n : Nat) (s : State) : (startExtra k n s).par = s.par := rfl
@[simp] theorem startExtra_scanprov (k : Token) (n : Nat) (s : State) : (startExtra k n s).scanprov = s.scanprov := rfl
@[simp] theorem startExtra_answers (k : Token) (n : Nat) (s : State) : (startExtra k n s).answers = s.answers := rfl
@[simp] theorem startExtra_requests (k : Token) (n : Nat) (s : State) : (startExtra k n s).requests = s.requests := rfl
@[simp] theorem startExtra_host (k : Token) (n : Nat) (s : State) : (startExtra k n s).host = s.host := rfl
@[simp] theorem startExtra_rdata (k : Token) (n : Nat) (s : State) : (startExtra k n s).rdata = s.rdata := rfl
@[simp] theorem startExtra_cmdNo (k : Token) (n : Nat) (s : State) : (startExtra k n s).cmdNo = s.cmdNo := rfl
@[simp] theorem startExtra_resetNo (k : Token) (n : Nat) (s : State) : (startExtra k n s).resetNo = s.resetNo := rfl
@[simp] theorem startExtra_tokenSteps (k : Token) (n : Nat) (s : State) : (startExtra k n s).tokenSteps = s.tokenSteps := rfl

/-! ## goto -/

@[simp] theorem goto_node (n : Node) (s : State) : (goto n s).node = n := rfl
@[simp] theorem goto_c (n : Node) (s : State) : (goto n s).c = s.c := rfl
@[simp] theorem goto_ctx (n : Node) (s : State) : (goto n s).ctx = s.ctx := rfl
@[simp] theorem goto_band (n : Node) (s : State) : (goto n s).band = s.band := rfl
@[simp] theorem goto_prow (n : Node) (s : State) : (goto n s).prow = s.prow := rfl
@[simp] theorem goto_tok (n : Node) (s : State) : (goto n s).tok = s.tok := rfl
@[simp] theorem goto_val (n : Node) (s : State) : (goto n s).val = s.val := rfl
@[simp] theorem goto_acc (n : Node) (s : State) : (goto n s).acc = s.acc := rfl
@[simp] theorem goto_xi (n : Node) (s : State) : (goto n s).xi = s.xi := rfl
@[simp] theorem goto_cmdk (n : Node) (s : State) : (goto n s).cmdk = s.cmdk := rfl
@[simp] theorem goto_busy (n : Node) (s : State) : (goto n s).busy = s.busy := rfl
@[simp] theorem goto_done (n : Node) (s : State) : (goto n s).done = s.done := rfl
@[simp] theorem goto_ovf (n : Node) (s : State) : (goto n s).ovf = s.ovf := rfl
@[simp] theorem goto_err (n : Node) (s : State) : (goto n s).err = s.err := rfl
@[simp] theorem goto_eob (n : Node) (s : State) : (goto n s).eob = s.eob := rfl
@[simp] theorem goto_enode (n : Node) (s : State) : (goto n s).enode = s.enode := rfl
@[simp] theorem goto_ec (n : Node) (s : State) : (goto n s).ec = s.ec := rfl
@[simp] theorem goto_fpar (n : Node) (s : State) : (goto n s).fpar = s.fpar := rfl
@[simp] theorem goto_txsize (n : Node) (s : State) : (goto n s).txsize = s.txsize := rfl
@[simp] theorem goto_ptype (n : Node) (s : State) : (goto n s).ptype = s.ptype := rfl
@[simp] theorem goto_ref (n : Node) (s : State) : (goto n s).ref = s.ref := rfl
@[simp] theorem goto_dqDc (n : Node) (s : State) : (goto n s).dqDc = s.dqDc := rfl
@[simp] theorem goto_dqAc (n : Node) (s : State) : (goto n s).dqAc = s.dqAc := rfl
@[simp] theorem goto_ectx (n : Node) (s : State) : (goto n s).ectx = s.ectx := rfl
@[simp] theorem goto_aoff (n : Node) (s : State) : (goto n s).aoff = s.aoff := rfl
@[simp] theorem goto_loff (n : Node) (s : State) : (goto n s).loff = s.loff := rfl
@[simp] theorem goto_pmode (n : Node) (s : State) : (goto n s).pmode = s.pmode := rfl
@[simp] theorem goto_tokc (n : Node) (s : State) : (goto n s).tokc = s.tokc := rfl
@[simp] theorem goto_coef (n : Node) (s : State) : (goto n s).coef = s.coef := rfl
@[simp] theorem goto_ctxa (n : Node) (s : State) : (goto n s).ctxa = s.ctxa := rfl
@[simp] theorem goto_ctxl (n : Node) (s : State) : (goto n s).ctxl = s.ctxl := rfl
@[simp] theorem goto_prob (n : Node) (s : State) : (goto n s).prob = s.prob := rfl
@[simp] theorem goto_cntc (n : Node) (s : State) : (goto n s).cntc = s.cntc := rfl
@[simp] theorem goto_cnte (n : Node) (s : State) : (goto n s).cnte = s.cnte := rfl
@[simp] theorem goto_par (n : Node) (s : State) : (goto n s).par = s.par := rfl
@[simp] theorem goto_scanprov (n : Node) (s : State) : (goto n s).scanprov = s.scanprov := rfl
@[simp] theorem goto_answers (n : Node) (s : State) : (goto n s).answers = s.answers := rfl
@[simp] theorem goto_requests (n : Node) (s : State) : (goto n s).requests = s.requests := rfl
@[simp] theorem goto_host (n : Node) (s : State) : (goto n s).host = s.host := rfl
@[simp] theorem goto_rdata (n : Node) (s : State) : (goto n s).rdata = s.rdata := rfl
@[simp] theorem goto_cmdNo (n : Node) (s : State) : (goto n s).cmdNo = s.cmdNo := rfl
@[simp] theorem goto_resetNo (n : Node) (s : State) : (goto n s).resetNo = s.resetNo := rfl
@[simp] theorem goto_tokenSteps (n : Node) (s : State) : (goto n s).tokenSteps = s.tokenSteps := rfl

/-! ## setTok -/

@[simp] theorem setTok_node (k : Token) (s : State) : (setTok k s).node = s.node := rfl
@[simp] theorem setTok_c (k : Token) (s : State) : (setTok k s).c = s.c := rfl
@[simp] theorem setTok_ctx (k : Token) (s : State) : (setTok k s).ctx = s.ctx := rfl
@[simp] theorem setTok_band (k : Token) (s : State) : (setTok k s).band = s.band := rfl
@[simp] theorem setTok_prow (k : Token) (s : State) : (setTok k s).prow = s.prow := rfl
@[simp] theorem setTok_tok (k : Token) (s : State) : (setTok k s).tok = k := rfl
@[simp] theorem setTok_val (k : Token) (s : State) : (setTok k s).val = s.val := rfl
@[simp] theorem setTok_acc (k : Token) (s : State) : (setTok k s).acc = s.acc := rfl
@[simp] theorem setTok_xi (k : Token) (s : State) : (setTok k s).xi = s.xi := rfl
@[simp] theorem setTok_cmdk (k : Token) (s : State) : (setTok k s).cmdk = s.cmdk := rfl
@[simp] theorem setTok_busy (k : Token) (s : State) : (setTok k s).busy = s.busy := rfl
@[simp] theorem setTok_done (k : Token) (s : State) : (setTok k s).done = s.done := rfl
@[simp] theorem setTok_ovf (k : Token) (s : State) : (setTok k s).ovf = s.ovf := rfl
@[simp] theorem setTok_err (k : Token) (s : State) : (setTok k s).err = s.err := rfl
@[simp] theorem setTok_eob (k : Token) (s : State) : (setTok k s).eob = s.eob := rfl
@[simp] theorem setTok_enode (k : Token) (s : State) : (setTok k s).enode = s.enode := rfl
@[simp] theorem setTok_ec (k : Token) (s : State) : (setTok k s).ec = s.ec := rfl
@[simp] theorem setTok_fpar (k : Token) (s : State) : (setTok k s).fpar = s.fpar := rfl
@[simp] theorem setTok_txsize (k : Token) (s : State) : (setTok k s).txsize = s.txsize := rfl
@[simp] theorem setTok_ptype (k : Token) (s : State) : (setTok k s).ptype = s.ptype := rfl
@[simp] theorem setTok_ref (k : Token) (s : State) : (setTok k s).ref = s.ref := rfl
@[simp] theorem setTok_dqDc (k : Token) (s : State) : (setTok k s).dqDc = s.dqDc := rfl
@[simp] theorem setTok_dqAc (k : Token) (s : State) : (setTok k s).dqAc = s.dqAc := rfl
@[simp] theorem setTok_ectx (k : Token) (s : State) : (setTok k s).ectx = s.ectx := rfl
@[simp] theorem setTok_aoff (k : Token) (s : State) : (setTok k s).aoff = s.aoff := rfl
@[simp] theorem setTok_loff (k : Token) (s : State) : (setTok k s).loff = s.loff := rfl
@[simp] theorem setTok_pmode (k : Token) (s : State) : (setTok k s).pmode = s.pmode := rfl
@[simp] theorem setTok_tokc (k : Token) (s : State) : (setTok k s).tokc = s.tokc := rfl
@[simp] theorem setTok_coef (k : Token) (s : State) : (setTok k s).coef = s.coef := rfl
@[simp] theorem setTok_ctxa (k : Token) (s : State) : (setTok k s).ctxa = s.ctxa := rfl
@[simp] theorem setTok_ctxl (k : Token) (s : State) : (setTok k s).ctxl = s.ctxl := rfl
@[simp] theorem setTok_prob (k : Token) (s : State) : (setTok k s).prob = s.prob := rfl
@[simp] theorem setTok_cntc (k : Token) (s : State) : (setTok k s).cntc = s.cntc := rfl
@[simp] theorem setTok_cnte (k : Token) (s : State) : (setTok k s).cnte = s.cnte := rfl
@[simp] theorem setTok_par (k : Token) (s : State) : (setTok k s).par = s.par := rfl
@[simp] theorem setTok_scanprov (k : Token) (s : State) : (setTok k s).scanprov = s.scanprov := rfl
@[simp] theorem setTok_answers (k : Token) (s : State) : (setTok k s).answers = s.answers := rfl
@[simp] theorem setTok_requests (k : Token) (s : State) : (setTok k s).requests = s.requests := rfl
@[simp] theorem setTok_host (k : Token) (s : State) : (setTok k s).host = s.host := rfl
@[simp] theorem setTok_rdata (k : Token) (s : State) : (setTok k s).rdata = s.rdata := rfl
@[simp] theorem setTok_cmdNo (k : Token) (s : State) : (setTok k s).cmdNo = s.cmdNo := rfl
@[simp] theorem setTok_resetNo (k : Token) (s : State) : (setTok k s).resetNo = s.resetNo := rfl
@[simp] theorem setTok_tokenSteps (k : Token) (s : State) : (setTok k s).tokenSteps = s.tokenSteps := rfl

/-! ## setCtx -/

@[simp] theorem setCtx_node (v : BitVec 3) (s : State) : (setCtx v s).node = s.node := rfl
@[simp] theorem setCtx_c (v : BitVec 3) (s : State) : (setCtx v s).c = s.c := rfl
@[simp] theorem setCtx_ctx (v : BitVec 3) (s : State) : (setCtx v s).ctx = v := rfl
@[simp] theorem setCtx_band (v : BitVec 3) (s : State) : (setCtx v s).band = s.band := rfl
@[simp] theorem setCtx_prow (v : BitVec 3) (s : State) : (setCtx v s).prow = s.prow := rfl
@[simp] theorem setCtx_tok (v : BitVec 3) (s : State) : (setCtx v s).tok = s.tok := rfl
@[simp] theorem setCtx_val (v : BitVec 3) (s : State) : (setCtx v s).val = s.val := rfl
@[simp] theorem setCtx_acc (v : BitVec 3) (s : State) : (setCtx v s).acc = s.acc := rfl
@[simp] theorem setCtx_xi (v : BitVec 3) (s : State) : (setCtx v s).xi = s.xi := rfl
@[simp] theorem setCtx_cmdk (v : BitVec 3) (s : State) : (setCtx v s).cmdk = s.cmdk := rfl
@[simp] theorem setCtx_busy (v : BitVec 3) (s : State) : (setCtx v s).busy = s.busy := rfl
@[simp] theorem setCtx_done (v : BitVec 3) (s : State) : (setCtx v s).done = s.done := rfl
@[simp] theorem setCtx_ovf (v : BitVec 3) (s : State) : (setCtx v s).ovf = s.ovf := rfl
@[simp] theorem setCtx_err (v : BitVec 3) (s : State) : (setCtx v s).err = s.err := rfl
@[simp] theorem setCtx_eob (v : BitVec 3) (s : State) : (setCtx v s).eob = s.eob := rfl
@[simp] theorem setCtx_enode (v : BitVec 3) (s : State) : (setCtx v s).enode = s.enode := rfl
@[simp] theorem setCtx_ec (v : BitVec 3) (s : State) : (setCtx v s).ec = s.ec := rfl
@[simp] theorem setCtx_fpar (v : BitVec 3) (s : State) : (setCtx v s).fpar = s.fpar := rfl
@[simp] theorem setCtx_txsize (v : BitVec 3) (s : State) : (setCtx v s).txsize = s.txsize := rfl
@[simp] theorem setCtx_ptype (v : BitVec 3) (s : State) : (setCtx v s).ptype = s.ptype := rfl
@[simp] theorem setCtx_ref (v : BitVec 3) (s : State) : (setCtx v s).ref = s.ref := rfl
@[simp] theorem setCtx_dqDc (v : BitVec 3) (s : State) : (setCtx v s).dqDc = s.dqDc := rfl
@[simp] theorem setCtx_dqAc (v : BitVec 3) (s : State) : (setCtx v s).dqAc = s.dqAc := rfl
@[simp] theorem setCtx_ectx (v : BitVec 3) (s : State) : (setCtx v s).ectx = s.ectx := rfl
@[simp] theorem setCtx_aoff (v : BitVec 3) (s : State) : (setCtx v s).aoff = s.aoff := rfl
@[simp] theorem setCtx_loff (v : BitVec 3) (s : State) : (setCtx v s).loff = s.loff := rfl
@[simp] theorem setCtx_pmode (v : BitVec 3) (s : State) : (setCtx v s).pmode = s.pmode := rfl
@[simp] theorem setCtx_tokc (v : BitVec 3) (s : State) : (setCtx v s).tokc = s.tokc := rfl
@[simp] theorem setCtx_coef (v : BitVec 3) (s : State) : (setCtx v s).coef = s.coef := rfl
@[simp] theorem setCtx_ctxa (v : BitVec 3) (s : State) : (setCtx v s).ctxa = s.ctxa := rfl
@[simp] theorem setCtx_ctxl (v : BitVec 3) (s : State) : (setCtx v s).ctxl = s.ctxl := rfl
@[simp] theorem setCtx_prob (v : BitVec 3) (s : State) : (setCtx v s).prob = s.prob := rfl
@[simp] theorem setCtx_cntc (v : BitVec 3) (s : State) : (setCtx v s).cntc = s.cntc := rfl
@[simp] theorem setCtx_cnte (v : BitVec 3) (s : State) : (setCtx v s).cnte = s.cnte := rfl
@[simp] theorem setCtx_par (v : BitVec 3) (s : State) : (setCtx v s).par = s.par := rfl
@[simp] theorem setCtx_scanprov (v : BitVec 3) (s : State) : (setCtx v s).scanprov = s.scanprov := rfl
@[simp] theorem setCtx_answers (v : BitVec 3) (s : State) : (setCtx v s).answers = s.answers := rfl
@[simp] theorem setCtx_requests (v : BitVec 3) (s : State) : (setCtx v s).requests = s.requests := rfl
@[simp] theorem setCtx_host (v : BitVec 3) (s : State) : (setCtx v s).host = s.host := rfl
@[simp] theorem setCtx_rdata (v : BitVec 3) (s : State) : (setCtx v s).rdata = s.rdata := rfl
@[simp] theorem setCtx_cmdNo (v : BitVec 3) (s : State) : (setCtx v s).cmdNo = s.cmdNo := rfl
@[simp] theorem setCtx_resetNo (v : BitVec 3) (s : State) : (setCtx v s).resetNo = s.resetNo := rfl
@[simp] theorem setCtx_tokenSteps (v : BitVec 3) (s : State) : (setCtx v s).tokenSteps = s.tokenSteps := rfl

/-! ## setEctx -/

@[simp] theorem setEctx_node (v : BitVec 3) (s : State) : (setEctx v s).node = s.node := rfl
@[simp] theorem setEctx_c (v : BitVec 3) (s : State) : (setEctx v s).c = s.c := rfl
@[simp] theorem setEctx_ctx (v : BitVec 3) (s : State) : (setEctx v s).ctx = s.ctx := rfl
@[simp] theorem setEctx_band (v : BitVec 3) (s : State) : (setEctx v s).band = s.band := rfl
@[simp] theorem setEctx_prow (v : BitVec 3) (s : State) : (setEctx v s).prow = s.prow := rfl
@[simp] theorem setEctx_tok (v : BitVec 3) (s : State) : (setEctx v s).tok = s.tok := rfl
@[simp] theorem setEctx_val (v : BitVec 3) (s : State) : (setEctx v s).val = s.val := rfl
@[simp] theorem setEctx_acc (v : BitVec 3) (s : State) : (setEctx v s).acc = s.acc := rfl
@[simp] theorem setEctx_xi (v : BitVec 3) (s : State) : (setEctx v s).xi = s.xi := rfl
@[simp] theorem setEctx_cmdk (v : BitVec 3) (s : State) : (setEctx v s).cmdk = s.cmdk := rfl
@[simp] theorem setEctx_busy (v : BitVec 3) (s : State) : (setEctx v s).busy = s.busy := rfl
@[simp] theorem setEctx_done (v : BitVec 3) (s : State) : (setEctx v s).done = s.done := rfl
@[simp] theorem setEctx_ovf (v : BitVec 3) (s : State) : (setEctx v s).ovf = s.ovf := rfl
@[simp] theorem setEctx_err (v : BitVec 3) (s : State) : (setEctx v s).err = s.err := rfl
@[simp] theorem setEctx_eob (v : BitVec 3) (s : State) : (setEctx v s).eob = s.eob := rfl
@[simp] theorem setEctx_enode (v : BitVec 3) (s : State) : (setEctx v s).enode = s.enode := rfl
@[simp] theorem setEctx_ec (v : BitVec 3) (s : State) : (setEctx v s).ec = s.ec := rfl
@[simp] theorem setEctx_fpar (v : BitVec 3) (s : State) : (setEctx v s).fpar = s.fpar := rfl
@[simp] theorem setEctx_txsize (v : BitVec 3) (s : State) : (setEctx v s).txsize = s.txsize := rfl
@[simp] theorem setEctx_ptype (v : BitVec 3) (s : State) : (setEctx v s).ptype = s.ptype := rfl
@[simp] theorem setEctx_ref (v : BitVec 3) (s : State) : (setEctx v s).ref = s.ref := rfl
@[simp] theorem setEctx_dqDc (v : BitVec 3) (s : State) : (setEctx v s).dqDc = s.dqDc := rfl
@[simp] theorem setEctx_dqAc (v : BitVec 3) (s : State) : (setEctx v s).dqAc = s.dqAc := rfl
@[simp] theorem setEctx_ectx (v : BitVec 3) (s : State) : (setEctx v s).ectx = v := rfl
@[simp] theorem setEctx_aoff (v : BitVec 3) (s : State) : (setEctx v s).aoff = s.aoff := rfl
@[simp] theorem setEctx_loff (v : BitVec 3) (s : State) : (setEctx v s).loff = s.loff := rfl
@[simp] theorem setEctx_pmode (v : BitVec 3) (s : State) : (setEctx v s).pmode = s.pmode := rfl
@[simp] theorem setEctx_tokc (v : BitVec 3) (s : State) : (setEctx v s).tokc = s.tokc := rfl
@[simp] theorem setEctx_coef (v : BitVec 3) (s : State) : (setEctx v s).coef = s.coef := rfl
@[simp] theorem setEctx_ctxa (v : BitVec 3) (s : State) : (setEctx v s).ctxa = s.ctxa := rfl
@[simp] theorem setEctx_ctxl (v : BitVec 3) (s : State) : (setEctx v s).ctxl = s.ctxl := rfl
@[simp] theorem setEctx_prob (v : BitVec 3) (s : State) : (setEctx v s).prob = s.prob := rfl
@[simp] theorem setEctx_cntc (v : BitVec 3) (s : State) : (setEctx v s).cntc = s.cntc := rfl
@[simp] theorem setEctx_cnte (v : BitVec 3) (s : State) : (setEctx v s).cnte = s.cnte := rfl
@[simp] theorem setEctx_par (v : BitVec 3) (s : State) : (setEctx v s).par = s.par := rfl
@[simp] theorem setEctx_scanprov (v : BitVec 3) (s : State) : (setEctx v s).scanprov = s.scanprov := rfl
@[simp] theorem setEctx_answers (v : BitVec 3) (s : State) : (setEctx v s).answers = s.answers := rfl
@[simp] theorem setEctx_requests (v : BitVec 3) (s : State) : (setEctx v s).requests = s.requests := rfl
@[simp] theorem setEctx_host (v : BitVec 3) (s : State) : (setEctx v s).host = s.host := rfl
@[simp] theorem setEctx_rdata (v : BitVec 3) (s : State) : (setEctx v s).rdata = s.rdata := rfl
@[simp] theorem setEctx_cmdNo (v : BitVec 3) (s : State) : (setEctx v s).cmdNo = s.cmdNo := rfl
@[simp] theorem setEctx_resetNo (v : BitVec 3) (s : State) : (setEctx v s).resetNo = s.resetNo := rfl
@[simp] theorem setEctx_tokenSteps (v : BitVec 3) (s : State) : (setEctx v s).tokenSteps = s.tokenSteps := rfl

/-! ## nextIndex -/

@[simp] theorem nextIndex_node (s : State) : (nextIndex s).node = s.node := rfl
@[simp] theorem nextIndex_c (s : State) : (nextIndex s).c = s.c + 1#11 := rfl
@[simp] theorem nextIndex_ctx (s : State) : (nextIndex s).ctx = s.ctx := rfl
@[simp] theorem nextIndex_band (s : State) : (nextIndex s).band = s.band := rfl
@[simp] theorem nextIndex_prow (s : State) : (nextIndex s).prow = s.prow := rfl
@[simp] theorem nextIndex_tok (s : State) : (nextIndex s).tok = s.tok := rfl
@[simp] theorem nextIndex_val (s : State) : (nextIndex s).val = s.val := rfl
@[simp] theorem nextIndex_acc (s : State) : (nextIndex s).acc = s.acc := rfl
@[simp] theorem nextIndex_xi (s : State) : (nextIndex s).xi = s.xi := rfl
@[simp] theorem nextIndex_cmdk (s : State) : (nextIndex s).cmdk = s.cmdk := rfl
@[simp] theorem nextIndex_busy (s : State) : (nextIndex s).busy = s.busy := rfl
@[simp] theorem nextIndex_done (s : State) : (nextIndex s).done = s.done := rfl
@[simp] theorem nextIndex_ovf (s : State) : (nextIndex s).ovf = s.ovf := rfl
@[simp] theorem nextIndex_err (s : State) : (nextIndex s).err = s.err := rfl
@[simp] theorem nextIndex_eob (s : State) : (nextIndex s).eob = s.eob := rfl
@[simp] theorem nextIndex_enode (s : State) : (nextIndex s).enode = s.enode := rfl
@[simp] theorem nextIndex_ec (s : State) : (nextIndex s).ec = s.ec := rfl
@[simp] theorem nextIndex_fpar (s : State) : (nextIndex s).fpar = s.fpar := rfl
@[simp] theorem nextIndex_txsize (s : State) : (nextIndex s).txsize = s.txsize := rfl
@[simp] theorem nextIndex_ptype (s : State) : (nextIndex s).ptype = s.ptype := rfl
@[simp] theorem nextIndex_ref (s : State) : (nextIndex s).ref = s.ref := rfl
@[simp] theorem nextIndex_dqDc (s : State) : (nextIndex s).dqDc = s.dqDc := rfl
@[simp] theorem nextIndex_dqAc (s : State) : (nextIndex s).dqAc = s.dqAc := rfl
@[simp] theorem nextIndex_ectx (s : State) : (nextIndex s).ectx = s.ectx := rfl
@[simp] theorem nextIndex_aoff (s : State) : (nextIndex s).aoff = s.aoff := rfl
@[simp] theorem nextIndex_loff (s : State) : (nextIndex s).loff = s.loff := rfl
@[simp] theorem nextIndex_pmode (s : State) : (nextIndex s).pmode = s.pmode := rfl
@[simp] theorem nextIndex_tokc (s : State) : (nextIndex s).tokc = s.tokc := rfl
@[simp] theorem nextIndex_coef (s : State) : (nextIndex s).coef = s.coef := rfl
@[simp] theorem nextIndex_ctxa (s : State) : (nextIndex s).ctxa = s.ctxa := rfl
@[simp] theorem nextIndex_ctxl (s : State) : (nextIndex s).ctxl = s.ctxl := rfl
@[simp] theorem nextIndex_prob (s : State) : (nextIndex s).prob = s.prob := rfl
@[simp] theorem nextIndex_cntc (s : State) : (nextIndex s).cntc = s.cntc := rfl
@[simp] theorem nextIndex_cnte (s : State) : (nextIndex s).cnte = s.cnte := rfl
@[simp] theorem nextIndex_par (s : State) : (nextIndex s).par = s.par := rfl
@[simp] theorem nextIndex_scanprov (s : State) : (nextIndex s).scanprov = s.scanprov := rfl
@[simp] theorem nextIndex_answers (s : State) : (nextIndex s).answers = s.answers := rfl
@[simp] theorem nextIndex_requests (s : State) : (nextIndex s).requests = s.requests := rfl
@[simp] theorem nextIndex_host (s : State) : (nextIndex s).host = s.host := rfl
@[simp] theorem nextIndex_rdata (s : State) : (nextIndex s).rdata = s.rdata := rfl
@[simp] theorem nextIndex_cmdNo (s : State) : (nextIndex s).cmdNo = s.cmdNo := rfl
@[simp] theorem nextIndex_resetNo (s : State) : (nextIndex s).resetNo = s.resetNo := rfl
@[simp] theorem nextIndex_tokenSteps (s : State) : (nextIndex s).tokenSteps = s.tokenSteps := rfl

/-! ## resolve -/

@[simp] theorem resolve_node (k : Token) (m : Nat) (s : State) : (resolve k m s).node = .sign := rfl
@[simp] theorem resolve_c (k : Token) (m : Nat) (s : State) : (resolve k m s).c = s.c := rfl
@[simp] theorem resolve_ctx (k : Token) (m : Nat) (s : State) : (resolve k m s).ctx = s.ctx := rfl
@[simp] theorem resolve_band (k : Token) (m : Nat) (s : State) : (resolve k m s).band = s.band := rfl
@[simp] theorem resolve_prow (k : Token) (m : Nat) (s : State) : (resolve k m s).prow = s.prow := rfl
@[simp] theorem resolve_tok (k : Token) (m : Nat) (s : State) : (resolve k m s).tok = k := rfl
@[simp] theorem resolve_val (k : Token) (m : Nat) (s : State) : (resolve k m s).val = m := rfl
@[simp] theorem resolve_acc (k : Token) (m : Nat) (s : State) : (resolve k m s).acc = s.acc := rfl
@[simp] theorem resolve_xi (k : Token) (m : Nat) (s : State) : (resolve k m s).xi = s.xi := rfl
@[simp] theorem resolve_cmdk (k : Token) (m : Nat) (s : State) : (resolve k m s).cmdk = s.cmdk := rfl
@[simp] theorem resolve_busy (k : Token) (m : Nat) (s : State) : (resolve k m s).busy = s.busy := rfl
@[simp] theorem resolve_done (k : Token) (m : Nat) (s : State) : (resolve k m s).done = s.done := rfl
@[simp] theorem resolve_ovf (k : Token) (m : Nat) (s : State) : (resolve k m s).ovf = s.ovf := rfl
@[simp] theorem resolve_err (k : Token) (m : Nat) (s : State) : (resolve k m s).err = s.err := rfl
@[simp] theorem resolve_eob (k : Token) (m : Nat) (s : State) : (resolve k m s).eob = s.eob := rfl
@[simp] theorem resolve_enode (k : Token) (m : Nat) (s : State) : (resolve k m s).enode = s.enode := rfl
@[simp] theorem resolve_ec (k : Token) (m : Nat) (s : State) : (resolve k m s).ec = s.ec := rfl
@[simp] theorem resolve_fpar (k : Token) (m : Nat) (s : State) : (resolve k m s).fpar = s.fpar := rfl
@[simp] theorem resolve_txsize (k : Token) (m : Nat) (s : State) : (resolve k m s).txsize = s.txsize := rfl
@[simp] theorem resolve_ptype (k : Token) (m : Nat) (s : State) : (resolve k m s).ptype = s.ptype := rfl
@[simp] theorem resolve_ref (k : Token) (m : Nat) (s : State) : (resolve k m s).ref = s.ref := rfl
@[simp] theorem resolve_dqDc (k : Token) (m : Nat) (s : State) : (resolve k m s).dqDc = s.dqDc := rfl
@[simp] theorem resolve_dqAc (k : Token) (m : Nat) (s : State) : (resolve k m s).dqAc = s.dqAc := rfl
@[simp] theorem resolve_ectx (k : Token) (m : Nat) (s : State) : (resolve k m s).ectx = s.ectx := rfl
@[simp] theorem resolve_aoff (k : Token) (m : Nat) (s : State) : (resolve k m s).aoff = s.aoff := rfl
@[simp] theorem resolve_loff (k : Token) (m : Nat) (s : State) : (resolve k m s).loff = s.loff := rfl
@[simp] theorem resolve_pmode (k : Token) (m : Nat) (s : State) : (resolve k m s).pmode = s.pmode := rfl
@[simp] theorem resolve_tokc (k : Token) (m : Nat) (s : State) : (resolve k m s).tokc = s.tokc := rfl
@[simp] theorem resolve_coef (k : Token) (m : Nat) (s : State) : (resolve k m s).coef = s.coef := rfl
@[simp] theorem resolve_ctxa (k : Token) (m : Nat) (s : State) : (resolve k m s).ctxa = s.ctxa := rfl
@[simp] theorem resolve_ctxl (k : Token) (m : Nat) (s : State) : (resolve k m s).ctxl = s.ctxl := rfl
@[simp] theorem resolve_prob (k : Token) (m : Nat) (s : State) : (resolve k m s).prob = s.prob := rfl
@[simp] theorem resolve_cntc (k : Token) (m : Nat) (s : State) : (resolve k m s).cntc = s.cntc := rfl
@[simp] theorem resolve_cnte (k : Token) (m : Nat) (s : State) : (resolve k m s).cnte = s.cnte := rfl
@[simp] theorem resolve_par (k : Token) (m : Nat) (s : State) : (resolve k m s).par = s.par := rfl
@[simp] theorem resolve_scanprov (k : Token) (m : Nat) (s : State) : (resolve k m s).scanprov = s.scanprov := rfl
@[simp] theorem resolve_answers (k : Token) (m : Nat) (s : State) : (resolve k m s).answers = s.answers := rfl
@[simp] theorem resolve_requests (k : Token) (m : Nat) (s : State) : (resolve k m s).requests = s.requests := rfl
@[simp] theorem resolve_host (k : Token) (m : Nat) (s : State) : (resolve k m s).host = s.host := rfl
@[simp] theorem resolve_rdata (k : Token) (m : Nat) (s : State) : (resolve k m s).rdata = s.rdata := rfl
@[simp] theorem resolve_cmdNo (k : Token) (m : Nat) (s : State) : (resolve k m s).cmdNo = s.cmdNo := rfl
@[simp] theorem resolve_resetNo (k : Token) (m : Nat) (s : State) : (resolve k m s).resetNo = s.resetNo := rfl
@[simp] theorem resolve_tokenSteps (k : Token) (m : Nat) (s : State) : (resolve k m s).tokenSteps = s.tokenSteps := rfl

/-! ## selectRow -/

@[simp] theorem selectRow_node (p : Prob) (s : State) : (selectRow p s).node = .lowval := rfl
@[simp] theorem selectRow_c (p : Prob) (s : State) : (selectRow p s).c = s.c := rfl
@[simp] theorem selectRow_ctx (p : Prob) (s : State) : (selectRow p s).ctx = s.ctx := rfl
@[simp] theorem selectRow_band (p : Prob) (s : State) : (selectRow p s).band = s.band := rfl
@[simp] theorem selectRow_prow (p : Prob) (s : State) : (selectRow p s).prow = p - 1 := rfl
@[simp] theorem selectRow_tok (p : Prob) (s : State) : (selectRow p s).tok = s.tok := rfl
@[simp] theorem selectRow_val (p : Prob) (s : State) : (selectRow p s).val = s.val := rfl
@[simp] theorem selectRow_acc (p : Prob) (s : State) : (selectRow p s).acc = s.acc := rfl
@[simp] theorem selectRow_xi (p : Prob) (s : State) : (selectRow p s).xi = s.xi := rfl
@[simp] theorem selectRow_cmdk (p : Prob) (s : State) : (selectRow p s).cmdk = s.cmdk := rfl
@[simp] theorem selectRow_busy (p : Prob) (s : State) : (selectRow p s).busy = s.busy := rfl
@[simp] theorem selectRow_done (p : Prob) (s : State) : (selectRow p s).done = s.done := rfl
@[simp] theorem selectRow_ovf (p : Prob) (s : State) : (selectRow p s).ovf = s.ovf := rfl
@[simp] theorem selectRow_err (p : Prob) (s : State) : (selectRow p s).err = s.err := rfl
@[simp] theorem selectRow_eob (p : Prob) (s : State) : (selectRow p s).eob = s.eob := rfl
@[simp] theorem selectRow_enode (p : Prob) (s : State) : (selectRow p s).enode = s.enode := rfl
@[simp] theorem selectRow_ec (p : Prob) (s : State) : (selectRow p s).ec = s.ec := rfl
@[simp] theorem selectRow_fpar (p : Prob) (s : State) : (selectRow p s).fpar = s.fpar := rfl
@[simp] theorem selectRow_txsize (p : Prob) (s : State) : (selectRow p s).txsize = s.txsize := rfl
@[simp] theorem selectRow_ptype (p : Prob) (s : State) : (selectRow p s).ptype = s.ptype := rfl
@[simp] theorem selectRow_ref (p : Prob) (s : State) : (selectRow p s).ref = s.ref := rfl
@[simp] theorem selectRow_dqDc (p : Prob) (s : State) : (selectRow p s).dqDc = s.dqDc := rfl
@[simp] theorem selectRow_dqAc (p : Prob) (s : State) : (selectRow p s).dqAc = s.dqAc := rfl
@[simp] theorem selectRow_ectx (p : Prob) (s : State) : (selectRow p s).ectx = s.ectx := rfl
@[simp] theorem selectRow_aoff (p : Prob) (s : State) : (selectRow p s).aoff = s.aoff := rfl
@[simp] theorem selectRow_loff (p : Prob) (s : State) : (selectRow p s).loff = s.loff := rfl
@[simp] theorem selectRow_pmode (p : Prob) (s : State) : (selectRow p s).pmode = s.pmode := rfl
@[simp] theorem selectRow_tokc (p : Prob) (s : State) : (selectRow p s).tokc = s.tokc := rfl
@[simp] theorem selectRow_coef (p : Prob) (s : State) : (selectRow p s).coef = s.coef := rfl
@[simp] theorem selectRow_ctxa (p : Prob) (s : State) : (selectRow p s).ctxa = s.ctxa := rfl
@[simp] theorem selectRow_ctxl (p : Prob) (s : State) : (selectRow p s).ctxl = s.ctxl := rfl
@[simp] theorem selectRow_prob (p : Prob) (s : State) : (selectRow p s).prob = s.prob := rfl
@[simp] theorem selectRow_cntc (p : Prob) (s : State) : (selectRow p s).cntc = s.cntc := rfl
@[simp] theorem selectRow_cnte (p : Prob) (s : State) : (selectRow p s).cnte = s.cnte := rfl
@[simp] theorem selectRow_par (p : Prob) (s : State) : (selectRow p s).par = s.par := rfl
@[simp] theorem selectRow_scanprov (p : Prob) (s : State) : (selectRow p s).scanprov = s.scanprov := rfl
@[simp] theorem selectRow_answers (p : Prob) (s : State) : (selectRow p s).answers = s.answers := rfl
@[simp] theorem selectRow_requests (p : Prob) (s : State) : (selectRow p s).requests = s.requests := rfl
@[simp] theorem selectRow_host (p : Prob) (s : State) : (selectRow p s).host = s.host := rfl
@[simp] theorem selectRow_rdata (p : Prob) (s : State) : (selectRow p s).rdata = s.rdata := rfl
@[simp] theorem selectRow_cmdNo (p : Prob) (s : State) : (selectRow p s).cmdNo = s.cmdNo := rfl
@[simp] theorem selectRow_resetNo (p : Prob) (s : State) : (selectRow p s).resetNo = s.resetNo := rfl
@[simp] theorem selectRow_tokenSteps (p : Prob) (s : State) : (selectRow p s).tokenSteps = s.tokenSteps := rfl

/-! ## startCat6 -/

@[simp] theorem startCat6_node (s : State) : (startCat6 s).node = .cat6 := rfl
@[simp] theorem startCat6_c (s : State) : (startCat6 s).c = s.c := rfl
@[simp] theorem startCat6_ctx (s : State) : (startCat6 s).ctx = s.ctx := rfl
@[simp] theorem startCat6_band (s : State) : (startCat6 s).band = s.band := rfl
@[simp] theorem startCat6_prow (s : State) : (startCat6 s).prow = s.prow := rfl
@[simp] theorem startCat6_tok (s : State) : (startCat6 s).tok = .cat6 := rfl
@[simp] theorem startCat6_val (s : State) : (startCat6 s).val = s.val := rfl
@[simp] theorem startCat6_acc (s : State) : (startCat6 s).acc = 0 := rfl
@[simp] theorem startCat6_xi (s : State) : (startCat6 s).xi = 0 := rfl
@[simp] theorem startCat6_cmdk (s : State) : (startCat6 s).cmdk = s.cmdk := rfl
@[simp] theorem startCat6_busy (s : State) : (startCat6 s).busy = s.busy := rfl
@[simp] theorem startCat6_done (s : State) : (startCat6 s).done = s.done := rfl
@[simp] theorem startCat6_ovf (s : State) : (startCat6 s).ovf = s.ovf := rfl
@[simp] theorem startCat6_err (s : State) : (startCat6 s).err = s.err := rfl
@[simp] theorem startCat6_eob (s : State) : (startCat6 s).eob = s.eob := rfl
@[simp] theorem startCat6_enode (s : State) : (startCat6 s).enode = s.enode := rfl
@[simp] theorem startCat6_ec (s : State) : (startCat6 s).ec = s.ec := rfl
@[simp] theorem startCat6_fpar (s : State) : (startCat6 s).fpar = s.fpar := rfl
@[simp] theorem startCat6_txsize (s : State) : (startCat6 s).txsize = s.txsize := rfl
@[simp] theorem startCat6_ptype (s : State) : (startCat6 s).ptype = s.ptype := rfl
@[simp] theorem startCat6_ref (s : State) : (startCat6 s).ref = s.ref := rfl
@[simp] theorem startCat6_dqDc (s : State) : (startCat6 s).dqDc = s.dqDc := rfl
@[simp] theorem startCat6_dqAc (s : State) : (startCat6 s).dqAc = s.dqAc := rfl
@[simp] theorem startCat6_ectx (s : State) : (startCat6 s).ectx = s.ectx := rfl
@[simp] theorem startCat6_aoff (s : State) : (startCat6 s).aoff = s.aoff := rfl
@[simp] theorem startCat6_loff (s : State) : (startCat6 s).loff = s.loff := rfl
@[simp] theorem startCat6_pmode (s : State) : (startCat6 s).pmode = s.pmode := rfl
@[simp] theorem startCat6_tokc (s : State) : (startCat6 s).tokc = s.tokc := rfl
@[simp] theorem startCat6_coef (s : State) : (startCat6 s).coef = s.coef := rfl
@[simp] theorem startCat6_ctxa (s : State) : (startCat6 s).ctxa = s.ctxa := rfl
@[simp] theorem startCat6_ctxl (s : State) : (startCat6 s).ctxl = s.ctxl := rfl
@[simp] theorem startCat6_prob (s : State) : (startCat6 s).prob = s.prob := rfl
@[simp] theorem startCat6_cntc (s : State) : (startCat6 s).cntc = s.cntc := rfl
@[simp] theorem startCat6_cnte (s : State) : (startCat6 s).cnte = s.cnte := rfl
@[simp] theorem startCat6_par (s : State) : (startCat6 s).par = s.par := rfl
@[simp] theorem startCat6_scanprov (s : State) : (startCat6 s).scanprov = s.scanprov := rfl
@[simp] theorem startCat6_answers (s : State) : (startCat6 s).answers = s.answers := rfl
@[simp] theorem startCat6_requests (s : State) : (startCat6 s).requests = s.requests := rfl
@[simp] theorem startCat6_host (s : State) : (startCat6 s).host = s.host := rfl
@[simp] theorem startCat6_rdata (s : State) : (startCat6 s).rdata = s.rdata := rfl
@[simp] theorem startCat6_cmdNo (s : State) : (startCat6 s).cmdNo = s.cmdNo := rfl
@[simp] theorem startCat6_resetNo (s : State) : (startCat6 s).resetNo = s.resetNo := rfl
@[simp] theorem startCat6_tokenSteps (s : State) : (startCat6 s).tokenSteps = s.tokenSteps := rfl

/-! ## takeExtra -/

@[simp] theorem takeExtra_node (n : Nat) (b : Bool) (s : State) : (takeExtra n b s).node = if s.xi + 1 = n then .sign else .extra := rfl
@[simp] theorem takeExtra_c (n : Nat) (b : Bool) (s : State) : (takeExtra n b s).c = s.c := rfl
@[simp] theorem takeExtra_ctx (n : Nat) (b : Bool) (s : State) : (takeExtra n b s).ctx = s.ctx := rfl
@[simp] theorem takeExtra_band (n : Nat) (b : Bool) (s : State) : (takeExtra n b s).band = s.band := rfl
@[simp] theorem takeExtra_prow (n : Nat) (b : Bool) (s : State) : (takeExtra n b s).prow = s.prow := rfl
@[simp] theorem takeExtra_tok (n : Nat) (b : Bool) (s : State) : (takeExtra n b s).tok = s.tok := rfl
@[simp] theorem takeExtra_val (n : Nat) (b : Bool) (s : State) : (takeExtra n b s).val = s.val + b.toNat <<< (n - 1 - s.xi) := rfl
@[simp] theorem takeExtra_acc (n : Nat) (b : Bool) (s : State) : (takeExtra n b s).acc = s.acc := rfl
@[simp] theorem takeExtra_xi (n : Nat) (b : Bool) (s : State) : (takeExtra n b s).xi = s.xi + 1 := rfl
@[simp] theorem takeExtra_cmdk (n : Nat) (b : Bool) (s : State) : (takeExtra n b s).cmdk = s.cmdk := rfl
@[simp] theorem takeExtra_busy (n : Nat) (b : Bool) (s : State) : (takeExtra n b s).busy = s.busy := rfl
@[simp] theorem takeExtra_done (n : Nat) (b : Bool) (s : State) : (takeExtra n b s).done = s.done := rfl
@[simp] theorem takeExtra_ovf (n : Nat) (b : Bool) (s : State) : (takeExtra n b s).ovf = s.ovf := rfl
@[simp] theorem takeExtra_err (n : Nat) (b : Bool) (s : State) : (takeExtra n b s).err = s.err := rfl
@[simp] theorem takeExtra_eob (n : Nat) (b : Bool) (s : State) : (takeExtra n b s).eob = s.eob := rfl
@[simp] theorem takeExtra_enode (n : Nat) (b : Bool) (s : State) : (takeExtra n b s).enode = s.enode := rfl
@[simp] theorem takeExtra_ec (n : Nat) (b : Bool) (s : State) : (takeExtra n b s).ec = s.ec := rfl
@[simp] theorem takeExtra_fpar (n : Nat) (b : Bool) (s : State) : (takeExtra n b s).fpar = s.fpar := rfl
@[simp] theorem takeExtra_txsize (n : Nat) (b : Bool) (s : State) : (takeExtra n b s).txsize = s.txsize := rfl
@[simp] theorem takeExtra_ptype (n : Nat) (b : Bool) (s : State) : (takeExtra n b s).ptype = s.ptype := rfl
@[simp] theorem takeExtra_ref (n : Nat) (b : Bool) (s : State) : (takeExtra n b s).ref = s.ref := rfl
@[simp] theorem takeExtra_dqDc (n : Nat) (b : Bool) (s : State) : (takeExtra n b s).dqDc = s.dqDc := rfl
@[simp] theorem takeExtra_dqAc (n : Nat) (b : Bool) (s : State) : (takeExtra n b s).dqAc = s.dqAc := rfl
@[simp] theorem takeExtra_ectx (n : Nat) (b : Bool) (s : State) : (takeExtra n b s).ectx = s.ectx := rfl
@[simp] theorem takeExtra_aoff (n : Nat) (b : Bool) (s : State) : (takeExtra n b s).aoff = s.aoff := rfl
@[simp] theorem takeExtra_loff (n : Nat) (b : Bool) (s : State) : (takeExtra n b s).loff = s.loff := rfl
@[simp] theorem takeExtra_pmode (n : Nat) (b : Bool) (s : State) : (takeExtra n b s).pmode = s.pmode := rfl
@[simp] theorem takeExtra_tokc (n : Nat) (b : Bool) (s : State) : (takeExtra n b s).tokc = s.tokc := rfl
@[simp] theorem takeExtra_coef (n : Nat) (b : Bool) (s : State) : (takeExtra n b s).coef = s.coef := rfl
@[simp] theorem takeExtra_ctxa (n : Nat) (b : Bool) (s : State) : (takeExtra n b s).ctxa = s.ctxa := rfl
@[simp] theorem takeExtra_ctxl (n : Nat) (b : Bool) (s : State) : (takeExtra n b s).ctxl = s.ctxl := rfl
@[simp] theorem takeExtra_prob (n : Nat) (b : Bool) (s : State) : (takeExtra n b s).prob = s.prob := rfl
@[simp] theorem takeExtra_cntc (n : Nat) (b : Bool) (s : State) : (takeExtra n b s).cntc = s.cntc := rfl
@[simp] theorem takeExtra_cnte (n : Nat) (b : Bool) (s : State) : (takeExtra n b s).cnte = s.cnte := rfl
@[simp] theorem takeExtra_par (n : Nat) (b : Bool) (s : State) : (takeExtra n b s).par = s.par := rfl
@[simp] theorem takeExtra_scanprov (n : Nat) (b : Bool) (s : State) : (takeExtra n b s).scanprov = s.scanprov := rfl
@[simp] theorem takeExtra_answers (n : Nat) (b : Bool) (s : State) : (takeExtra n b s).answers = s.answers := rfl
@[simp] theorem takeExtra_requests (n : Nat) (b : Bool) (s : State) : (takeExtra n b s).requests = s.requests := rfl
@[simp] theorem takeExtra_host (n : Nat) (b : Bool) (s : State) : (takeExtra n b s).host = s.host := rfl
@[simp] theorem takeExtra_rdata (n : Nat) (b : Bool) (s : State) : (takeExtra n b s).rdata = s.rdata := rfl
@[simp] theorem takeExtra_cmdNo (n : Nat) (b : Bool) (s : State) : (takeExtra n b s).cmdNo = s.cmdNo := rfl
@[simp] theorem takeExtra_resetNo (n : Nat) (b : Bool) (s : State) : (takeExtra n b s).resetNo = s.resetNo := rfl
@[simp] theorem takeExtra_tokenSteps (n : Nat) (b : Bool) (s : State) : (takeExtra n b s).tokenSteps = s.tokenSteps := rfl

/-! ## takeCat6 -/

@[simp] theorem takeCat6_node (b : Bool) (s : State) : (takeCat6 b s).node = .cat6 := rfl
@[simp] theorem takeCat6_c (b : Bool) (s : State) : (takeCat6 b s).c = s.c := rfl
@[simp] theorem takeCat6_ctx (b : Bool) (s : State) : (takeCat6 b s).ctx = s.ctx := rfl
@[simp] theorem takeCat6_band (b : Bool) (s : State) : (takeCat6 b s).band = s.band := rfl
@[simp] theorem takeCat6_prow (b : Bool) (s : State) : (takeCat6 b s).prow = s.prow := rfl
@[simp] theorem takeCat6_tok (b : Bool) (s : State) : (takeCat6 b s).tok = s.tok := rfl
@[simp] theorem takeCat6_val (b : Bool) (s : State) : (takeCat6 b s).val = s.val := rfl
@[simp] theorem takeCat6_acc (b : Bool) (s : State) : (takeCat6 b s).acc = 2 * s.acc + b.toNat := rfl
@[simp] theorem takeCat6_xi (b : Bool) (s : State) : (takeCat6 b s).xi = s.xi + 1 := rfl
@[simp] theorem takeCat6_cmdk (b : Bool) (s : State) : (takeCat6 b s).cmdk = s.cmdk := rfl
@[simp] theorem takeCat6_busy (b : Bool) (s : State) : (takeCat6 b s).busy = s.busy := rfl
@[simp] theorem takeCat6_done (b : Bool) (s : State) : (takeCat6 b s).done = s.done := rfl
@[simp] theorem takeCat6_ovf (b : Bool) (s : State) : (takeCat6 b s).ovf = s.ovf := rfl
@[simp] theorem takeCat6_err (b : Bool) (s : State) : (takeCat6 b s).err = s.err := rfl
@[simp] theorem takeCat6_eob (b : Bool) (s : State) : (takeCat6 b s).eob = s.eob := rfl
@[simp] theorem takeCat6_enode (b : Bool) (s : State) : (takeCat6 b s).enode = s.enode := rfl
@[simp] theorem takeCat6_ec (b : Bool) (s : State) : (takeCat6 b s).ec = s.ec := rfl
@[simp] theorem takeCat6_fpar (b : Bool) (s : State) : (takeCat6 b s).fpar = s.fpar := rfl
@[simp] theorem takeCat6_txsize (b : Bool) (s : State) : (takeCat6 b s).txsize = s.txsize := rfl
@[simp] theorem takeCat6_ptype (b : Bool) (s : State) : (takeCat6 b s).ptype = s.ptype := rfl
@[simp] theorem takeCat6_ref (b : Bool) (s : State) : (takeCat6 b s).ref = s.ref := rfl
@[simp] theorem takeCat6_dqDc (b : Bool) (s : State) : (takeCat6 b s).dqDc = s.dqDc := rfl
@[simp] theorem takeCat6_dqAc (b : Bool) (s : State) : (takeCat6 b s).dqAc = s.dqAc := rfl
@[simp] theorem takeCat6_ectx (b : Bool) (s : State) : (takeCat6 b s).ectx = s.ectx := rfl
@[simp] theorem takeCat6_aoff (b : Bool) (s : State) : (takeCat6 b s).aoff = s.aoff := rfl
@[simp] theorem takeCat6_loff (b : Bool) (s : State) : (takeCat6 b s).loff = s.loff := rfl
@[simp] theorem takeCat6_pmode (b : Bool) (s : State) : (takeCat6 b s).pmode = s.pmode := rfl
@[simp] theorem takeCat6_tokc (b : Bool) (s : State) : (takeCat6 b s).tokc = s.tokc := rfl
@[simp] theorem takeCat6_coef (b : Bool) (s : State) : (takeCat6 b s).coef = s.coef := rfl
@[simp] theorem takeCat6_ctxa (b : Bool) (s : State) : (takeCat6 b s).ctxa = s.ctxa := rfl
@[simp] theorem takeCat6_ctxl (b : Bool) (s : State) : (takeCat6 b s).ctxl = s.ctxl := rfl
@[simp] theorem takeCat6_prob (b : Bool) (s : State) : (takeCat6 b s).prob = s.prob := rfl
@[simp] theorem takeCat6_cntc (b : Bool) (s : State) : (takeCat6 b s).cntc = s.cntc := rfl
@[simp] theorem takeCat6_cnte (b : Bool) (s : State) : (takeCat6 b s).cnte = s.cnte := rfl
@[simp] theorem takeCat6_par (b : Bool) (s : State) : (takeCat6 b s).par = s.par := rfl
@[simp] theorem takeCat6_scanprov (b : Bool) (s : State) : (takeCat6 b s).scanprov = s.scanprov := rfl
@[simp] theorem takeCat6_answers (b : Bool) (s : State) : (takeCat6 b s).answers = s.answers := rfl
@[simp] theorem takeCat6_requests (b : Bool) (s : State) : (takeCat6 b s).requests = s.requests := rfl
@[simp] theorem takeCat6_host (b : Bool) (s : State) : (takeCat6 b s).host = s.host := rfl
@[simp] theorem takeCat6_rdata (b : Bool) (s : State) : (takeCat6 b s).rdata = s.rdata := rfl
@[simp] theorem takeCat6_cmdNo (b : Bool) (s : State) : (takeCat6 b s).cmdNo = s.cmdNo := rfl
@[simp] theorem takeCat6_resetNo (b : Bool) (s : State) : (takeCat6 b s).resetNo = s.resetNo := rfl
@[simp] theorem takeCat6_tokenSteps (b : Bool) (s : State) : (takeCat6 b s).tokenSteps = s.tokenSteps := rfl

/-! ## endCat6 -/

@[simp] theorem endCat6_node (s : State) : (endCat6 s).node = .sign := rfl
@[simp] theorem endCat6_c (s : State) : (endCat6 s).c = s.c := rfl
@[simp] theorem endCat6_ctx (s : State) : (endCat6 s).ctx = s.ctx := rfl
@[simp] theorem endCat6_band (s : State) : (endCat6 s).band = s.band := rfl
@[simp] theorem endCat6_prow (s : State) : (endCat6 s).prow = s.prow := rfl
@[simp] theorem endCat6_tok (s : State) : (endCat6 s).tok = s.tok := rfl
@[simp] theorem endCat6_val (s : State) : (endCat6 s).val = catMin 6 + s.acc := rfl
@[simp] theorem endCat6_acc (s : State) : (endCat6 s).acc = s.acc := rfl
@[simp] theorem endCat6_xi (s : State) : (endCat6 s).xi = s.xi := rfl
@[simp] theorem endCat6_cmdk (s : State) : (endCat6 s).cmdk = s.cmdk := rfl
@[simp] theorem endCat6_busy (s : State) : (endCat6 s).busy = s.busy := rfl
@[simp] theorem endCat6_done (s : State) : (endCat6 s).done = s.done := rfl
@[simp] theorem endCat6_ovf (s : State) : (endCat6 s).ovf = s.ovf := rfl
@[simp] theorem endCat6_err (s : State) : (endCat6 s).err = s.err := rfl
@[simp] theorem endCat6_eob (s : State) : (endCat6 s).eob = s.eob := rfl
@[simp] theorem endCat6_enode (s : State) : (endCat6 s).enode = s.enode := rfl
@[simp] theorem endCat6_ec (s : State) : (endCat6 s).ec = s.ec := rfl
@[simp] theorem endCat6_fpar (s : State) : (endCat6 s).fpar = s.fpar := rfl
@[simp] theorem endCat6_txsize (s : State) : (endCat6 s).txsize = s.txsize := rfl
@[simp] theorem endCat6_ptype (s : State) : (endCat6 s).ptype = s.ptype := rfl
@[simp] theorem endCat6_ref (s : State) : (endCat6 s).ref = s.ref := rfl
@[simp] theorem endCat6_dqDc (s : State) : (endCat6 s).dqDc = s.dqDc := rfl
@[simp] theorem endCat6_dqAc (s : State) : (endCat6 s).dqAc = s.dqAc := rfl
@[simp] theorem endCat6_ectx (s : State) : (endCat6 s).ectx = s.ectx := rfl
@[simp] theorem endCat6_aoff (s : State) : (endCat6 s).aoff = s.aoff := rfl
@[simp] theorem endCat6_loff (s : State) : (endCat6 s).loff = s.loff := rfl
@[simp] theorem endCat6_pmode (s : State) : (endCat6 s).pmode = s.pmode := rfl
@[simp] theorem endCat6_tokc (s : State) : (endCat6 s).tokc = s.tokc := rfl
@[simp] theorem endCat6_coef (s : State) : (endCat6 s).coef = s.coef := rfl
@[simp] theorem endCat6_ctxa (s : State) : (endCat6 s).ctxa = s.ctxa := rfl
@[simp] theorem endCat6_ctxl (s : State) : (endCat6 s).ctxl = s.ctxl := rfl
@[simp] theorem endCat6_prob (s : State) : (endCat6 s).prob = s.prob := rfl
@[simp] theorem endCat6_cntc (s : State) : (endCat6 s).cntc = s.cntc := rfl
@[simp] theorem endCat6_cnte (s : State) : (endCat6 s).cnte = s.cnte := rfl
@[simp] theorem endCat6_par (s : State) : (endCat6 s).par = s.par := rfl
@[simp] theorem endCat6_scanprov (s : State) : (endCat6 s).scanprov = s.scanprov := rfl
@[simp] theorem endCat6_answers (s : State) : (endCat6 s).answers = s.answers := rfl
@[simp] theorem endCat6_requests (s : State) : (endCat6 s).requests = s.requests := rfl
@[simp] theorem endCat6_host (s : State) : (endCat6 s).host = s.host := rfl
@[simp] theorem endCat6_rdata (s : State) : (endCat6 s).rdata = s.rdata := rfl
@[simp] theorem endCat6_cmdNo (s : State) : (endCat6 s).cmdNo = s.cmdNo := rfl
@[simp] theorem endCat6_resetNo (s : State) : (endCat6 s).resetNo = s.resetNo := rfl
@[simp] theorem endCat6_tokenSteps (s : State) : (endCat6 s).tokenSteps = s.tokenSteps := rfl

/-! ## noteOverflow -/

@[simp] theorem noteOverflow_node (o : Bool) (s : State) : (noteOverflow o s).node = s.node := rfl
@[simp] theorem noteOverflow_c (o : Bool) (s : State) : (noteOverflow o s).c = s.c := rfl
@[simp] theorem noteOverflow_ctx (o : Bool) (s : State) : (noteOverflow o s).ctx = s.ctx := rfl
@[simp] theorem noteOverflow_band (o : Bool) (s : State) : (noteOverflow o s).band = s.band := rfl
@[simp] theorem noteOverflow_prow (o : Bool) (s : State) : (noteOverflow o s).prow = s.prow := rfl
@[simp] theorem noteOverflow_tok (o : Bool) (s : State) : (noteOverflow o s).tok = s.tok := rfl
@[simp] theorem noteOverflow_val (o : Bool) (s : State) : (noteOverflow o s).val = s.val := rfl
@[simp] theorem noteOverflow_acc (o : Bool) (s : State) : (noteOverflow o s).acc = s.acc := rfl
@[simp] theorem noteOverflow_xi (o : Bool) (s : State) : (noteOverflow o s).xi = s.xi := rfl
@[simp] theorem noteOverflow_cmdk (o : Bool) (s : State) : (noteOverflow o s).cmdk = s.cmdk := rfl
@[simp] theorem noteOverflow_busy (o : Bool) (s : State) : (noteOverflow o s).busy = s.busy := rfl
@[simp] theorem noteOverflow_done (o : Bool) (s : State) : (noteOverflow o s).done = s.done := rfl
@[simp] theorem noteOverflow_ovf (o : Bool) (s : State) : (noteOverflow o s).ovf = (s.ovf || o) := rfl
@[simp] theorem noteOverflow_err (o : Bool) (s : State) : (noteOverflow o s).err = s.err := rfl
@[simp] theorem noteOverflow_eob (o : Bool) (s : State) : (noteOverflow o s).eob = s.eob := rfl
@[simp] theorem noteOverflow_enode (o : Bool) (s : State) : (noteOverflow o s).enode = s.enode := rfl
@[simp] theorem noteOverflow_ec (o : Bool) (s : State) : (noteOverflow o s).ec = s.ec := rfl
@[simp] theorem noteOverflow_fpar (o : Bool) (s : State) : (noteOverflow o s).fpar = s.fpar := rfl
@[simp] theorem noteOverflow_txsize (o : Bool) (s : State) : (noteOverflow o s).txsize = s.txsize := rfl
@[simp] theorem noteOverflow_ptype (o : Bool) (s : State) : (noteOverflow o s).ptype = s.ptype := rfl
@[simp] theorem noteOverflow_ref (o : Bool) (s : State) : (noteOverflow o s).ref = s.ref := rfl
@[simp] theorem noteOverflow_dqDc (o : Bool) (s : State) : (noteOverflow o s).dqDc = s.dqDc := rfl
@[simp] theorem noteOverflow_dqAc (o : Bool) (s : State) : (noteOverflow o s).dqAc = s.dqAc := rfl
@[simp] theorem noteOverflow_ectx (o : Bool) (s : State) : (noteOverflow o s).ectx = s.ectx := rfl
@[simp] theorem noteOverflow_aoff (o : Bool) (s : State) : (noteOverflow o s).aoff = s.aoff := rfl
@[simp] theorem noteOverflow_loff (o : Bool) (s : State) : (noteOverflow o s).loff = s.loff := rfl
@[simp] theorem noteOverflow_pmode (o : Bool) (s : State) : (noteOverflow o s).pmode = s.pmode := rfl
@[simp] theorem noteOverflow_tokc (o : Bool) (s : State) : (noteOverflow o s).tokc = s.tokc := rfl
@[simp] theorem noteOverflow_coef (o : Bool) (s : State) : (noteOverflow o s).coef = s.coef := rfl
@[simp] theorem noteOverflow_ctxa (o : Bool) (s : State) : (noteOverflow o s).ctxa = s.ctxa := rfl
@[simp] theorem noteOverflow_ctxl (o : Bool) (s : State) : (noteOverflow o s).ctxl = s.ctxl := rfl
@[simp] theorem noteOverflow_prob (o : Bool) (s : State) : (noteOverflow o s).prob = s.prob := rfl
@[simp] theorem noteOverflow_cntc (o : Bool) (s : State) : (noteOverflow o s).cntc = s.cntc := rfl
@[simp] theorem noteOverflow_cnte (o : Bool) (s : State) : (noteOverflow o s).cnte = s.cnte := rfl
@[simp] theorem noteOverflow_par (o : Bool) (s : State) : (noteOverflow o s).par = s.par := rfl
@[simp] theorem noteOverflow_scanprov (o : Bool) (s : State) : (noteOverflow o s).scanprov = s.scanprov := rfl
@[simp] theorem noteOverflow_answers (o : Bool) (s : State) : (noteOverflow o s).answers = s.answers := rfl
@[simp] theorem noteOverflow_requests (o : Bool) (s : State) : (noteOverflow o s).requests = s.requests := rfl
@[simp] theorem noteOverflow_host (o : Bool) (s : State) : (noteOverflow o s).host = s.host := rfl
@[simp] theorem noteOverflow_rdata (o : Bool) (s : State) : (noteOverflow o s).rdata = s.rdata := rfl
@[simp] theorem noteOverflow_cmdNo (o : Bool) (s : State) : (noteOverflow o s).cmdNo = s.cmdNo := rfl
@[simp] theorem noteOverflow_resetNo (o : Bool) (s : State) : (noteOverflow o s).resetNo = s.resetNo := rfl
@[simp] theorem noteOverflow_tokenSteps (o : Bool) (s : State) : (noteOverflow o s).tokenSteps = s.tokenSteps := rfl

/-! ## writeBack -/

@[simp] theorem writeBack_node (s : State) : (writeBack s).node = .idle := rfl
@[simp] theorem writeBack_c (s : State) : (writeBack s).c = s.c := rfl
@[simp] theorem writeBack_ctx (s : State) : (writeBack s).ctx = s.ctx := rfl
@[simp] theorem writeBack_band (s : State) : (writeBack s).band = s.band := rfl
@[simp] theorem writeBack_prow (s : State) : (writeBack s).prow = s.prow := rfl
@[simp] theorem writeBack_tok (s : State) : (writeBack s).tok = s.tok := rfl
@[simp] theorem writeBack_val (s : State) : (writeBack s).val = s.val := rfl
@[simp] theorem writeBack_acc (s : State) : (writeBack s).acc = s.acc := rfl
@[simp] theorem writeBack_xi (s : State) : (writeBack s).xi = s.xi := rfl
@[simp] theorem writeBack_cmdk (s : State) : (writeBack s).cmdk = s.cmdk := rfl
@[simp] theorem writeBack_busy (s : State) : (writeBack s).busy = false := rfl
@[simp] theorem writeBack_done (s : State) : (writeBack s).done = true := rfl
@[simp] theorem writeBack_ovf (s : State) : (writeBack s).ovf = s.ovf := rfl
@[simp] theorem writeBack_err (s : State) : (writeBack s).err = s.err := rfl
@[simp] theorem writeBack_eob (s : State) : (writeBack s).eob = s.eob := rfl
@[simp] theorem writeBack_enode (s : State) : (writeBack s).enode = s.enode := rfl
@[simp] theorem writeBack_ec (s : State) : (writeBack s).ec = s.ec := rfl
@[simp] theorem writeBack_fpar (s : State) : (writeBack s).fpar = s.fpar := rfl
@[simp] theorem writeBack_txsize (s : State) : (writeBack s).txsize = s.txsize := rfl
@[simp] theorem writeBack_ptype (s : State) : (writeBack s).ptype = s.ptype := rfl
@[simp] theorem writeBack_ref (s : State) : (writeBack s).ref = s.ref := rfl
@[simp] theorem writeBack_dqDc (s : State) : (writeBack s).dqDc = s.dqDc := rfl
@[simp] theorem writeBack_dqAc (s : State) : (writeBack s).dqAc = s.dqAc := rfl
@[simp] theorem writeBack_ectx (s : State) : (writeBack s).ectx = s.ectx := rfl
@[simp] theorem writeBack_aoff (s : State) : (writeBack s).aoff = s.aoff := rfl
@[simp] theorem writeBack_loff (s : State) : (writeBack s).loff = s.loff := rfl
@[simp] theorem writeBack_pmode (s : State) : (writeBack s).pmode = s.pmode := rfl
@[simp] theorem writeBack_tokc (s : State) : (writeBack s).tokc = s.tokc := rfl
@[simp] theorem writeBack_coef (s : State) : (writeBack s).coef = s.coef := rfl
@[simp] theorem writeBack_ctxa (s : State) : (writeBack s).ctxa = fill s.ctxa s.aoff.toNat (nonzeroFlag s) (footprint s.txsize) := rfl
@[simp] theorem writeBack_ctxl (s : State) : (writeBack s).ctxl = fill s.ctxl s.loff.toNat (nonzeroFlag s) (footprint s.txsize) := rfl
@[simp] theorem writeBack_prob (s : State) : (writeBack s).prob = s.prob := rfl
@[simp] theorem writeBack_cntc (s : State) : (writeBack s).cntc = s.cntc := rfl
@[simp] theorem writeBack_cnte (s : State) : (writeBack s).cnte = s.cnte := rfl
@[simp] theorem writeBack_par (s : State) : (writeBack s).par = s.par := rfl
@[simp] theorem writeBack_scanprov (s : State) : (writeBack s).scanprov = s.scanprov := rfl
@[simp] theorem writeBack_answers (s : State) : (writeBack s).answers = s.answers := rfl
@[simp] theorem writeBack_requests (s : State) : (writeBack s).requests = s.requests := rfl
@[simp] theorem writeBack_host (s : State) : (writeBack s).host = s.host := rfl
@[simp] theorem writeBack_rdata (s : State) : (writeBack s).rdata = s.rdata := rfl
@[simp] theorem writeBack_cmdNo (s : State) : (writeBack s).cmdNo = s.cmdNo := rfl
@[simp] theorem writeBack_resetNo (s : State) : (writeBack s).resetNo = s.resetNo := rfl
@[simp] theorem writeBack_tokenSteps (s : State) : (writeBack s).tokenSteps = s.tokenSteps := rfl

/-! ## count -/

@[simp] theorem count_node (y : Sym) (s : State) : (count y s).node = s.node := by unfold count; split <;> rfl
@[simp] theorem count_c (y : Sym) (s : State) : (count y s).c = s.c := by unfold count; split <;> rfl
@[simp] theorem count_ctx (y : Sym) (s : State) : (count y s).ctx = s.ctx := by unfold count; split <;> rfl
@[simp] theorem count_band (y : Sym) (s : State) : (count y s).band = s.band := by unfold count; split <;> rfl
@[simp] theorem count_prow (y : Sym) (s : State) : (count y s).prow = s.prow := by unfold count; split <;> rfl
@[simp] theorem count_tok (y : Sym) (s : State) : (count y s).tok = s.tok := by unfold count; split <;> rfl
@[simp] theorem count_val (y : Sym) (s : State) : (count y s).val = s.val := by unfold count; split <;> rfl
@[simp] theorem count_acc (y : Sym) (s : State) : (count y s).acc = s.acc := by unfold count; split <;> rfl
@[simp] theorem count_xi (y : Sym) (s : State) : (count y s).xi = s.xi := by unfold count; split <;> rfl
@[simp] theorem count_cmdk (y : Sym) (s : State) : (count y s).cmdk = s.cmdk := by unfold count; split <;> rfl
@[simp] theorem count_busy (y : Sym) (s : State) : (count y s).busy = s.busy := by unfold count; split <;> rfl
@[simp] theorem count_done (y : Sym) (s : State) : (count y s).done = s.done := by unfold count; split <;> rfl
@[simp] theorem count_ovf (y : Sym) (s : State) : (count y s).ovf = s.ovf := by unfold count; split <;> rfl
@[simp] theorem count_err (y : Sym) (s : State) : (count y s).err = s.err := by unfold count; split <;> rfl
@[simp] theorem count_eob (y : Sym) (s : State) : (count y s).eob = s.eob := by unfold count; split <;> rfl
@[simp] theorem count_enode (y : Sym) (s : State) : (count y s).enode = s.enode := by unfold count; split <;> rfl
@[simp] theorem count_ec (y : Sym) (s : State) : (count y s).ec = s.ec := by unfold count; split <;> rfl
@[simp] theorem count_fpar (y : Sym) (s : State) : (count y s).fpar = s.fpar := by unfold count; split <;> rfl
@[simp] theorem count_txsize (y : Sym) (s : State) : (count y s).txsize = s.txsize := by unfold count; split <;> rfl
@[simp] theorem count_ptype (y : Sym) (s : State) : (count y s).ptype = s.ptype := by unfold count; split <;> rfl
@[simp] theorem count_ref (y : Sym) (s : State) : (count y s).ref = s.ref := by unfold count; split <;> rfl
@[simp] theorem count_dqDc (y : Sym) (s : State) : (count y s).dqDc = s.dqDc := by unfold count; split <;> rfl
@[simp] theorem count_dqAc (y : Sym) (s : State) : (count y s).dqAc = s.dqAc := by unfold count; split <;> rfl
@[simp] theorem count_ectx (y : Sym) (s : State) : (count y s).ectx = s.ectx := by unfold count; split <;> rfl
@[simp] theorem count_aoff (y : Sym) (s : State) : (count y s).aoff = s.aoff := by unfold count; split <;> rfl
@[simp] theorem count_loff (y : Sym) (s : State) : (count y s).loff = s.loff := by unfold count; split <;> rfl
@[simp] theorem count_pmode (y : Sym) (s : State) : (count y s).pmode = s.pmode := by unfold count; split <;> rfl
@[simp] theorem count_tokc (y : Sym) (s : State) : (count y s).tokc = s.tokc := by unfold count; split <;> rfl
@[simp] theorem count_coef (y : Sym) (s : State) : (count y s).coef = s.coef := by unfold count; split <;> rfl
@[simp] theorem count_ctxa (y : Sym) (s : State) : (count y s).ctxa = s.ctxa := by unfold count; split <;> rfl
@[simp] theorem count_ctxl (y : Sym) (s : State) : (count y s).ctxl = s.ctxl := by unfold count; split <;> rfl
@[simp] theorem count_prob (y : Sym) (s : State) : (count y s).prob = s.prob := by unfold count; split <;> rfl
@[simp] theorem count_cntc (y : Sym) (s : State) : (count y s).cntc = if s.fpar = 0#1 then Memory.insert s.cntc (classIndex y s) (increment s (cntcAt s (classIndex y s))) else s.cntc := by unfold count; split <;> rfl
@[simp] theorem count_cnte (y : Sym) (s : State) : (count y s).cnte = s.cnte := by unfold count; split <;> rfl
@[simp] theorem count_par (y : Sym) (s : State) : (count y s).par = s.par := by unfold count; split <;> rfl
@[simp] theorem count_scanprov (y : Sym) (s : State) : (count y s).scanprov = s.scanprov := by unfold count; split <;> rfl
@[simp] theorem count_answers (y : Sym) (s : State) : (count y s).answers = s.answers := by unfold count; split <;> rfl
@[simp] theorem count_requests (y : Sym) (s : State) : (count y s).requests = s.requests := by unfold count; split <;> rfl
@[simp] theorem count_host (y : Sym) (s : State) : (count y s).host = s.host := by unfold count; split <;> rfl
@[simp] theorem count_rdata (y : Sym) (s : State) : (count y s).rdata = s.rdata := by unfold count; split <;> rfl
@[simp] theorem count_cmdNo (y : Sym) (s : State) : (count y s).cmdNo = s.cmdNo := by unfold count; split <;> rfl
@[simp] theorem count_resetNo (y : Sym) (s : State) : (count y s).resetNo = s.resetNo := by unfold count; split <;> rfl
@[simp] theorem count_tokenSteps (y : Sym) (s : State) : (count y s).tokenSteps = s.tokenSteps := by unfold count; split <;> rfl

/-! ## countE -/

@[simp] theorem countE_node (s : State) : (countE s).node = s.node := by unfold countE; split <;> rfl
@[simp] theorem countE_c (s : State) : (countE s).c = s.c := by unfold countE; split <;> rfl
@[simp] theorem countE_ctx (s : State) : (countE s).ctx = s.ctx := by unfold countE; split <;> rfl
@[simp] theorem countE_band (s : State) : (countE s).band = s.band := by unfold countE; split <;> rfl
@[simp] theorem countE_prow (s : State) : (countE s).prow = s.prow := by unfold countE; split <;> rfl
@[simp] theorem countE_tok (s : State) : (countE s).tok = s.tok := by unfold countE; split <;> rfl
@[simp] theorem countE_val (s : State) : (countE s).val = s.val := by unfold countE; split <;> rfl
@[simp] theorem countE_acc (s : State) : (countE s).acc = s.acc := by unfold countE; split <;> rfl
@[simp] theorem countE_xi (s : State) : (countE s).xi = s.xi := by unfold countE; split <;> rfl
@[simp] theorem countE_cmdk (s : State) : (countE s).cmdk = s.cmdk := by unfold countE; split <;> rfl
@[simp] theorem countE_busy (s : State) : (countE s).busy = s.busy := by unfold countE; split <;> rfl
@[simp] theorem countE_done (s : State) : (countE s).done = s.done := by unfold countE; split <;> rfl
@[simp] theorem countE_ovf (s : State) : (countE s).ovf = s.ovf := by unfold countE; split <;> rfl
@[simp] theorem countE_err (s : State) : (countE s).err = s.err := by unfold countE; split <;> rfl
@[simp] theorem countE_eob (s : State) : (countE s).eob = s.eob := by unfold countE; split <;> rfl
@[simp] theorem countE_enode (s : State) : (countE s).enode = s.enode := by unfold countE; split <;> rfl
@[simp] theorem countE_ec (s : State) : (countE s).ec = s.ec := by unfold countE; split <;> rfl
@[simp] theorem countE_fpar (s : State) : (countE s).fpar = s.fpar := by unfold countE; split <;> rfl
@[simp] theorem countE_txsize (s : State) : (countE s).txsize = s.txsize := by unfold countE; split <;> rfl
@[simp] theorem countE_ptype (s : State) : (countE s).ptype = s.ptype := by unfold countE; split <;> rfl
@[simp] theorem countE_ref (s : State) : (countE s).ref = s.ref := by unfold countE; split <;> rfl
@[simp] theorem countE_dqDc (s : State) : (countE s).dqDc = s.dqDc := by unfold countE; split <;> rfl
@[simp] theorem countE_dqAc (s : State) : (countE s).dqAc = s.dqAc := by unfold countE; split <;> rfl
@[simp] theorem countE_ectx (s : State) : (countE s).ectx = s.ectx := by unfold countE; split <;> rfl
@[simp] theorem countE_aoff (s : State) : (countE s).aoff = s.aoff := by unfold countE; split <;> rfl
@[simp] theorem countE_loff (s : State) : (countE s).loff = s.loff := by unfold countE; split <;> rfl
@[simp] theorem countE_pmode (s : State) : (countE s).pmode = s.pmode := by unfold countE; split <;> rfl
@[simp] theorem countE_tokc (s : State) : (countE s).tokc = s.tokc := by unfold countE; split <;> rfl
@[simp] theorem countE_coef (s : State) : (countE s).coef = s.coef := by unfold countE; split <;> rfl
@[simp] theorem countE_ctxa (s : State) : (countE s).ctxa = s.ctxa := by unfold countE; split <;> rfl
@[simp] theorem countE_ctxl (s : State) : (countE s).ctxl = s.ctxl := by unfold countE; split <;> rfl
@[simp] theorem countE_prob (s : State) : (countE s).prob = s.prob := by unfold countE; split <;> rfl
@[simp] theorem countE_cntc (s : State) : (countE s).cntc = s.cntc := by unfold countE; split <;> rfl
@[simp] theorem countE_cnte (s : State) : (countE s).cnte = if s.fpar = 0#1 then Memory.insert s.cnte (rowIndex s) (increment s (cnteAt s (rowIndex s))) else s.cnte := by unfold countE; split <;> rfl
@[simp] theorem countE_par (s : State) : (countE s).par = s.par := by unfold countE; split <;> rfl
@[simp] theorem countE_scanprov (s : State) : (countE s).scanprov = s.scanprov := by unfold countE; split <;> rfl
@[simp] theorem countE_answers (s : State) : (countE s).answers = s.answers := by unfold countE; split <;> rfl
@[simp] theorem countE_requests (s : State) : (countE s).requests = s.requests := by unfold countE; split <;> rfl
@[simp] theorem countE_host (s : State) : (countE s).host = s.host := by unfold countE; split <;> rfl
@[simp] theorem countE_rdata (s : State) : (countE s).rdata = s.rdata := by unfold countE; split <;> rfl
@[simp] theorem countE_cmdNo (s : State) : (countE s).cmdNo = s.cmdNo := by unfold countE; split <;> rfl
@[simp] theorem countE_resetNo (s : State) : (countE s).resetNo = s.resetNo := by unfold countE; split <;> rfl
@[simp] theorem countE_tokenSteps (s : State) : (countE s).tokenSteps = s.tokenSteps := by unfold countE; split <;> rfl

/-! ## finish -/

@[simp] theorem finish_node (e : BitVec 11) (s : State) : (finish e s).node = if s.cmdk = 1#1 then .wb else .idle := by unfold finish; split <;> rfl
@[simp] theorem finish_c (e : BitVec 11) (s : State) : (finish e s).c = s.c := by unfold finish; split <;> rfl
@[simp] theorem finish_ctx (e : BitVec 11) (s : State) : (finish e s).ctx = s.ctx := by unfold finish; split <;> rfl
@[simp] theorem finish_band (e : BitVec 11) (s : State) : (finish e s).band = s.band := by unfold finish; split <;> rfl
@[simp] theorem finish_prow (e : BitVec 11) (s : State) : (finish e s).prow = s.prow := by unfold finish; split <;> rfl
@[simp] theorem finish_tok (e : BitVec 11) (s : State) : (finish e s).tok = s.tok := by unfold finish; split <;> rfl
@[simp] theorem finish_val (e : BitVec 11) (s : State) : (finish e s).val = s.val := by unfold finish; split <;> rfl
@[simp] theorem finish_acc (e : BitVec 11) (s : State) : (finish e s).acc = s.acc := by unfold finish; split <;> rfl
@[simp] theorem finish_xi (e : BitVec 11) (s : State) : (finish e s).xi = s.xi := by unfold finish; split <;> rfl
@[simp] theorem finish_cmdk (e : BitVec 11) (s : State) : (finish e s).cmdk = s.cmdk := by unfold finish; split <;> rfl
@[simp] theorem finish_busy (e : BitVec 11) (s : State) : (finish e s).busy = if s.cmdk = 1#1 then s.busy else false := by unfold finish; split <;> rfl
@[simp] theorem finish_done (e : BitVec 11) (s : State) : (finish e s).done = if s.cmdk = 1#1 then s.done else true := by unfold finish; split <;> rfl
@[simp] theorem finish_ovf (e : BitVec 11) (s : State) : (finish e s).ovf = s.ovf := by unfold finish; split <;> rfl
@[simp] theorem finish_err (e : BitVec 11) (s : State) : (finish e s).err = s.err := by unfold finish; split <;> rfl
@[simp] theorem finish_eob (e : BitVec 11) (s : State) : (finish e s).eob = e := by unfold finish; split <;> rfl
@[simp] theorem finish_enode (e : BitVec 11) (s : State) : (finish e s).enode = s.enode := by unfold finish; split <;> rfl
@[simp] theorem finish_ec (e : BitVec 11) (s : State) : (finish e s).ec = s.ec := by unfold finish; split <;> rfl
@[simp] theorem finish_fpar (e : BitVec 11) (s : State) : (finish e s).fpar = s.fpar := by unfold finish; split <;> rfl
@[simp] theorem finish_txsize (e : BitVec 11) (s : State) : (finish e s).txsize = s.txsize := by unfold finish; split <;> rfl
@[simp] theorem finish_ptype (e : BitVec 11) (s : State) : (finish e s).ptype = s.ptype := by unfold finish; split <;> rfl
@[simp] theorem finish_ref (e : BitVec 11) (s : State) : (finish e s).ref = s.ref := by unfold finish; split <;> rfl
@[simp] theorem finish_dqDc (e : BitVec 11) (s : State) : (finish e s).dqDc = s.dqDc := by unfold finish; split <;> rfl
@[simp] theorem finish_dqAc (e : BitVec 11) (s : State) : (finish e s).dqAc = s.dqAc := by unfold finish; split <;> rfl
@[simp] theorem finish_ectx (e : BitVec 11) (s : State) : (finish e s).ectx = s.ectx := by unfold finish; split <;> rfl
@[simp] theorem finish_aoff (e : BitVec 11) (s : State) : (finish e s).aoff = s.aoff := by unfold finish; split <;> rfl
@[simp] theorem finish_loff (e : BitVec 11) (s : State) : (finish e s).loff = s.loff := by unfold finish; split <;> rfl
@[simp] theorem finish_pmode (e : BitVec 11) (s : State) : (finish e s).pmode = s.pmode := by unfold finish; split <;> rfl
@[simp] theorem finish_tokc (e : BitVec 11) (s : State) : (finish e s).tokc = s.tokc := by unfold finish; split <;> rfl
@[simp] theorem finish_coef (e : BitVec 11) (s : State) : (finish e s).coef = s.coef := by unfold finish; split <;> rfl
@[simp] theorem finish_ctxa (e : BitVec 11) (s : State) : (finish e s).ctxa = s.ctxa := by unfold finish; split <;> rfl
@[simp] theorem finish_ctxl (e : BitVec 11) (s : State) : (finish e s).ctxl = s.ctxl := by unfold finish; split <;> rfl
@[simp] theorem finish_prob (e : BitVec 11) (s : State) : (finish e s).prob = s.prob := by unfold finish; split <;> rfl
@[simp] theorem finish_cntc (e : BitVec 11) (s : State) : (finish e s).cntc = s.cntc := by unfold finish; split <;> rfl
@[simp] theorem finish_cnte (e : BitVec 11) (s : State) : (finish e s).cnte = s.cnte := by unfold finish; split <;> rfl
@[simp] theorem finish_par (e : BitVec 11) (s : State) : (finish e s).par = s.par := by unfold finish; split <;> rfl
@[simp] theorem finish_scanprov (e : BitVec 11) (s : State) : (finish e s).scanprov = s.scanprov := by unfold finish; split <;> rfl
@[simp] theorem finish_answers (e : BitVec 11) (s : State) : (finish e s).answers = s.answers := by unfold finish; split <;> rfl
@[simp] theorem finish_requests (e : BitVec 11) (s : State) : (finish e s).requests = s.requests := by unfold finish; split <;> rfl
@[simp] theorem finish_host (e : BitVec 11) (s : State) : (finish e s).host = s.host := by unfold finish; split <;> rfl
@[simp] theorem finish_rdata (e : BitVec 11) (s : State) : (finish e s).rdata = s.rdata := by unfold finish; split <;> rfl
@[simp] theorem finish_cmdNo (e : BitVec 11) (s : State) : (finish e s).cmdNo = s.cmdNo := by unfold finish; split <;> rfl
@[simp] theorem finish_resetNo (e : BitVec 11) (s : State) : (finish e s).resetNo = s.resetNo := by unfold finish; split <;> rfl
@[simp] theorem finish_tokenSteps (e : BitVec 11) (s : State) : (finish e s).tokenSteps = s.tokenSteps := by unfold finish; split <;> rfl

/-! ## Derived reads that an update leaves as they are -/

@[simp] theorem me_sent (r : Request) (s : State) : me (sent r s) = me s := rfl
@[simp] theorem me_count (y : Sym) (s : State) : me (count y s) = me s := by unfold count; split <;> rfl
@[simp] theorem me_countE (s : State) : me (countE s) = me s := by unfold countE; split <;> rfl
@[simp] theorem me_storeCoef (p : Nat) (v : Coef) (s : State) : me (storeCoef p v s) = me s := rfl
@[simp] theorem me_storeToken (p : Nat) (k : Token) (s : State) : me (storeToken p k s) = me s := rfl
@[simp] theorem me_bandsel (i : Nat) (s : State) : me (bandsel i s) = me s := rfl
@[simp] theorem me_raise (e : Err) (s : State) : me (raise e s) = me s := rfl
@[simp] theorem me_startExtra (k : Token) (n : Nat) (s : State) : me (startExtra k n s) = me s := rfl
@[simp] theorem me_finish (e : BitVec 11) (s : State) : me (finish e s) = me s := by unfold finish; split <;> rfl
@[simp] theorem me_goto (n : Node) (s : State) : me (goto n s) = me s := rfl
@[simp] theorem me_setTok (k : Token) (s : State) : me (setTok k s) = me s := rfl
@[simp] theorem me_setCtx (v : BitVec 3) (s : State) : me (setCtx v s) = me s := rfl
@[simp] theorem me_setEctx (v : BitVec 3) (s : State) : me (setEctx v s) = me s := rfl
@[simp] theorem me_nextIndex (s : State) : me (nextIndex s) = me s := rfl
@[simp] theorem me_resolve (k : Token) (m : Nat) (s : State) : me (resolve k m s) = me s := rfl
@[simp] theorem me_selectRow (p : Prob) (s : State) : me (selectRow p s) = me s := rfl
@[simp] theorem me_startCat6 (s : State) : me (startCat6 s) = me s := rfl
@[simp] theorem me_takeExtra (n : Nat) (b : Bool) (s : State) : me (takeExtra n b s) = me s := rfl
@[simp] theorem me_takeCat6 (b : Bool) (s : State) : me (takeCat6 b s) = me s := rfl
@[simp] theorem me_endCat6 (s : State) : me (endCat6 s) = me s := rfl
@[simp] theorem me_noteOverflow (o : Bool) (s : State) : me (noteOverflow o s) = me s := rfl
@[simp] theorem me_writeBack (s : State) : me (writeBack s) = me s := rfl
@[simp] theorem me_storeSigned (p : Nat) (neg : Bool) (s : State) : me (storeSigned p neg s) = me s := by simp [storeSigned]

@[simp] theorem rowIndex_sent (r : Request) (s : State) : rowIndex (sent r s) = rowIndex s := rfl
@[simp] theorem rowIndex_count (y : Sym) (s : State) : rowIndex (count y s) = rowIndex s := by unfold count; split <;> rfl
@[simp] theorem rowIndex_countE (s : State) : rowIndex (countE s) = rowIndex s := by unfold countE; split <;> rfl
@[simp] theorem rowIndex_storeCoef (p : Nat) (v : Coef) (s : State) : rowIndex (storeCoef p v s) = rowIndex s := rfl
@[simp] theorem rowIndex_storeToken (p : Nat) (k : Token) (s : State) : rowIndex (storeToken p k s) = rowIndex s := rfl
@[simp] theorem rowIndex_raise (e : Err) (s : State) : rowIndex (raise e s) = rowIndex s := rfl
@[simp] theorem rowIndex_startExtra (k : Token) (n : Nat) (s : State) : rowIndex (startExtra k n s) = rowIndex s := rfl
@[simp] theorem rowIndex_finish (e : BitVec 11) (s : State) : rowIndex (finish e s) = rowIndex s := by unfold finish; split <;> rfl
@[simp] theorem rowIndex_goto (n : Node) (s : State) : rowIndex (goto n s) = rowIndex s := rfl
@[simp] theorem rowIndex_setTok (k : Token) (s : State) : rowIndex (setTok k s) = rowIndex s := rfl
@[simp] theorem rowIndex_setEctx (v : BitVec 3) (s : State) : rowIndex (setEctx v s) = rowIndex s := rfl
@[simp] theorem rowIndex_nextIndex (s : State) : rowIndex (nextIndex s) = rowIndex s := rfl
@[simp] theorem rowIndex_resolve (k : Token) (m : Nat) (s : State) : rowIndex (resolve k m s) = rowIndex s := rfl
@[simp] theorem rowIndex_selectRow (p : Prob) (s : State) : rowIndex (selectRow p s) = rowIndex s := rfl
@[simp] theorem rowIndex_startCat6 (s : State) : rowIndex (startCat6 s) = rowIndex s := rfl
@[simp] theorem rowIndex_takeExtra (n : Nat) (b : Bool) (s : State) : rowIndex (takeExtra n b s) = rowIndex s := rfl
@[simp] theorem rowIndex_takeCat6 (b : Bool) (s : State) : rowIndex (takeCat6 b s) = rowIndex s := rfl
@[simp] theorem rowIndex_endCat6 (s : State) : rowIndex (endCat6 s) = rowIndex s := rfl
@[simp] theorem rowIndex_noteOverflow (o : Bool) (s : State) : rowIndex (noteOverflow o s) = rowIndex s := rfl
@[simp] theorem rowIndex_writeBack (s : State) : rowIndex (writeBack s) = rowIndex s := rfl
@[simp] theorem rowIndex_storeSigned (p : Nat) (neg : Bool) (s : State) : rowIndex (storeSigned p neg s) = rowIndex s := by simp [storeSigned]

@[simp] theorem scanAt_sent (r : Request) (s : State) (q : Nat) : scanAt (sent r s) q = scanAt s q := rfl
@[simp] theorem scanAt_count (y : Sym) (s : State) (q : Nat) : scanAt (count y s) q = scanAt s q := by unfold count; split <;> rfl
@[simp] theorem scanAt_countE (s : State) (q : Nat) : scanAt (countE s) q = scanAt s q := by unfold countE; split <;> rfl
@[simp] theorem scanAt_storeCoef (p : Nat) (v : Coef) (s : State) (q : Nat) : scanAt (storeCoef p v s) q = scanAt s q := rfl
@[simp] theorem scanAt_storeToken (p : Nat) (k : Token) (s : State) (q : Nat) : scanAt (storeToken p k s) q = scanAt s q := rfl
@[simp] theorem scanAt_bandsel (i : Nat) (s : State) (q : Nat) : scanAt (bandsel i s) q = scanAt s q := rfl
@[simp] theorem scanAt_raise (e : Err) (s : State) (q : Nat) : scanAt (raise e s) q = scanAt s q := rfl
@[simp] theorem scanAt_startExtra (k : Token) (n : Nat) (s : State) (q : Nat) : scanAt (startExtra k n s) q = scanAt s q := rfl
@[simp] theorem scanAt_finish (e : BitVec 11) (s : State) (q : Nat) : scanAt (finish e s) q = scanAt s q := by unfold finish; split <;> rfl
@[simp] theorem scanAt_goto (n : Node) (s : State) (q : Nat) : scanAt (goto n s) q = scanAt s q := rfl
@[simp] theorem scanAt_setTok (k : Token) (s : State) (q : Nat) : scanAt (setTok k s) q = scanAt s q := rfl
@[simp] theorem scanAt_setCtx (v : BitVec 3) (s : State) (q : Nat) : scanAt (setCtx v s) q = scanAt s q := rfl
@[simp] theorem scanAt_setEctx (v : BitVec 3) (s : State) (q : Nat) : scanAt (setEctx v s) q = scanAt s q := rfl
@[simp] theorem scanAt_nextIndex (s : State) (q : Nat) : scanAt (nextIndex s) q = scanAt s q := rfl
@[simp] theorem scanAt_resolve (k : Token) (m : Nat) (s : State) (q : Nat) : scanAt (resolve k m s) q = scanAt s q := rfl
@[simp] theorem scanAt_selectRow (p : Prob) (s : State) (q : Nat) : scanAt (selectRow p s) q = scanAt s q := rfl
@[simp] theorem scanAt_startCat6 (s : State) (q : Nat) : scanAt (startCat6 s) q = scanAt s q := rfl
@[simp] theorem scanAt_takeExtra (n : Nat) (b : Bool) (s : State) (q : Nat) : scanAt (takeExtra n b s) q = scanAt s q := rfl
@[simp] theorem scanAt_takeCat6 (b : Bool) (s : State) (q : Nat) : scanAt (takeCat6 b s) q = scanAt s q := rfl
@[simp] theorem scanAt_endCat6 (s : State) (q : Nat) : scanAt (endCat6 s) q = scanAt s q := rfl
@[simp] theorem scanAt_noteOverflow (o : Bool) (s : State) (q : Nat) : scanAt (noteOverflow o s) q = scanAt s q := rfl
@[simp] theorem scanAt_writeBack (s : State) (q : Nat) : scanAt (writeBack s) q = scanAt s q := rfl
@[simp] theorem scanAt_storeSigned (p : Nat) (neg : Bool) (s : State) (q : Nat) : scanAt (storeSigned p neg s) q = scanAt s q := by simp [storeSigned]

@[simp] theorem nbAt_sent (r : Request) (s : State) (q : Nat) : nbAt (sent r s) q = nbAt s q := rfl
@[simp] theorem nbAt_count (y : Sym) (s : State) (q : Nat) : nbAt (count y s) q = nbAt s q := by unfold count; split <;> rfl
@[simp] theorem nbAt_countE (s : State) (q : Nat) : nbAt (countE s) q = nbAt s q := by unfold countE; split <;> rfl
@[simp] theorem nbAt_storeCoef (p : Nat) (v : Coef) (s : State) (q : Nat) : nbAt (storeCoef p v s) q = nbAt s q := rfl
@[simp] theorem nbAt_storeToken (p : Nat) (k : Token) (s : State) (q : Nat) : nbAt (storeToken p k s) q = nbAt s q := rfl
@[simp] theorem nbAt_bandsel (i : Nat) (s : State) (q : Nat) : nbAt (bandsel i s) q = nbAt s q := rfl
@[simp] theorem nbAt_raise (e : Err) (s : State) (q : Nat) : nbAt (raise e s) q = nbAt s q := rfl
@[simp] theorem nbAt_startExtra (k : Token) (n : Nat) (s : State) (q : Nat) : nbAt (startExtra k n s) q = nbAt s q := rfl
@[simp] theorem nbAt_finish (e : BitVec 11) (s : State) (q : Nat) : nbAt (finish e s) q = nbAt s q := by unfold finish; split <;> rfl
@[simp] theorem nbAt_goto (n : Node) (s : State) (q : Nat) : nbAt (goto n s) q = nbAt s q := rfl
@[simp] theorem nbAt_setTok (k : Token) (s : State) (q : Nat) : nbAt (setTok k s) q = nbAt s q := rfl
@[simp] theorem nbAt_setCtx (v : BitVec 3) (s : State) (q : Nat) : nbAt (setCtx v s) q = nbAt s q := rfl
@[simp] theorem nbAt_setEctx (v : BitVec 3) (s : State) (q : Nat) : nbAt (setEctx v s) q = nbAt s q := rfl
@[simp] theorem nbAt_nextIndex (s : State) (q : Nat) : nbAt (nextIndex s) q = nbAt s q := rfl
@[simp] theorem nbAt_resolve (k : Token) (m : Nat) (s : State) (q : Nat) : nbAt (resolve k m s) q = nbAt s q := rfl
@[simp] theorem nbAt_selectRow (p : Prob) (s : State) (q : Nat) : nbAt (selectRow p s) q = nbAt s q := rfl
@[simp] theorem nbAt_startCat6 (s : State) (q : Nat) : nbAt (startCat6 s) q = nbAt s q := rfl
@[simp] theorem nbAt_takeExtra (n : Nat) (b : Bool) (s : State) (q : Nat) : nbAt (takeExtra n b s) q = nbAt s q := rfl
@[simp] theorem nbAt_takeCat6 (b : Bool) (s : State) (q : Nat) : nbAt (takeCat6 b s) q = nbAt s q := rfl
@[simp] theorem nbAt_endCat6 (s : State) (q : Nat) : nbAt (endCat6 s) q = nbAt s q := rfl
@[simp] theorem nbAt_noteOverflow (o : Bool) (s : State) (q : Nat) : nbAt (noteOverflow o s) q = nbAt s q := rfl
@[simp] theorem nbAt_writeBack (s : State) (q : Nat) : nbAt (writeBack s) q = nbAt s q := rfl
@[simp] theorem nbAt_storeSigned (p : Nat) (neg : Bool) (s : State) (q : Nat) : nbAt (storeSigned p neg s) q = nbAt s q := by simp [storeSigned]

@[simp] theorem bandAt_sent (r : Request) (s : State) (q : Nat) : bandAt (sent r s) q = bandAt s q := rfl
@[simp] theorem bandAt_count (y : Sym) (s : State) (q : Nat) : bandAt (count y s) q = bandAt s q := by unfold count; split <;> rfl
@[simp] theorem bandAt_countE (s : State) (q : Nat) : bandAt (countE s) q = bandAt s q := by unfold countE; split <;> rfl
@[simp] theorem bandAt_storeCoef (p : Nat) (v : Coef) (s : State) (q : Nat) : bandAt (storeCoef p v s) q = bandAt s q := rfl
@[simp] theorem bandAt_storeToken (p : Nat) (k : Token) (s : State) (q : Nat) : bandAt (storeToken p k s) q = bandAt s q := rfl
@[simp] theorem bandAt_bandsel (i : Nat) (s : State) (q : Nat) : bandAt (bandsel i s) q = bandAt s q := rfl
@[simp] theorem bandAt_raise (e : Err) (s : State) (q : Nat) : bandAt (raise e s) q = bandAt s q := rfl
@[simp] theorem bandAt_startExtra (k : Token) (n : Nat) (s : State) (q : Nat) : bandAt (startExtra k n s) q = bandAt s q := rfl
@[simp] theorem bandAt_finish (e : BitVec 11) (s : State) (q : Nat) : bandAt (finish e s) q = bandAt s q := by unfold finish; split <;> rfl
@[simp] theorem bandAt_goto (n : Node) (s : State) (q : Nat) : bandAt (goto n s) q = bandAt s q := rfl
@[simp] theorem bandAt_setTok (k : Token) (s : State) (q : Nat) : bandAt (setTok k s) q = bandAt s q := rfl
@[simp] theorem bandAt_setCtx (v : BitVec 3) (s : State) (q : Nat) : bandAt (setCtx v s) q = bandAt s q := rfl
@[simp] theorem bandAt_setEctx (v : BitVec 3) (s : State) (q : Nat) : bandAt (setEctx v s) q = bandAt s q := rfl
@[simp] theorem bandAt_nextIndex (s : State) (q : Nat) : bandAt (nextIndex s) q = bandAt s q := rfl
@[simp] theorem bandAt_resolve (k : Token) (m : Nat) (s : State) (q : Nat) : bandAt (resolve k m s) q = bandAt s q := rfl
@[simp] theorem bandAt_selectRow (p : Prob) (s : State) (q : Nat) : bandAt (selectRow p s) q = bandAt s q := rfl
@[simp] theorem bandAt_startCat6 (s : State) (q : Nat) : bandAt (startCat6 s) q = bandAt s q := rfl
@[simp] theorem bandAt_takeExtra (n : Nat) (b : Bool) (s : State) (q : Nat) : bandAt (takeExtra n b s) q = bandAt s q := rfl
@[simp] theorem bandAt_takeCat6 (b : Bool) (s : State) (q : Nat) : bandAt (takeCat6 b s) q = bandAt s q := rfl
@[simp] theorem bandAt_endCat6 (s : State) (q : Nat) : bandAt (endCat6 s) q = bandAt s q := rfl
@[simp] theorem bandAt_noteOverflow (o : Bool) (s : State) (q : Nat) : bandAt (noteOverflow o s) q = bandAt s q := rfl
@[simp] theorem bandAt_writeBack (s : State) (q : Nat) : bandAt (writeBack s) q = bandAt s q := rfl
@[simp] theorem bandAt_storeSigned (p : Nat) (neg : Bool) (s : State) (q : Nat) : bandAt (storeSigned p neg s) q = bandAt s q := by simp [storeSigned]

@[simp] theorem energyOf_sent (r : Request) (s : State) (j : Token) : energyOf (sent r s) j = energyOf s j := rfl
@[simp] theorem energyOf_count (y : Sym) (s : State) (j : Token) : energyOf (count y s) j = energyOf s j := by unfold count; split <;> rfl
@[simp] theorem energyOf_countE (s : State) (j : Token) : energyOf (countE s) j = energyOf s j := by unfold countE; split <;> rfl
@[simp] theorem energyOf_storeCoef (p : Nat) (v : Coef) (s : State) (j : Token) : energyOf (storeCoef p v s) j = energyOf s j := rfl
@[simp] theorem energyOf_storeToken (p : Nat) (k : Token) (s : State) (j : Token) : energyOf (storeToken p k s) j = energyOf s j := rfl
@[simp] theorem energyOf_bandsel (i : Nat) (s : State) (j : Token) : energyOf (bandsel i s) j = energyOf s j := rfl
@[simp] theorem energyOf_raise (e : Err) (s : State) (j : Token) : energyOf (raise e s) j = energyOf s j := rfl
@[simp] theorem energyOf_startExtra (k : Token) (n : Nat) (s : State) (j : Token) : energyOf (startExtra k n s) j = energyOf s j := rfl
@[simp] theorem energyOf_finish (e : BitVec 11) (s : State) (j : Token) : energyOf (finish e s) j = energyOf s j := by unfold finish; split <;> rfl
@[simp] theorem energyOf_goto (n : Node) (s : State) (j : Token) : energyOf (goto n s) j = energyOf s j := rfl
@[simp] theorem energyOf_setTok (k : Token) (s : State) (j : Token) : energyOf (setTok k s) j = energyOf s j := rfl
@[simp] theorem energyOf_setCtx (v : BitVec 3) (s : State) (j : Token) : energyOf (setCtx v s) j = energyOf s j := rfl
@[simp] theorem energyOf_setEctx (v : BitVec 3) (s : State) (j : Token) : energyOf (setEctx v s) j = energyOf s j := rfl
@[simp] theorem energyOf_nextIndex (s : State) (j : Token) : energyOf (nextIndex s) j = energyOf s j := rfl
@[simp] theorem energyOf_resolve (k : Token) (m : Nat) (s : State) (j : Token) : energyOf (resolve k m s) j = energyOf s j := rfl
@[simp] theorem energyOf_selectRow (p : Prob) (s : State) (j : Token) : energyOf (selectRow p s) j = energyOf s j := rfl
@[simp] theorem energyOf_startCat6 (s : State) (j : Token) : energyOf (startCat6 s) j = energyOf s j := rfl
@[simp] theorem energyOf_takeExtra (n : Nat) (b : Bool) (s : State) (j : Token) : energyOf (takeExtra n b s) j = energyOf s j := rfl
@[simp] theorem energyOf_takeCat6 (b : Bool) (s : State) (j : Token) : energyOf (takeCat6 b s) j = energyOf s j := rfl
@[simp] theorem energyOf_endCat6 (s : State) (j : Token) : energyOf (endCat6 s) j = energyOf s j := rfl
@[simp] theorem energyOf_noteOverflow (o : Bool) (s : State) (j : Token) : energyOf (noteOverflow o s) j = energyOf s j := rfl
@[simp] theorem energyOf_writeBack (s : State) (j : Token) : energyOf (writeBack s) j = energyOf s j := rfl
@[simp] theorem energyOf_storeSigned (p : Nat) (neg : Bool) (s : State) (j : Token) : energyOf (storeSigned p neg s) j = energyOf s j := by simp [storeSigned]

@[simp] theorem probSel_sent (r : Request) (s : State) (j : Nat) : probSel (sent r s) j = probSel s j := rfl
@[simp] theorem probSel_count (y : Sym) (s : State) (j : Nat) : probSel (count y s) j = probSel s j := by unfold count; split <;> rfl
@[simp] theorem probSel_countE (s : State) (j : Nat) : probSel (countE s) j = probSel s j := by unfold countE; split <;> rfl
@[simp] theorem probSel_storeCoef (p : Nat) (v : Coef) (s : State) (j : Nat) : probSel (storeCoef p v s) j = probSel s j := rfl
@[simp] theorem probSel_storeToken (p : Nat) (k : Token) (s : State) (j : Nat) : probSel (storeToken p k s) j = probSel s j := rfl
@[simp] theorem probSel_raise (e : Err) (s : State) (j : Nat) : probSel (raise e s) j = probSel s j := rfl
@[simp] theorem probSel_startExtra (k : Token) (n : Nat) (s : State) (j : Nat) : probSel (startExtra k n s) j = probSel s j := rfl
@[simp] theorem probSel_finish (e : BitVec 11) (s : State) (j : Nat) : probSel (finish e s) j = probSel s j := by unfold finish; split <;> rfl
@[simp] theorem probSel_goto (n : Node) (s : State) (j : Nat) : probSel (goto n s) j = probSel s j := rfl
@[simp] theorem probSel_setTok (k : Token) (s : State) (j : Nat) : probSel (setTok k s) j = probSel s j := rfl
@[simp] theorem probSel_setEctx (v : BitVec 3) (s : State) (j : Nat) : probSel (setEctx v s) j = probSel s j := rfl
@[simp] theorem probSel_nextIndex (s : State) (j : Nat) : probSel (nextIndex s) j = probSel s j := rfl
@[simp] theorem probSel_resolve (k : Token) (m : Nat) (s : State) (j : Nat) : probSel (resolve k m s) j = probSel s j := rfl
@[simp] theorem probSel_selectRow (p : Prob) (s : State) (j : Nat) : probSel (selectRow p s) j = probSel s j := rfl
@[simp] theorem probSel_startCat6 (s : State) (j : Nat) : probSel (startCat6 s) j = probSel s j := rfl
@[simp] theorem probSel_takeExtra (n : Nat) (b : Bool) (s : State) (j : Nat) : probSel (takeExtra n b s) j = probSel s j := rfl
@[simp] theorem probSel_takeCat6 (b : Bool) (s : State) (j : Nat) : probSel (takeCat6 b s) j = probSel s j := rfl
@[simp] theorem probSel_endCat6 (s : State) (j : Nat) : probSel (endCat6 s) j = probSel s j := rfl
@[simp] theorem probSel_noteOverflow (o : Bool) (s : State) (j : Nat) : probSel (noteOverflow o s) j = probSel s j := rfl
@[simp] theorem probSel_writeBack (s : State) (j : Nat) : probSel (writeBack s) j = probSel s j := rfl
@[simp] theorem probSel_storeSigned (p : Nat) (neg : Bool) (s : State) (j : Nat) : probSel (storeSigned p neg s) j = probSel s j := by simp [storeSigned]

@[simp] theorem parSel_sent (r : Request) (s : State) (j : Nat) : parSel (sent r s) j = parSel s j := rfl
@[simp] theorem parSel_count (y : Sym) (s : State) (j : Nat) : parSel (count y s) j = parSel s j := by unfold count; split <;> rfl
@[simp] theorem parSel_countE (s : State) (j : Nat) : parSel (countE s) j = parSel s j := by unfold countE; split <;> rfl
@[simp] theorem parSel_storeCoef (p : Nat) (v : Coef) (s : State) (j : Nat) : parSel (storeCoef p v s) j = parSel s j := rfl
@[simp] theorem parSel_storeToken (p : Nat) (k : Token) (s : State) (j : Nat) : parSel (storeToken p k s) j = parSel s j := rfl
@[simp] theorem parSel_bandsel (i : Nat) (s : State) (j : Nat) : parSel (bandsel i s) j = parSel s j := rfl
@[simp] theorem parSel_raise (e : Err) (s : State) (j : Nat) : parSel (raise e s) j = parSel s j := rfl
@[simp] theorem parSel_startExtra (k : Token) (n : Nat) (s : State) (j : Nat) : parSel (startExtra k n s) j = parSel s j := rfl
@[simp] theorem parSel_finish (e : BitVec 11) (s : State) (j : Nat) : parSel (finish e s) j = parSel s j := by unfold finish; split <;> rfl
@[simp] theorem parSel_goto (n : Node) (s : State) (j : Nat) : parSel (goto n s) j = parSel s j := rfl
@[simp] theorem parSel_setTok (k : Token) (s : State) (j : Nat) : parSel (setTok k s) j = parSel s j := rfl
@[simp] theorem parSel_setCtx (v : BitVec 3) (s : State) (j : Nat) : parSel (setCtx v s) j = parSel s j := rfl
@[simp] theorem parSel_setEctx (v : BitVec 3) (s : State) (j : Nat) : parSel (setEctx v s) j = parSel s j := rfl
@[simp] theorem parSel_nextIndex (s : State) (j : Nat) : parSel (nextIndex s) j = parSel s j := rfl
@[simp] theorem parSel_resolve (k : Token) (m : Nat) (s : State) (j : Nat) : parSel (resolve k m s) j = parSel s j := rfl
@[simp] theorem parSel_startCat6 (s : State) (j : Nat) : parSel (startCat6 s) j = parSel s j := rfl
@[simp] theorem parSel_takeExtra (n : Nat) (b : Bool) (s : State) (j : Nat) : parSel (takeExtra n b s) j = parSel s j := rfl
@[simp] theorem parSel_takeCat6 (b : Bool) (s : State) (j : Nat) : parSel (takeCat6 b s) j = parSel s j := rfl
@[simp] theorem parSel_endCat6 (s : State) (j : Nat) : parSel (endCat6 s) j = parSel s j := rfl
@[simp] theorem parSel_noteOverflow (o : Bool) (s : State) (j : Nat) : parSel (noteOverflow o s) j = parSel s j := rfl
@[simp] theorem parSel_writeBack (s : State) (j : Nat) : parSel (writeBack s) j = parSel s j := rfl
@[simp] theorem parSel_storeSigned (p : Nat) (neg : Bool) (s : State) (j : Nat) : parSel (storeSigned p neg s) j = parSel s j := by simp [storeSigned]

@[simp] theorem scanPos_sent (r : Request) (s : State) : scanPos (sent r s) = scanPos s := rfl
@[simp] theorem scanPos_count (y : Sym) (s : State) : scanPos (count y s) = scanPos s := by unfold count; split <;> rfl
@[simp] theorem scanPos_countE (s : State) : scanPos (countE s) = scanPos s := by unfold countE; split <;> rfl
@[simp] theorem scanPos_storeCoef (p : Nat) (v : Coef) (s : State) : scanPos (storeCoef p v s) = scanPos s := rfl
@[simp] theorem scanPos_storeToken (p : Nat) (k : Token) (s : State) : scanPos (storeToken p k s) = scanPos s := rfl
@[simp] theorem scanPos_bandsel (i : Nat) (s : State) : scanPos (bandsel i s) = scanPos s := rfl
@[simp] theorem scanPos_raise (e : Err) (s : State) : scanPos (raise e s) = scanPos s := rfl
@[simp] theorem scanPos_startExtra (k : Token) (n : Nat) (s : State) : scanPos (startExtra k n s) = scanPos s := rfl
@[simp] theorem scanPos_finish (e : BitVec 11) (s : State) : scanPos (finish e s) = scanPos s := by unfold finish; split <;> rfl
@[simp] theorem scanPos_goto (n : Node) (s : State) : scanPos (goto n s) = scanPos s := rfl
@[simp] theorem scanPos_setTok (k : Token) (s : State) : scanPos (setTok k s) = scanPos s := rfl
@[simp] theorem scanPos_setCtx (v : BitVec 3) (s : State) : scanPos (setCtx v s) = scanPos s := rfl
@[simp] theorem scanPos_setEctx (v : BitVec 3) (s : State) : scanPos (setEctx v s) = scanPos s := rfl
@[simp] theorem scanPos_resolve (k : Token) (m : Nat) (s : State) : scanPos (resolve k m s) = scanPos s := rfl
@[simp] theorem scanPos_selectRow (p : Prob) (s : State) : scanPos (selectRow p s) = scanPos s := rfl
@[simp] theorem scanPos_startCat6 (s : State) : scanPos (startCat6 s) = scanPos s := rfl
@[simp] theorem scanPos_takeExtra (n : Nat) (b : Bool) (s : State) : scanPos (takeExtra n b s) = scanPos s := rfl
@[simp] theorem scanPos_takeCat6 (b : Bool) (s : State) : scanPos (takeCat6 b s) = scanPos s := rfl
@[simp] theorem scanPos_endCat6 (s : State) : scanPos (endCat6 s) = scanPos s := rfl
@[simp] theorem scanPos_noteOverflow (o : Bool) (s : State) : scanPos (noteOverflow o s) = scanPos s := rfl
@[simp] theorem scanPos_writeBack (s : State) : scanPos (writeBack s) = scanPos s := rfl
@[simp] theorem scanPos_storeSigned (p : Nat) (neg : Bool) (s : State) : scanPos (storeSigned p neg s) = scanPos s := by simp [storeSigned]

@[simp] theorem tokClass_sent (r : Request) (s : State) (q : Nat) : tokClass (sent r s) q = tokClass s q := rfl
@[simp] theorem tokClass_count (y : Sym) (s : State) (q : Nat) : tokClass (count y s) q = tokClass s q := by unfold count; split <;> rfl
@[simp] theorem tokClass_countE (s : State) (q : Nat) : tokClass (countE s) q = tokClass s q := by unfold countE; split <;> rfl
@[simp] theorem tokClass_storeCoef (p : Nat) (v : Coef) (s : State) (q : Nat) : tokClass (storeCoef p v s) q = tokClass s q := rfl
@[simp] theorem tokClass_bandsel (i : Nat) (s : State) (q : Nat) : tokClass (bandsel i s) q = tokClass s q := rfl
@[simp] theorem tokClass_raise (e : Err) (s : State) (q : Nat) : tokClass (raise e s) q = tokClass s q := rfl
@[simp] theorem tokClass_startExtra (k : Token) (n : Nat) (s : State) (q : Nat) : tokClass (startExtra k n s) q = tokClass s q := rfl
@[simp] theorem tokClass_finish (e : BitVec 11) (s : State) (q : Nat) : tokClass (finish e s) q = tokClass s q := by unfold finish; split <;> rfl
@[simp] theorem tokClass_goto (n : Node) (s : State) (q : Nat) : tokClass (goto n s) q = tokClass s q := rfl
@[simp] theorem tokClass_setTok (k : Token) (s : State) (q : Nat) : tokClass (setTok k s) q = tokClass s q := rfl
@[simp] theorem tokClass_setCtx (v : BitVec 3) (s : State) (q : Nat) : tokClass (setCtx v s) q = tokClass s q := rfl
@[simp] theorem tokClass_setEctx (v : BitVec 3) (s : State) (q : Nat) : tokClass (setEctx v s) q = tokClass s q := rfl
@[simp] theorem tokClass_nextIndex (s : State) (q : Nat) : tokClass (nextIndex s) q = tokClass s q := rfl
@[simp] theorem tokClass_resolve (k : Token) (m : Nat) (s : State) (q : Nat) : tokClass (resolve k m s) q = tokClass s q := rfl
@[simp] theorem tokClass_selectRow (p : Prob) (s : State) (q : Nat) : tokClass (selectRow p s) q = tokClass s q := rfl
@[simp] theorem tokClass_startCat6 (s : State) (q : Nat) : tokClass (startCat6 s) q = tokClass s q := rfl
@[simp] theorem tokClass_takeExtra (n : Nat) (b : Bool) (s : State) (q : Nat) : tokClass (takeExtra n b s) q = tokClass s q := rfl
@[simp] theorem tokClass_takeCat6 (b : Bool) (s : State) (q : Nat) : tokClass (takeCat6 b s) q = tokClass s q := rfl
@[simp] theorem tokClass_endCat6 (s : State) (q : Nat) : tokClass (endCat6 s) q = tokClass s q := rfl
@[simp] theorem tokClass_noteOverflow (o : Bool) (s : State) (q : Nat) : tokClass (noteOverflow o s) q = tokClass s q := rfl
@[simp] theorem tokClass_writeBack (s : State) (q : Nat) : tokClass (writeBack s) q = tokClass s q := rfl

@[simp] theorem category_sent (r : Request) (s : State) : category (sent r s) = category s := rfl
@[simp] theorem category_count (y : Sym) (s : State) : category (count y s) = category s := by unfold count; split <;> rfl
@[simp] theorem category_countE (s : State) : category (countE s) = category s := by unfold countE; split <;> rfl
@[simp] theorem category_storeCoef (p : Nat) (v : Coef) (s : State) : category (storeCoef p v s) = category s := rfl
@[simp] theorem category_storeToken (p : Nat) (k : Token) (s : State) : category (storeToken p k s) = category s := rfl
@[simp] theorem category_bandsel (i : Nat) (s : State) : category (bandsel i s) = category s := rfl
@[simp] theorem category_raise (e : Err) (s : State) : category (raise e s) = category s := rfl
@[simp] theorem category_finish (e : BitVec 11) (s : State) : category (finish e s) = category s := by unfold finish; split <;> rfl
@[simp] theorem category_goto (n : Node) (s : State) : category (goto n s) = category s := rfl
@[simp] theorem category_setCtx (v : BitVec 3) (s : State) : category (setCtx v s) = category s := rfl
@[simp] theorem category_setEctx (v : BitVec 3) (s : State) : category (setEctx v s) = category s := rfl
@[simp] theorem category_nextIndex (s : State) : category (nextIndex s) = category s := rfl
@[simp] theorem category_selectRow (p : Prob) (s : State) : category (selectRow p s) = category s := rfl
@[simp] theorem category_takeExtra (n : Nat) (b : Bool) (s : State) : category (takeExtra n b s) = category s := rfl
@[simp] theorem category_takeCat6 (b : Bool) (s : State) : category (takeCat6 b s) = category s := rfl
@[simp] theorem category_endCat6 (s : State) : category (endCat6 s) = category s := rfl
@[simp] theorem category_noteOverflow (o : Bool) (s : State) : category (noteOverflow o s) = category s := rfl
@[simp] theorem category_writeBack (s : State) : category (writeBack s) = category s := rfl
@[simp] theorem category_storeSigned (p : Nat) (neg : Bool) (s : State) : category (storeSigned p neg s) = category s := by simp [storeSigned]

@[simp] theorem probOf_sent (r : Request) (s : State) (q : Nat) : probOf (sent r s) q = probOf s q := rfl
@[simp] theorem probOf_count (y : Sym) (s : State) (q : Nat) : probOf (count y s) q = probOf s q := by unfold count; split <;> rfl
@[simp] theorem probOf_countE (s : State) (q : Nat) : probOf (countE s) q = probOf s q := by unfold countE; split <;> rfl
@[simp] theorem probOf_storeCoef (p : Nat) (v : Coef) (s : State) (q : Nat) : probOf (storeCoef p v s) q = probOf s q := rfl
@[simp] theorem probOf_storeToken (p : Nat) (k : Token) (s : State) (q : Nat) : probOf (storeToken p k s) q = probOf s q := rfl
@[simp] theorem probOf_raise (e : Err) (s : State) (q : Nat) : probOf (raise e s) q = probOf s q := rfl
@[simp] theorem probOf_startExtra (k : Token) (n : Nat) (s : State) (q : Nat) : probOf (startExtra k n s) q = probOf s q := rfl
@[simp] theorem probOf_finish (e : BitVec 11) (s : State) (q : Nat) : probOf (finish e s) q = probOf s q := by unfold finish; split <;> rfl
@[simp] theorem probOf_goto (n : Node) (s : State) (q : Nat) : probOf (goto n s) q = probOf s q := rfl
@[simp] theorem probOf_setTok (k : Token) (s : State) (q : Nat) : probOf (setTok k s) q = probOf s q := rfl
@[simp] theorem probOf_setEctx (v : BitVec 3) (s : State) (q : Nat) : probOf (setEctx v s) q = probOf s q := rfl
@[simp] theorem probOf_nextIndex (s : State) (q : Nat) : probOf (nextIndex s) q = probOf s q := rfl
@[simp] theorem probOf_resolve (k : Token) (m : Nat) (s : State) (q : Nat) : probOf (resolve k m s) q = probOf s q := rfl
@[simp] theorem probOf_selectRow (p : Prob) (s : State) (q : Nat) : probOf (selectRow p s) q = probOf s q := rfl
@[simp] theorem probOf_startCat6 (s : State) (q : Nat) : probOf (startCat6 s) q = probOf s q := rfl
@[simp] theorem probOf_takeExtra (n : Nat) (b : Bool) (s : State) (q : Nat) : probOf (takeExtra n b s) q = probOf s q := rfl
@[simp] theorem probOf_takeCat6 (b : Bool) (s : State) (q : Nat) : probOf (takeCat6 b s) q = probOf s q := rfl
@[simp] theorem probOf_endCat6 (s : State) (q : Nat) : probOf (endCat6 s) q = probOf s q := rfl
@[simp] theorem probOf_noteOverflow (o : Bool) (s : State) (q : Nat) : probOf (noteOverflow o s) q = probOf s q := rfl
@[simp] theorem probOf_writeBack (s : State) (q : Nat) : probOf (writeBack s) q = probOf s q := rfl
@[simp] theorem probOf_storeSigned (p : Nat) (neg : Bool) (s : State) (q : Nat) : probOf (storeSigned p neg s) q = probOf s q := by simp [storeSigned]

@[simp] theorem position_sent (r : Request) (s : State) : position (sent r s) = position s := rfl
@[simp] theorem position_count (y : Sym) (s : State) : position (count y s) = position s := by unfold count; split <;> rfl
@[simp] theorem position_countE (s : State) : position (countE s) = position s := by unfold countE; split <;> rfl
@[simp] theorem position_storeCoef (p : Nat) (v : Coef) (s : State) : position (storeCoef p v s) = position s := rfl
@[simp] theorem position_storeToken (p : Nat) (k : Token) (s : State) : position (storeToken p k s) = position s := rfl
@[simp] theorem position_bandsel (i : Nat) (s : State) : position (bandsel i s) = position s := rfl
@[simp] theorem position_raise (e : Err) (s : State) : position (raise e s) = position s := rfl
@[simp] theorem position_startExtra (k : Token) (n : Nat) (s : State) : position (startExtra k n s) = position s := rfl
@[simp] theorem position_finish (e : BitVec 11) (s : State) : position (finish e s) = position s := by unfold finish; split <;> rfl
@[simp] theorem position_goto (n : Node) (s : State) : position (goto n s) = position s := rfl
@[simp] theorem position_setTok (k : Token) (s : State) : position (setTok k s) = position s := rfl
@[simp] theorem position_setCtx (v : BitVec 3) (s : State) : position (setCtx v s) = position s := rfl
@[simp] theorem position_setEctx (v : BitVec 3) (s : State) : position (setEctx v s) = position s := rfl
@[simp] theorem position_resolve (k : Token) (m : Nat) (s : State) : position (resolve k m s) = position s := rfl
@[simp] theorem position_selectRow (p : Prob) (s : State) : position (selectRow p s) = position s := rfl
@[simp] theorem position_startCat6 (s : State) : position (startCat6 s) = position s := rfl
@[simp] theorem position_takeExtra (n : Nat) (b : Bool) (s : State) : position (takeExtra n b s) = position s := rfl
@[simp] theorem position_takeCat6 (b : Bool) (s : State) : position (takeCat6 b s) = position s := rfl
@[simp] theorem position_endCat6 (s : State) : position (endCat6 s) = position s := rfl
@[simp] theorem position_noteOverflow (o : Bool) (s : State) : position (noteOverflow o s) = position s := rfl
@[simp] theorem position_writeBack (s : State) : position (writeBack s) = position s := rfl
@[simp] theorem position_storeSigned (p : Nat) (neg : Bool) (s : State) : position (storeSigned p neg s) = position s := by simp [storeSigned]

@[simp] theorem coefAt_sent (r : Request) (s : State) (q : Nat) : coefAt (sent r s) q = coefAt s q := rfl
@[simp] theorem coefAt_count (y : Sym) (s : State) (q : Nat) : coefAt (count y s) q = coefAt s q := by unfold count; split <;> rfl
@[simp] theorem coefAt_countE (s : State) (q : Nat) : coefAt (countE s) q = coefAt s q := by unfold countE; split <;> rfl
@[simp] theorem coefAt_storeToken (p : Nat) (k : Token) (s : State) (q : Nat) : coefAt (storeToken p k s) q = coefAt s q := rfl
@[simp] theorem coefAt_bandsel (i : Nat) (s : State) (q : Nat) : coefAt (bandsel i s) q = coefAt s q := rfl
@[simp] theorem coefAt_raise (e : Err) (s : State) (q : Nat) : coefAt (raise e s) q = coefAt s q := rfl
@[simp] theorem coefAt_startExtra (k : Token) (n : Nat) (s : State) (q : Nat) : coefAt (startExtra k n s) q = coefAt s q := rfl
@[simp] theorem coefAt_finish (e : BitVec 11) (s : State) (q : Nat) : coefAt (finish e s) q = coefAt s q := by unfold finish; split <;> rfl
@[simp] theorem coefAt_goto (n : Node) (s : State) (q : Nat) : coefAt (goto n s) q = coefAt s q := rfl
@[simp] theorem coefAt_setTok (k : Token) (s : State) (q : Nat) : coefAt (setTok k s) q = coefAt s q := rfl
@[simp] theorem coefAt_setCtx (v : BitVec 3) (s : State) (q : Nat) : coefAt (setCtx v s) q = coefAt s q := rfl
@[simp] theorem coefAt_setEctx (v : BitVec 3) (s : State) (q : Nat) : coefAt (setEctx v s) q = coefAt s q := rfl
@[simp] theorem coefAt_nextIndex (s : State) (q : Nat) : coefAt (nextIndex s) q = coefAt s q := rfl
@[simp] theorem coefAt_resolve (k : Token) (m : Nat) (s : State) (q : Nat) : coefAt (resolve k m s) q = coefAt s q := rfl
@[simp] theorem coefAt_selectRow (p : Prob) (s : State) (q : Nat) : coefAt (selectRow p s) q = coefAt s q := rfl
@[simp] theorem coefAt_startCat6 (s : State) (q : Nat) : coefAt (startCat6 s) q = coefAt s q := rfl
@[simp] theorem coefAt_takeExtra (n : Nat) (b : Bool) (s : State) (q : Nat) : coefAt (takeExtra n b s) q = coefAt s q := rfl
@[simp] theorem coefAt_takeCat6 (b : Bool) (s : State) (q : Nat) : coefAt (takeCat6 b s) q = coefAt s q := rfl
@[simp] theorem coefAt_endCat6 (s : State) (q : Nat) : coefAt (endCat6 s) q = coefAt s q := rfl
@[simp] theorem coefAt_noteOverflow (o : Bool) (s : State) (q : Nat) : coefAt (noteOverflow o s) q = coefAt s q := rfl
@[simp] theorem coefAt_writeBack (s : State) (q : Nat) : coefAt (writeBack s) q = coefAt s q := rfl

@[simp] theorem ctxaAt_sent (r : Request) (s : State) (q : Nat) : ctxaAt (sent r s) q = ctxaAt s q := rfl
@[simp] theorem ctxaAt_count (y : Sym) (s : State) (q : Nat) : ctxaAt (count y s) q = ctxaAt s q := by unfold count; split <;> rfl
@[simp] theorem ctxaAt_countE (s : State) (q : Nat) : ctxaAt (countE s) q = ctxaAt s q := by unfold countE; split <;> rfl
@[simp] theorem ctxaAt_storeCoef (p : Nat) (v : Coef) (s : State) (q : Nat) : ctxaAt (storeCoef p v s) q = ctxaAt s q := rfl
@[simp] theorem ctxaAt_storeToken (p : Nat) (k : Token) (s : State) (q : Nat) : ctxaAt (storeToken p k s) q = ctxaAt s q := rfl
@[simp] theorem ctxaAt_bandsel (i : Nat) (s : State) (q : Nat) : ctxaAt (bandsel i s) q = ctxaAt s q := rfl
@[simp] theorem ctxaAt_raise (e : Err) (s : State) (q : Nat) : ctxaAt (raise e s) q = ctxaAt s q := rfl
@[simp] theorem ctxaAt_startExtra (k : Token) (n : Nat) (s : State) (q : Nat) : ctxaAt (startExtra k n s) q = ctxaAt s q := rfl
@[simp] theorem ctxaAt_finish (e : BitVec 11) (s : State) (q : Nat) : ctxaAt (finish e s) q = ctxaAt s q := by unfold finish; split <;> rfl
@[simp] theorem ctxaAt_goto (n : Node) (s : State) (q : Nat) : ctxaAt (goto n s) q = ctxaAt s q := rfl
@[simp] theorem ctxaAt_setTok (k : Token) (s : State) (q : Nat) : ctxaAt (setTok k s) q = ctxaAt s q := rfl
@[simp] theorem ctxaAt_setCtx (v : BitVec 3) (s : State) (q : Nat) : ctxaAt (setCtx v s) q = ctxaAt s q := rfl
@[simp] theorem ctxaAt_setEctx (v : BitVec 3) (s : State) (q : Nat) : ctxaAt (setEctx v s) q = ctxaAt s q := rfl
@[simp] theorem ctxaAt_nextIndex (s : State) (q : Nat) : ctxaAt (nextIndex s) q = ctxaAt s q := rfl
@[simp] theorem ctxaAt_resolve (k : Token) (m : Nat) (s : State) (q : Nat) : ctxaAt (resolve k m s) q = ctxaAt s q := rfl
@[simp] theorem ctxaAt_selectRow (p : Prob) (s : State) (q : Nat) : ctxaAt (selectRow p s) q = ctxaAt s q := rfl
@[simp] theorem ctxaAt_startCat6 (s : State) (q : Nat) : ctxaAt (startCat6 s) q = ctxaAt s q := rfl
@[simp] theorem ctxaAt_takeExtra (n : Nat) (b : Bool) (s : State) (q : Nat) : ctxaAt (takeExtra n b s) q = ctxaAt s q := rfl
@[simp] theorem ctxaAt_takeCat6 (b : Bool) (s : State) (q : Nat) : ctxaAt (takeCat6 b s) q = ctxaAt s q := rfl
@[simp] theorem ctxaAt_endCat6 (s : State) (q : Nat) : ctxaAt (endCat6 s) q = ctxaAt s q := rfl
@[simp] theorem ctxaAt_noteOverflow (o : Bool) (s : State) (q : Nat) : ctxaAt (noteOverflow o s) q = ctxaAt s q := rfl
@[simp] theorem ctxaAt_storeSigned (p : Nat) (neg : Bool) (s : State) (q : Nat) : ctxaAt (storeSigned p neg s) q = ctxaAt s q := by simp [storeSigned]

@[simp] theorem ctxlAt_sent (r : Request) (s : State) (q : Nat) : ctxlAt (sent r s) q = ctxlAt s q := rfl
@[simp] theorem ctxlAt_count (y : Sym) (s : State) (q : Nat) : ctxlAt (count y s) q = ctxlAt s q := by unfold count; split <;> rfl
@[simp] theorem ctxlAt_countE (s : State) (q : Nat) : ctxlAt (countE s) q = ctxlAt s q := by unfold countE; split <;> rfl
@[simp] theorem ctxlAt_storeCoef (p : Nat) (v : Coef) (s : State) (q : Nat) : ctxlAt (storeCoef p v s) q = ctxlAt s q := rfl
@[simp] theorem ctxlAt_storeToken (p : Nat) (k : Token) (s : State) (q : Nat) : ctxlAt (storeToken p k s) q = ctxlAt s q := rfl
@[simp] theorem ctxlAt_bandsel (i : Nat) (s : State) (q : Nat) : ctxlAt (bandsel i s) q = ctxlAt s q := rfl
@[simp] theorem ctxlAt_raise (e : Err) (s : State) (q : Nat) : ctxlAt (raise e s) q = ctxlAt s q := rfl
@[simp] theorem ctxlAt_startExtra (k : Token) (n : Nat) (s : State) (q : Nat) : ctxlAt (startExtra k n s) q = ctxlAt s q := rfl
@[simp] theorem ctxlAt_finish (e : BitVec 11) (s : State) (q : Nat) : ctxlAt (finish e s) q = ctxlAt s q := by unfold finish; split <;> rfl
@[simp] theorem ctxlAt_goto (n : Node) (s : State) (q : Nat) : ctxlAt (goto n s) q = ctxlAt s q := rfl
@[simp] theorem ctxlAt_setTok (k : Token) (s : State) (q : Nat) : ctxlAt (setTok k s) q = ctxlAt s q := rfl
@[simp] theorem ctxlAt_setCtx (v : BitVec 3) (s : State) (q : Nat) : ctxlAt (setCtx v s) q = ctxlAt s q := rfl
@[simp] theorem ctxlAt_setEctx (v : BitVec 3) (s : State) (q : Nat) : ctxlAt (setEctx v s) q = ctxlAt s q := rfl
@[simp] theorem ctxlAt_nextIndex (s : State) (q : Nat) : ctxlAt (nextIndex s) q = ctxlAt s q := rfl
@[simp] theorem ctxlAt_resolve (k : Token) (m : Nat) (s : State) (q : Nat) : ctxlAt (resolve k m s) q = ctxlAt s q := rfl
@[simp] theorem ctxlAt_selectRow (p : Prob) (s : State) (q : Nat) : ctxlAt (selectRow p s) q = ctxlAt s q := rfl
@[simp] theorem ctxlAt_startCat6 (s : State) (q : Nat) : ctxlAt (startCat6 s) q = ctxlAt s q := rfl
@[simp] theorem ctxlAt_takeExtra (n : Nat) (b : Bool) (s : State) (q : Nat) : ctxlAt (takeExtra n b s) q = ctxlAt s q := rfl
@[simp] theorem ctxlAt_takeCat6 (b : Bool) (s : State) (q : Nat) : ctxlAt (takeCat6 b s) q = ctxlAt s q := rfl
@[simp] theorem ctxlAt_endCat6 (s : State) (q : Nat) : ctxlAt (endCat6 s) q = ctxlAt s q := rfl
@[simp] theorem ctxlAt_noteOverflow (o : Bool) (s : State) (q : Nat) : ctxlAt (noteOverflow o s) q = ctxlAt s q := rfl
@[simp] theorem ctxlAt_storeSigned (p : Nat) (neg : Bool) (s : State) (q : Nat) : ctxlAt (storeSigned p neg s) q = ctxlAt s q := by simp [storeSigned]

@[simp] theorem cntcAt_sent (r : Request) (s : State) (q : Nat) : cntcAt (sent r s) q = cntcAt s q := rfl
@[simp] theorem cntcAt_countE (s : State) (q : Nat) : cntcAt (countE s) q = cntcAt s q := by unfold countE; split <;> rfl
@[simp] theorem cntcAt_storeCoef (p : Nat) (v : Coef) (s : State) (q : Nat) : cntcAt (storeCoef p v s) q = cntcAt s q := rfl
@[simp] theorem cntcAt_storeToken (p : Nat) (k : Token) (s : State) (q : Nat) : cntcAt (storeToken p k s) q = cntcAt s q := rfl
@[simp] theorem cntcAt_bandsel (i : Nat) (s : State) (q : Nat) : cntcAt (bandsel i s) q = cntcAt s q := rfl
@[simp] theorem cntcAt_raise (e : Err) (s : State) (q : Nat) : cntcAt (raise e s) q = cntcAt s q := rfl
@[simp] theorem cntcAt_startExtra (k : Token) (n : Nat) (s : State) (q : Nat) : cntcAt (startExtra k n s) q = cntcAt s q := rfl
@[simp] theorem cntcAt_finish (e : BitVec 11) (s : State) (q : Nat) : cntcAt (finish e s) q = cntcAt s q := by unfold finish; split <;> rfl
@[simp] theorem cntcAt_goto (n : Node) (s : State) (q : Nat) : cntcAt (goto n s) q = cntcAt s q := rfl
@[simp] theorem cntcAt_setTok (k : Token) (s : State) (q : Nat) : cntcAt (setTok k s) q = cntcAt s q := rfl
@[simp] theorem cntcAt_setCtx (v : BitVec 3) (s : State) (q : Nat) : cntcAt (setCtx v s) q = cntcAt s q := rfl
@[simp] theorem cntcAt_setEctx (v : BitVec 3) (s : State) (q : Nat) : cntcAt (setEctx v s) q = cntcAt s q := rfl
@[simp] theorem cntcAt_nextIndex (s : State) (q : Nat) : cntcAt (nextIndex s) q = cntcAt s q := rfl
@[simp] theorem cntcAt_resolve (k : Token) (m : Nat) (s : State) (q : Nat) : cntcAt (resolve k m s) q = cntcAt s q := rfl
@[simp] theorem cntcAt_selectRow (p : Prob) (s : State) (q : Nat) : cntcAt (selectRow p s) q = cntcAt s q := rfl
@[simp] theorem cntcAt_startCat6 (s : State) (q : Nat) : cntcAt (startCat6 s) q = cntcAt s q := rfl
@[simp] theorem cntcAt_takeExtra (n : Nat) (b : Bool) (s : State) (q : Nat) : cntcAt (takeExtra n b s) q = cntcAt s q := rfl
@[simp] theorem cntcAt_takeCat6 (b : Bool) (s : State) (q : Nat) : cntcAt (takeCat6 b s) q = cntcAt s q := rfl
@[simp] theorem cntcAt_endCat6 (s : State) (q : Nat) : cntcAt (endCat6 s) q = cntcAt s q := rfl
@[simp] theorem cntcAt_noteOverflow (o : Bool) (s : State) (q : Nat) : cntcAt (noteOverflow o s) q = cntcAt s q := rfl
@[simp] theorem cntcAt_writeBack (s : State) (q : Nat) : cntcAt (writeBack s) q = cntcAt s q := rfl
@[simp] theorem cntcAt_storeSigned (p : Nat) (neg : Bool) (s : State) (q : Nat) : cntcAt (storeSigned p neg s) q = cntcAt s q := by simp [storeSigned]

@[simp] theorem cnteAt_sent (r : Request) (s : State) (q : Nat) : cnteAt (sent r s) q = cnteAt s q := rfl
@[simp] theorem cnteAt_count (y : Sym) (s : State) (q : Nat) : cnteAt (count y s) q = cnteAt s q := by unfold count; split <;> rfl
@[simp] theorem cnteAt_storeCoef (p : Nat) (v : Coef) (s : State) (q : Nat) : cnteAt (storeCoef p v s) q = cnteAt s q := rfl
@[simp] theorem cnteAt_storeToken (p : Nat) (k : Token) (s : State) (q : Nat) : cnteAt (storeToken p k s) q = cnteAt s q := rfl
@[simp] theorem cnteAt_bandsel (i : Nat) (s : State) (q : Nat) : cnteAt (bandsel i s) q = cnteAt s q := rfl
@[simp] theorem cnteAt_raise (e : Err) (s : State) (q : Nat) : cnteAt (raise e s) q = cnteAt s q := rfl
@[simp] theorem cnteAt_startExtra (k : Token) (n : Nat) (s : State) (q : Nat) : cnteAt (startExtra k n s) q = cnteAt s q := rfl
@[simp] theorem cnteAt_finish (e : BitVec 11) (s : State) (q : Nat) : cnteAt (finish e s) q = cnteAt s q := by unfold finish; split <;> rfl
@[simp] theorem cnteAt_goto (n : Node) (s : State) (q : Nat) : cnteAt (goto n s) q = cnteAt s q := rfl
@[simp] theorem cnteAt_setTok (k : Token) (s : State) (q : Nat) : cnteAt (setTok k s) q = cnteAt s q := rfl
@[simp] theorem cnteAt_setCtx (v : BitVec 3) (s : State) (q : Nat) : cnteAt (setCtx v s) q = cnteAt s q := rfl
@[simp] theorem cnteAt_setEctx (v : BitVec 3) (s : State) (q : Nat) : cnteAt (setEctx v s) q = cnteAt s q := rfl
@[simp] theorem cnteAt_nextIndex (s : State) (q : Nat) : cnteAt (nextIndex s) q = cnteAt s q := rfl
@[simp] theorem cnteAt_resolve (k : Token) (m : Nat) (s : State) (q : Nat) : cnteAt (resolve k m s) q = cnteAt s q := rfl
@[simp] theorem cnteAt_selectRow (p : Prob) (s : State) (q : Nat) : cnteAt (selectRow p s) q = cnteAt s q := rfl
@[simp] theorem cnteAt_startCat6 (s : State) (q : Nat) : cnteAt (startCat6 s) q = cnteAt s q := rfl
@[simp] theorem cnteAt_takeExtra (n : Nat) (b : Bool) (s : State) (q : Nat) : cnteAt (takeExtra n b s) q = cnteAt s q := rfl
@[simp] theorem cnteAt_takeCat6 (b : Bool) (s : State) (q : Nat) : cnteAt (takeCat6 b s) q = cnteAt s q := rfl
@[simp] theorem cnteAt_endCat6 (s : State) (q : Nat) : cnteAt (endCat6 s) q = cnteAt s q := rfl
@[simp] theorem cnteAt_noteOverflow (o : Bool) (s : State) (q : Nat) : cnteAt (noteOverflow o s) q = cnteAt s q := rfl
@[simp] theorem cnteAt_writeBack (s : State) (q : Nat) : cnteAt (writeBack s) q = cnteAt s q := rfl
@[simp] theorem cnteAt_storeSigned (p : Nat) (neg : Bool) (s : State) (q : Nat) : cnteAt (storeSigned p neg s) q = cnteAt s q := by simp [storeSigned]

@[simp] theorem classIndex_sent (r : Request) (s : State) (y' : Sym) : classIndex y' (sent r s) = classIndex y' s := rfl
@[simp] theorem classIndex_count (y : Sym) (s : State) (y' : Sym) : classIndex y' (count y s) = classIndex y' s := by unfold count; split <;> rfl
@[simp] theorem classIndex_countE (s : State) (y' : Sym) : classIndex y' (countE s) = classIndex y' s := by unfold countE; split <;> rfl
@[simp] theorem classIndex_storeCoef (p : Nat) (v : Coef) (s : State) (y' : Sym) : classIndex y' (storeCoef p v s) = classIndex y' s := rfl
@[simp] theorem classIndex_storeToken (p : Nat) (k : Token) (s : State) (y' : Sym) : classIndex y' (storeToken p k s) = classIndex y' s := rfl
@[simp] theorem classIndex_raise (e : Err) (s : State) (y' : Sym) : classIndex y' (raise e s) = classIndex y' s := rfl
@[simp] theorem classIndex_startExtra (k : Token) (n : Nat) (s : State) (y' : Sym) : classIndex y' (startExtra k n s) = classIndex y' s := rfl
@[simp] theorem classIndex_finish (e : BitVec 11) (s : State) (y' : Sym) : classIndex y' (finish e s) = classIndex y' s := by unfold finish; split <;> rfl
@[simp] theorem classIndex_goto (n : Node) (s : State) (y' : Sym) : classIndex y' (goto n s) = classIndex y' s := rfl
@[simp] theorem classIndex_setTok (k : Token) (s : State) (y' : Sym) : classIndex y' (setTok k s) = classIndex y' s := rfl
@[simp] theorem classIndex_setEctx (v : BitVec 3) (s : State) (y' : Sym) : classIndex y' (setEctx v s) = classIndex y' s := rfl
@[simp] theorem classIndex_nextIndex (s : State) (y' : Sym) : classIndex y' (nextIndex s) = classIndex y' s := rfl
@[simp] theorem classIndex_resolve (k : Token) (m : Nat) (s : State) (y' : Sym) : classIndex y' (resolve k m s) = classIndex y' s := rfl
@[simp] theorem classIndex_selectRow (p : Prob) (s : State) (y' : Sym) : classIndex y' (selectRow p s) = classIndex y' s := rfl
@[simp] theorem classIndex_startCat6 (s : State) (y' : Sym) : classIndex y' (startCat6 s) = classIndex y' s := rfl
@[simp] theorem classIndex_takeExtra (n : Nat) (b : Bool) (s : State) (y' : Sym) : classIndex y' (takeExtra n b s) = classIndex y' s := rfl
@[simp] theorem classIndex_takeCat6 (b : Bool) (s : State) (y' : Sym) : classIndex y' (takeCat6 b s) = classIndex y' s := rfl
@[simp] theorem classIndex_endCat6 (s : State) (y' : Sym) : classIndex y' (endCat6 s) = classIndex y' s := rfl
@[simp] theorem classIndex_noteOverflow (o : Bool) (s : State) (y' : Sym) : classIndex y' (noteOverflow o s) = classIndex y' s := rfl
@[simp] theorem classIndex_writeBack (s : State) (y' : Sym) : classIndex y' (writeBack s) = classIndex y' s := rfl
@[simp] theorem classIndex_storeSigned (p : Nat) (neg : Bool) (s : State) (y' : Sym) : classIndex y' (storeSigned p neg s) = classIndex y' s := by simp [storeSigned]

@[simp] theorem dequantMag_sent (r : Request) (s : State) : dequantMag (sent r s) = dequantMag s := rfl
@[simp] theorem dequantMag_count (y : Sym) (s : State) : dequantMag (count y s) = dequantMag s := by unfold count; split <;> rfl
@[simp] theorem dequantMag_countE (s : State) : dequantMag (countE s) = dequantMag s := by unfold countE; split <;> rfl
@[simp] theorem dequantMag_storeCoef (p : Nat) (v : Coef) (s : State) : dequantMag (storeCoef p v s) = dequantMag s := rfl
@[simp] theorem dequantMag_storeToken (p : Nat) (k : Token) (s : State) : dequantMag (storeToken p k s) = dequantMag s := rfl
@[simp] theorem dequantMag_bandsel (i : Nat) (s : State) : dequantMag (bandsel i s) = dequantMag s := rfl
@[simp] theorem dequantMag_raise (e : Err) (s : State) : dequantMag (raise e s) = dequantMag s := rfl
@[simp] theorem dequantMag_finish (e : BitVec 11) (s : State) : dequantMag (finish e s) = dequantMag s := by unfold finish; split <;> rfl
@[simp] theorem dequantMag_goto (n : Node) (s : State) : dequantMag (goto n s) = dequantMag s := rfl
@[simp] theorem dequantMag_setTok (k : Token) (s : State) : dequantMag (setTok k s) = dequantMag s := rfl
@[simp] theorem dequantMag_setCtx (v : BitVec 3) (s : State) : dequantMag (setCtx v s) = dequantMag s := rfl
@[simp] theorem dequantMag_setEctx (v : BitVec 3) (s : State) : dequantMag (setEctx v s) = dequantMag s := rfl
@[simp] theorem dequantMag_selectRow (p : Prob) (s : State) : dequantMag (selectRow p s) = dequantMag s := rfl
@[simp] theorem dequantMag_startCat6 (s : State) : dequantMag (startCat6 s) = dequantMag s := rfl
@[simp] theorem dequantMag_takeCat6 (b : Bool) (s : State) : dequantMag (takeCat6 b s) = dequantMag s := rfl
@[simp] theorem dequantMag_noteOverflow (o : Bool) (s : State) : dequantMag (noteOverflow o s) = dequantMag s := rfl
@[simp] theorem dequantMag_writeBack (s : State) : dequantMag (writeBack s) = dequantMag s := rfl
@[simp] theorem dequantMag_storeSigned (p : Nat) (neg : Bool) (s : State) : dequantMag (storeSigned p neg s) = dequantMag s := by simp [storeSigned]

/-! ## storeSigned -/

@[simp] theorem storeSigned_node (p : Nat) (neg : Bool) (s : State) : (storeSigned p neg s).node = s.node := by simp [storeSigned]
@[simp] theorem storeSigned_c (p : Nat) (neg : Bool) (s : State) : (storeSigned p neg s).c = s.c := by simp [storeSigned]
@[simp] theorem storeSigned_ctx (p : Nat) (neg : Bool) (s : State) : (storeSigned p neg s).ctx = s.ctx := by simp [storeSigned]
@[simp] theorem storeSigned_band (p : Nat) (neg : Bool) (s : State) : (storeSigned p neg s).band = s.band := by simp [storeSigned]
@[simp] theorem storeSigned_prow (p : Nat) (neg : Bool) (s : State) : (storeSigned p neg s).prow = s.prow := by simp [storeSigned]
@[simp] theorem storeSigned_tok (p : Nat) (neg : Bool) (s : State) : (storeSigned p neg s).tok = s.tok := by simp [storeSigned]
@[simp] theorem storeSigned_val (p : Nat) (neg : Bool) (s : State) : (storeSigned p neg s).val = s.val := by simp [storeSigned]
@[simp] theorem storeSigned_acc (p : Nat) (neg : Bool) (s : State) : (storeSigned p neg s).acc = s.acc := by simp [storeSigned]
@[simp] theorem storeSigned_xi (p : Nat) (neg : Bool) (s : State) : (storeSigned p neg s).xi = s.xi := by simp [storeSigned]
@[simp] theorem storeSigned_cmdk (p : Nat) (neg : Bool) (s : State) : (storeSigned p neg s).cmdk = s.cmdk := by simp [storeSigned]
@[simp] theorem storeSigned_busy (p : Nat) (neg : Bool) (s : State) : (storeSigned p neg s).busy = s.busy := by simp [storeSigned]
@[simp] theorem storeSigned_done (p : Nat) (neg : Bool) (s : State) : (storeSigned p neg s).done = s.done := by simp [storeSigned]
@[simp] theorem storeSigned_ovf (p : Nat) (neg : Bool) (s : State) : (storeSigned p neg s).ovf = (s.ovf || overflows s.par.coefW (signedCoef neg (dequantMag s))) := by simp [storeSigned]
@[simp] theorem storeSigned_err (p : Nat) (neg : Bool) (s : State) : (storeSigned p neg s).err = s.err := by simp [storeSigned]
@[simp] theorem storeSigned_eob (p : Nat) (neg : Bool) (s : State) : (storeSigned p neg s).eob = s.eob := by simp [storeSigned]
@[simp] theorem storeSigned_enode (p : Nat) (neg : Bool) (s : State) : (storeSigned p neg s).enode = s.enode := by simp [storeSigned]
@[simp] theorem storeSigned_ec (p : Nat) (neg : Bool) (s : State) : (storeSigned p neg s).ec = s.ec := by simp [storeSigned]
@[simp] theorem storeSigned_fpar (p : Nat) (neg : Bool) (s : State) : (storeSigned p neg s).fpar = s.fpar := by simp [storeSigned]
@[simp] theorem storeSigned_txsize (p : Nat) (neg : Bool) (s : State) : (storeSigned p neg s).txsize = s.txsize := by simp [storeSigned]
@[simp] theorem storeSigned_ptype (p : Nat) (neg : Bool) (s : State) : (storeSigned p neg s).ptype = s.ptype := by simp [storeSigned]
@[simp] theorem storeSigned_ref (p : Nat) (neg : Bool) (s : State) : (storeSigned p neg s).ref = s.ref := by simp [storeSigned]
@[simp] theorem storeSigned_dqDc (p : Nat) (neg : Bool) (s : State) : (storeSigned p neg s).dqDc = s.dqDc := by simp [storeSigned]
@[simp] theorem storeSigned_dqAc (p : Nat) (neg : Bool) (s : State) : (storeSigned p neg s).dqAc = s.dqAc := by simp [storeSigned]
@[simp] theorem storeSigned_ectx (p : Nat) (neg : Bool) (s : State) : (storeSigned p neg s).ectx = s.ectx := by simp [storeSigned]
@[simp] theorem storeSigned_aoff (p : Nat) (neg : Bool) (s : State) : (storeSigned p neg s).aoff = s.aoff := by simp [storeSigned]
@[simp] theorem storeSigned_loff (p : Nat) (neg : Bool) (s : State) : (storeSigned p neg s).loff = s.loff := by simp [storeSigned]
@[simp] theorem storeSigned_pmode (p : Nat) (neg : Bool) (s : State) : (storeSigned p neg s).pmode = s.pmode := by simp [storeSigned]
@[simp] theorem storeSigned_tokc (p : Nat) (neg : Bool) (s : State) : (storeSigned p neg s).tokc = Memory.insert s.tokc p ⟨energyOf s s.tok, s.cmdNo⟩ := by simp [storeSigned]
@[simp] theorem storeSigned_coef (p : Nat) (neg : Bool) (s : State) : (storeSigned p neg s).coef = Memory.insert s.coef p (wrap s.par.coefW (signedCoef neg (dequantMag s))) := by simp [storeSigned]
@[simp] theorem storeSigned_ctxa (p : Nat) (neg : Bool) (s : State) : (storeSigned p neg s).ctxa = s.ctxa := by simp [storeSigned]
@[simp] theorem storeSigned_ctxl (p : Nat) (neg : Bool) (s : State) : (storeSigned p neg s).ctxl = s.ctxl := by simp [storeSigned]
@[simp] theorem storeSigned_prob (p : Nat) (neg : Bool) (s : State) : (storeSigned p neg s).prob = s.prob := by simp [storeSigned]
@[simp] theorem storeSigned_cntc (p : Nat) (neg : Bool) (s : State) : (storeSigned p neg s).cntc = s.cntc := by simp [storeSigned]
@[simp] theorem storeSigned_cnte (p : Nat) (neg : Bool) (s : State) : (storeSigned p neg s).cnte = s.cnte := by simp [storeSigned]
@[simp] theorem storeSigned_par (p : Nat) (neg : Bool) (s : State) : (storeSigned p neg s).par = s.par := by simp [storeSigned]
@[simp] theorem storeSigned_scanprov (p : Nat) (neg : Bool) (s : State) : (storeSigned p neg s).scanprov = s.scanprov := by simp [storeSigned]
@[simp] theorem storeSigned_answers (p : Nat) (neg : Bool) (s : State) : (storeSigned p neg s).answers = s.answers := by simp [storeSigned]
@[simp] theorem storeSigned_requests (p : Nat) (neg : Bool) (s : State) : (storeSigned p neg s).requests = s.requests := by simp [storeSigned]
@[simp] theorem storeSigned_host (p : Nat) (neg : Bool) (s : State) : (storeSigned p neg s).host = s.host := by simp [storeSigned]
@[simp] theorem storeSigned_rdata (p : Nat) (neg : Bool) (s : State) : (storeSigned p neg s).rdata = s.rdata := by simp [storeSigned]
@[simp] theorem storeSigned_cmdNo (p : Nat) (neg : Bool) (s : State) : (storeSigned p neg s).cmdNo = s.cmdNo := by simp [storeSigned]
@[simp] theorem storeSigned_resetNo (p : Nat) (neg : Bool) (s : State) : (storeSigned p neg s).resetNo = s.resetNo := by simp [storeSigned]
@[simp] theorem storeSigned_tokenSteps (p : Nat) (neg : Bool) (s : State) : (storeSigned p neg s).tokenSteps = s.tokenSteps := by simp [storeSigned]

end Sys2Proof.Machine
end

