-- ==== Sys2Proof/Laws/Ops.lean ====
section
/-! SUPPORT. One lemma per shared operation that says what it can do: later proofs cite it and do not unfold it. -/

namespace Sys2Proof.Machine

/-! ## Reads that can stop -/

@[simp] theorem need_ok {α : Type} (a : α) (k : α → Result) : need (.ok a) k = k a := rfl

theorem need_eq_next {α : Type} {x : Except Stop α} {k : α → Result} {t : State} :
    need x k = .next t ↔ ∃ a, x = .ok a ∧ k a = .next t := by
  rcases x with ⟨f⟩ | a
  · cases f <;> simp [need]
  · simp [need]

@[simp] theorem thenDo_next (s : State) (k : State → Result) : thenDo (.next s) k = k s := rfl

theorem thenDo_eq_next {r : Result} {k : State → Result} {t : State} :
    thenDo r k = .next t ↔ ∃ s, r = .next s ∧ k s = .next t := by
  cases r <;> simp [thenDo]

theorem thenDo_assoc (r : Result) (k l : State → Result) :
    thenDo (thenDo r k) l = thenDo r fun s => thenDo (k s) l := by
  cases r <;> rfl

/-! ## Requests -/

@[simp] theorem request_bit (r : Request) (b : Bool) (s : State) (k : Bool → State → Result) :
    request r (.bit b) s k = k b (sent r s) := rfl

@[simp] theorem request_exhausted (r : Request) (s : State) (k : Bool → State → Result) :
    request r .exhausted s k = .next (raise .bitstreamExhausted (sent r s)) := rfl

@[simp] theorem readBit_eq (p : Prob) (ans : Answer) (s : State) (k : Bool → State → Result) :
    readBit p ans s k = request (.p p) ans s k := rfl

@[simp] theorem readRaw_eq (ans : Answer) (s : State) (k : Bool → State → Result) :
    readRaw ans s k = request .raw ans s k := rfl

theorem request_eq_next {r : Request} {ans : Answer} {s t : State} {k : Bool → State → Result} :
    request r ans s k = .next t ↔
      (ans = .exhausted ∧ t = raise .bitstreamExhausted (sent r s)) ∨
      (∃ b, ans = .bit b ∧ k b (sent r s) = .next t) := by
  cases ans <;> simp [eq_comm]

/-! ## Operands -/

theorem probSel_of_inRow {s : State} (h : InRow s) (j : Nat) : probSel s j = .ok (probOf s j) := if_pos h

theorem probSel_eq_ok {s : State} {j : Nat} {p : Prob} :
    probSel s j = .ok p ↔ InRow s ∧ p = probOf s j := by
  unfold probSel InRow probOf
  split <;> simp_all [eq_comm]

theorem scanPos_eq_ok {s : State} {p : Nat} :
    scanPos s = .ok p ↔ s.c.toNat < me s ∧ position s < me s ∧ p = position s := by
  unfold scanPos position
  split
  · simp; omega
  · split <;> simp_all [eq_comm]

theorem neighbourPos_eq_ok {s : State} {i p : Nat} :
    neighbourPos s i = .ok p ↔ (nbAt s i).toNat < me s ∧ p = (nbAt s i).toNat := by
  unfold neighbourPos
  split <;> simp_all [eq_comm]

theorem catpSel_eq_ok {s : State} {k i : Nat} (h : 1 ≤ k ∧ k ≤ 5 ∧ i < k) :
    ∃ p, catpSel s k i = .ok p := by
  unfold catpSel catBits
  rw [dif_pos (by omega)]
  exact ⟨_, rfl⟩

theorem maxEob_values (t : BitVec 2) : maxEob t = 16 ∨ maxEob t = 64 ∨ maxEob t = 256 ∨ maxEob t = 1024 := by
  revert t; decide

theorem me_le (s : State) : me s ≤ 1024 := by
  rcases maxEob_values s.txsize with h | h | h | h <;> simp [me, h]

theorem me_pos (s : State) : 16 ≤ me s := by
  rcases maxEob_values s.txsize with h | h | h | h <;> simp [me, h]

theorem c_succ {c : BitVec 11} (h : c.toNat < 1024) : (c + 1#11).toNat = c.toNat + 1 := by
  simp [BitVec.toNat_add]; omega

theorem ofNat_me (s : State) : (BitVec.ofNat 11 (me s)).toNat = me s := by
  have := me_le s
  simp; omega

/-! ## Context, band, advance -/

/-- The state after RESELECT at the current C (R148). -/
def reselected (s : State) : State :=
  bandsel s.c.toNat
    (setCtx (average (tokClass s (nbAt s (2 * s.c.toNat)).toNat) (tokClass s (nbAt s (2 * s.c.toNat + 1)).toNat)) s)

theorem reselect_eq_ok {s t : State} :
    reselect s = .ok t ↔
      (nbAt s (2 * s.c.toNat)).toNat < me s ∧ (nbAt s (2 * s.c.toNat + 1)).toNat < me s ∧ t = reselected s := by
  unfold reselect ctxsel neighbourPos reselected
  by_cases h₀ : (nbAt s (2 * s.c.toNat)).toNat < me s
  · by_cases h₁ : (nbAt s (2 * s.c.toNat + 1)).toNat < me s
    · simp [h₀, h₁, eq_comm]
    · simp [h₀, h₁]
  · simp [h₀]

theorem advance_eq_next {n : Node} {s t : State} :
    advance n s = .next t ↔
      ((nextIndex s).c.toNat < me s ∧ (nbAt s (2 * (nextIndex s).c.toNat)).toNat < me s ∧
        (nbAt s (2 * (nextIndex s).c.toNat + 1)).toNat < me s ∧ t = goto n (reselected (nextIndex s))) ∨
      (¬ (nextIndex s).c.toNat < me s ∧ t = finish (BitVec.ofNat 11 (me s)) (nextIndex s)) := by
  unfold advance
  split
  · next h =>
    simp only [need_eq_next, reselect_eq_ok, h, true_and, not_true, false_and, or_false, me_nextIndex, nbAt_nextIndex]
    constructor
    · rintro ⟨u, ⟨h₀, h₁, rfl⟩, ht⟩
      exact ⟨h₀, h₁, (Host.Outcome.next.inj ht).symm⟩
    · rintro ⟨h₀, h₁, rfl⟩
      exact ⟨_, ⟨h₀, h₁, rfl⟩, rfl⟩
  · next h =>
    simp only [h, false_and, false_or, not_false_iff, true_and]
    exact ⟨fun h => (Host.Outcome.next.inj h).symm, fun h => h ▸ rfl⟩

theorem average_toNat (a b : BitVec 3) : (average a b).toNat = (a.toNat + b.toNat + 1) / 2 := by
  revert a b; decide

/-! ## Numbers of a width -/

/-- wrap_N answers a number of N bits, two's complement (R10). -/
theorem wrap_range {n : Nat} (h : 1 ≤ n) (z : Int) :
    -((2 ^ (n - 1) : Nat) : Int) ≤ wrap n z ∧ wrap n z < ((2 ^ (n - 1) : Nat) : Int) := by
  obtain ⟨m, rfl⟩ : ∃ m, n = m + 1 := ⟨n - 1, by omega⟩
  have hp : ((2 ^ (m + 1) : Nat) : Int) = 2 * ((2 ^ m : Nat) : Int) := by push_cast; ring
  have h0 : 0 < ((2 ^ m : Nat) : Int) := by exact_mod_cast Nat.two_pow_pos m
  have h1 := Int.emod_nonneg z (b := ((2 ^ (m + 1) : Nat) : Int)) (by omega)
  have h2 := Int.emod_lt_of_pos z (b := ((2 ^ (m + 1) : Nat) : Int)) (by omega)
  simp only [wrap, sext, Nat.add_sub_cancel]
  split <;> omega

/-- wrap_N changes a number by a multiple of 2^N (R10). -/
theorem wrap_emod (n : Nat) (z : Int) : wrap n z % ((2 ^ n : Nat) : Int) = z % ((2 ^ n : Nat) : Int) := by
  simp only [wrap, sext]
  split
  · exact Int.emod_emod_of_dvd z (dvd_refl _)
  · rw [Int.sub_emod_right, Int.emod_emod_of_dvd z (dvd_refl _)]

/-- wrap_N leaves a number of N bits as it is (R10). -/
theorem wrap_eq_self {n : Nat} (hn : 1 ≤ n) {z : Int} :
    wrap n z = z ↔ -((2 ^ (n - 1) : Nat) : Int) ≤ z ∧ z < ((2 ^ (n - 1) : Nat) : Int) := by
  refine ⟨fun h => h ▸ wrap_range hn z, fun ⟨h1, h2⟩ => ?_⟩
  obtain ⟨m, rfl⟩ : ∃ m, n = m + 1 := ⟨n - 1, by omega⟩
  have hp : ((2 ^ (m + 1) : Nat) : Int) = 2 * ((2 ^ m : Nat) : Int) := by push_cast; ring
  simp only [Nat.add_sub_cancel] at h1 h2
  have h3 := wrap_range hn z
  simp only [Nat.add_sub_cancel] at h3
  have h4 := Int.emod_emod_of_dvd z (dvd_refl ((2 ^ (m + 1) : Nat) : Int))
  have h5 : (wrap (m + 1) z - z) % ((2 ^ (m + 1) : Nat) : Int) = 0 :=
    Int.emod_eq_emod_iff_emod_sub_eq_zero.mp (wrap_emod (m + 1) z)
  obtain ⟨k, hk⟩ := Int.dvd_of_emod_eq_zero h5
  have h0 : 0 < ((2 ^ m : Nat) : Int) := by exact_mod_cast Nat.two_pow_pos m
  rw [hp] at hk
  have : k = 0 := by
    by_contra hne
    rcases lt_or_gt_of_ne hne with hlt | hgt
    · have : 2 * ((2 ^ m : Nat) : Int) * k ≤ 2 * ((2 ^ m : Nat) : Int) * (-1) :=
        mul_le_mul_of_nonneg_left (by omega) (by omega)
      omega
    · have : 2 * ((2 ^ m : Nat) : Int) * 1 ≤ 2 * ((2 ^ m : Nat) : Int) * k :=
        mul_le_mul_of_nonneg_left (by omega) (by omega)
      omega
  rw [this] at hk
  omega

/-! ## Reads after writes of the spaces -/

theorem coefAt_insert {s t : State} {p : Nat} {v : Coef} (h : t.coef = Memory.insert s.coef p v) (hp : t.par = s.par) (q : Nat) :
    coefAt t q = if q = p then v else coefAt s q := by
  unfold coefAt; rw [h, hp, Memory.getD_insert]

/-- One class count (R242). -/
theorem cntcAt_count (y : Sym) (s : State) (i : Nat) :
    cntcAt (count y s) i =
      if s.fpar = 0#1 ∧ i = rowIndex s * s.par.nsym + y.num then (cntcAt s i + 1) % 2 ^ s.par.cntW else cntcAt s i := by
  unfold count
  by_cases hf : s.fpar = 0#1
  · rw [if_pos hf]
    by_cases hi : i = rowIndex s * s.par.nsym + y.num
    · subst hi; simp [cntcAt, Memory.getD_insert, hf, classIndex, increment]
    · simp [cntcAt, Memory.getD_insert, hf, classIndex, hi]
  · simp [hf]

/-- One eob-branch count (R243). -/
theorem cnteAt_countE (s : State) (i : Nat) :
    cnteAt (countE s) i =
      if s.fpar = 0#1 ∧ i = rowIndex s then (cnteAt s i + 1) % 2 ^ s.par.cntW else cnteAt s i := by
  unfold countE
  by_cases hf : s.fpar = 0#1
  · rw [if_pos hf]
    by_cases hi : i = rowIndex s
    · subst hi; simp [cnteAt, Memory.getD_insert, hf, increment]
    · simp [cnteAt, Memory.getD_insert, hf, hi]
  · simp [hf]

/-! ## Context arrays -/

theorem lookup_fill (m : List (Nat × BitVec 8)) (off : Nat) (f : BitVec 8) (n i : Nat) :
    Memory.lookup (fill m off f n) i = if off ≤ i ∧ i < off + n then some f else Memory.lookup m i := by
  induction n with
  | zero => rw [fill, if_neg (by omega)]
  | succ n ih =>
    rw [fill, Memory.lookup_insert, ih]
    by_cases h : i = off + n
    · simp [h]
    · rw [if_neg h]; congr 1; simp; omega

theorem wf_fill (m : List (Nat × BitVec 8)) (off : Nat) (f : BitVec 8) (n : Nat) (h : Memory.wf m) :
    Memory.wf (fill m off f n) := by
  induction n with
  | zero => exact h
  | succ n ih => exact Memory.wf_insert _ _ _ ih

theorem below_fill {len : Nat} (m : List (Nat × BitVec 8)) (off : Nat) (f : BitVec 8) (n : Nat) (h : Below len m)
    (hl : off + n ≤ len) : Below len (fill m off f n) := by
  induction n with
  | zero => exact h
  | succ n ih => exact Memory.forall_mem_insert (ih (by omega)) (by show off + n < len; omega)

theorem anySet_iff (read : Nat → BitVec 8) (off n : Nat) :
    anySet read off n = true ↔ ∃ i < n, read (off + i) ≠ 0#8 := by
  simp [anySet]

theorem footprint_eq (t : BitVec 2) : footprint t = 2 ^ t.toNat := by
  revert t; decide

theorem withFootprint_eq_next {s t : State} {k : State → Result} :
    withFootprint s k = .next t ↔
      s.aoff.toNat + footprint s.txsize ≤ s.par.ctxaLen ∧ s.loff.toNat + footprint s.txsize ≤ s.par.ctxlLen ∧
      k s = .next t := by
  unfold withFootprint
  split
  · split <;> simp_all
  · simp_all

/-! ## The launch check (R326, R327) -/

/-- The set of the positions of the scan indices below `c`. -/
def positionsBelow (s : State) (c : Nat) (seen : Nat) : Prop :=
  ∀ p, seen.testBit p = true ↔ ∃ j < c, (scanAt s j).toNat = p

theorem testBit_add (seen q p : Nat) : (seen ||| 1 <<< q).testBit p = (seen.testBit p || decide (q = p)) := by
  rw [Nat.testBit_or, Nat.shiftLeft_eq, Nat.one_mul, Nat.testBit_two_pow]

theorem positionsBelow_succ {s : State} {c seen : Nat} (h : positionsBelow s c seen) :
    positionsBelow s (c + 1) (seen ||| 1 <<< (scanAt s c).toNat) := by
  intro p
  rw [testBit_add, Bool.or_eq_true, h p, decide_eq_true_iff]
  constructor
  · rintro (⟨j, hj, e⟩ | e)
    · exact ⟨j, by omega, e⟩
    · exact ⟨c, by omega, e⟩
  · rintro ⟨j, hj, e⟩
    rcases Nat.lt_succ_iff_lt_or_eq.mp hj with h | rfl
    · exact .inl ⟨j, h, e⟩
    · exact .inr e

theorem scanFrom_iff {s : State} (k c seen : Nat) (h : positionsBelow s c seen) :
    scanFrom s k c seen = true ↔
      ∀ i, c ≤ i → i < c + k → (scanAt s i).toNat < me s ∧ ∀ j < i, scanAt s j ≠ scanAt s i := by
  induction k generalizing c seen with
  | zero => simp [scanFrom]; omega
  | succ k ih =>
    have hn : (!seen.testBit (scanAt s c).toNat) = true ↔ ∀ j < c, scanAt s j ≠ scanAt s c := by
      rw [Bool.not_eq_true', ← Bool.not_eq_true, h]
      push Not
      exact forall₂_congr fun j _ => not_congr BitVec.toNat_inj
    rw [scanFrom, Bool.and_eq_true, Bool.and_eq_true, decide_eq_true_iff, hn, ih (c + 1) _ (positionsBelow_succ h)]
    constructor
    · rintro ⟨hc, hr⟩ i h1 h2
      rcases Nat.eq_or_lt_of_le h1 with rfl | h1
      · exact hc
      · exact hr i h1 (by omega)
    · exact fun hr => ⟨hr c le_rfl (by omega), fun i h1 h2 => hr i (by omega) (by omega)⟩

theorem positionsBelow_zero (s : State) : positionsBelow s 0 0 := by intro p; simp

/-- The check of SCAN is the obligation of R326. -/
theorem scanOk_iff {s : State} : scanOk s = true ↔ ScanLegal s := by
  rw [scanOk, scanFrom_iff _ _ _ (positionsBelow_zero s), ScanLegal]
  constructor
  · intro h
    refine ⟨fun c hc => (h c (by omega) (by omega)).1, fun i hi j hj e => ?_⟩
    rcases Nat.lt_trichotomy i j with hij | hij | hij
    · exact absurd e ((h j (by omega) (by omega)).2 i hij)
    · exact hij
    · exact absurd e.symm ((h i (by omega) (by omega)).2 j hij)
  · rintro ⟨h1, h2⟩ i - hi
    exact ⟨h1 i (by omega), fun j hj e => by have := h2 j (by omega) i (by omega) e; omega⟩

theorem nbFrom_iff {s : State} (k c seen : Nat) (h : positionsBelow s c seen) :
    nbFrom s k c seen = true ↔ ∀ i, c ≤ i → i < c + k → 1 ≤ i →
      (∃ j < i, nbAt s (2 * i) = scanAt s j) ∧ (∃ j < i, nbAt s (2 * i + 1) = scanAt s j) := by
  induction k generalizing c seen with
  | zero => simp [nbFrom]; omega
  | succ k ih =>
    have hs : ∀ q, seen.testBit (nbAt s q).toNat = true ↔ ∃ j < c, nbAt s q = scanAt s j := by
      intro q
      rw [h]
      exact exists_congr fun j => and_congr_right fun _ => by rw [BitVec.toNat_inj, eq_comm]
    rw [nbFrom, Bool.and_eq_true, Bool.or_eq_true, Bool.and_eq_true, beq_iff_eq, hs, hs,
      ih (c + 1) _ (positionsBelow_succ h)]
    constructor
    · rintro ⟨hc, hr⟩ i h1 h2 h3
      rcases Nat.eq_or_lt_of_le h1 with rfl | h1
      · exact hc.resolve_left (by omega)
      · exact hr i h1 (by omega) h3
    · intro hr
      refine ⟨?_, fun i h1 h2 h3 => hr i (by omega) (by omega) h3⟩
      by_cases h0 : c = 0
      · exact .inl h0
      · exact .inr (hr c le_rfl (by omega) (by omega))

/-- The check of NB is the obligation of R327. -/
theorem nbOk_iff {s : State} : nbOk s = true ↔ NbLegal s := by
  rw [nbOk, nbFrom_iff _ _ _ (positionsBelow_zero s), NbLegal]
  exact ⟨fun h c h1 h2 => h c (by omega) (by omega) h1, fun h i _ h2 h1 => h i h1 (by omega)⟩

/-- When a launch goes on: where SCANPROV and HOST have met their obligations. -/
theorem launch_eq_next {t u : State} :
    launch t = .next u ↔ ScanLegal t ∧ NbLegal t ∧ (t.cmdk = 1#1 → FootprintLegal t) ∧ u = t := by
  rw [← scanOk_iff, ← nbOk_iff, launch, FootprintLegal, ← footprint_eq]
  cases scanOk t <;> cases nbOk t <;> simp
  split
  · next h => rw [withFootprint_eq_next]; simp [h, and_assoc, eq_comm]
  · next h => simp [h, eq_comm]

/-! ## Commands -/

theorem accept_eq {s : State} {k : State → Result} (hb : s.busy = false) (he : s.err = .none) :
    accept s k = k s := by simp [accept, hb, he]

theorem accept_busy {s : State} {k : State → Result} (hb : s.busy = true) : accept s k = .next s := by
  simp [accept, hb]

theorem accept_err {s : State} {k : State → Result} (he : s.err ≠ .none) : accept s k = .next s := by
  unfold accept; split <;> simp_all

end Sys2Proof.Machine
end

