-- ==== Sys2Proof/Laws/Nodes.lean ====
section
/-! SUPPORT. One inversion lemma per node rule: when the visit answers a next state, and which one. -/

namespace Sys2Proof.Machine

theorem next_inj {s t : State} : (Host.Outcome.next s : Result) = .next t ↔ t = s :=
  ⟨fun h => (Host.Outcome.next.inj h).symm, fun h => h ▸ rfl⟩

/-- N_EOB (R161). -/
theorem nodeEob_eq_next {ans : Answer} {s t : State} :
    nodeEob ans s = .next t ↔ InRow s ∧
      ((ans = .exhausted ∧ t = raise .bitstreamExhausted (sent (.p (probOf s 0)) s)) ∨
       (ans = .bit true ∧ t = goto .zero (countE (sent (.p (probOf s 0)) s))) ∨
       (ans = .bit false ∧
         t = finish s.c (setTok .eob (count .eobModel (countE (sent (.p (probOf s 0)) s)))))) := by
  simp only [nodeEob, need_eq_next, probSel_eq_ok, readBit_eq, request_eq_next]
  constructor
  · rintro ⟨p, ⟨hr, rfl⟩, h | ⟨b, rfl, h⟩⟩
    · exact ⟨hr, Or.inl h⟩
    · cases b <;> simp_all
  · rintro ⟨hr, h | ⟨rfl, rfl⟩ | ⟨rfl, rfl⟩⟩
    · exact ⟨_, ⟨hr, rfl⟩, Or.inl h⟩
    · exact ⟨_, ⟨hr, rfl⟩, Or.inr ⟨true, rfl, rfl⟩⟩
    · exact ⟨_, ⟨hr, rfl⟩, Or.inr ⟨false, rfl, by simp⟩⟩

/-- The state in which the ZERO token stands before C is advanced (R163). -/
def zeroStored (s : State) : State :=
  setTok .zero (storeToken (position s) .zero (storeCoef (position s) 0 (count .zero s)))

theorem zeroToken_eq_next {s t : State} :
    zeroToken s = .next t ↔ s.c.toNat < me s ∧ position s < me s ∧ advance .zero (zeroStored s) = .next t := by
  simp only [zeroToken, need_eq_next, scanPos_eq_ok, zeroStored]
  constructor
  · rintro ⟨p, ⟨h₁, h₂, rfl⟩, h⟩; exact ⟨h₁, h₂, h⟩
  · rintro ⟨h₁, h₂, h⟩; exact ⟨_, ⟨h₁, h₂, rfl⟩, h⟩

/-- N_ZERO (R163). -/
theorem nodeZero_eq_next {ans : Answer} {s t : State} :
    nodeZero ans s = .next t ↔ InRow s ∧
      ((ans = .exhausted ∧ t = raise .bitstreamExhausted (sent (.p (probOf s 1)) s)) ∨
       (ans = .bit true ∧ t = goto .one (sent (.p (probOf s 1)) s)) ∨
       (ans = .bit false ∧ zeroToken (sent (.p (probOf s 1)) s) = .next t)) := by
  simp only [nodeZero, need_eq_next, probSel_eq_ok, readBit_eq, request_eq_next]
  constructor
  · rintro ⟨p, ⟨hr, rfl⟩, h | ⟨b, rfl, h⟩⟩
    · exact ⟨hr, Or.inl h⟩
    · cases b <;> simp_all
  · rintro ⟨hr, h | ⟨rfl, rfl⟩ | ⟨rfl, h⟩⟩
    · exact ⟨_, ⟨hr, rfl⟩, Or.inl h⟩
    · exact ⟨_, ⟨hr, rfl⟩, Or.inr ⟨true, rfl, rfl⟩⟩
    · exact ⟨_, ⟨hr, rfl⟩, Or.inr ⟨false, rfl, by simpa using h⟩⟩

theorem paretoRow_iff {s : State} : paretoRow s (probOf s 2) = true ↔ ParetoReady s := by
  unfold paretoRow ParetoReady
  rw [Bool.and_eq_true, bne_iff_ne, decide_eq_true_iff, Nat.one_le_iff_ne_zero]

/-- N_ONE (R166). -/
theorem nodeOne_eq_next {ans : Answer} {s t : State} :
    nodeOne ans s = .next t ↔ InRow s ∧
      ((ans = .exhausted ∧ t = raise .bitstreamExhausted (sent (.p (probOf s 2)) s)) ∨
       (ans = .bit true ∧ ParetoReady s ∧
         t = selectRow (probOf s 2) (count .twoPlus (sent (.p (probOf s 2)) s))) ∨
       (ans = .bit true ∧ ¬ ParetoReady s ∧
         t = raise .outOfRangeProbability (count .twoPlus (sent (.p (probOf s 2)) s))) ∨
       (ans = .bit false ∧ t = resolve .one 1 (count .one (sent (.p (probOf s 2)) s)))) := by
  simp only [nodeOne, need_eq_next, probSel_eq_ok, readBit_eq, request_eq_next]
  have hp : ∀ r, paretoRow (sent r s) (probOf s 2) = paretoRow s (probOf s 2) := fun _ => rfl
  constructor
  · rintro ⟨p, ⟨hr, rfl⟩, h | ⟨b, rfl, h⟩⟩
    · exact ⟨hr, Or.inl h⟩
    · cases b
      · exact ⟨hr, Or.inr (Or.inr (Or.inr ⟨rfl, next_inj.mp (by simpa using h)⟩))⟩
      · by_cases hq : ParetoReady s
        · simp only [if_true, hp, paretoRow_iff.mpr hq] at h
          exact ⟨hr, Or.inr (Or.inl ⟨rfl, hq, next_inj.mp h⟩)⟩
        · have hf : paretoRow s (probOf s 2) = false := by
            rw [← Bool.not_eq_true, paretoRow_iff]; exact hq
          simp only [if_true, hp, hf] at h
          exact ⟨hr, Or.inr (Or.inr (Or.inl ⟨rfl, hq, next_inj.mp (by simpa using h)⟩))⟩
  · rintro ⟨hr, h | ⟨rfl, hq, rfl⟩ | ⟨rfl, hq, rfl⟩ | ⟨rfl, rfl⟩⟩
    · exact ⟨_, ⟨hr, rfl⟩, Or.inl h⟩
    · exact ⟨_, ⟨hr, rfl⟩, Or.inr ⟨true, rfl, by simp [hp, paretoRow_iff.mpr hq]⟩⟩
    · have hf : paretoRow s (probOf s 2) = false := by
        rw [← Bool.not_eq_true, paretoRow_iff]; exact hq
      exact ⟨_, ⟨hr, rfl⟩, Or.inr ⟨true, rfl, by simp [hp, hf]⟩⟩
    · exact ⟨_, ⟨hr, rfl⟩, Or.inr ⟨false, rfl, by simp⟩⟩

/-- A node that reads no PROB element and only picks between two next states (R169 to R199). -/
theorem pick_eq_next {r : Request} {ans : Answer} {s t : State} {f : Bool → State → State} :
    (request r ans s fun b s => .next (f b s)) = .next t ↔
      (ans = .exhausted ∧ t = raise .bitstreamExhausted (sent r s)) ∨ ∃ b, ans = .bit b ∧ t = f b (sent r s) := by
  simp only [request_eq_next, next_inj]

/-- N_LOWVAL (R169). -/
theorem nodeLowval_eq_next {ans : Answer} {s t : State} :
    nodeLowval ans s = .next t ↔
      (ans = .exhausted ∧ t = raise .bitstreamExhausted (sent (.p (parSel s 0)) s)) ∨
      ∃ b, ans = .bit b ∧ t = goto (if b then .highlow else .two) (sent (.p (parSel s 0)) s) :=
  pick_eq_next (f := fun b s => goto (if b then .highlow else .two) s)

/-- N_TWO (R171). -/
theorem nodeTwo_eq_next {ans : Answer} {s t : State} :
    nodeTwo ans s = .next t ↔
      (ans = .exhausted ∧ t = raise .bitstreamExhausted (sent (.p (parSel s 1)) s)) ∨
      ∃ b, ans = .bit b ∧
        t = if b then goto .three (sent (.p (parSel s 1)) s) else resolve .two 2 (sent (.p (parSel s 1)) s) :=
  pick_eq_next (f := fun b s => if b then goto .three s else resolve .two 2 s)

/-- N_THREE (R173). -/
theorem nodeThree_eq_next {ans : Answer} {s t : State} :
    nodeThree ans s = .next t ↔
      (ans = .exhausted ∧ t = raise .bitstreamExhausted (sent (.p (parSel s 2)) s)) ∨
      ∃ b, ans = .bit b ∧
        t = if b then resolve .four 4 (sent (.p (parSel s 2)) s) else resolve .three 3 (sent (.p (parSel s 2)) s) :=
  pick_eq_next (f := fun b s => if b then resolve .four 4 s else resolve .three 3 s)

/-- N_HIGHLOW (R191). -/
theorem nodeHighlow_eq_next {ans : Answer} {s t : State} :
    nodeHighlow ans s = .next t ↔
      (ans = .exhausted ∧ t = raise .bitstreamExhausted (sent (.p (parSel s 3)) s)) ∨
      ∃ b, ans = .bit b ∧ t = goto (if b then .cat34 else .catone) (sent (.p (parSel s 3)) s) :=
  pick_eq_next (f := fun b s => goto (if b then .cat34 else .catone) s)

/-- N_CATONE (R193). -/
theorem nodeCatone_eq_next {ans : Answer} {s t : State} :
    nodeCatone ans s = .next t ↔
      (ans = .exhausted ∧ t = raise .bitstreamExhausted (sent (.p (parSel s 4)) s)) ∨
      ∃ b, ans = .bit b ∧
        t = if b then startExtra .cat2 2 (sent (.p (parSel s 4)) s) else startExtra .cat1 1 (sent (.p (parSel s 4)) s) :=
  pick_eq_next (f := fun b s => if b then startExtra .cat2 2 s else startExtra .cat1 1 s)

/-- N_CAT34 (R195). -/
theorem nodeCat34_eq_next {ans : Answer} {s t : State} :
    nodeCat34 ans s = .next t ↔
      (ans = .exhausted ∧ t = raise .bitstreamExhausted (sent (.p (parSel s 5)) s)) ∨
      ∃ b, ans = .bit b ∧ t = goto (if b then .catfive else .catthree) (sent (.p (parSel s 5)) s) :=
  pick_eq_next (f := fun b s => goto (if b then .catfive else .catthree) s)

/-- N_CATTHREE (R197). -/
theorem nodeCatthree_eq_next {ans : Answer} {s t : State} :
    nodeCatthree ans s = .next t ↔
      (ans = .exhausted ∧ t = raise .bitstreamExhausted (sent (.p (parSel s 6)) s)) ∨
      ∃ b, ans = .bit b ∧
        t = if b then startExtra .cat4 4 (sent (.p (parSel s 6)) s) else startExtra .cat3 3 (sent (.p (parSel s 6)) s) :=
  pick_eq_next (f := fun b s => if b then startExtra .cat4 4 s else startExtra .cat3 3 s)

/-- N_CATFIVE (R199). -/
theorem nodeCatfive_eq_next {ans : Answer} {s t : State} :
    nodeCatfive ans s = .next t ↔
      (ans = .exhausted ∧ t = raise .bitstreamExhausted (sent (.p (parSel s 7)) s)) ∨
      ∃ b, ans = .bit b ∧
        t = if b then startCat6 (sent (.p (parSel s 7)) s) else startExtra .cat5 5 (sent (.p (parSel s 7)) s) :=
  pick_eq_next (f := fun b s => if b then startCat6 s else startExtra .cat5 5 s)

/-- N_EXTRA (R203). -/
theorem nodeExtra_eq_next {ans : Answer} {s t : State} :
    nodeExtra ans s = .next t ↔ ∃ p, catpSel s (category s) s.xi = .ok p ∧
      ((ans = .exhausted ∧ t = raise .bitstreamExhausted (sent (.p p) s)) ∨
       ∃ b, ans = .bit b ∧ t = takeExtra (catBits (category s)) b (sent (.p p) s)) := by
  simp only [nodeExtra, need_eq_next, readBit_eq, request_eq_next, next_inj]
  rfl

/-- N_CAT6 (R206, R285). -/
theorem nodeCat6_eq_next {ans : Answer} {s t : State} :
    nodeCat6 ans s = .next t ↔
      (s.par.cat6p[s.xi]? = none ∧ t = raise .malformedCategory6 s) ∨
      (s.par.cat6p[s.xi]? = some 0 ∧ t = endCat6 s) ∨
      ∃ p, s.par.cat6p[s.xi]? = some p ∧ p ≠ 0 ∧
        ((ans = .exhausted ∧ t = raise .bitstreamExhausted (sent (.p p) s)) ∨
         ∃ b, ans = .bit b ∧ t = takeCat6 b (sent (.p p) s)) := by
  unfold nodeCat6
  cases h : s.par.cat6p[s.xi]? with
  | none => simp; exact eq_comm
  | some p =>
    by_cases hp : p = 0
    · simp [hp]; exact eq_comm
    · simp only [hp, if_false, readBit_eq, request_eq_next, next_inj]
      simp [hp]

/-- N_SIGN (R221). -/
theorem nodeSign_eq_next {ans : Answer} {s t : State} :
    nodeSign ans s = .next t ↔
      (ans = .exhausted ∧ t = raise .bitstreamExhausted (sent .raw s)) ∨
      ∃ neg, ans = .bit neg ∧ s.c.toNat < me s ∧ position s < me s ∧
        advance .eob (storeSigned (position s) neg (sent .raw s)) = .next t := by
  simp only [nodeSign, readRaw_eq, request_eq_next, need_eq_next, scanPos_eq_ok, sent_c, me_sent, position_sent]
  constructor
  · rintro (h | ⟨b, rfl, p, ⟨h₁, h₂, rfl⟩, h⟩)
    · exact Or.inl h
    · exact Or.inr ⟨b, rfl, h₁, h₂, h⟩
  · rintro (h | ⟨b, rfl, h₁, h₂, h⟩)
    · exact Or.inl h
    · exact Or.inr ⟨b, rfl, _, ⟨h₁, h₂, rfl⟩, h⟩

/-- The state in which N_ENTRY leaves the machine (R261). -/
def entered (s : State) : State :=
  goto .eob (bandsel 0 (setCtx (entryContext s) (setEctx (entryContext s) s)))

/-- N_ENTRY (R261). -/
theorem nodeEntry_eq_next {s t : State} :
    nodeEntry s = .next t ↔
      s.aoff.toNat + footprint s.txsize ≤ s.par.ctxaLen ∧ s.loff.toNat + footprint s.txsize ≤ s.par.ctxlLen ∧
      t = entered s := by
  simp only [nodeEntry, withFootprint_eq_next, next_inj, entered]

/-- N_WB (R264). -/
theorem nodeWb_eq_next {s t : State} :
    nodeWb s = .next t ↔
      s.aoff.toNat + footprint s.txsize ≤ s.par.ctxaLen ∧ s.loff.toNat + footprint s.txsize ≤ s.par.ctxlLen ∧
      t = writeBack s := by
  simp only [nodeWb, withFootprint_eq_next, next_inj]

/-! ## Walking a script -/

@[simp] theorem walk_nil (s : State) : walk [] s = .next s := rfl

theorem settle_of_asks {s : State} (h : cat6AsksNothing s = false) : settle s = .next s := by
  simp [settle, h]

theorem cat6AsksNothing_of_ne {s : State} (h : s.node ≠ .cat6) : cat6AsksNothing s = false := by
  simp [cat6AsksNothing, h]

/-- One item of a script at a node other than N_CAT6. -/
theorem walk_cons {n : Node} {b : Bool} {rest : List (Node × Bool)} {s : State} (hn : s.node = n) (h6 : n ≠ .cat6) :
    walk ((n, b) :: rest) s = thenDo (visitWith (.bit b) s) (walk rest) := by
  rw [walk, settle_of_asks (cat6AsksNothing_of_ne (hn ▸ h6)), thenDo_next, if_pos hn]

/-- A script stops where the command has been aborted. -/
theorem walk_idle {script : List (Node × Bool)} {s : State} (hn : s.node = .idle)
    (hs : ∀ e ∈ script, e.1 ≠ .idle) : walk script s = .next s := by
  cases script with
  | nil => rfl
  | cons e rest =>
    obtain ⟨n, b⟩ := e
    have : s.node ≠ n := fun h => hs (n, b) List.mem_cons_self (h ▸ hn)
    rw [walk, settle_of_asks (cat6AsksNothing_of_ne (by simp [hn])), thenDo_next, if_neg this]

end Sys2Proof.Machine
end

