-- ==== Sys2Proof/Laws/PerInstr.lean ====
section
/-! SUPPORT. One fact per instruction: the length of its decision string is the length column of R114 and R115 (CAT6 for a table
of any length: 8 + m and 7 + m, R121); a command has none (R110). -/

namespace Sys2Proof.Laws.Length

/-- The length column of R114 and R115. -/
def column : Instr → Nat
  | .decodeCoefs => 0
  | .decodeBlock => 0
  | .softReset => 0
  | .eob => 1
  | .zero => 2
  | .one _ => 4
  | .two _ => 6
  | .three _ => 7
  | .four _ => 7
  | .cat1 _ _ => 8
  | .cat2 _ _ => 9
  | .cat3 _ _ => 11
  | .cat4 _ _ => 12
  | .cat5 _ _ => 13
  | .cat6 a _ => 8 + a.length
  | .zeroZ => 1
  | .oneZ _ => 3
  | .twoZ _ => 5
  | .threeZ _ => 6
  | .fourZ _ => 6
  | .cat1Z _ _ => 7
  | .cat2Z _ _ => 8
  | .cat3Z _ _ => 10
  | .cat4Z _ _ => 11
  | .cat5Z _ _ => 12
  | .cat6Z a _ => 7 + a.length

/-- The decision string is as long as the table says, and a token's is not empty. -/
def Statement (i : Instr) : Prop := (encodeBits i).length = column i ∧ (i.form ≠ .cmd → encodeBits i ≠ [])

theorem decodeCoefs : Statement (.decodeCoefs) := by
  simp [Statement, column, encodeBits, Instr.form]

theorem decodeBlock : Statement (.decodeBlock) := by
  simp [Statement, column, encodeBits, Instr.form]

theorem softReset : Statement (.softReset) := by
  simp [Statement, column, encodeBits, Instr.form]

theorem eob : Statement (.eob) := by
  simp [Statement, column, encodeBits, Instr.form]

theorem zero : Statement (.zero) := by
  simp [Statement, column, encodeBits, Instr.form]

theorem one (s : Bool) : Statement (.one s) := by
  simp [Statement, column, encodeBits, Instr.form]

theorem two (s : Bool) : Statement (.two s) := by
  simp [Statement, column, encodeBits, Instr.form]

theorem three (s : Bool) : Statement (.three s) := by
  simp [Statement, column, encodeBits, Instr.form]

theorem four (s : Bool) : Statement (.four s) := by
  simp [Statement, column, encodeBits, Instr.form]

theorem cat1 (a : BitVec 1) (s : Bool) : Statement (.cat1 a s) := by
  simp [Statement, column, encodeBits, Instr.form]

theorem cat2 (a : BitVec 2) (s : Bool) : Statement (.cat2 a s) := by
  simp [Statement, column, encodeBits, Instr.form]

theorem cat3 (a : BitVec 3) (s : Bool) : Statement (.cat3 a s) := by
  simp [Statement, column, encodeBits, Instr.form]

theorem cat4 (a : BitVec 4) (s : Bool) : Statement (.cat4 a s) := by
  simp [Statement, column, encodeBits, Instr.form]

theorem cat5 (a : BitVec 5) (s : Bool) : Statement (.cat5 a s) := by
  simp [Statement, column, encodeBits, Instr.form]

theorem cat6 (a : List Bool) (s : Bool) : Statement (.cat6 a s) := by
  simp [Statement, column, encodeBits, Instr.form]; omega

theorem zeroZ : Statement (.zeroZ) := by
  simp [Statement, column, encodeBits, Instr.form]

theorem oneZ (s : Bool) : Statement (.oneZ s) := by
  simp [Statement, column, encodeBits, Instr.form]

theorem twoZ (s : Bool) : Statement (.twoZ s) := by
  simp [Statement, column, encodeBits, Instr.form]

theorem threeZ (s : Bool) : Statement (.threeZ s) := by
  simp [Statement, column, encodeBits, Instr.form]

theorem fourZ (s : Bool) : Statement (.fourZ s) := by
  simp [Statement, column, encodeBits, Instr.form]

theorem cat1Z (a : BitVec 1) (s : Bool) : Statement (.cat1Z a s) := by
  simp [Statement, column, encodeBits, Instr.form]

theorem cat2Z (a : BitVec 2) (s : Bool) : Statement (.cat2Z a s) := by
  simp [Statement, column, encodeBits, Instr.form]

theorem cat3Z (a : BitVec 3) (s : Bool) : Statement (.cat3Z a s) := by
  simp [Statement, column, encodeBits, Instr.form]

theorem cat4Z (a : BitVec 4) (s : Bool) : Statement (.cat4Z a s) := by
  simp [Statement, column, encodeBits, Instr.form]

theorem cat5Z (a : BitVec 5) (s : Bool) : Statement (.cat5Z a s) := by
  simp [Statement, column, encodeBits, Instr.form]

theorem cat6Z (a : List Bool) (s : Bool) : Statement (.cat6Z a s) := by
  simp [Statement, column, encodeBits, Instr.form]; omega

end Sys2Proof.Laws.Length
end

