-- ==== Sys2Proof/Laws/Tokens.lean ====
section
/-! SUPPORT. What the storing visits leave: the advance of C (R224), the store of the ZERO token (R163) and the store of a
sign visit (R221 to R224), each said once in the vocabulary of Safety.lean. -/

namespace Sys2Proof.Machine

/-- The class read after one entry of TOKC is written in the running command (R45, R46). -/
theorem tokClass_of_insert {s t : State} {p : Nat} {e : BitVec 3}
    (h : t.tokc = Memory.insert s.tokc p ⟨e, s.cmdNo⟩) (hc : t.cmdNo = s.cmdNo) (q : Nat) :
    tokClass t q = if q = p then e else tokClass s q := by
  unfold tokClass
  rw [h, hc, Memory.lookup_insert]
  by_cases hq : q = p
  · simp [hq]
  · simp [hq]

/-- `t` with the fields that the advance of C may write put back to those of `s`. -/
def putBackAdvance (s t : State) : State :=
  { t with
    node := s.node, c := s.c, ctx := s.ctx, band := s.band, eob := s.eob, busy := s.busy, done := s.done }

/-- The advance of C completes where the next neighbour positions are readable. -/
theorem advance_done {n : Node} {s : State} (h : PlaceReady s) :
    ∃ t, advance n s = .next t ∧ AfterToken n s t ∧ putBackAdvance s t = s := by
  obtain ⟨hc, -, hn⟩ := h
  have hs : (nextIndex s).c.toNat = s.c.toNat + 1 := c_succ (by have := me_le s; omega)
  by_cases h : s.c.toNat + 1 < me s
  · refine ⟨_, advance_eq_next.mpr (.inl ⟨by rw [hs]; exact h, ?_, ?_, rfl⟩), ⟨hs, ?_⟩, rfl⟩
    · rw [hs]; exact (hn h).1
    · rw [hs]; exact (hn h).2
    · rw [if_pos h]
      refine ⟨rfl, rfl, rfl, rfl, ?_, ?_⟩
      · exact congrArg (bandAt s) hs
      · exact (average_toNat _ _).trans (by rw [hs]; rfl)
  · refine ⟨_, advance_eq_next.mpr (.inr ⟨by rw [hs]; exact h, rfl⟩), ⟨by simpa using hs, ?_⟩, ?_⟩
    · rw [if_neg h]
      refine ⟨by rw [finish_eob]; exact ofNat_me s, by simp, by simp, ?_⟩
      by_cases hk : s.cmdk = 1#1 <;> simp [hk]
    · unfold finish; split <;> rfl

/-- The dequantised value of R223 is the model's. -/
theorem signedCoef_eq (s : State) (neg : Bool) :
    signedCoef neg (dequantMag s) = coefValue s s.val neg := by
  have hf : dequantFactor s = if s.c.toNat = 0 then s.dqDc else s.dqAc := by
    unfold dequantFactor
    by_cases h : s.c.toNat = 0
    · rw [if_pos h, if_pos (BitVec.eq_of_toNat_eq h)]
    · rw [if_neg h, if_neg fun e => h (by rw [e]; rfl)]
  unfold signedCoef dequantMag dequantShift coefValue
  rw [hf]
  by_cases h : s.txsize = 3#2 <;> simp [h, Nat.shiftRight_succ]

/-- What a store at the current scan index and the advance after it leave, the value `v` and the token `k` being stored. -/
structure Stored (n : Node) (k : Token) (v : Int) (s t : State) : Prop where
  coef : t.coef = Memory.insert s.coef (position s) (wrap s.par.coefW v)
  tokc : t.tokc = Memory.insert s.tokc (position s) ⟨energyOf s k, s.cmdNo⟩
  after : AfterToken n s t
  frame : { putBackAdvance s t with coef := s.coef, tokc := s.tokc } =
    { s with tok := t.tok, ovf := t.ovf, cntc := t.cntc }

theorem stored_of_advance {n : Node} {k : Token} {v : Int} {s u : State} (h : PlaceReady s)
    (hu : u = { s with
      coef := Memory.insert s.coef (position s) (wrap s.par.coefW v)
      tokc := Memory.insert s.tokc (position s) ⟨energyOf s k, s.cmdNo⟩
      tok := u.tok
      ovf := u.ovf
      cntc := u.cntc }) :
    ∃ t, advance n u = .next t ∧ Stored n k v s t ∧ t.tok = u.tok ∧ t.ovf = u.ovf ∧ t.cntc = u.cntc := by
  obtain ⟨t, ht, ha, hf⟩ := advance_done (n := n) (s := u) (by rw [hu]; exact h)
  have h1 : t.coef = u.coef := (congrArg State.coef hf :)
  have h2 : t.tokc = u.tokc := (congrArg State.tokc hf :)
  have h3 : t.tok = u.tok := (congrArg State.tok hf :)
  have h4 : t.ovf = u.ovf := (congrArg State.ovf hf :)
  have h5 : t.cntc = u.cntc := (congrArg State.cntc hf :)
  refine ⟨t, ht, ⟨?_, ?_, ?_, ?_⟩, h3, h4, h5⟩
  · rw [h1]; exact (congrArg State.coef hu :)
  · rw [h2]; exact (congrArg State.tokc hu :)
  · rw [hu] at ha; exact ha
  · have hp : putBackAdvance s t = { putBackAdvance u t with
        node := s.node, c := s.c, ctx := s.ctx, band := s.band, eob := s.eob, busy := s.busy, done := s.done } := rfl
    rw [hp, hf, hu, h3, h4, h5]

/-- The ZERO token completes (R163, R164). -/
theorem zeroToken_done {s : State} (h : PlaceReady s) :
    ∃ t, zeroToken s = .next t ∧ Stored .zero .zero 0 s t ∧ t.tok = .zero ∧ t.ovf = s.ovf ∧
      t.cntc = (count .zero s).cntc := by
  obtain ⟨t, ht, hs, h3, h4, h5⟩ := stored_of_advance (n := .zero) (k := .zero) (v := 0) (u := zeroStored s) h
    (by
      have h0 : wrap s.par.coefW 0 = 0 := by simp [wrap, sext]
      rw [h0]; unfold zeroStored count; split <;> rfl)
  refine ⟨t, zeroToken_eq_next.mpr ⟨h.1, h.2.1, ht⟩, hs, h3, ?_, h5⟩
  rw [h4]; simp [zeroStored]

/-- The sign visit completes (R221 to R224). -/
theorem nodeSign_done {s : State} (h : PlaceReady s) (neg : Bool) :
    ∃ t, nodeSign (.bit neg) s = .next t ∧ Stored .eob s.tok (coefValue s s.val neg) (sent .raw s) t ∧
      t.tok = s.tok ∧
      t.ovf = (s.ovf || decide (wrap s.par.coefW (coefValue s s.val neg) ≠ coefValue s s.val neg)) ∧
      t.cntc = s.cntc := by
  have hv : signedCoef neg (dequantMag (sent .raw s)) = coefValue s s.val neg := signedCoef_eq s neg
  have hu : storeSigned (position s) neg (sent .raw s) = storeToken (position s) s.tok
      (noteOverflow (overflows s.par.coefW (coefValue s s.val neg))
        (storeCoef (position s) (wrap s.par.coefW (coefValue s s.val neg)) (sent .raw s))) := by
    rw [← hv]; rfl
  obtain ⟨t, ht, hs, h3, h4, h5⟩ := stored_of_advance (n := .eob) (k := s.tok) (v := coefValue s s.val neg)
    (s := sent .raw s) (u := storeSigned (position s) neg (sent .raw s)) h (by rw [hu]; rfl)
  refine ⟨t, nodeSign_eq_next.mpr (.inr ⟨neg, rfl, h.1, h.2.1, ht⟩), hs, h3, ?_, h5⟩
  have ho : ∀ z : Int, overflows s.par.coefW z = decide (wrap s.par.coefW z ≠ z) := fun z => by
    rw [Bool.eq_iff_iff, overflows, bne_iff_ne, decide_eq_true_iff]
  rw [h4, hu, ← ho]; rfl

end Sys2Proof.Machine
end

