-- ==== Sys2Proof/Laws/Step.lean ====
section
/-! SUPPORT. What the token that is fetched is, what exec of a token walks, and the canonical form after the operations that
write a space. -/

namespace Sys2Proof.Machine

/-- exec of a token in E-form walks the EOB node and then the Z-form script (R113). -/
theorem exec_rowOf_true (l : Leaf) (s : State) : exec (rowOf true l) s = walk ((.eob, true) :: leafScript l) s := by
  cases l <;> rfl

/-- exec of a token in Z-form walks its script (R115). -/
theorem exec_rowOf_false (l : Leaf) (s : State) : exec (rowOf false l) s = walk (leafScript l) s := by
  cases l <;> rfl

/-- The token that is fetched: EOB or an E-form token at N_EOB, a Z-form token at N_ZERO. -/
theorem fetch_eq_some {s : State} {i : Instr} (h : fetch s = some i) :
    (s.node = .eob ∧ (i = .eob ∨ ∃ l, i = rowOf true l)) ∨ (s.node = .zero ∧ ∃ l, i = rowOf false l) := by
  unfold fetch at h
  split at h
  · next hn =>
    refine .inl ⟨hn, ?_⟩
    generalize answeredBits (longestToken s) s.answers = bs at h
    match bs with
    | [] => simp [decodeE] at h
    | false :: r => simp [decodeE] at h; exact .inl h.symm
    | true :: r =>
      simp only [decodeE, Option.map_map, Option.map_eq_some_iff, Function.comp] at h
      obtain ⟨x, -, rfl⟩ := h
      exact .inr ⟨x.1, rfl⟩
  · next hn =>
    refine .inr ⟨hn, ?_⟩
    simp only [decodeZ, Option.map_map, Option.map_eq_some_iff, Function.comp] at h
    obtain ⟨x, -, rfl⟩ := h
    exact ⟨x.1, rfl⟩
  · cases h

/-- HOST's write of one element keeps the canonical form of every space. -/
theorem wf_storeSpace (sp : HostSpace) (i v : Nat) (s : State)
    (h : Memory.wf s.coef ∧ Memory.wf s.ctxa ∧ Memory.wf s.ctxl ∧ Memory.wf s.prob ∧ Memory.wf s.cntc ∧ Memory.wf s.cnte) :
    let t := storeSpace sp i v s
    Memory.wf t.coef ∧ Memory.wf t.ctxa ∧ Memory.wf t.ctxl ∧ Memory.wf t.prob ∧ Memory.wf t.cntc ∧ Memory.wf t.cnte := by
  obtain ⟨h₁, h₂, h₃, h₄, h₅, h₆⟩ := h
  cases sp
  · exact ⟨Memory.wf_insert _ _ _ h₁, h₂, h₃, h₄, h₅, h₆⟩
  · exact ⟨h₁, Memory.wf_insert _ _ _ h₂, h₃, h₄, h₅, h₆⟩
  · exact ⟨h₁, h₂, Memory.wf_insert _ _ _ h₃, h₄, h₅, h₆⟩
  · exact ⟨h₁, h₂, h₃, Memory.wf_insert _ _ _ h₄, h₅, h₆⟩
  · exact ⟨h₁, h₂, h₃, h₄, Memory.wf_insert _ _ _ h₅, h₆⟩
  · exact ⟨h₁, h₂, h₃, h₄, h₅, Memory.wf_insert _ _ _ h₆⟩

/-- The spaces of the reset state are in canonical form. -/
theorem wf_reset :
    Memory.wf State.reset.coef ∧ Memory.wf State.reset.ctxa ∧ Memory.wf State.reset.ctxl ∧ Memory.wf State.reset.prob ∧
      Memory.wf State.reset.cntc ∧ Memory.wf State.reset.cnte :=
  ⟨Memory.wf_nil, Memory.wf_nil, Memory.wf_nil, Memory.wf_nil, Memory.wf_nil, Memory.wf_nil⟩

end Sys2Proof.Machine
end

