-- ==== Sys2Proof/Tests/Slice0.lean ====
section
/-! SUPPORT. Tests: the WellFormed smoke test, every constructor's decoding from the tables of the spec, one step per instruction
with the result that 95_test_vectors.md gives, and a witness for the hypotheses of every statement. -/

namespace Sys2Proof.Tests

open Sys2Proof.Machine

/-! ## Helpers -/

/-- The `n` binary digits of `w`, the first one the most significant: a decision string as the tables print it. -/
def digits (n w : Nat) : List Bool := (List.range n).map fun i => w.testBit (n - 1 - i)

/-- A view of the next state of a result; `none` where the result is a stop. -/
def after {α : Type} (r : Result) (f : State → α) : Option α := (nextState r).map f

/-- DECODE_COEFS accepted at the launch state of 95 part 2, for the transform size `tx` (DQ_DC = DQ_AC = 1, SCAN-ID, NB-PREV). Of
PROB the elements are listed that the tests select a pareto row with, 128 each. -/
def launch (tx : BitVec 2) : State :=
  startCoefs { State.reset with txsize := tx, dqDc := 1, dqAc := 1, prob := [(2, 128), (434, 128), (452, 128)] }

/-- The launch of 95 section 2.3 with an E-form string to come at scan index 0. -/
def comingE (n w : Nat) : State := { launch 1#2 with answers := (digits n w).map .bit, tokenSteps := true }

/-- The same with a Z-form string to come at scan index 1 after a ZERO (95 section 2.3). -/
def comingZ (n w : Nat) : State :=
  { launch 1#2 with
    node := .zero, c := 1#11, band := 1#3, tokc := [(0, ⟨0#3, 1⟩)], answers := (digits n w).map .bit,
    tokenSteps := true }

/-- The stored coefficient, the class and the next scan index. -/
def stored (p : Nat) (t : State) : Int × Nat × Nat := (coefAt t p, (tokClass t p).toNat, t.c.toNat)

/-! ## WellFormed: the one check, and an ill-formed term it refuses (R119) -/

theorem test_wf_refuses_cat6_with_13_bits : (Instr.cat6 (digits 13 5) true).wf 14 = false := by decide
theorem test_wf_refuses_cat6Z_with_15_bits : (Instr.cat6Z (digits 15 5) true).wf 14 = false := by decide
theorem test_wf_accepts_cat6_with_14_bits : (Instr.cat6 (digits 14 5) true).wf 14 = true := by decide

/-! ## Decoding: words and strings written out from R110, R114 and R115 -/

theorem test_decode_decodeCoefs : decode (some 14) .cmd (.word 0x00000001#32) = some (.decodeCoefs) := by decide
theorem test_decode_decodeBlock : decode (some 14) .cmd (.word 0xFFFFFF02#32) = some (.decodeBlock) := by decide
theorem test_decode_softReset : decode (some 14) .cmd (.word 0x00000003#32) = some (.softReset) := by decide
theorem test_decode_eob : decode (some 14) .tokenE (.answers (digits 1 0b0)) = some (.eob) := by decide
theorem test_decode_zero : decode (some 14) .tokenE (.answers (digits 2 0b10)) = some (.zero) := by decide
theorem test_decode_one : decode (some 14) .tokenE (.answers (digits 4 0b1101)) = some (.one true) := by decide
theorem test_decode_two : decode (some 14) .tokenE (.answers (digits 6 0b111000)) = some (.two false) := by decide
theorem test_decode_three : decode (some 14) .tokenE (.answers (digits 7 0b1110101)) = some (.three true) := by decide
theorem test_decode_four : decode (some 14) .tokenE (.answers (digits 7 0b1110110)) = some (.four false) := by decide
theorem test_decode_cat1 : decode (some 14) .tokenE (.answers (digits 8 0b11110011)) = some (.cat1 1#1 true) := by decide
theorem test_decode_cat2 : decode (some 14) .tokenE (.answers (digits 9 0b111101100)) = some (.cat2 2#2 false) := by decide
theorem test_decode_cat3 : decode (some 14) .tokenE (.answers (digits 11 0b11111000111)) = some (.cat3 3#3 true) := by decide
theorem test_decode_cat4 : decode (some 14) .tokenE (.answers (digits 12 0b111110110000)) = some (.cat4 8#4 false) := by decide
theorem test_decode_cat5 : decode (some 14) .tokenE (.answers (digits 13 0b1111110000011)) = some (.cat5 1#5 true) := by decide
theorem test_decode_cat6 : decode (some 14) .tokenE (.answers (digits 22 0b1111111000000000001010)) = some (.cat6 (digits 14 5) false) := by decide
theorem test_decode_zeroZ : decode (some 14) .tokenZ (.answers (digits 1 0b0)) = some (.zeroZ) := by decide
theorem test_decode_oneZ : decode (some 14) .tokenZ (.answers (digits 3 0b100)) = some (.oneZ false) := by decide
theorem test_decode_twoZ : decode (some 14) .tokenZ (.answers (digits 5 0b11001)) = some (.twoZ true) := by decide
theorem test_decode_threeZ : decode (some 14) .tokenZ (.answers (digits 6 0b110100)) = some (.threeZ false) := by decide
theorem test_decode_fourZ : decode (some 14) .tokenZ (.answers (digits 6 0b110111)) = some (.fourZ true) := by decide
theorem test_decode_cat1Z : decode (some 14) .tokenZ (.answers (digits 7 0b1110000)) = some (.cat1Z 0#1 false) := by decide
theorem test_decode_cat2Z : decode (some 14) .tokenZ (.answers (digits 8 0b11101011)) = some (.cat2Z 1#2 true) := by decide
theorem test_decode_cat3Z : decode (some 14) .tokenZ (.answers (digits 10 0b1111001000)) = some (.cat3Z 4#3 false) := by decide
theorem test_decode_cat4Z : decode (some 14) .tokenZ (.answers (digits 11 0b11110100111)) = some (.cat4Z 3#4 true) := by decide
theorem test_decode_cat5Z : decode (some 14) .tokenZ (.answers (digits 12 0b111110100000)) = some (.cat5Z 16#5 false) := by decide
theorem test_decode_cat6Z : decode (some 14) .tokenZ (.answers (digits 21 0b111111100000000000001)) = some (.cat6Z (digits 14 8192) true) := by decide
theorem test_decode_refuses_reserved_opcodes :
    [0x00#32, 0x04#32, 0xFF#32, 0x100#32].map (fun w => decode (some 14) .cmd (.word w)) = [none, none, none, none] := by
  decide
theorem test_decode_refuses_a_string_that_is_too_long : decode (some 14) .tokenE (.answers (digits 3 0b101)) = none := by
  decide
theorem test_decode_refuses_cat6_without_terminator :
    decode none .tokenE (.answers (digits 22 0b1111111000000000001010)) = none := by decide
theorem test_table_words :
    [decodeTableWord 8 2, decodeTableWord 32 3, decodeTableWord 8 0b11110010, decodeTableWord 16 0b111101101,
     decodeTableWord 24 0b111111000000000001010] =
      [some .decodeBlock, some .softReset, some (.cat1 1#1 false), some (.cat2 2#2 true), some (.cat6Z (digits 14 5) false)] := by
  decide

/-! ## One step per instruction, expected results from 95 sections 2.3, 2.6 and 2.8 -/

theorem test_step_zero : after (step (comingE 2 0b10)) (stored 0) = some (0, 0, 1) := by decide
theorem test_step_one : after (step (comingE 4 0b1100)) (stored 0) = some (1, 1, 1) := by decide
theorem test_step_two : after (step (comingE 6 0b111000)) (stored 0) = some (2, 2, 1) := by decide
theorem test_step_three : after (step (comingE 7 0b1110100)) (stored 0) = some (3, 3, 1) := by decide
theorem test_step_four : after (step (comingE 7 0b1110110)) (stored 0) = some (4, 3, 1) := by decide
theorem test_step_cat1 : after (step (comingE 8 0b11110010)) (stored 0) = some (6, 4, 1) := by decide
theorem test_step_cat2 : after (step (comingE 9 0b111101110)) (stored 0) = some (10, 4, 1) := by decide
theorem test_step_cat3 : after (step (comingE 11 0b11111000000)) (stored 0) = some (11, 5, 1) := by decide
theorem test_step_cat4 : after (step (comingE 12 0b111110111110)) (stored 0) = some (34, 5, 1) := by decide
theorem test_step_cat5 : after (step (comingE 13 0b1111110111110)) (stored 0) = some (66, 5, 1) := by decide
theorem test_step_cat6 : after (step (comingE 22 0b1111111000000000001010)) (stored 0) = some (72, 5, 1) := by decide
theorem test_step_zeroZ : after (step (comingZ 1 0b0)) (stored 1) = some (0, 0, 2) := by decide
theorem test_step_oneZ : after (step (comingZ 3 0b101)) (stored 1) = some (-1, 1, 2) := by decide
theorem test_step_twoZ : after (step (comingZ 5 0b11001)) (stored 1) = some (-2, 2, 2) := by decide
theorem test_step_threeZ : after (step (comingZ 6 0b110101)) (stored 1) = some (-3, 3, 2) := by decide
theorem test_step_fourZ : after (step (comingZ 6 0b110111)) (stored 1) = some (-4, 3, 2) := by decide
theorem test_step_cat1Z : after (step (comingZ 7 0b1110001)) (stored 1) = some (-5, 4, 2) := by decide
theorem test_step_cat2Z : after (step (comingZ 8 0b11101001)) (stored 1) = some (-7, 4, 2) := by decide
theorem test_step_cat3Z : after (step (comingZ 10 0b1111001111)) (stored 1) = some (-18, 5, 2) := by decide
theorem test_step_cat4Z : after (step (comingZ 11 0b11110100001)) (stored 1) = some (-19, 5, 2) := by decide
theorem test_step_cat5Z : after (step (comingZ 12 0b111110000001)) (stored 1) = some (-35, 5, 2) := by decide
theorem test_step_cat6Z : after (step (comingZ 21 0b111111111111111111111)) (stored 1) = some (-16450, 5, 2) := by decide
theorem test_step_eob :
    after (step { comingE 1 0 with cntc := [(144 * 4 + 3, 0)], cnte := [(144, 2 ^ 32 - 1)] })
      (fun t => (t.eob, t.busy, t.done, cntcAt t (144 * 4 + 3), cnteAt t 144)) = some (0#11, false, true, 1, 0) := by decide

/-- HOST's write of `w` to CMD, due at once, at the state `s`. -/
def command (w : Word) (s : State) : State := { s with host := [⟨0, .writeReg 0 w⟩] }

/-- The state that 95 section 2.8 (a) leaves: BitstreamExhausted at the first request; with an overflow before it. -/
def aborted : State := { State.reset with err := .bitstreamExhausted, enode := .eob, ovf := true, eob := 3#11 }

theorem test_step_decodeCoefs :
    after (step (command 0xABCDEF01#32 { State.reset with ectx := 5#3 })) (fun t => (t.node, t.busy, t.c, t.ctx, t.band)) =
      some (.eob, true, 0#11, 5#3, 0#3) := by decide
theorem test_step_decodeCoefs_rejects_ectx_6 :
    after (step (command 1#32 { State.reset with ectx := 6#3 })) (fun t => (t.node, t.busy, t.err.code, errinfoWord t)) =
      some (.idle, false, 5#4, 0#32) := by decide
theorem test_step_decodeBlock :
    after (step (command 2#32 { State.reset with ectx := 6#3 })) (fun t => (t.node, t.busy, t.cmdk, t.err)) =
      some (.entry, true, 1#1, .none) := by decide
theorem test_step_decodeBlock_ignored_with_error :
    after (step (command 2#32 aborted)) statusWord = some 0x14#32 := by decide
theorem test_step_softReset :
    after (step (command 3#32 aborted)) (fun t => (statusWord t, errinfoWord t, t.eob)) = some (0#32, 0#32, 0#11) := by
  decide
theorem test_step_softReset_ignored_while_busy :
    after (step (command 3#32 (launch 0#2))) (fun t => (t.node, t.busy)) = some (.eob, true) := by decide
theorem test_reserved_opcode :
    after (step (command 7#32 State.reset)) (fun t => (statusWord t, errinfoWord t)) = some (0x40#32, 0#32) := by decide

/-- The refusal of a result. -/
def refusal (x : Result) : Option Refusal :=
  match x with
  | .refused e => some e
  | .next _ | .fault _ => none

/-- The refusals of DECODE_COEFS and DECODE_BLOCK at a state. -/
def launchRefusals (s : State) : List (Option Refusal) := [refusal (exec .decodeCoefs s), refusal (exec .decodeBlock s)]

/-- SCANPROV with the one table `t` for every key. -/
def oneTable (t : ScanTable) : ScanProv := ⟨[], t, ⟨0#2, 0#1, 0⟩⟩

/-- A SCAN that names position 0 twice, and one with an element that is ME (R326). -/
def badScans : List ScanTable := [⟨[(1, 0#10)], []⟩, ⟨[(0, 16#10)], []⟩]

/-- An NB that names a position not decoded before, and one with an element that is ME (R327). -/
def badNbs : List ScanTable := [⟨[], [(2, 1#10)]⟩, ⟨[], [(3, 16#10)]⟩]

theorem test_launch_refuses_a_scan_that_is_no_permutation :
    badScans.map (fun t => launchRefusals { State.reset with scanprov := oneTable t }) =
      List.replicate 2 (List.replicate 2 (some .scanTable)) := by decide
theorem test_launch_refuses_a_neighbour_that_is_not_decoded :
    badNbs.map (fun t => launchRefusals { State.reset with scanprov := oneTable t }) =
      List.replicate 2 (List.replicate 2 (some .neighbourTable)) := by decide
theorem test_launch_refuses_a_footprint_past_the_arrays :
    [launchRefusals { State.reset with txsize := 1#2, aoff := 65535#16 },
     launchRefusals { State.reset with txsize := 1#2, loff := 65535#16 }] =
      [[none, some .footprintAbove], [none, some .footprintLeft]] := by decide

/-! ## Errors and node visits, expected results from 95 section 2.8 and 2.9 -/

theorem test_exhausted_at_first_request :
    after (step (launch 2#2)) (fun t => (statusWord t, errinfoWord t, t.cnte)) = some (0x10#32, 1#32, []) := by decide
theorem test_out_of_range_probability :
    after (step { comingE 6 0b111000 with
      prob := [(144 * 3 + 2, 0), (146 * 3, 7)], cntc := [(144 * 4 + 2, 0)], cnte := [(144, 0)] })
      (fun t => (statusWord t, errinfoWord t, t.prow, cntcAt t (144 * 4 + 2), cnteAt t 144)) =
      some (0x20#32, 3#32, 0, 1, 1) := by decide
theorem test_malformed_category_6 :
    after (runVisits 11 { launch 0#2 with
      par := { defaultParams with cat6p := [200, 200, 200] }, answers := List.replicate 12 (.bit true) })
      (fun t => (statusWord t, errinfoWord t, t.acc, t.answers.length)) = some (0x30#32, 13#32, 7, 2) := by decide
theorem test_entry_context_and_footprint :
    after (visit { launch 1#2 with node := .entry, ctxa := [(0, 1#8), (1, 1#8)], ctxl := [(1, 1#8), (2, 1#8)], loff := 1#16 })
      (fun t => (t.ectx, t.ctx, t.node)) = some (2#3, 2#3, .eob) := by decide
theorem test_write_back_touches_the_footprint_only :
    after (visit { launch 2#2 with node := .wb, cmdk := 1#1, eob := 1#11, ctxa := [(4, 1#8)], ctxl := [(4, 1#8)] })
      (fun t => (t.ctxa.map Prod.fst, t.done)) = some ([0, 1, 2, 3, 4], true) := by decide
theorem test_with_fetch_word :
    [after (step (State.reset.withFetchWord 8 2)) (fun t => t.node),
     after (step (State.reset.withFetchWord 8 0)) (fun t => t.node),
     after (step (State.reset.withFetchWord 8 0b11110011)) (fun t => t.node),
     after (step (State.reset.withFetchWord 8 0b11001)) (fun t => t.node)] =
      [some .entry, some .idle, some .eob, some .eob] := by decide

/-! ## Witnesses: states and operands that meet the hypotheses of the statements, clause by clause -/

/-- The last scan index of a 4×4 block, at the node `n`: fifteen positions decoded, the last with class 5. -/
def lastIndex (n : Node) : State :=
  { launch 0#2 with
    node := n, c := 15#11, band := 5#3,
    tokc := (List.range 15).map fun p => (p, ⟨if p = 14 then 5#3 else 0#3, 1⟩) }

/-- A block that has ended, CORE idle. -/
def ended : State := { State.reset with done := true, eob := 1024#11, c := 1024#11, aoff := 65535#16, loff := 65535#16 }

/-- A launch whose CAT6P is `ps`. -/
def launchCat6 (n : Node) (ps : List Prob) : State :=
  { launch 0#2 with node := n, par := { defaultParams with cat6p := ps } }

/-- A launch with prob[2] = `p` and PARETO_ROWS = `rows`. -/
def launchRow (n : Node) (p : Prob) (rows : Nat) : State :=
  { launch 0#2 with node := n, prob := [(2, p)], par := { defaultParams with paretoRows := rows } }

theorem le {a b : Nat} (h : Nat.ble a b = true) : a ≤ b := Nat.le_of_ble_eq_true h

theorem footprint_le : ∀ t, footprint t ≤ 8 := by decide

theorem paramsLegal_default : ParamsLegal defaultParams :=
  ⟨by decide, by decide, by decide, by decide, by decide, by decide⟩

/-- The invariant of a state with the default parameters, between blocks or where a token begins. -/
theorem lawful_of {s : State} (par : s.par = defaultParams) (prob : s.prob = [] ∨ s.prob = (launch 0#2).prob)
    (spaces : s.coef = [] ∧ s.ctxa = [] ∧ s.ctxl = [] ∧ s.cntc = [] ∧ s.cnte = [])
    (tokc : Memory.wf s.tokc ∧ ∀ e ∈ s.tokc, e.1 < 1024)
    (node : (s.node = .idle ∧ s.busy = false ∧ (s.done = true → s.err = .none)) ∨
      ((s.node = .eob ∨ s.node = .zero) ∧ s.busy = true ∧ s.done = false ∧ s.err = .none ∧ s.c.toNat < me s ∧
        scanOk s = true ∧ nbOk s = true ∧ (s.cmdk = 1#1 → s.aoff = 0#16 ∧ s.loff = 0#16)))
    (small : s.c.toNat ≤ 1024 ∧ s.eob.toNat ≤ 1024)
    (registers : s.dqDc < 2 ^ 16 ∧ s.dqAc < 2 ^ 16 ∧ s.pmode < 2 ^ 8) : Lawful s := by
  have hp : ParamsLegal s.par := par ▸ paramsLegal_default
  obtain ⟨h1, h2, h3, h4, h5⟩ := spaces
  have hprob : Memory.wf s.prob ∧ (∀ e ∈ s.prob, e.1 < 1728) ∧ ∀ e ∈ s.prob, e.2 < 2 ^ s.par.probW := by
    rw [par]; rcases prob with h | h <;> rw [h] <;> decide
  have hf : footprint s.txsize ≤ 8 := footprint_le s.txsize
  constructor
  case par => exact hp
  case registers => rw [par]; exact registers
  case tokc_wf => exact tokc
  case prob_wf => exact hprob
  case eob_le => exact small.2
  case launched =>
    rcases node with h | ⟨-, -, -, -, -, h, h', h''⟩
    · rw [h.2.1]; intro h; cases h
    · refine fun _ => ⟨scanOk_iff.mp h, nbOk_iff.mp h', fun hk => ?_⟩
      obtain ⟨ha, hl⟩ := h'' hk
      rw [FootprintLegal, ha, hl, par, ← footprint_eq]
      exact ⟨by change 0 + _ ≤ 65536; omega, by change 0 + _ ≤ 65536; omega⟩
  all_goals first
    | (rw [h1]; exact ⟨by decide, by rintro _ ⟨⟩, by rintro _ ⟨⟩⟩)
    | (rw [h2]; exact ⟨by decide, by rintro _ ⟨⟩⟩)
    | (rw [h3]; exact ⟨by decide, by rintro _ ⟨⟩⟩)
    | (rw [h4]; exact ⟨by decide, by rintro _ ⟨⟩, by rintro _ ⟨⟩⟩)
    | (rw [h5]; exact ⟨by decide, by rintro _ ⟨⟩, by rintro _ ⟨⟩⟩)
    | (rcases node with ⟨hn, hb, hd⟩ | ⟨hn | hn, hb, hd, he, hc, -⟩ <;> simp [hn, hb, walking, usesRow] <;> grind)

theorem lawful_launch : Lawful (launch 0#2) := by
  apply lawful_of <;> decide

theorem lawful_aborted : Lawful aborted := by
  apply lawful_of <;> decide

theorem lawful_ended : Lawful ended := by
  apply lawful_of <;> decide

/-- The default bands and energy classes meet R330, for a 4×4 block. -/
theorem obliged_of {s : State} (par : s.par = defaultParams) (tx : s.txsize = 0#2) : Obliged s := by
  constructor
  · simp only [me, bandAt, par, tx]; decide
  · intro k; rw [energyOf, par]; cases k <;> decide

theorem decoding_launch : Decoding (launch 0#2) :=
  ⟨lawful_launch, obliged_of rfl rfl, fun _ => ⟨by decide, by decide⟩, fun _ _ h => absurd h (Nat.not_lt_zero _)⟩

theorem lawful_lastIndexAt (n : Node) (h : n = .eob ∨ n = .zero) : Lawful (lastIndex n) := by
  rcases h with rfl | rfl <;> apply lawful_of <;> decide

theorem decoding_lastIndex (n : Node) (h : n = .eob ∨ n = .zero) : Decoding (lastIndex n) where
  lawful := lawful_lastIndexAt n h
  obliged := obliged_of rfl rfl
  inRow := fun _ => ⟨le rfl, le rfl⟩
  written := by
    intro _ j hj
    have hj : j < 15 := hj
    refine ⟨⟨if j = 14 then 5#3 else 0#3, 1⟩, ?_, rfl, by split <;> decide⟩
    have hall : ∀ j < 15, Memory.lookup (lastIndex .eob).tokc (scanAt (lastIndex .eob) j).toNat =
        some ⟨if j = 14 then 5#3 else 0#3, 1⟩ := by decide
    exact hall j hj

/-- The same with DECODE_BLOCK, at the node `n` at scan index 0. -/
def launchAt (n : Node) (k : BitVec 1) (as : List Answer) : State :=
  { launch 0#2 with node := n, cmdk := k, answers := as }

/-- The answers of a block of 16 zeros, and one more (R165). -/
def zeroRun : List Answer := List.replicate 16 (.bit false) ++ [.bit true]

theorem lawful_zeroCoefs : Lawful (launchAt .zero 0#1 zeroRun) := by
  apply lawful_of <;> decide
theorem lawful_eobCoefs : Lawful (launchAt .eob 0#1 (.bit true :: zeroRun)) := by
  apply lawful_of <;> decide
theorem lawful_eobBlock : Lawful (launchAt .eob 1#1 (.bit true :: zeroRun)) := by
  apply lawful_of <;> decide

theorem decoding_eobCoefs : Decoding (launchAt .eob 0#1 (.bit true :: zeroRun)) :=
  ⟨lawful_eobCoefs, obliged_of rfl rfl, fun _ => ⟨le rfl, le rfl⟩, fun _ _ h => absurd h (Nat.not_lt_zero _)⟩
theorem decoding_eobBlock : Decoding (launchAt .eob 1#1 (.bit true :: zeroRun)) :=
  ⟨lawful_eobBlock, obliged_of rfl rfl, fun _ => ⟨le rfl, le rfl⟩, fun _ _ h => absurd h (Nat.not_lt_zero _)⟩

/-! ### HOST and the commands -/

theorem witness_RegisterWritesStoreLowBits :
    ended.busy = false ∧ (4 ≤ 4 ∧ 4 ≤ 13) ∧ (4 ≤ 13 ∧ 13 ≤ 13) ∧ (1 ≤ 1 ∧ (1 ≤ 3 ∨ 14 ≤ 1)) ∧
      (1 ≤ 3 ∧ (3 ≤ 3 ∨ 14 ≤ 3)) ∧ (1 ≤ 14 ∧ (14 ≤ 3 ∨ 14 ≤ 14)) := by decide
theorem witness_BusyIgnoresRegisterWrites : (launch 0#2).busy = true := by decide
theorem witness_RegisterReadsReturnTheFields : Lawful (launch 0#2) ∧ 0x0E ≤ 0x0E := ⟨lawful_launch, le rfl⟩
/-- Ten different values in the ten RW registers: each number returns the field of its name (R30). -/
theorem test_register_reads :
    let s := { State.reset with
      fpar := 1#1, txsize := 2#2, ptype := 0#1, ref := 1#1, dqDc := 8, dqAc := 9, ectx := 5#3, aoff := 11#16, loff := 12#16,
      pmode := 13 }
    (List.range 15).map (fun n => (regWord s n).toNat) = [0, 0, 0, 0, 1, 2, 0, 1, 8, 9, 5, 11, 12, 13, 0] := by decide
/-- Each clause: busy; SOFT_RESET with and without an error; another word with an error; reserved; 1; 2. -/
theorem witness_CommandWritesFollowTheOrderOfChecks :
    (launch 0#2).busy = true ∧
    (aborted.busy = false ∧ (0xFFFFFF03#32).toNat % 256 = 3) ∧
    (aborted.busy = false ∧ (1#32).toNat % 256 ≠ 3 ∧ aborted.err ≠ .none) ∧
    (ended.busy = false ∧ ended.err = .none ∧ (4#32).toNat % 256 ≠ 1 ∧ (4#32).toNat % 256 ≠ 2 ∧ (4#32).toNat % 256 ≠ 3) ∧
    ((0x100#32).toNat % 256 ≠ 1 ∧ (0x100#32).toNat % 256 ≠ 2 ∧ (0x100#32).toNat % 256 ≠ 3) ∧
    ((0xABCDEF01#32).toNat % 256 = 1 ∧ (0x102#32).toNat % 256 = 2) := by decide
theorem legal_ended (e : BitVec 3) :
    ScanLegal (presented { ended with ectx := e }) ∧ NbLegal (presented { ended with ectx := e }) :=
  ⟨scanOk_iff.mp (by decide +revert), nbOk_iff.mp (by decide +revert)⟩
theorem witness_DecodeCoefsStartsTheWalk : ∀ e ∈ [0#3, 5#3], let s := { ended with ectx := e }
    s.busy = false ∧ s.err = .none ∧ s.ectx.toNat ≤ 5 ∧ ScanLegal (presented s) ∧ NbLegal (presented s) :=
  fun e he => ⟨rfl, rfl, by revert e; decide, legal_ended e⟩
theorem witness_DecodeCoefsRejectsABadEntryContext :
    [6#3, 7#3].all (fun e => let s := { ended with ectx := e }
      !s.busy && s.node == .idle && s.err == .none && decide (5 < s.ectx.toNat)) := by decide
/-- The footprint at the last entry of both arrays. -/
theorem witness_DecodeBlockStartsAtEntry :
    ended.busy = false ∧ ended.err = .none ∧ ScanLegal (presented ended) ∧ NbLegal (presented ended) ∧ FootprintLegal ended :=
  ⟨rfl, rfl, (legal_ended 0#3).1, (legal_ended 0#3).2, le rfl, le rfl⟩
theorem witness_SoftResetClearsTheErrorState : aborted.busy = false ∧ (launch 0#2).busy = true := by decide
theorem witness_HostSpaceWritesChangeOneElement :
    ended.busy = false ∧ 1023 < spaceSize ended .coef ∧ 65535 < spaceSize ended .ctxa ∧ 65535 < spaceSize ended .ctxl ∧
      1727 < spaceSize ended .prob ∧ 2303 < spaceSize ended .cntc ∧ 575 < spaceSize ended .cnte :=
  ⟨rfl, le rfl, le rfl, le rfl, le rfl,
    le rfl, le rfl⟩
theorem witness_HostSpaceAccessWhileBusyIsRefused : (launch 0#2).busy = true := by decide
theorem witness_HostReadsSpacesAndBindsTheSource : ended.busy = false ∧ 0 < spaceSize ended .coef := by decide

/-! ### Encoding and the step -/

theorem witness_DecodeReadsBackEveryEncoding :
    (Instr.cat6 (digits 14 5) true).wf 14 = true ∧ (Instr.cat6Z [] false).wf 0 = true ∧ (Instr.cat5 31#5 true).wf 0 = true := by
  decide
theorem witness_DecodedCodesAreEncodings :
    decode (some 14) .cmd (.word 0xABCDEF01#32) = some .decodeCoefs ∧
    decode (some 0) .tokenZ (.answers (digits 7 0b1111110)) = some (.cat6Z [] false) ∧
    decode (some 14) .tokenE (.answers (digits 13 0b1111110111111)) = some (.cat5 31#5 true) := by decide
/-- A string of exactly the length asked for, and a token that begins it in each form. -/
theorem witness_EveryStringSpellsExactlyOneToken :
    13 + 2 ≤ (List.replicate 15 true).length ∧
    encodeBits (.cat6 [true, true] true) <+: List.replicate 15 true ∧ (Instr.cat6 [true, true] true).form = .tokenE ∧
    encodeBits (.cat6Z [true, true] true) <+: List.replicate 15 true ∧ (Instr.cat6Z [true, true] true).form = .tokenZ ∧
    (Instr.cat6 [true, true] true).wf 2 = true ∧ (Instr.cat6Z [true, true] true).wf 2 = true := by decide
theorem witness_StepRunsTheCommandWord :
    (command 2#32 ended).host = [⟨0, .writeReg 0 2#32⟩] ∧ (command 2#32 ended).node = .idle ∧
      (command 2#32 ended).busy = false ∧ decodeCmd 2#32 = some .decodeBlock := by decide
theorem witness_StepRunsTheComingToken :
    ((comingE 8 0xF2).host = [] ∧ (comingE 8 0xF2).tokenSteps = true ∧ (comingE 8 0xF2).node = .eob ∧
      decodeE (cat6Bits (comingE 8 0xF2).par) (answeredBits (longestToken (comingE 8 0xF2)) (comingE 8 0xF2).answers) =
        some (.cat1 1#1 false, [])) ∧
    ((comingZ 2 0).host = [] ∧ (comingZ 2 0).tokenSteps = true ∧ (comingZ 2 0).node = .zero ∧
      decodeZ (cat6Bits (comingZ 2 0).par) (answeredBits (longestToken (comingZ 2 0)) (comingZ 2 0).answers) =
        some (.zeroZ, [false])) := by decide
/-- HOST silent; an action waiting; a visit with a request and one without. -/
theorem witness_StepIsOneNodeVisit :
    (launch 0#2).host = [] ∧ (launch 0#2).tokenSteps = false ∧
    ({ launch 0#2 with host := [⟨1, .readReg 1⟩] } : State).node ≠ .idle ∧
    (nextState (step (launch 0#2))).isSome = true ∧ (nextState (step (launchAt .entry 1#1 []))).isSome = true := by decide
/-- Two tokens to come, and a step visits N_EOB and no further node (R6). -/
theorem test_step_is_one_visit :
    after (step (launchAt .eob 0#1 ((digits 8 0b11001100).map .bit))) (fun t => (t.node, t.requests.length, t.answers.length)) =
      some (.zero, 1, 7) := by decide
theorem witness_PlacedWordRunsItsInstruction :
    cat6Bits ended.par = some 14 ∧ cat6Bits (launch 0#2).par = some 14 ∧ decodeTableWord 8 3 = some .softReset ∧
      decodeTableWord 8 0xF3 = some (.cat1 1#1 true) ∧ decodeTableWord 8 0 = some .eob ∧
      decodeTableWord 8 0b101 = some (.oneZ true) := by decide
/-- A token is coming, a token is cut short, and CORE is idle. -/
theorem witness_TokenStepIsARunOfNodeVisits :
    (comingE 8 0xF2).host = [] ∧ fetch (comingE 8 0xF2) = some (.cat1 1#1 false) ∧
    (comingE 3 7).host = [] ∧ fetch (comingE 3 7) = none ∧ ended.host = [] := by decide
theorem witness_EFormIsEobContinueThenZForm : (launch 0#2).node = .eob := by decide

/-! ### Tokens: both forms, the first and the last scan index, both ends of the pareto rows -/

theorem inRow_launch (n : Node) : InRow (launchAt n 0#1 []) ∧ InRow (lastIndex n) :=
  ⟨⟨le rfl, le rfl⟩, ⟨le rfl, le rfl⟩⟩

theorem placeReady_launch (e : Bool) : PlaceReady (launchAt (startNode e) 0#1 []) ∧ PlaceReady (lastIndex (startNode e)) := by
  cases e <;> exact ⟨⟨by decide, by decide, by decide⟩, by decide, by decide, by decide⟩

theorem witness_EobTokenEndsTheBlock :
    (launch 0#2).node = .eob ∧ InRow (launchAt .eob 0#1 []) ∧ (lastIndex .eob).node = .eob ∧ InRow (lastIndex .eob) :=
  ⟨rfl, (inRow_launch .eob).1, rfl, (inRow_launch .eob).2⟩
/-- For ZERO and ONE, at the first and the last scan index, in both forms. -/
theorem witness_ZeroTokenCompletes (eForm : Bool) :
    ((launchAt (startNode eForm) 0#1 []).node = startNode eForm ∧ InRow (launchAt (startNode eForm) 0#1 []) ∧
      PlaceReady (launchAt (startNode eForm) 0#1 [])) ∧
    ((lastIndex (startNode eForm)).node = startNode eForm ∧ InRow (lastIndex (startNode eForm)) ∧
      PlaceReady (lastIndex (startNode eForm))) :=
  ⟨⟨rfl, (inRow_launch _).1, (placeReady_launch _).1⟩, ⟨rfl, (inRow_launch _).2, (placeReady_launch _).2⟩⟩
theorem witness_OneTokenCompletes (eForm : Bool) :
    (lastIndex (startNode eForm)).node = startNode eForm ∧ InRow (lastIndex (startNode eForm)) ∧
      PlaceReady (lastIndex (startNode eForm)) := (witness_ZeroTokenCompletes eForm).2

/-- prob[2] = 1 selects row 0 and prob[2] = 255 the last of 255 rows; prob[2] = 0 selects none, nor does a row past the last. -/
theorem paretoReady_launchRow (e : Bool) :
    ParetoReady (launchRow (startNode e) 1 255) ∧ ParetoReady (launchRow (startNode e) 255 255) ∧
    ¬ ParetoReady (launchRow (startNode e) 0 255) ∧ ¬ ParetoReady (launchRow (startNode e) 255 254) := by
  cases e <;> exact ⟨⟨by decide, by decide⟩, ⟨by decide, by decide⟩, fun h => absurd h.1 (by decide),
    fun h => absurd h.2 (by decide)⟩

theorem paretoReady_launchCat6 (e : Bool) (ps : List Prob) : ParetoReady (launchCat6 (startNode e) ps) :=
  ⟨by change 1 ≤ 128; decide, by change 128 - 1 < 255; decide⟩

theorem ready_launchRow (e : Bool) (p : Prob) (rows : Nat) :
    InRow (launchRow (startNode e) p rows) ∧ PlaceReady (launchRow (startNode e) p rows) :=
  ⟨⟨(inRow_launch (startNode e)).1.1, (inRow_launch (startNode e)).1.2⟩, (placeReady_launch e).1⟩

theorem witness_LowValueTokensComplete (eForm : Bool) :
    let s := launchRow (startNode eForm) 1 255
    s.node = startNode eForm ∧ InRow s ∧ PlaceReady s ∧ ParetoReady s :=
  ⟨rfl, (ready_launchRow _ _ _).1, (ready_launchRow _ _ _).2, (paretoReady_launchRow _).1⟩
theorem witness_CategoryTokensComplete (eForm : Bool) :
    let s := launchRow (startNode eForm) 255 255
    s.node = startNode eForm ∧ InRow s ∧ PlaceReady s ∧ ParetoReady s :=
  ⟨rfl, (ready_launchRow _ _ _).1, (ready_launchRow _ _ _).2, (paretoReady_launchRow _).2.1⟩
/-- With the default table, and with a table whose first entry is the terminator. -/
theorem witness_Cat6TokenCompletes (eForm : Bool) :
    let s := launchRow (startNode eForm) 255 255
    let t := launchCat6 (startNode eForm) [0]
    (s.node = startNode eForm ∧ InRow s ∧ PlaceReady s ∧ ParetoReady s ∧ cat6Bits s.par = some (digits 14 5).length) ∧
    (t.node = startNode eForm ∧ InRow t ∧ PlaceReady t ∧ ParetoReady t ∧ cat6Bits t.par = some ([] : List Bool).length) :=
  ⟨⟨rfl, (ready_launchRow _ _ _).1, (ready_launchRow _ _ _).2, (paretoReady_launchRow _).2.1, by cases eForm <;> decide⟩,
   ⟨rfl, (inRow_launch (startNode eForm)).1, (placeReady_launch eForm).1, paretoReady_launchCat6 _ _, by cases eForm <;> decide⟩⟩
theorem witness_NoParetoRowAbortsLargeTokens (eForm : Bool) :
    let s := launchRow (startNode eForm) 0 255
    let t := launchRow (startNode eForm) 255 254
    (s.node = startNode eForm ∧ s.busy = true ∧ InRow s ∧ ¬ ParetoReady s) ∧
    (t.node = startNode eForm ∧ t.busy = true ∧ InRow t ∧ ¬ ParetoReady t) ∧
    isLarge (.two true) = true ∧ isLarge (.cat6 [] false) = true :=
  ⟨⟨rfl, rfl, (ready_launchRow _ _ _).1, (paretoReady_launchRow _).2.2.1⟩,
   ⟨rfl, rfl, (ready_launchRow _ _ _).1, (paretoReady_launchRow _).2.2.2⟩, rfl, rfl⟩
theorem witness_UnterminatedTableAbortsCat6 (eForm : Bool) :
    let s := launchCat6 (startNode eForm) [200, 200, 200]
    let t := launchCat6 (startNode eForm) []
    (s.node = startNode eForm ∧ s.busy = true ∧ InRow s ∧ ParetoReady s ∧ cat6Bits s.par = none ∧
      (digits 3 7).length = s.par.cat6p.length) ∧
    (t.busy = true ∧ cat6Bits t.par = none ∧ ([] : List Bool).length = t.par.cat6p.length) :=
  ⟨⟨rfl, rfl, (inRow_launch (startNode eForm)).1, paretoReady_launchCat6 _ _, by cases eForm <;> decide, by cases eForm <;> decide⟩, rfl, rfl, rfl⟩

/-! ### Node visits -/

/-- CORE at the node `n` of a launched block, with an extra bit of CAT1 or of CAT6 to come where `n` reads extra bits. -/
def atNode (n : Node) (a : Answer) : State := { launchAt n 1#1 [a] with tok := if n = .cat6 then .cat6 else .cat1 }

/-- Every node of R23. -/
def nodes : List Node :=
  [.idle, .eob, .zero, .one, .lowval, .two, .three, .highlow, .catone, .cat34, .catthree, .catfive, .extra, .cat6, .sign, .wb,
   .entry]

theorem witness_ExhaustionAbortsBeforeAnyEffect :
    (∀ n ∈ nodes, n ≠ .idle → n ≠ .wb → n ≠ .entry →
      (atNode n .exhausted).busy = true ∧ (visitRequest (atNode n .exhausted)).isSome = true ∧
        nextAnswer (atNode n .exhausted) = .exhausted) ∧ InRow (atNode .eob .exhausted) :=
  ⟨by decide, by decide, by decide⟩
/-- Every node and both answers: the visit answers a next state (for four statements about the next state of a visit). -/
theorem witness_VisitsFollowTheTransitionTable :
    ∀ n ∈ nodes, ∀ b ∈ [true, false],
      nextAnswer (atNode n (.bit b)) = .bit b ∧ (nextState (visit (atNode n (.bit b)))).isSome = true := by decide
/-- The last column: every node that makes a request. -/
theorem witness_transition_when_exhausted :
    ∀ n ∈ nodes, n ≠ .idle → n ≠ .wb → n ≠ .entry →
      (visitRequest (atNode n .exhausted)).isSome = true ∧ (nextState (visit (atNode n .exhausted))).isSome = true := by
  decide
theorem witness_EveryVisitMakesTheRequestOfItsNode :
    (nextState (visit (atNode .eob (.bit true)))).isSome = true ∧ (visitRequest (atNode .eob (.bit true))).isSome = true ∧
    (nextState (visit (atNode .entry (.bit true)))).isSome = true ∧ visitRequest (atNode .entry (.bit true)) = none ∧
    (nextState (visit { atNode .cat6 (.bit true) with xi := 14 })).isSome = true ∧
    visitRequest { atNode .cat6 (.bit true) with xi := 14 } = none ∧
    visitRequest { atNode .cat6 (.bit true) with xi := 15 } = none := by decide
/-- The row that prob[2] selects exists, and does not (the two outcomes of N_ONE answered 1). -/
theorem witness_transition_of_ONE :
    ParetoReady (launchRow .one 1 255) ∧ ¬ ParetoReady (launchRow .one 0 255) :=
  ⟨⟨by decide, by decide⟩, fun h => absurd h.1 (by decide)⟩
/-- CAT1 and CAT5, the first and the last extra bit. -/
theorem witness_ExtraBitsAreReadMostSignificantFirst :
    [(Token.cat1, 0), (.cat5, 0), (.cat5, 4)].all fun x =>
      let s := { atNode .extra (.bit true) with tok := x.1, xi := x.2 }
      s.node == .extra && decide (1 ≤ category s ∧ category s ≤ 5 ∧ s.xi < category s) := by
  decide
/-- The first entry, the last bit's entry, the terminator, and past the end of a table without one. -/
theorem witness_Cat6LoopAccumulatesUntilTheTerminator :
    (launch 0#2).par.cat6p[0]? = some 254 ∧ (launch 0#2).par.cat6p[13]? = some 129 ∧
    (launch 0#2).par.cat6p[14]? = some 0 ∧ (254 : Prob) ≠ 0 ∧ (atNode .cat6 (.bit true)).node = .cat6 ∧
    nextAnswer (atNode .cat6 (.bit true)) = .bit true ∧
    ({ launchCat6 .cat6 [200] with xi := 1 } : State).xi = (launchCat6 .cat6 [200]).par.cat6p.length ∧
    (launchCat6 .cat6 [200]).busy = true := by decide
/-- BITSRC exhausted at an extra bit of CAT1..CAT5 and of CAT6; a visit without a request where it is. -/
theorem witness_exhausted_extra_bits :
    (atNode .extra .exhausted).node = .extra ∧ category (atNode .extra .exhausted) = 1 ∧
    nextAnswer (atNode .extra .exhausted) = .exhausted ∧
    (atNode .cat6 .exhausted).par.cat6p[0]? = some 254 ∧ nextAnswer (atNode .cat6 .exhausted) = .exhausted ∧
    visitRequest (atNode .entry .exhausted) = none ∧ (nextState (visit (atNode .entry .exhausted))).isSome = true := by
  decide
theorem witness_RaiseSavesNodeAndIndex : (launch 0#2).busy = true ∧ ended.busy = false := by decide
theorem witness_FinishWritesEobAndEndsOrWritesBack : (launchAt .eob 1#1 []).cmdk = 1#1 ∧ (launchAt .eob 0#1 []).cmdk = 0#1 := by
  decide
/-- Footprints that end at the last entry of both arrays, at N_ENTRY and at N_WB. -/
theorem witness_EntryContextCountsTheSidesThatAreSet :
    let s := { launchAt .entry 1#1 [] with aoff := 65535#16, loff := 0#16 }
    s.node = .entry ∧ s.aoff.toNat + 2 ^ s.txsize.toNat ≤ s.par.ctxaLen ∧
      s.loff.toNat + 2 ^ s.txsize.toNat ≤ s.par.ctxlLen :=
  ⟨rfl, le rfl, le rfl⟩
theorem witness_WriteBackFillsTheFootprintOnly :
    let s := { launchAt .wb 1#1 [] with aoff := 0#16, loff := 65535#16, eob := 1#11 }
    s.node = .wb ∧ s.aoff.toNat + 2 ^ s.txsize.toNat ≤ s.par.ctxaLen ∧
      s.loff.toNat + 2 ^ s.txsize.toNat ≤ s.par.ctxlLen :=
  ⟨rfl, le rfl, le rfl⟩
theorem witness_ContextIsTheRoundedAverage :
    (nbAt (lastIndex .zero) (2 * 15)).toNat < me (lastIndex .zero) ∧
    (nbAt (lastIndex .zero) (2 * 15 + 1)).toNat < me (lastIndex .zero) ∧
    nbAt (lastIndex .zero) (2 * 15) = nbAt (lastIndex .zero) (2 * 15 + 1) ∧
    (tokClass (lastIndex .zero) (nbAt (lastIndex .zero) (2 * 15)).toNat).toNat ≤ 5 := by decide
theorem witness_CountersAddOneToOneElement :
    (launch 0#2).fpar = 0#1 ∧ ({ launch 0#2 with fpar := 1#1 } : State).fpar = 1#1 := by decide

/-! ### The stops -/

/-- The two broken SCANs with both commands (busy = false, no error, ECTX in 0..5). -/
theorem witness_BrokenObligationsAreRefused_scan_launch : ∀ x ∈ badScans,
    let s := { State.reset with scanprov := oneTable x }
    s.busy = false ∧ s.err = .none ∧ s.ectx.toNat ≤ 5 ∧ ¬ ScanLegal (presented s) := by
  simp only [← scanOk_iff]; decide
theorem witness_BrokenObligationsAreRefused_nb_launch : ∀ x ∈ badNbs,
    let s := { State.reset with scanprov := oneTable x }
    s.busy = false ∧ s.err = .none ∧ s.ectx.toNat ≤ 5 ∧ ScanLegal (presented s) ∧ ¬ NbLegal (presented s) := by
  simp only [← scanOk_iff, ← nbOk_iff]; decide
/-- A footprint that ends one entry past CTXA, and one past CTXL. -/
theorem witness_BrokenObligationsAreRefused_footprint_launch :
    let s := { State.reset with txsize := 1#2, aoff := 65535#16 }
    let t := { State.reset with txsize := 1#2, loff := 65535#16 }
    (scanOk (presented s) = true ∧ nbOk (presented s) = true ∧ s.par.ctxaLen < s.aoff.toNat + 2 ^ s.txsize.toNat) ∧
    (scanOk (presented t) = true ∧ nbOk (presented t) = true ∧ t.aoff.toNat + 2 ^ t.txsize.toNat ≤ t.par.ctxaLen ∧
      t.par.ctxlLen < t.loff.toNat + 2 ^ t.txsize.toNat) :=
  ⟨⟨by decide, by decide, le rfl⟩, by decide, by decide, le rfl, le rfl⟩
theorem witness_BrokenObligationsAreRefused_prob :
    (launch 0#2).node = .eob ∧ ¬ InRow { launch 0#2 with ctx := 6#3 } ∧ ¬ InRow { launch 0#2 with band := 6#3 } :=
  ⟨rfl, fun h => absurd h.2 (by decide), fun h => absurd h.1 (by decide)⟩
/-- A SCAN element that is ME, at N_ZERO answered 0; an NB element that is ME, at N_SIGN. -/
theorem witness_BrokenObligationsAreRefused_visit :
    let s := { launchAt .zero 0#1 [.bit false] with scanprov := oneTable ⟨[(0, 16#10)], []⟩ }
    let t := { launchAt .sign 0#1 [.bit true] with scanprov := oneTable ⟨[], [(2, 16#10)]⟩ }
    s.node = .zero ∧ InRow s ∧ nextAnswer s = .bit false ∧ s.c.toNat < me s ∧ me s ≤ position s ∧
    t.node = .sign ∧ nextAnswer t = .bit true ∧ t.c.toNat < me t ∧ position t < me t ∧ t.c.toNat + 1 < me t ∧
    me t ≤ (nbAt t (2 * (t.c.toNat + 1))).toNat := by simp only [InRow]; decide
theorem witness_BrokenObligationsAreRefused_footprint :
    let s := { launchAt .entry 1#1 [] with txsize := 1#2, aoff := 65535#16 }
    let t := { launchAt .wb 1#1 [] with txsize := 1#2, loff := 65535#16 }
    s.node = .entry ∧ s.par.ctxaLen < s.aoff.toNat + 2 ^ s.txsize.toNat ∧
    t.node = .wb ∧ t.aoff.toNat + 2 ^ t.txsize.toNat ≤ t.par.ctxaLen ∧
    t.par.ctxlLen < t.loff.toNat + 2 ^ t.txsize.toNat :=
  ⟨rfl, le rfl, rfl, le rfl, le rfl⟩
theorem witness_BrokenObligationsAreRefused_index : ended.busy = false ∧ spaceSize ended .coef ≤ 1024 := by decide
theorem witness_StoredCoefficientWrapsAndSetsOvf : 1 ≤ 1 ∧ 1 ≤ 16 := by decide
/-- R10 and 95 section 2.7: the ends of the range of 16 bits, and one past each. -/
theorem test_wrap :
    [wrap 16 32767, wrap 16 (-32768), wrap 16 32768, wrap 16 (-32769), wrap 16 65536] = [32767, -32768, -32768, 32767, 0] ∧
    [overflows 16 32767, overflows 16 (-32768), overflows 16 32768, overflows 16 (-32769)] = [false, false, true, true] := by
  decide

/-! ### Rules of the whole machine -/

/-- A node visit, and a step of an idle machine (for the invariants of a step). -/
theorem witness_EveryStepKeepsTheInvariant :
    Lawful (launch 0#2) ∧ (nextState (step (launch 0#2))).isSome = true ∧ Lawful ended ∧
      (nextState (step ended)).isSome = true := ⟨lawful_launch, by decide, lawful_ended, by decide⟩
theorem witness_NoFaultUnderTheInvariant : Lawful (launch 0#2) := lawful_launch
/-- At the first scan index, and at the last (C > 0), where the fifteen positions below have been decoded. -/
theorem witness_MetObligationsNeverStop :
    (Decoding (launch 0#2) ∧ (launch 0#2).host = []) ∧
    (Decoding (lastIndex .zero) ∧ (lastIndex .zero).host = [] ∧ (lastIndex .zero).c.toNat = 15) :=
  ⟨⟨decoding_launch, rfl⟩, decoding_lastIndex .zero (.inr rfl), rfl, by decide⟩
/-- Both commands accepted at an idle state that meets the invariant. -/
theorem witness_MetObligationsNeverStop_launch :
    Lawful ended ∧ ended.busy = false ∧
    (∃ t, exec .decodeCoefs ended = .next t ∧ t.busy = true ∧ Obliged t) ∧
    (∃ t, exec .decodeBlock ended = .next t ∧ t.busy = true ∧ Obliged t) :=
  ⟨lawful_ended, rfl, ⟨_, rfl, rfl, obliged_of rfl rfl⟩, _, rfl, rfl, obliged_of rfl rfl⟩
theorem witness_EveryVisitLowersTheBound :
    Lawful (launch 0#2) ∧ (launch 0#2).busy = true ∧ (nextState (visit (launch 0#2))).isSome = true :=
  ⟨lawful_launch, by decide, by decide⟩
/-- At the first scan index and at the last, and at the first node of a command. -/
theorem witness_EveryCommandEndsWithinTheBound :
    (Decoding (launch 0#2) ∧ (launch 0#2).node = .eob) ∧ Decoding (lastIndex .eob) ∧
    (∃ n, n = me (launch 0#2) * tokenVisits (launch 0#2) + 2) :=
  ⟨⟨decoding_launch, rfl⟩, decoding_lastIndex .eob (.inl rfl), _, rfl⟩
/-- The lengths of CAT6P at which CAT6 becomes the longest token, and the spec's numbers at CAT6_LEN = 15 (R341). -/
theorem test_longest_token :
    [0, 4, 5, 6, 15].map (fun n =>
      let s := launchCat6 .eob (List.replicate n 1)
      (tokenVisits s, tokenRequests s)) = [(13, 13), (13, 13), (13, 13), (14, 13), (23, 22)] ∧
    me (launch 3#2) * tokenRequests (launch 3#2) = 22528 := by decide
/-- Every kind of visit that stores or counts, and one that does neither (R163, R221, R244). -/
theorem witness_visit_stores_and_counts :
    [(Node.eob, false), (.eob, true), (.zero, false), (.zero, true), (.one, false), (.one, true), (.sign, true)].map (fun x =>
      let s := atNode x.1 (.bit x.2)
      ((nextState (visit s)).isSome, visitStores s, visitClassCount s, visitEobCount s, visitIncrements s)) =
      [(true, 0, some 3, some 0, 2), (true, 0, none, some 0, 1), (true, 1, some 0, none, 1), (true, 0, none, none, 0),
       (true, 0, some 1, none, 1), (true, 0, some 2, none, 1), (true, 1, none, none, 0)] := by decide
/-- For DECODE_COEFS and DECODE_BLOCK. -/
theorem witness_TrailingZeroRunEndsAtMaxEob :
    let s := launchAt .eob 0#1 (.bit true :: zeroRun)
    let t := launchAt .eob 1#1 (.bit true :: zeroRun)
    (Decoding s ∧ s.node = .eob ∧ s.c = 0#11 ∧
      s.answers = .bit true :: (List.replicate (me s) (.bit false) ++ [.bit true])) ∧
    (Decoding t ∧ t.node = .eob ∧ t.c = 0#11 ∧
      t.answers = .bit true :: (List.replicate (me t) (.bit false) ++ [.bit true])) :=
  ⟨⟨decoding_eobCoefs, rfl, rfl, by decide⟩, decoding_eobBlock, rfl, rfl, by decide⟩
theorem witness_CounterGateAffectsNothingElse :
    hideCounts (launch 0#2) = hideCounts { launch 0#2 with fpar := 1#1, cnte := [(0, 7)] } := rfl
theorem witness_VisitsDoNotLookAhead :
    hideAnswers (launchAt .eob 0#1 [.bit true]) = hideAnswers (launchAt .eob 0#1 [.bit true, .bit false]) ∧
    nextAnswer (launchAt .eob 0#1 [.bit true]) = nextAnswer (launchAt .eob 0#1 [.bit true, .bit false]) := ⟨rfl, rfl⟩
/-- Every node: the visits of `witness_VisitsFollowTheTransitionTable`, N_ENTRY and N_WB among them; FPAR = 1 as well. -/
theorem witness_VisitsStoreOnlyWhereTheRulesSay :
    (∀ n ∈ nodes, (nextState (visit { atNode n (.bit false) with fpar := 1#1 })).isSome = true) ∧
    (nextState (visit (atNode .zero (.bit true)))).isSome = true ∧ nextAnswer (atNode .zero (.bit true)) ≠ .bit false ∧
    (nextState (visit (atNode .zero .exhausted))).isSome = true ∧ nextAnswer (atNode .zero .exhausted) ≠ .bit false ∧
    (nextState (visit (atNode .sign .exhausted))).isSome = true ∧ nextAnswer (atNode .sign .exhausted) = .exhausted := by
  decide
theorem witness_VisitsWriteNoControlRegister :
    (nextState (visit (atNode .entry .exhausted))).isSome = true ∧ (nextState (visit (atNode .wb .exhausted))).isSome = true := by
  decide
/-- C stays at N_EOB and is advanced at N_ZERO answered 0. -/
theorem witness_IndexOnlyCountsUp :
    Lawful (launch 0#2) ∧ after (visit (launch 0#2)) State.c = some 0#11 ∧
    Lawful (launchAt .zero 0#1 zeroRun) ∧ after (visit (launchAt .zero 0#1 zeroRun)) State.c = some 1#11 :=
  ⟨lawful_launch, by decide, lawful_zeroCoefs, by decide⟩

/-- Command start, N_ENTRY, an increment of C that leaves it below ME, one that does not, and none. -/
theorem witness_ContextAndBandFollowTheIndex :
    (ended.busy = false ∧ ended.err = .none ∧ ended.ectx.toNat ≤ 5) ∧
    (nextState (visit (atNode .entry .exhausted))).isSome = true ∧
    after (visit (atNode .zero (.bit false))) State.c = some 1#11 ∧
    after (visit { lastIndex .zero with answers := [.bit false] }) State.c = some 16#11 ∧
    after (visit (atNode .eob (.bit true))) State.c = some 0#11 := by decide

theorem lawful_eobRegister : Lawful { launch 0#2 with eob := 7#11, answers := [.bit false] } := by
  apply lawful_of <;> decide

theorem witness_EobRegisterIsWrittenOnlyByFinish :
    let s := { launch 0#2 with eob := 7#11, answers := [.bit false] }
    Lawful s ∧ after (visit s) State.eob = some 0#11 ∧ s.eob = 7#11 ∧
    after (exec .decodeCoefs ended) State.eob = some 1024#11 ∧ after (exec .decodeBlock ended) State.eob = some 1024#11 :=
  ⟨lawful_eobRegister, by decide, rfl, by decide, by decide⟩
theorem lawful_lastIndex : Lawful { lastIndex .zero with answers := [.bit false] } := by
  apply lawful_of <;> decide
/-- finish(ME) at the last scan index (finish(c) is in `witness_EobRegisterIsWrittenOnlyByFinish`). -/
theorem witness_FinishWritesEobAtMaxEob :
    let s := { lastIndex .zero with answers := [.bit false] }
    Lawful s ∧ after (visit s) State.eob = some 16#11 ∧ s.eob = 0#11 := ⟨lawful_lastIndex, by decide, rfl⟩

theorem lawful_abortedSoft : Lawful { aborted with host := [⟨0, .writeReg 0 3#32⟩] } := by
  apply lawful_of <;> decide
theorem lawful_abortedHard : Lawful { aborted with host := [⟨0, .hardwareReset⟩] } := by
  apply lawful_of <;> decide

/-- SOFT_RESET and a hardware reset clear both. -/
theorem witness_OnlyResetsClearOvfAndErr :
    let s := { aborted with host := [⟨0, .writeReg 0 3#32⟩] }
    let t := { aborted with host := [⟨0, .hardwareReset⟩] }
    Lawful s ∧ (s.ovf = true ∧ s.err ≠ .none) ∧ after (step s) (fun u => (u.ovf, u.err)) = some (false, .none) ∧
    Lawful t ∧ after (step t) (fun u => (u.ovf, u.err)) = some (false, .none) :=
  ⟨lawful_abortedSoft, by decide, by decide, lawful_abortedHard, by decide⟩
theorem witness_IdleIsLeftOnlyByADecodeCommand :
    Lawful ended ∧ ended.node = .idle ∧
    after (hostAct (.writeReg 0 0x101#32) ended) State.node = some .eob ∧
    after (hostAct (.writeReg 0 2#32) ended) State.node = some .entry := ⟨lawful_ended, rfl, by decide, by decide⟩

end Sys2Proof.Tests
end

section
/-! PROOF. What every visit asks of the bit source and what every step leaves of the switch `tokenSteps` (R6, R84; log 1). -/

namespace Sys2Proof.Machine

/-! ## Requests, answers and the switch -/

/-- The fields of the state that R6 and log 1 speak of: the requests made, the answers to come, the switch. -/
def traffic (s : State) : List Request × List Answer × Bool := (s.requests, s.answers, s.tokenSteps)

/-- `s` after the request of the coming visit, if it makes one (R6). -/
def asked (s : State) : State :=
  match visitRequest s with
  | some r => sent r s
  | none => s

theorem asked_of_some {s : State} {r : Request} (h : visitRequest s = some r) : asked s = sent r s := by
  simp [asked, h]

theorem asked_of_none {s : State} (h : visitRequest s = none) : asked s = s := by
  simp [asked, h]

theorem tokenSteps_of_traffic {s t : State} (h : traffic t = traffic s) : t.tokenSteps = s.tokenSteps :=
  congrArg (fun x => x.2.2) h

theorem answers_of_traffic {s t : State} (h : traffic t = traffic s) : t.answers = s.answers :=
  congrArg (fun x => x.2.1) h

theorem requests_of_traffic {s t : State} (h : traffic t = traffic s) : t.requests = s.requests :=
  congrArg Prod.fst h

/-! ## One visit makes one request or none -/

theorem traffic_advance {n : Node} {s t : State} (h : advance n s = .next t) : traffic t = traffic s := by
  obtain ⟨-, -, -, rfl⟩ | ⟨-, rfl⟩ := advance_eq_next.mp h
  · rfl
  · simp [traffic]

theorem traffic_zeroToken {s t : State} (h : zeroToken s = .next t) : traffic t = traffic s := by
  obtain ⟨-, -, h⟩ := zeroToken_eq_next.mp h
  exact (traffic_advance h).trans (by simp [traffic, zeroStored])

/-- Where a node picks its next state by the answer to its one request, or aborts, that request is all it asks (R169 to R199). -/
theorem traffic_picked {ans : Answer} {e : Err} {u t : State} {f : Bool → State}
    (h : (ans = .exhausted ∧ t = raise e u) ∨ ∃ b, ans = .bit b ∧ t = f b) (hf : ∀ b, traffic (f b) = traffic u) :
    traffic t = traffic u := by
  obtain ⟨-, rfl⟩ | ⟨b, -, rfl⟩ := h
  · rfl
  · exact hf b

/-- A visit that answers a next state has made the request of its node, or none where the node makes none (R6). -/
theorem traffic_visitWith {ans : Answer} {s t : State} (h : visitWith ans s = .next t) :
    traffic t = traffic (asked s) := by
  cases hn : s.node <;> simp only [visitWith, asked, visitRequest, hn] at h ⊢
  case idle => rw [next_inj.mp h]
  case eob =>
    obtain ⟨-, ⟨-, rfl⟩ | ⟨-, rfl⟩ | ⟨-, rfl⟩⟩ := nodeEob_eq_next.mp h <;> simp [traffic]
  case zero =>
    obtain ⟨-, ⟨-, rfl⟩ | ⟨-, rfl⟩ | ⟨-, h⟩⟩ := nodeZero_eq_next.mp h
    · rfl
    · rfl
    · exact traffic_zeroToken h
  case one =>
    obtain ⟨-, ⟨-, rfl⟩ | ⟨-, -, rfl⟩ | ⟨-, -, rfl⟩ | ⟨-, rfl⟩⟩ := nodeOne_eq_next.mp h <;> simp [traffic]
  case lowval => exact traffic_picked (nodeLowval_eq_next.mp h) (fun b => by cases b <;> rfl)
  case two => exact traffic_picked (nodeTwo_eq_next.mp h) (fun b => by cases b <;> rfl)
  case three => exact traffic_picked (nodeThree_eq_next.mp h) (fun b => by cases b <;> rfl)
  case highlow => exact traffic_picked (nodeHighlow_eq_next.mp h) (fun b => by cases b <;> rfl)
  case catone => exact traffic_picked (nodeCatone_eq_next.mp h) (fun b => by cases b <;> rfl)
  case cat34 => exact traffic_picked (nodeCat34_eq_next.mp h) (fun b => by cases b <;> rfl)
  case catthree => exact traffic_picked (nodeCatthree_eq_next.mp h) (fun b => by cases b <;> rfl)
  case catfive => exact traffic_picked (nodeCatfive_eq_next.mp h) (fun b => by cases b <;> rfl)
  case extra =>
    obtain ⟨p, hp, ⟨-, rfl⟩ | ⟨b, -, rfl⟩⟩ := nodeExtra_eq_next.mp h <;> simp [hp, traffic]
  case cat6 =>
    obtain ⟨hp, rfl⟩ | ⟨hp, rfl⟩ | ⟨p, hp, hne, ⟨-, rfl⟩ | ⟨b, -, rfl⟩⟩ := nodeCat6_eq_next.mp h
    · simp [hp, traffic]
    · simp [hp, traffic]
    · simp [hp, hne, traffic]
    · simp [hp, hne, traffic]
  case sign =>
    obtain ⟨-, rfl⟩ | ⟨neg, -, -, -, h⟩ := nodeSign_eq_next.mp h
    · rfl
    · exact (traffic_advance h).trans (by simp [traffic])
  case wb =>
    obtain ⟨-, -, rfl⟩ := nodeWb_eq_next.mp h
    rfl
  case entry =>
    obtain ⟨-, -, rfl⟩ := nodeEntry_eq_next.mp h
    rfl

theorem traffic_visit {s t : State} (h : visit s = .next t) : traffic t = traffic (asked s) :=
  traffic_visitWith h

theorem visit_requests {s t : State} (h : visit s = .next t) :
    t.requests = s.requests ∨ ∃ r, visitRequest s = some r ∧ t.requests = r :: s.requests := by
  have ht := requests_of_traffic (traffic_visit h)
  cases hr : visitRequest s with
  | none => exact .inl (by rw [ht, asked_of_none hr])
  | some r => exact .inr ⟨r, rfl, by rw [ht, asked_of_some hr, sent_requests]⟩

theorem asked_tokenSteps (s : State) : (asked s).tokenSteps = s.tokenSteps := by
  cases hr : visitRequest s with
  | none => rw [asked_of_none hr]
  | some r => rw [asked_of_some hr, sent_tokenSteps]

theorem visit_tokenSteps {s t : State} (h : visit s = .next t) : t.tokenSteps = s.tokenSteps :=
  (tokenSteps_of_traffic (traffic_visit h)).trans (asked_tokenSteps s)

theorem runVisits_tokenSteps {k : Nat} {s t : State} (h : runVisits k s = .next t) : t.tokenSteps = s.tokenSteps := by
  induction k generalizing s with
  | zero => rw [next_inj.mp h]
  | succ k ih =>
    obtain ⟨u, hu, ht⟩ := thenDo_eq_next.mp h
    exact (ih ht).trans (visit_tokenSteps hu)

/-! ## An action of HOST makes no request -/

theorem accept_eq_next {s t : State} {k : State → Result} (h : accept s k = .next t) : t = s ∨ k s = .next t := by
  unfold accept at h
  split at h
  · exact .inl (next_inj.mp h)
  · split at h
    · exact .inl (next_inj.mp h)
    · exact .inr h

theorem whileIdle_eq_next {s t : State} {k : State → Result} (h : whileIdle s k = .next t) :
    s.busy = false ∧ k s = .next t := by
  unfold whileIdle at h
  split at h
  · cases h
  · next hb => exact ⟨Bool.eq_false_iff.mpr hb, h⟩

theorem withinSpace_eq_next {sp : HostSpace} {i : Nat} {s t : State} {k : State → Result}
    (h : withinSpace sp i s k = .next t) : i < spaceSize s sp ∧ k s = .next t := by
  unfold withinSpace at h
  split at h
  · next hi => exact ⟨hi, h⟩
  · cases h

/-- A CMD word decodes to one of the three commands (R110). -/
theorem decodeCmd_eq_some {w : Word} {i : Instr} (h : decodeCmd w = some i) :
    i = .decodeCoefs ∨ i = .decodeBlock ∨ i = .softReset := by
  unfold decodeCmd at h
  split at h <;> simp_all

theorem traffic_execDecodeCoefs {s t : State} (h : execDecodeCoefs s = .next t) : traffic t = traffic s := by
  obtain rfl | h := accept_eq_next h
  · rfl
  · split at h
    · rw [next_inj.mp h]; rfl
    · obtain ⟨-, -, -, rfl⟩ := launch_eq_next.mp h
      rfl

theorem traffic_execDecodeBlock {s t : State} (h : execDecodeBlock s = .next t) : traffic t = traffic s := by
  obtain rfl | h := accept_eq_next h
  · rfl
  · obtain ⟨-, -, -, rfl⟩ := launch_eq_next.mp h
    rfl

theorem traffic_execSoftReset {s t : State} (h : execSoftReset s = .next t) : traffic t = traffic s := by
  unfold execSoftReset at h
  split at h
  · rw [next_inj.mp h]
  · rw [next_inj.mp h]; rfl

theorem traffic_command {w : Word} {s t : State} (h : command w s = .next t) : traffic t = traffic s := by
  unfold command at h
  split at h
  · next i hi =>
    obtain rfl | rfl | rfl := decodeCmd_eq_some hi
    · exact traffic_execDecodeCoefs h
    · exact traffic_execDecodeBlock h
    · exact traffic_execSoftReset h
  · obtain rfl | h := accept_eq_next h
    · rfl
    · rw [next_inj.mp h]; rfl

theorem traffic_storeReg (n : Nat) (w : Word) (s : State) : traffic (storeReg n w s) = traffic s := by
  unfold storeReg; split <;> rfl

theorem traffic_writeReg {n : Nat} {w : Word} {s t : State} (h : writeReg n w s = .next t) : traffic t = traffic s := by
  unfold writeReg at h
  split at h
  · rw [next_inj.mp h]
  · split at h
    · exact traffic_command h
    · rw [next_inj.mp h, traffic_storeReg]

theorem traffic_storeSpace (sp : HostSpace) (i v : Nat) (s : State) : traffic (storeSpace sp i v s) = traffic s := by
  cases sp <;> rfl

/-- No action of HOST makes a request or writes the switch; only the binding of the source gives it other answers (R90). -/
theorem hostAct_requests_tokenSteps {a : HostAct} {s t : State} (h : hostAct a s = .next t) :
    t.requests = s.requests ∧ t.tokenSteps = s.tokenSteps := by
  cases a <;> simp only [hostAct] at h
  case writeReg n w =>
    have ht := traffic_writeReg h
    exact ⟨requests_of_traffic ht, tokenSteps_of_traffic ht⟩
  case readReg n => rw [next_inj.mp h]; exact ⟨rfl, rfl⟩
  case writeSpace sp i v =>
    obtain ⟨-, h⟩ := withinSpace_eq_next (whileIdle_eq_next h).2
    have ht := traffic_storeSpace sp i v s
    rw [next_inj.mp h]
    exact ⟨requests_of_traffic ht, tokenSteps_of_traffic ht⟩
  case readSpace sp i =>
    obtain ⟨-, h⟩ := withinSpace_eq_next (whileIdle_eq_next h).2
    rw [next_inj.mp h]; exact ⟨rfl, rfl⟩
  case bindSource as =>
    obtain ⟨-, h⟩ := whileIdle_eq_next h
    rw [next_inj.mp h]; exact ⟨rfl, rfl⟩
  case hardwareReset => rw [next_inj.mp h]; exact ⟨rfl, rfl⟩

end Sys2Proof.Machine
end

section
/-! PROOF. The string that a fetched token's script answers stands before the bit source (R113 to R115). -/

namespace Sys2Proof

/-- What is read as the extra bits and the sign of CATk is written so (R114, R115). -/
theorem catLeaf_eq_some {n : Nat} {mk : BitVec n → Bool → Leaf} {bs rest : List Bool} {l : Leaf}
    (h : catLeaf n mk bs = some (l, rest)) : ∃ a s, l = mk a s ∧ bs = msbFirst a ++ s :: rest := by
  obtain ⟨⟨a, s, r⟩, hx, he⟩ := Option.map_eq_some_iff.mp h
  obtain ⟨rfl, rfl⟩ := Prod.mk.inj he
  obtain ⟨rfl, rfl⟩ := extraThenSign_eq_some.mp hx
  exact ⟨_, s, rfl, by rw [msbFirst_ofNat_bitsValue]⟩

/-- Behind the selecting characters `pre` of CATk, what is decoded is the token's own Z-form string (R115). -/
theorem catLeaf_string {n : Nat} {mk : BitVec n → Bool → Leaf} {bs rest : List Bool} {l : Leaf} (pre : List Bool)
    (hmk : ∀ a s, encodeBits (mk a s).zForm = pre ++ msbFirst a ++ [s]) (h : catLeaf n mk bs = some (l, rest)) :
    pre ++ bs = encodeBits l.zForm ++ rest := by
  obtain ⟨a, s, rfl, rfl⟩ := catLeaf_eq_some h
  simp [hmk]

/-- The token that is decoded is the one whose Z-form string is taken from the front (R115). -/
theorem decodeLeaf_eq_some {m : Option Nat} {bs rest : List Bool} {l : Leaf} (h : decodeLeaf m bs = some (l, rest)) :
    bs = encodeBits l.zForm ++ rest := by
  unfold decodeLeaf at h
  split at h
  case h_6 => exact catLeaf_string [true, true, true, false, false] (fun _ _ => rfl) h
  case h_7 => exact catLeaf_string [true, true, true, false, true] (fun _ _ => rfl) h
  case h_8 => exact catLeaf_string [true, true, true, true, false, false] (fun _ _ => rfl) h
  case h_9 => exact catLeaf_string [true, true, true, true, false, true] (fun _ _ => rfl) h
  case h_10 => exact catLeaf_string [true, true, true, true, true, false] (fun _ _ => rfl) h
  case h_11 =>
    split at h
    · obtain ⟨⟨a, s, r⟩, hx, he⟩ := Option.map_eq_some_iff.mp h
      obtain ⟨rfl, rfl⟩ := Prod.mk.inj he
      rw [(extraThenSign_eq_some.mp hx).1]
      simp [Leaf.zForm, encodeBits]
    · cases h
  case h_12 => cases h
  all_goals
    obtain ⟨rfl, rfl⟩ := Prod.mk.inj (Option.some.inj h)
    rfl

end Sys2Proof

namespace Sys2Proof.Machine

@[simp] theorem extraScript_bits {n : Nat} (a : BitVec n) : (extraScript a).map Prod.snd = msbFirst a := by
  simp [extraScript, Function.comp_def]

@[simp] theorem cat6Script_bits (a : List Bool) : (cat6Script a).map Prod.snd = a := by
  simp [cat6Script, Function.comp_def]

/-- The answers a script names are the token's Z-form string (R114, R115). -/
theorem leafScript_bits (l : Leaf) : (leafScript l).map Prod.snd = encodeBits l.zForm := by
  cases l <;> simp [leafScript, encodeBits, Leaf.zForm]

theorem answeredBits_prefix (n : Nat) (as : List Answer) : (answeredBits n as).map .bit <+: as := by
  fun_induction answeredBits n as with
  | case1 n b as ih => simpa using ih
  | case2 => simp

theorem length_answeredBits_le (n : Nat) (as : List Answer) : (answeredBits n as).length ≤ n := by
  fun_induction answeredBits n as with
  | case1 n b as ih => simpa using ih
  | case2 => simp

/-! ## Scripts that a walk follows visit by visit -/

/-- The form of every script: its nodes are those that decode a token, and N_SIGN ends it (R114). -/
def TokenShaped : List (Node × Bool) → Prop
  | [] => True
  | (n, _) :: rest => walking n = true ∧ (n = .sign → rest = []) ∧ TokenShaped rest

/-- BITSRC's next answers are those the script names. -/
def Coming (script : List (Node × Bool)) (s : State) : Prop := (script.map Prod.snd).map .bit <+: s.answers

theorem tokenShaped_bits_sign {n : Node} (hw : walking n = true) (hn : n ≠ .sign) (bs : List Bool) (neg : Bool) :
    TokenShaped (bs.map (fun b => (n, b)) ++ [(.sign, neg)]) := by
  induction bs with
  | nil => exact ⟨rfl, fun _ => rfl, trivial⟩
  | cons b bs ih => exact ⟨hw, fun h => absurd h hn, ih⟩

theorem tokenShaped_leafScript (l : Leaf) : TokenShaped (leafScript l) := by
  have hx {n : Nat} (a : BitVec n) (neg : Bool) : TokenShaped (extraScript a ++ [(.sign, neg)]) :=
    tokenShaped_bits_sign rfl (by decide) _ neg
  have h6 (a : List Bool) (neg : Bool) : TokenShaped (cat6Script a ++ [(.sign, neg)]) :=
    tokenShaped_bits_sign rfl (by decide) _ neg
  cases l <;> simp [leafScript, TokenShaped, walking, hx, h6]

theorem Coming.nextAnswer {n : Node} {b : Bool} {rest : List (Node × Bool)} {s : State}
    (h : Coming ((n, b) :: rest) s) : nextAnswer s = .bit b := by
  obtain ⟨as, h⟩ := h
  simp [Machine.nextAnswer, ← h]

theorem Coming.tail {e : Node × Bool} {rest : List (Node × Bool)} {s t : State}
    (h : Coming (e :: rest) s) (ht : t.answers = s.answers.tail) : Coming rest t := by
  obtain ⟨as, h⟩ := h
  exact ⟨as, by rw [ht, ← h]; rfl⟩

theorem leafScript_head (l : Leaf) : ∃ b rest, leafScript l = (.zero, b) :: rest := by
  cases l <;> exact ⟨_, _, rfl⟩

/-- exec of the token that is fetched walks a script that begins at the node where CORE stands and whose answers come next. -/
theorem fetch_script {s : State} {i : Instr} (h : fetch s = some i) :
    ∃ b rest, exec i s = walk ((s.node, b) :: rest) s ∧ TokenShaped ((s.node, b) :: rest) ∧
      ((s.node, b) :: rest).map Prod.snd <+: answeredBits (longestToken s) s.answers := by
  unfold fetch at h
  split at h
  case h_1 hn =>
    obtain ⟨⟨j, r⟩, hd, rfl⟩ := Option.map_eq_some_iff.mp h
    rw [hn]
    generalize answeredBits (longestToken s) s.answers = bs at hd ⊢
    match bs with
    | [] => simp [decodeE] at hd
    | false :: bs =>
      obtain ⟨rfl, -⟩ := Prod.mk.inj (Option.some.inj hd)
      exact ⟨false, [], rfl, ⟨rfl, fun _ => rfl, trivial⟩, by simp⟩
    | true :: bs =>
      obtain ⟨⟨l, r'⟩, hl, he⟩ := Option.map_eq_some_iff.mp hd
      obtain ⟨rfl, -⟩ := Prod.mk.inj he
      refine ⟨true, leafScript l, exec_rowOf_true l s, ⟨rfl, nofun, tokenShaped_leafScript l⟩, ?_⟩
      rw [List.map_cons, leafScript_bits, decodeLeaf_eq_some hl]
      exact ⟨r', rfl⟩
  case h_2 hn =>
    obtain ⟨⟨j, r⟩, hd, rfl⟩ := Option.map_eq_some_iff.mp h
    obtain ⟨⟨l, r'⟩, hl, he⟩ := Option.map_eq_some_iff.mp hd
    obtain ⟨rfl, -⟩ := Prod.mk.inj he
    obtain ⟨b, rest, hs⟩ := leafScript_head l
    refine ⟨b, rest, ?_, ?_, ?_⟩
    · rw [hn, ← hs]; exact exec_rowOf_false l s
    · rw [hn, ← hs]; exact tokenShaped_leafScript l
    · rw [hn, ← hs, leafScript_bits, decodeLeaf_eq_some hl]; exact ⟨r', rfl⟩
  case h_3 => cases h

end Sys2Proof.Machine
end

section
/-! PROOF. The walk of a script is a run of node visits, and with it the step (R6, R263; log 1). -/

namespace Sys2Proof.Machine

/-- The visit of N_CAT6 that settles CAT6 is a visit: it uses no answer (R206). -/
theorem settle_eq_visit {s : State} (h : cat6AsksNothing s = true) : settle s = visit s := by
  obtain ⟨hn, hp⟩ : s.node = .cat6 ∧ _ := by simpa [cat6AsksNothing] using h
  rw [settle, if_pos h, visit, visitWith, hn]
  simp only [nodeCat6]
  split
  · rfl
  · next p hs =>
    rw [hs] at hp
    rw [if_pos (beq_iff_eq.mp hp), if_pos (beq_iff_eq.mp hp)]

/-- What the visit that settles CAT6 leaves: N_SIGN, or the abort, and every answer (R206, R285). -/
theorem node_and_answers_of_settle {s t : State} (h : cat6AsksNothing s = true) (ht : settle s = .next t) :
    (t.node = .sign ∨ t.node = .idle) ∧ t.answers = s.answers := by
  rw [settle, if_pos h] at ht
  obtain ⟨-, rfl⟩ | ⟨-, rfl⟩ | ⟨p, hp, hne, -⟩ := nodeCat6_eq_next.mp ht
  · exact ⟨.inr rfl, rfl⟩
  · exact ⟨.inl rfl, rfl⟩
  · simp [cat6AsksNothing, hp, hne] at h

/-- A visit of a node that decodes a token uses one answer, but for the one that settles CAT6 (R84, R206). -/
theorem visit_answers {s t : State} (hw : walking s.node = true) (h6 : cat6AsksNothing s = false)
    (h : visit s = .next t) : t.answers = s.answers.tail := by
  obtain ⟨r, hr⟩ : ∃ r, visitRequest s = some r := by
    cases hn : s.node <;> simp_all only [visitRequest, walking, Option.some.injEq, exists_eq', Bool.false_eq_true]
    case extra =>
      rw [visit, visitWith, hn] at h
      obtain ⟨p, hp, -⟩ := nodeExtra_eq_next.mp h
      simp [hp]
    case cat6 =>
      cases hp : s.par.cat6p[s.xi]? with
      | none => simp [cat6AsksNothing, hn, hp] at h6
      | some p => simpa [cat6AsksNothing, hn, hp] using h6
  rw [answers_of_traffic (traffic_visit h), asked_of_some hr, sent_answers]

@[simp] theorem runVisits_one (s : State) : runVisits 1 s = visit s := by
  simp only [runVisits]
  cases visit s <;> rfl

/-- One visit before a run of at most `n` visits is a run of at most `n + 1`, stops included. -/
theorem visit_thenDo_run {n : Nat} {s : State} {f : State → Result}
    (h : ∀ t, visit s = .next t → ∃ k ≤ n, f t = runVisits k t) :
    ∃ k ≤ n, thenDo (visit s) f = runVisits (k + 1) s := by
  simp only [runVisits]
  cases hv : visit s with
  | next t => exact h t hv
  | fault e => exact ⟨0, n.zero_le, rfl⟩
  | refused e => exact ⟨0, n.zero_le, rfl⟩

theorem visitWith_of_coming {n : Node} {b : Bool} {rest : List (Node × Bool)} {s : State}
    (hc : Coming ((n, b) :: rest) s) : visitWith (.bit b) s = visit s := by
  rw [visit, hc.nextAnswer]

theorem thenDo_walk_nil (r : Result) : thenDo r (walk []) = r := by
  cases r <;> rfl

/-- An item at the node where CORE stands is one visit before the rest of the script. -/
theorem walk_here_eq_runVisits {b : Bool} {rest : List (Node × Bool)} {s : State} (hw : walking s.node = true)
    (hc : Coming ((s.node, b) :: rest) s) (h6 : cat6AsksNothing s = false)
    (hrest : ∀ t, Coming rest t → ∃ k ≤ rest.length + 1, walk rest t = runVisits k t) :
    ∃ k ≤ rest.length + 1, walk ((s.node, b) :: rest) s = runVisits (k + 1) s := by
  rw [walk, settle_of_asks h6, thenDo_next, if_pos rfl, visitWith_of_coming hc]
  exact visit_thenDo_run fun t ht => hrest t (hc.tail (visit_answers hw h6 ht))

/-- At a visit that settles CAT6 a script makes that visit, and one more if it goes on with the sign, which ends it. -/
theorem walk_settled_eq_runVisits {n : Node} {b : Bool} {rest : List (Node × Bool)} {s : State}
    (hs : TokenShaped ((n, b) :: rest)) (hc : Coming ((n, b) :: rest) s) (h6 : cat6AsksNothing s = true) :
    ∃ k ≤ 1, walk ((n, b) :: rest) s = runVisits (k + 1) s := by
  obtain ⟨hw, hlast, -⟩ := hs
  rw [walk, settle_eq_visit h6]
  refine visit_thenDo_run fun t ht => ?_
  obtain ⟨hnode, hans⟩ := node_and_answers_of_settle h6 ((settle_eq_visit h6).trans ht)
  by_cases hn : t.node = n
  · have hsign : n = .sign := by
      obtain h | h := hnode
      · exact hn ▸ h
      · rw [← hn, h] at hw; cases hw
    obtain rfl := hlast hsign
    have hct : Coming [(n, b)] t := by rw [Coming, hans]; exact hc
    exact ⟨1, le_rfl, by rw [if_pos hn, thenDo_walk_nil, visitWith_of_coming hct, runVisits_one]⟩
  · exact ⟨0, Nat.zero_le 1, if_neg hn⟩

/-- A script whose answers come next is walked by node visits: one for each item, and at most one that settles CAT6. -/
theorem walk_eq_runVisits {script : List (Node × Bool)} {s : State} (hs : TokenShaped script) (hc : Coming script s) :
    ∃ k ≤ script.length + 1, walk script s = runVisits k s := by
  induction script generalizing s with
  | nil => exact ⟨0, Nat.zero_le _, rfl⟩
  | cons e rest ih =>
    obtain ⟨n, b⟩ := e
    have ⟨hw, _, hrest⟩ := hs
    by_cases h6 : cat6AsksNothing s = true
    · obtain ⟨k, hk, he⟩ := walk_settled_eq_runVisits hs hc h6
      exact ⟨k + 1, by rw [List.length_cons]; omega, he⟩
    · rw [Bool.not_eq_true] at h6
      by_cases hn : s.node = n
      · subst hn
        obtain ⟨k, hk, he⟩ := walk_here_eq_runVisits hw hc h6 fun t ht => ih hrest ht
        exact ⟨k + 1, by rw [List.length_cons]; omega, he⟩
      · exact ⟨0, Nat.zero_le _, by rw [walk, settle_of_asks h6, thenDo_next, if_neg hn]; rfl⟩

/-- The token that is fetched runs as at most one visit more than the longest token has answers (R121, R206). -/
theorem exec_of_fetch_eq_runVisits {s : State} {i : Instr} (h : fetch s = some i) :
    ∃ k, 1 ≤ k ∧ k ≤ longestToken s + 1 ∧ exec i s = runVisits k s := by
  obtain ⟨b, rest, hexec, ⟨hw, -, hrest⟩, hbits⟩ := fetch_script h
  have h6 : cat6AsksNothing s = false := by
    apply cat6AsksNothing_of_ne
    obtain ⟨hn, -⟩ | ⟨hn, -⟩ := fetch_eq_some h <;> rw [hn] <;> decide
  have hc : Coming ((s.node, b) :: rest) s := (hbits.map _).trans (answeredBits_prefix _ _)
  have hlen : rest.length + 1 ≤ longestToken s := by
    simpa using hbits.length_le.trans (length_answeredBits_le _ _)
  obtain ⟨k, hk, he⟩ := walk_here_eq_runVisits hw hc h6 fun t ht => walk_eq_runVisits hrest ht
  exact ⟨k + 1, by omega, by omega, hexec.trans he⟩

/-! ## The step -/

theorem step_silent_off {s : State} (hh : s.host = []) (ht : s.tokenSteps = false) : step s = visit s := by
  simp [step, hh, ht]

theorem step_host_moves {s : State} {e : HostEvent} {rest : List HostEvent} (hh : s.host = e :: rest)
    (hm : hostMoves s e = true) : step s = hostAct e.act { s with host := rest } := by
  simp [step, hh, hm]

theorem step_host_waits {s : State} {e : HostEvent} {rest : List HostEvent} (hh : s.host = e :: rest)
    (hm : hostMoves s e = false) : step s = visit { s with host := ⟨e.wait - 1, e.act⟩ :: rest } := by
  simp [step, hh, hm]

/-- With no action of HOST pending a step is a run of visits, a whole token's or one (R6; log 1). -/
theorem step_silent_eq_runVisits {s : State} (hh : s.host = []) :
    ∃ k, 1 ≤ k ∧ k ≤ longestToken s + 1 ∧ step s = runVisits k s := by
  by_cases ht : s.tokenSteps = true
  · cases hf : fetch s with
    | some i =>
      have hstep : step s = exec i s := by simp [step, hh, ht, hf]
      rw [hstep]
      exact exec_of_fetch_eq_runVisits hf
    | none =>
      have hstep : step s = visit s := by simp [step, hh, ht, hf]
      exact ⟨1, le_rfl, Nat.le_add_left _ _, by rw [hstep, runVisits_one]⟩
  · exact ⟨1, le_rfl, Nat.le_add_left _ _, by
      rw [step_silent_off hh (Bool.eq_false_iff.mpr ht), runVisits_one]⟩

/-- With the switch off a step makes no request or the one of its visit (R6). -/
theorem step_requests {s t : State} (hs : s.tokenSteps = false) (h : step s = .next t) :
    t.requests = s.requests ∨ ∃ r, visitRequest s = some r ∧ t.requests = r :: s.requests := by
  cases hh : s.host with
  | nil => exact visit_requests (step_silent_off hh hs ▸ h)
  | cons e rest =>
    cases hm : hostMoves s e with
    | true =>
      rw [step_host_moves hh hm] at h
      exact .inl (hostAct_requests_tokenSteps h).1
    | false =>
      rw [step_host_waits hh hm] at h
      exact (visit_requests h :)

/-- No step writes the switch (log 1). -/
theorem step_tokenSteps {s t : State} (h : step s = .next t) : t.tokenSteps = s.tokenSteps := by
  cases hh : s.host with
  | nil =>
    obtain ⟨k, -, -, hk⟩ := step_silent_eq_runVisits hh
    exact runVisits_tokenSteps (hk ▸ h)
  | cons e rest =>
    cases hm : hostMoves s e with
    | true =>
      rw [step_host_moves hh hm] at h
      exact (hostAct_requests_tokenSteps h).2
    | false =>
      rw [step_host_waits hh hm] at h
      exact (visit_tokenSteps h :)

/-! ## The obligations -/

/-- Settles O21: the step by its cases, HOST silent, waiting or acting. -/
theorem stepIsOneNodeVisit : Obligations.StepIsOneNodeVisit := by
  refine ⟨fun s => step_silent_off, fun s n a rest hh hn => ?_, fun s t => step_requests, fun s t => step_tokenSteps, rfl⟩
  have hm : hostMoves s ⟨n + 1, a⟩ = false := by simp [hostMoves, hn]
  exact step_host_waits hh hm

/-- Settles O23: the walk of the fetched token's script is a run of visits. -/
theorem tokenStepIsARunOfNodeVisits : Obligations.TokenStepIsARunOfNodeVisits :=
  fun _ => step_silent_eq_runVisits

end Sys2Proof.Machine
end

section
/-! PROOF. What one visit can do, said once: it rests, aborts, moves on within a token, ends the block, stores a coefficient
and advances C, enters the block or writes it back (R160). -/

namespace Sys2Proof.Machine

/-! ## Changes within a token -/

/-- `t` with the fields that a visit may write before it stores, aborts or ends the block put back to those of `s`. -/
def putBackWithin (s t : State) : State :=
  { t with
    node := s.node, prow := s.prow, tok := s.tok, val := s.val, acc := s.acc, xi := s.xi, cntc := s.cntc, cnte := s.cnte,
    answers := s.answers, requests := s.requests }

/-- `u` is `s` but for the registers of the coming token, the traffic with the bit source, and at most one count of each
kind, made at the current row (R160, R242, R243). -/
structure Within (s u : State) : Prop where
  frame : putBackWithin s u = s
  cntc : u.cntc = s.cntc ∨
    InRow s ∧ ∃ y n, u.cntc = Memory.insert s.cntc (classIndex y s) (n % 2 ^ s.par.cntW)
  cnte : u.cnte = s.cnte ∨ InRow s ∧ ∃ n, u.cnte = Memory.insert s.cnte (rowIndex s) (n % 2 ^ s.par.cntW)

theorem within_self (s : State) : Within s s := ⟨rfl, .inl rfl, .inl rfl⟩

theorem within_sent (r : Request) (s : State) : Within s (sent r s) := ⟨rfl, .inl rfl, .inl rfl⟩

/-- A change of the registers of the coming token alone. -/
theorem Within.update {s u v : State} (h : Within s u) (hf : putBackWithin s v = putBackWithin s u)
    (hc : v.cntc = u.cntc) (he : v.cnte = u.cnte) : Within s v :=
  ⟨hf.trans h.frame, hc ▸ h.cntc, he ▸ h.cnte⟩

theorem Within.count {s u : State} (h : Within s u) (hr : InRow s) (hu : u.cntc = s.cntc) (y : Sym) :
    Within s (count y u) where
  frame := by
    rw [← h.frame]
    unfold Machine.count
    split <;> rfl
  cntc := by
    have hi : classIndex y u = classIndex y s := (congrArg (classIndex y) h.frame :)
    have hp : u.par = s.par := (congrArg State.par h.frame :)
    rw [count_cntc]
    split
    · exact .inr ⟨hr, y, _, by rw [hu, hi, increment, hp]⟩
    · exact .inl hu
  cnte := by simpa using h.cnte

theorem Within.countE {s u : State} (h : Within s u) (hr : InRow s) (hu : u.cnte = s.cnte) : Within s (countE u) where
  frame := by
    rw [← h.frame]
    unfold Machine.countE
    split <;> rfl
  cntc := by simpa using h.cntc
  cnte := by
    have hi : rowIndex u = rowIndex s := (congrArg rowIndex h.frame :)
    have hp : u.par = s.par := (congrArg State.par h.frame :)
    rw [countE_cnte]
    split
    · exact .inr ⟨hr, _, by rw [hu, hi, increment, hp]⟩
    · exact .inl hu

/-! ## The registers of the coming token -/

/-- What the invariant says of PROW, TOK, VAL, ACC and XI inside a token (R21, R203, R206, R220). -/
structure TokenLawful (s : State) : Prop where
  row : usesRow s.node = true → s.prow < s.par.paretoRows
  extra : s.node = .extra → 1 ≤ category s ∧ category s ≤ 5 ∧ s.xi < category s ∧
    ∃ read < 2 ^ s.xi, s.val = catMin (category s) + read * 2 ^ (category s - s.xi)
  cat6 : s.node = .cat6 → s.tok = .cat6 ∧ s.xi ≤ s.par.cat6p.length ∧ s.acc < 2 ^ s.xi
  sign : s.node = .sign → MagnitudeOf s.par s.tok s.val

/-- Between tokens, and at the first nodes of one, the rules say nothing of these registers. -/
theorem tokenLawful_of_outside {s : State}
    (h : s.node = .idle ∨ s.node = .eob ∨ s.node = .zero ∨ s.node = .one ∨ s.node = .wb ∨ s.node = .entry) :
    TokenLawful s := by
  obtain h | h | h | h | h | h := h <;> constructor <;> simp [h, usesRow]

theorem tokenLawful_of_row {s : State} (hn : usesRow s.node = true) (hp : s.prow < s.par.paretoRows) : TokenLawful s := by
  refine ⟨fun _ => hp, ?_, ?_, ?_⟩ <;> intro h <;> simp [h, usesRow] at hn

theorem tokenLawful_of_sign {s : State} (hn : s.node = .sign) (hm : MagnitudeOf s.par s.tok s.val) : TokenLawful s := by
  refine ⟨?_, ?_, ?_, fun _ => hm⟩ <;> simp [hn, usesRow]

theorem tokenLawful_of_extra {s : State} (hn : s.node = .extra)
    (he : 1 ≤ category s ∧ category s ≤ 5 ∧ s.xi < category s ∧
      ∃ read < 2 ^ s.xi, s.val = catMin (category s) + read * 2 ^ (category s - s.xi)) : TokenLawful s := by
  refine ⟨?_, fun _ => he, ?_, ?_⟩ <;> simp [hn, usesRow]

theorem tokenLawful_of_cat6 {s : State} (hn : s.node = .cat6)
    (hc : s.tok = .cat6 ∧ s.xi ≤ s.par.cat6p.length ∧ s.acc < 2 ^ s.xi) : TokenLawful s := by
  refine ⟨?_, ?_, fun _ => hc, ?_⟩ <;> simp [hn, usesRow]

/-- The selector of CATk leaves VAL at CATMIN[k] and no extra bit read (R193, R197, R199). -/
theorem tokenLawful_startExtra {k : Token} {n : Nat} (hk : k.num.val - 4 = n) (h1 : 1 ≤ n) (h5 : n ≤ 5) (s : State) :
    TokenLawful (startExtra k n s) := by
  have hc : category (startExtra k n s) = n := hk
  refine tokenLawful_of_extra rfl ?_
  rw [hc]
  exact ⟨h1, h5, h1, 0, Nat.one_pos, by simp⟩

/-- The magnitudes of a category are CATMIN[k] plus a number of CATBITS[k] bits (R190). -/
theorem magnitudeOf_category {par : Params} {k : Token} {m : Nat} (h1 : 1 ≤ k.num.val - 4) (h5 : k.num.val - 4 ≤ 5)
    (hm : m < 2 ^ (k.num.val - 4)) : MagnitudeOf par k (catMin (k.num.val - 4) + m) := by
  cases k <;> simp [Token.num, MagnitudeOf, catMin] at h1 h5 hm ⊢ <;> omega

/-- One extra bit more: the bits read so far and this one (R203). -/
theorem tokenLawful_takeExtra {s : State} (h : TokenLawful s) (hn : s.node = .extra) (b : Bool) :
    TokenLawful (takeExtra (catBits (category s)) b s) := by
  obtain ⟨h1, h5, hx, read, hr, hv⟩ := h.extra hn
  have hpow : 2 ^ (category s - s.xi) = 2 * 2 ^ (category s - 1 - s.xi) := by
    rw [← pow_succ']; congr 1; omega
  have hval : s.val + b.toNat <<< (category s - 1 - s.xi) =
      catMin (category s) + (2 * read + b.toNat) * 2 ^ (category s - 1 - s.xi) := by
    rw [hv, hpow, Nat.shiftLeft_eq]; ring
  have hread : 2 * read + b.toNat < 2 ^ (s.xi + 1) := by
    have := b.toNat_le
    rw [pow_succ]; omega
  by_cases hlast : s.xi + 1 = category s
  · refine tokenLawful_of_sign (if_pos hlast) ?_
    have hzero : category s - 1 - s.xi = 0 := by omega
    rw [hzero, pow_zero, mul_one] at hval
    have hs : (takeExtra (catBits (category s)) b s).val = catMin (category s) + (2 * read + b.toNat) := by
      rw [← hval]; simp [takeExtra, catBits, hzero]
    rw [hs]
    rw [hlast] at hread
    exact magnitudeOf_category h1 h5 hread
  · refine tokenLawful_of_extra (if_neg hlast) ⟨h1, h5, by change s.xi + 1 < category s; omega, _, hread, hval.trans ?_⟩
    change _ = catMin (category s) + _ * 2 ^ (category s - (s.xi + 1))
    rw [Nat.sub_sub, Nat.add_comm 1]

theorem tokenLawful_takeCat6 {s : State} (h : TokenLawful s) (hn : s.node = .cat6) {p : Prob}
    (hp : s.par.cat6p[s.xi]? = some p) (b : Bool) : TokenLawful (takeCat6 b s) := by
  obtain ⟨ht, -, ha⟩ := h.cat6 hn
  obtain ⟨hlt, -⟩ := List.getElem?_eq_some_iff.mp hp
  refine tokenLawful_of_cat6 rfl ⟨ht, hlt, ?_⟩
  have := b.toNat_le
  change 2 * s.acc + b.toNat < 2 ^ (s.xi + 1)
  rw [pow_succ]; omega

/-- The terminator leaves 67 plus fewer than CAT6_LEN bits in VAL (R206). -/
theorem tokenLawful_endCat6 {s : State} (h : TokenLawful s) (hn : s.node = .cat6) {p : Prob}
    (hp : s.par.cat6p[s.xi]? = some p) : TokenLawful (endCat6 s) := by
  obtain ⟨ht, -, ha⟩ := h.cat6 hn
  obtain ⟨hlt, -⟩ := List.getElem?_eq_some_iff.mp hp
  refine tokenLawful_of_sign rfl ?_
  have hle : 2 ^ s.xi ≤ 2 ^ (s.par.cat6p.length - 1) := Nat.pow_le_pow_right (by decide) (by omega)
  change MagnitudeOf s.par s.tok (67 + s.acc)
  rw [ht]
  exact ⟨Nat.le_add_right _ _, by omega⟩

/-! ## The store of a coefficient -/

/-- `v` is what a visit that stores leaves before it advances C: N_ZERO answered 0 and N_SIGN answered a bit write one
element of COEF and one of TOKC, at scan[c] (R163, R221, R224). -/
structure Placed (ans : Answer) (s v : State) : Prop where
  node : s.node = .zero ∧ ans = .bit false ∨ s.node = .sign ∧ ∃ b, ans = .bit b
  c_lt : s.c.toNat < me s
  position_lt : position s < me s
  stored : ∃ u k z o, Within s u ∧
    v = storeToken (position s) k (noteOverflow o (storeCoef (position s) (wrap s.par.coefW z) u))

/-- `t` with the fields that a visit may write before it advances C put back to those of `s`. -/
def putBackPlaced (s t : State) : State :=
  { putBackWithin s t with coef := s.coef, tokc := s.tokc, ovf := s.ovf }

theorem Placed.frame {ans : Answer} {s v : State} (h : Placed ans s v) : putBackPlaced s v = s := by
  obtain ⟨u, k, z, o, hu, rfl⟩ := h.stored
  have hp : putBackPlaced s (storeToken (position s) k (noteOverflow o (storeCoef (position s) (wrap s.par.coefW z) u))) =
      { putBackWithin s u with coef := s.coef, tokc := s.tokc, ovf := s.ovf } := rfl
  rw [hp, hu.frame]

theorem Placed.c_eq {ans : Answer} {s v : State} (h : Placed ans s v) : v.c = s.c := (congrArg State.c h.frame :)

theorem Placed.me_eq {ans : Answer} {s v : State} (h : Placed ans s v) : me v = me s := (congrArg me h.frame :)

/-- The next scan index, without wrap-around. -/
theorem Placed.nextIndex_toNat {ans : Answer} {s v : State} (h : Placed ans s v) :
    (nextIndex v).c.toNat = s.c.toNat + 1 := by
  rw [nextIndex_c, h.c_eq]
  exact c_succ (h.c_lt.trans_le (me_le s))

/-- The ZERO token stores 0 (R163). -/
theorem placed_zeroStored {s : State} (r : Request) (hn : s.node = .zero) (hr : InRow s) (hc : s.c.toNat < me s)
    (hp : position s < me s) : Placed (.bit false) s (zeroStored (sent r s)) := by
  refine ⟨.inl ⟨hn, rfl⟩, hc, hp, setTok .zero (count .zero (sent r s)), .zero, 0, false, ?_, ?_⟩
  · exact ((within_sent r s).count hr rfl .zero).update rfl rfl rfl
  · have h0 : wrap s.par.coefW 0 = 0 := by simp [wrap, sext]
    simp [zeroStored, storeToken, noteOverflow, storeCoef, setTok, h0, energyOf]

/-- N_SIGN stores the dequantised coefficient (R221). -/
theorem placed_storeSigned {s : State} (r : Request) (neg : Bool) (hn : s.node = .sign) (hc : s.c.toNat < me s)
    (hp : position s < me s) : Placed (.bit neg) s (storeSigned (position s) neg (sent r s)) :=
  ⟨.inr ⟨hn, neg, rfl⟩, hc, hp, sent r s, s.tok, _, _, within_sent r s, rfl⟩

/-! ## The visit -/

/-- From node to node of a token (R160): the registers of the coming token change, as the rules say. -/
structure Moves (s t : State) : Prop where
  within : Within s t
  walking : walking t.node = true
  token : TokenLawful s → TokenLawful t

/-- What a visit of `s` answered `ans` can be, `t` being the next state. -/
inductive VisitCase (ans : Answer) (s t : State) : Prop
  /-- N_IDLE (R255) -/
  | rest (hn : s.node = .idle) (ht : t = s)
  /-- an abort (R282 to R286) -/
  | abort (u : State) (e : Err) (hn : walking s.node = true) (hu : Within s u) (he : e ≠ .none)
      (ht : t = raise e u)
  /-- from node to node of a token (R160) -/
  | move (hn : walking s.node = true) (ht : Moves s t)
  /-- the EOB token (R162) -/
  | ends (u : State) (hn : s.node = .eob) (hu : Within s u) (ht : t = finish s.c u)
  /-- a store, and the next scan index (R224) -/
  | goesOn (v : State) (n : Node) (hv : Placed ans s v) (hn : n = .eob ∨ n = .zero) (hc : s.c.toNat + 1 < me s)
      (ht : t = goto n (reselected (nextIndex v)))
  /-- a store at the last scan index (R224) -/
  | fills (v : State) (hv : Placed ans s v) (hc : s.c.toNat + 1 = me s)
      (ht : t = finish (BitVec.ofNat 11 (me s)) (nextIndex v))
  /-- N_ENTRY (R261) -/
  | enters (hn : s.node = .entry) (ht : t = entered s)
  /-- N_WB (R264) -/
  | writesBack (hn : s.node = .wb) (ha : s.aoff.toNat + footprint s.txsize ≤ s.par.ctxaLen)
      (hl : s.loff.toNat + footprint s.txsize ≤ s.par.ctxlLen) (ht : t = writeBack s)

/-- An exhausted source aborts the visit that asked it (R282). -/
theorem VisitCase.of_exhausted {ans : Answer} {s t : State} {r : Request} (hn : walking s.node = true)
    (ht : t = raise .bitstreamExhausted (sent r s)) : VisitCase ans s t :=
  .abort (sent r s) .bitstreamExhausted hn (within_sent r s) (by decide) ht

/-- A node that picks its next state by the answer to its request, `f b` being the state for the bit `b` (R169 to R199). -/
theorem VisitCase.of_picked {ans : Answer} {r : Request} {s t : State} {f : Bool → State}
    (h : (ans = .exhausted ∧ t = raise .bitstreamExhausted (sent r s)) ∨ ∃ b, ans = .bit b ∧ t = f b)
    (hn : walking s.node = true) (hf : ∀ b, Moves s (f b)) : VisitCase ans s t := by
  obtain ⟨-, ht⟩ | ⟨b, -, rfl⟩ := h
  · exact .of_exhausted hn ht
  · exact .move hn (hf b)

/-- The advance of C after a store (R224). -/
theorem VisitCase.of_advance {ans : Answer} {n : Node} {s v t : State} (hv : Placed ans s v) (hn : n = .eob ∨ n = .zero)
    (h : advance n v = .next t) : VisitCase ans s t := by
  rw [advance_eq_next, hv.nextIndex_toNat, hv.me_eq] at h
  obtain ⟨hc, -, -, ht⟩ | ⟨hc, ht⟩ := h
  · exact .goesOn v n hv hn hc ht
  · exact .fills v hv (by have := hv.c_lt; omega) ht

/-! ### The moves -/

/-- To another node that uses PROW (R169 to R199). -/
theorem moves_goto_row {s : State} (r : Request) {n : Node} (hn : usesRow s.node = true) (hu : usesRow n = true) :
    Moves s (goto n (sent r s)) where
  within := ⟨rfl, .inl rfl, .inl rfl⟩
  walking := by cases n <;> simp_all [usesRow, walking]
  token := fun h => tokenLawful_of_row hu (h.row hn)

/-- A token of one magnitude is resolved (R171, R173). -/
theorem moves_resolve (r : Request) {k : Token} {m : Nat} {s : State} (hm : MagnitudeOf s.par k m) :
    Moves s (resolve k m (sent r s)) :=
  ⟨⟨rfl, .inl rfl, .inl rfl⟩, rfl, fun _ => tokenLawful_of_sign rfl hm⟩

/-- A category is resolved (R193, R197, R199). -/
theorem moves_startExtra (r : Request) {k : Token} {n : Nat} (s : State) (hk : k.num.val - 4 = n) (h1 : 1 ≤ n)
    (h5 : n ≤ 5) : Moves s (startExtra k n (sent r s)) :=
  ⟨⟨rfl, .inl rfl, .inl rfl⟩, rfl, fun _ => tokenLawful_startExtra hk h1 h5 _⟩

theorem moves_startCat6 (r : Request) (s : State) : Moves s (startCat6 (sent r s)) :=
  ⟨⟨rfl, .inl rfl, .inl rfl⟩, rfl, fun _ => tokenLawful_of_cat6 rfl ⟨rfl, Nat.zero_le _, Nat.one_pos⟩⟩

theorem TokenLawful.sent {s : State} (h : TokenLawful s) (r : Request) : TokenLawful (sent r s) :=
  ⟨h.row, h.extra, h.cat6, h.sign⟩

theorem moves_takeExtra (r : Request) {s : State} (hn : s.node = .extra) (b : Bool) :
    Moves s (takeExtra (catBits (category s)) b (sent r s)) where
  within := ⟨rfl, .inl rfl, .inl rfl⟩
  walking := by
    change walking (if _ then _ else _) = true
    split <;> rfl
  token := fun h => tokenLawful_takeExtra (h.sent r) hn b

/-! ### The nodes -/

theorem nodeEob_cases {ans : Answer} {s t : State} (hn : s.node = .eob) (h : nodeEob ans s = .next t) :
    VisitCase ans s t := by
  have hw : walking s.node = true := hn ▸ rfl
  obtain ⟨hr, h⟩ := nodeEob_eq_next.mp h
  have hu := (within_sent (.p (probOf s 0)) s).countE hr rfl
  obtain ⟨-, ht⟩ | ⟨-, rfl⟩ | ⟨-, ht⟩ := h
  · exact .of_exhausted hw ht
  · exact .move hw ⟨hu.update rfl rfl rfl, rfl, fun _ => tokenLawful_of_outside (by simp)⟩
  · exact .ends _ hn ((hu.count hr (by simp) .eobModel).update (v := setTok .eob _) rfl rfl rfl) ht

theorem nodeZero_cases {ans : Answer} {s t : State} (hn : s.node = .zero) (h : nodeZero ans s = .next t) :
    VisitCase ans s t := by
  have hw : walking s.node = true := hn ▸ rfl
  obtain ⟨hr, ⟨-, ht⟩ | ⟨-, rfl⟩ | ⟨rfl, hz⟩⟩ := nodeZero_eq_next.mp h
  · exact .of_exhausted hw ht
  · exact .move hw ⟨⟨rfl, .inl rfl, .inl rfl⟩, rfl, fun _ => tokenLawful_of_outside (by simp)⟩
  · obtain ⟨hc, hp, ha⟩ := zeroToken_eq_next.mp hz
    exact .of_advance (placed_zeroStored _ hn hr hc hp) (.inr rfl) ha

theorem nodeOne_cases {ans : Answer} {s t : State} (hn : s.node = .one) (h : nodeOne ans s = .next t) :
    VisitCase ans s t := by
  have hw : walking s.node = true := hn ▸ rfl
  obtain ⟨hr, h⟩ := nodeOne_eq_next.mp h
  have hu := (within_sent (.p (probOf s 2)) s).count hr rfl
  obtain ⟨-, ht⟩ | ⟨-, hq, rfl⟩ | ⟨-, -, ht⟩ | ⟨-, rfl⟩ := h
  · exact .of_exhausted hw ht
  · exact .move hw ⟨(hu .twoPlus).update rfl rfl rfl, rfl, fun _ => tokenLawful_of_row rfl (by simpa using hq.2)⟩
  · exact .abort _ _ hw (hu .twoPlus) (by decide) ht
  · exact .move hw ⟨(hu .one).update rfl rfl rfl, rfl, fun _ => tokenLawful_of_sign rfl rfl⟩

theorem nodeCat6_cases {ans : Answer} {s t : State} (hn : s.node = .cat6) (h : nodeCat6 ans s = .next t) :
    VisitCase ans s t := by
  have hw : walking s.node = true := hn ▸ rfl
  obtain ⟨-, ht⟩ | ⟨hp, rfl⟩ | ⟨p, hp, -, h⟩ := nodeCat6_eq_next.mp h
  · exact .abort s _ hw (within_self s) (by decide) ht
  · exact .move hw ⟨⟨rfl, .inl rfl, .inl rfl⟩, rfl, fun h => tokenLawful_endCat6 h hn hp⟩
  · exact .of_picked h hw fun b => ⟨⟨rfl, .inl rfl, .inl rfl⟩, rfl, fun h => tokenLawful_takeCat6 (h.sent _) hn hp b⟩

theorem nodeSign_cases {ans : Answer} {s t : State} (hn : s.node = .sign) (h : nodeSign ans s = .next t) :
    VisitCase ans s t := by
  obtain ⟨-, ht⟩ | ⟨neg, rfl, hc, hp, h⟩ := nodeSign_eq_next.mp h
  · exact .of_exhausted (hn ▸ rfl) ht
  · exact .of_advance (placed_storeSigned _ neg hn hc hp) (.inl rfl) h

theorem visitWith_cases {ans : Answer} {s t : State} (h : visitWith ans s = .next t) : VisitCase ans s t := by
  cases hn : s.node <;> simp only [visitWith, hn] at h
  case idle => exact .rest hn (next_inj.mp h)
  case eob => exact nodeEob_cases hn h
  case zero => exact nodeZero_cases hn h
  case one => exact nodeOne_cases hn h
  case lowval =>
    exact .of_picked (nodeLowval_eq_next.mp h) (hn ▸ rfl) (Bool.forall_bool.mpr
      ⟨moves_goto_row _ (hn ▸ rfl) rfl, moves_goto_row _ (hn ▸ rfl) rfl⟩)
  case two =>
    exact .of_picked (nodeTwo_eq_next.mp h) (hn ▸ rfl) (Bool.forall_bool.mpr
      ⟨moves_resolve _ rfl, moves_goto_row _ (hn ▸ rfl) rfl⟩)
  case three =>
    exact .of_picked (nodeThree_eq_next.mp h) (hn ▸ rfl) (Bool.forall_bool.mpr
      ⟨moves_resolve _ rfl, moves_resolve _ rfl⟩)
  case highlow =>
    exact .of_picked (nodeHighlow_eq_next.mp h) (hn ▸ rfl) (Bool.forall_bool.mpr
      ⟨moves_goto_row _ (hn ▸ rfl) rfl, moves_goto_row _ (hn ▸ rfl) rfl⟩)
  case catone =>
    exact .of_picked (nodeCatone_eq_next.mp h) (hn ▸ rfl) (Bool.forall_bool.mpr
      ⟨moves_startExtra _ s rfl (by decide) (by decide), moves_startExtra _ s rfl (by decide) (by decide)⟩)
  case cat34 =>
    exact .of_picked (nodeCat34_eq_next.mp h) (hn ▸ rfl) (Bool.forall_bool.mpr
      ⟨moves_goto_row _ (hn ▸ rfl) rfl, moves_goto_row _ (hn ▸ rfl) rfl⟩)
  case catthree =>
    exact .of_picked (nodeCatthree_eq_next.mp h) (hn ▸ rfl) (Bool.forall_bool.mpr
      ⟨moves_startExtra _ s rfl (by decide) (by decide), moves_startExtra _ s rfl (by decide) (by decide)⟩)
  case catfive =>
    exact .of_picked (nodeCatfive_eq_next.mp h) (hn ▸ rfl) (Bool.forall_bool.mpr
      ⟨moves_startExtra _ s rfl (by decide) (by decide), moves_startCat6 _ s⟩)
  case extra =>
    obtain ⟨p, -, h⟩ := nodeExtra_eq_next.mp h
    exact .of_picked h (hn ▸ rfl) (moves_takeExtra _ hn)
  case cat6 => exact nodeCat6_cases hn h
  case sign => exact nodeSign_cases hn h
  case wb =>
    obtain ⟨ha, hl, ht⟩ := nodeWb_eq_next.mp h
    exact .writesBack hn ha hl ht
  case entry =>
    obtain ⟨-, -, ht⟩ := nodeEntry_eq_next.mp h
    exact .enters hn ht

theorem visit_cases {s t : State} (h : visit s = .next t) : VisitCase (nextAnswer s) s t := visitWith_cases h

end Sys2Proof.Machine
end

section
/-! PROOF. The registers as HOST reads and writes them (R30, R31), after a reset and at any time. -/

namespace Sys2Proof.Machine

/-! ## The register words -/

theorem regWord_reset (n : Nat) : regWord State.reset n = 0#32 := by
  unfold regWord
  split <;> rfl

/-- CMD and the numbers from 0x0E on are no registers that read as a field (R30). -/
theorem regWord_above {n : Nat} (h : 14 ≤ n) (s : State) : regWord s n = 0#32 := by
  obtain ⟨k, rfl⟩ := Nat.exists_eq_add_of_le' h
  rfl

theorem statusWord_toNat (s : State) :
    (statusWord s).toNat = s.busy.toNat + 2 * s.done.toNat + 4 * s.ovf.toNat + 16 * s.err.code.toNat := by
  unfold statusWord
  cases s.err <;> cases s.ovf <;> cases s.done <;> cases s.busy <;> rfl

/-- The fields of ERRINFO do not overlap (R30). -/
theorem errinfoWord_toNat (s : State) : (errinfoWord s).toNat = s.enode.num.toNat + 65536 * s.ec.toNat := by
  have hn : s.enode.num.toNat < 2 ^ 16 := s.enode.num.isLt.trans (by decide)
  have hec := s.ec.isLt
  have hor := Nat.shiftLeft_add_eq_or_of_lt hn s.ec.toNat
  simp only [errinfoWord, BitVec.toNat_or, BitVec.toNat_shiftLeft, BitVec.toNat_setWidth]
  rw [Nat.mod_eq_of_lt (a := s.ec.toNat) (by omega), Nat.mod_eq_of_lt (a := s.enode.num.toNat) (by omega),
    Nat.mod_eq_of_lt (by rw [Nat.shiftLeft_eq]; omega), ← hor, Nat.shiftLeft_eq]
  omega

theorem toNat_setWidth_word {n : Nat} (hn : n ≤ 32) (v : BitVec n) : (v.setWidth 32).toNat = v.toNat := by
  rw [BitVec.toNat_setWidth, Nat.mod_eq_of_lt (v.isLt.trans_le (Nat.pow_le_pow_right (by decide) hn))]

/-- A field of at most 32 bits that took the low bits of a word reads back as them. -/
theorem toNat_setWidth_setWidth {n : Nat} (hn : n ≤ 32) (w : Word) :
    ((w.setWidth n).setWidth 32).toNat = w.toNat % 2 ^ n := by
  rw [toNat_setWidth_word hn, BitVec.toNat_setWidth]

/-- A register whose width is a parameter reads back the low bits of the word written. -/
theorem toNat_ofNat_mod (w : Word) (n : Nat) : (BitVec.ofNat 32 (w.toNat % 2 ^ n)).toNat = w.toNat % 2 ^ n := by
  rw [BitVec.toNat_ofNat, Nat.mod_eq_of_lt ((Nat.mod_le _ _).trans_lt w.isLt)]

/-! ## Writes -/

theorem hostAct_writeReg_busy {s : State} (hb : s.busy = true) (n : Nat) (w : Word) :
    hostAct (.writeReg n w) s = .next s := by simp [hostAct, writeReg, hb]

theorem hostAct_writeReg_idle {s : State} (hb : s.busy = false) {n : Nat} (hn : n ≠ 0) (w : Word) :
    hostAct (.writeReg n w) s = .next (storeReg n w s) := by simp [hostAct, writeReg, hb, hn]

theorem storeReg_readOnly {n : Nat} (hn : n ≤ 3 ∨ 14 ≤ n) (w : Word) (s : State) : storeReg n w s = s := by
  obtain h | h := hn
  · interval_cases n <;> rfl
  · obtain ⟨k, rfl⟩ := Nat.exists_eq_add_of_le' h
    rfl

theorem regWord_storeReg_same {n : Nat} (h4 : 4 ≤ n) (h13 : n ≤ 13) (w : Word) (s : State) :
    (regWord (storeReg n w s) n).toNat = w.toNat % 2 ^ regWidth s.par n := by
  by_cases hp : n = 8 ∨ n = 9 ∨ n = 13
  · obtain rfl | rfl | rfl := hp <;> exact toNat_ofNat_mod w _
  · have hf : n = 4 ∨ n = 5 ∨ n = 6 ∨ n = 7 ∨ n = 10 ∨ n = 11 ∨ n = 12 := by omega
    obtain rfl | rfl | rfl | rfl | rfl | rfl | rfl := hf <;> exact toNat_setWidth_setWidth (by decide) w

theorem regWord_storeReg_other {n m : Nat} (hm : m ≠ n) (w : Word) (s : State) :
    regWord (storeReg n w s) m = regWord s m := by
  unfold storeReg
  split <;> unfold regWord <;> split
  any_goals exact absurd rfl hm
  all_goals rfl

theorem putBackControl_storeReg (n : Nat) (w : Word) (s : State) : putBackControl s (storeReg n w s) = s := by
  unfold storeReg
  split <;> rfl

/-! ## The obligations -/

/-- Settles O1: the reset state holds zero in every field that a register shows. -/
theorem resetLeavesRegistersZeroAndIdle : Obligations.ResetLeavesRegistersZeroAndIdle :=
  ⟨rfl, rfl, rfl, rfl, rfl, rfl, rfl, rfl, rfl, rfl, regWord_reset⟩

/-- Settles O4: the write is `storeReg`, which writes one register or none. -/
theorem registerWritesStoreLowBits : Obligations.RegisterWritesStoreLowBits := by
  refine fun s w hb => ⟨fun n h4 h13 => ?_, fun n h1 hn => ?_⟩
  · exact ⟨storeReg n w s, hostAct_writeReg_idle hb (by omega) w, regWord_storeReg_same h4 h13 w s,
      fun m hm => regWord_storeReg_other hm w s, putBackControl_storeReg n w s⟩
  · rw [hostAct_writeReg_idle hb (by omega), storeReg_readOnly hn]

/-- Settles O5: the check of BUSY comes first. -/
theorem busyIgnoresRegisterWrites : Obligations.BusyIgnoresRegisterWrites :=
  fun _ n w hb => hostAct_writeReg_busy hb n w

/-- Settles O6: the word of each register, field by field; the invariant bounds the registers of a parameter's width. -/
theorem registerReadsReturnTheFields : Obligations.RegisterReadsReturnTheFields := by
  intro s
  refine ⟨fun _ => rfl, rfl, statusWord_toNat s, toNat_setWidth_word (by decide) s.eob, errinfoWord_toNat s,
    toNat_setWidth_word (by decide) s.fpar, toNat_setWidth_word (by decide) s.txsize,
    toNat_setWidth_word (by decide) s.ptype, toNat_setWidth_word (by decide) s.ref, BitVec.toNat_ofNat _ _,
    BitVec.toNat_ofNat _ _, toNat_setWidth_word (by decide) s.ectx, toNat_setWidth_word (by decide) s.aoff,
    toNat_setWidth_word (by decide) s.loff, BitVec.toNat_ofNat _ _, fun n hn => regWord_above hn s, fun h => ?_⟩
  obtain ⟨hdc, hac, hpm⟩ := h.registers
  have hle : ∀ {k}, k ≤ 32 → 2 ^ k ≤ 2 ^ 32 := Nat.pow_le_pow_right (by decide)
  exact ⟨hdc.trans_le (hle h.par.dqW), hac.trans_le (hle h.par.dqW), hpm.trans_le (hle h.par.pmodeW)⟩

end Sys2Proof.Machine
end

section
/-! PROOF. What a visit writes, and when: the control registers, C, EOB, CTX and BAND (R20, R24, R25, R35). -/

namespace Sys2Proof.Machine

/-! ## What no visit writes -/

/-- `t` with the fields that some visit may write put back to those of `s` (R20, R21, R80). -/
def putBackVisit (s t : State) : State :=
  { t with
    node := s.node, c := s.c, ctx := s.ctx, band := s.band, prow := s.prow, tok := s.tok, val := s.val, acc := s.acc,
    xi := s.xi, busy := s.busy, done := s.done, ovf := s.ovf, err := s.err, eob := s.eob, enode := s.enode,
    ec := s.ec, ectx := s.ectx, tokc := s.tokc, coef := s.coef, ctxa := s.ctxa, ctxl := s.ctxl, cntc := s.cntc,
    cnte := s.cnte, answers := s.answers, requests := s.requests }

theorem putBackVisit_finish (e : BitVec 11) (s u : State) : putBackVisit s (finish e u) = putBackVisit s u := by
  unfold finish
  split <;> rfl

theorem Within.frameVisit {s u : State} (h : Within s u) : putBackVisit s u = s := by
  have hp : putBackVisit s u = putBackVisit s (putBackWithin s u) := rfl
  rw [hp, h.frame]
  rfl

theorem Placed.frameVisit {ans : Answer} {s v : State} (h : Placed ans s v) : putBackVisit s v = s := by
  have hp : putBackVisit s v = putBackVisit s (putBackPlaced s v) := rfl
  rw [hp, h.frame]
  rfl

theorem VisitCase.frame {ans : Answer} {s t : State} (h : VisitCase ans s t) : putBackVisit s t = s := by
  cases h with
  | rest _ ht => rw [ht]; rfl
  | abort u e _ hu _ ht => rw [ht]; exact hu.frameVisit
  | move _ ht => exact ht.within.frameVisit
  | ends u _ hu ht => rw [ht, putBackVisit_finish]; exact hu.frameVisit
  | goesOn v n hv _ _ ht => rw [ht]; exact hv.frameVisit
  | fills v hv _ ht => rw [ht, putBackVisit_finish]; exact hv.frameVisit
  | enters _ ht => rw [ht]; rfl
  | writesBack _ _ _ ht => rw [ht]; rfl

/-- ECTX is written by N_ENTRY alone (R37, R261). -/
theorem VisitCase.ectx_eq {ans : Answer} {s t : State} (h : VisitCase ans s t) (hn : s.node ≠ .entry) :
    t.ectx = s.ectx := by
  cases h with
  | rest _ ht => rw [ht]
  | abort u e _ hu _ ht => rw [ht]; exact (congrArg State.ectx hu.frame :)
  | move _ ht => exact (congrArg State.ectx ht.within.frame :)
  | ends u _ hu ht => rw [ht, finish_ectx]; exact (congrArg State.ectx hu.frame :)
  | goesOn v n hv _ _ ht => rw [ht]; exact (congrArg State.ectx hv.frame :)
  | fills v hv _ ht => rw [ht, finish_ectx]; exact (congrArg State.ectx hv.frame :)
  | enters he _ => exact absurd he hn
  | writesBack _ _ _ ht => rw [ht]; rfl

/-! ## C -/

/-- A visit leaves C, or it stores and adds 1 (R24). -/
theorem VisitCase.c_eq {ans : Answer} {s t : State} (h : VisitCase ans s t) :
    t.c = s.c ∨ ∃ v, Placed ans s v ∧ t.c = (nextIndex v).c := by
  cases h with
  | rest _ ht => exact .inl (by rw [ht])
  | abort u e _ hu _ ht => exact .inl (by rw [ht]; exact (congrArg State.c hu.frame :))
  | move _ ht => exact .inl (congrArg State.c ht.within.frame :)
  | ends u _ hu ht => exact .inl (by rw [ht, finish_c]; exact (congrArg State.c hu.frame :))
  | goesOn v n hv _ _ ht => exact .inr ⟨v, hv, by rw [ht]; rfl⟩
  | fills v hv _ ht => exact .inr ⟨v, hv, by rw [ht, finish_c]⟩
  | enters _ ht => exact .inl (by rw [ht]; rfl)
  | writesBack _ _ _ ht => exact .inl (by rw [ht]; rfl)

/-! ## EOB -/

/-- A visit leaves EOB, or it finishes the block with the C it leaves (R35, R258). -/
theorem VisitCase.eob_eq {ans : Answer} {s t : State} (h : VisitCase ans s t)
    (hc : walking s.node = true → s.c.toNat < me s) :
    t.eob = s.eob ∨ ∃ u, (s.node = .eob ∨ s.node = .zero ∨ s.node = .sign) ∧ t = finish u.c u ∧ u.err = s.err ∧
      u.c.toNat ≤ me s := by
  cases h with
  | rest _ ht => exact .inl (by rw [ht])
  | abort u e _ hu _ ht => exact .inl (by rw [ht]; exact (congrArg State.eob hu.frame :))
  | move _ ht => exact .inl (congrArg State.eob ht.within.frame :)
  | ends u hn hu ht =>
    have hu' : u.c = s.c := (congrArg State.c hu.frame :)
    refine .inr ⟨u, .inl hn, by rw [ht, hu'], (congrArg State.err hu.frame :), ?_⟩
    rw [hu']
    exact (hc (hn ▸ rfl)).le
  | goesOn v n hv _ _ ht => exact .inl (by rw [ht]; exact (congrArg State.eob hv.frame :))
  | fills v hv hm ht =>
    have hi := hv.nextIndex_toNat.trans hm
    have hme : BitVec.ofNat 11 (me s) = (nextIndex v).c := BitVec.eq_of_toNat_eq ((ofNat_me s).trans hi.symm)
    exact .inr ⟨nextIndex v, .inr (hv.node.imp And.left And.left), by rw [ht, hme],
      (congrArg State.err hv.frame :), hi.le⟩
  | enters _ ht => exact .inl (by rw [ht]; rfl)
  | writesBack _ _ _ ht => exact .inl (by rw [ht]; rfl)

/-- A command start leaves EOB (R35, R256). -/
theorem launch_eob {s t u : State} (h : launch u = .next t) (hu : u.eob = s.eob) : t.eob = s.eob := by
  obtain ⟨-, -, -, rfl⟩ := launch_eq_next.mp h
  exact hu

theorem execDecodeCoefs_eob {s t : State} (h : execDecodeCoefs s = .next t) : t.eob = s.eob := by
  obtain rfl | h := accept_eq_next h
  · rfl
  · split at h
    · rw [next_inj.mp h]; rfl
    · exact launch_eob h rfl

theorem execDecodeBlock_eob {s t : State} (h : execDecodeBlock s = .next t) : t.eob = s.eob := by
  obtain rfl | h := accept_eq_next h
  · rfl
  · exact launch_eob h rfl

/-! ## CTX and BAND -/

/-- A visit but N_ENTRY leaves CTX and BAND, or it stores and RESELECTs at the next scan index (R25, R148). -/
theorem VisitCase.reselects {ans : Answer} {s t : State} (h : VisitCase ans s t) (hn : s.node ≠ .entry) :
    (t.ctx = s.ctx ∧ t.band = s.band ∧ (t.c = s.c ∨ t.c.toNat = me s)) ∨
    ∃ v n, Placed ans s v ∧ t = goto n (reselected (nextIndex v)) ∧ t.c.toNat < me s ∧ t.c ≠ s.c := by
  cases h with
  | rest _ ht => exact .inl ⟨by rw [ht], by rw [ht], .inl (by rw [ht])⟩
  | abort u e _ hu _ ht =>
    rw [ht]
    exact .inl ⟨(congrArg State.ctx hu.frame :), (congrArg State.band hu.frame :), .inl (congrArg State.c hu.frame :)⟩
  | move _ ht =>
    have hf := ht.within.frame
    exact .inl ⟨(congrArg State.ctx hf :), (congrArg State.band hf :), .inl (congrArg State.c hf :)⟩
  | ends u _ hu ht =>
    rw [ht, finish_ctx, finish_band, finish_c]
    exact .inl ⟨(congrArg State.ctx hu.frame :), (congrArg State.band hu.frame :), .inl (congrArg State.c hu.frame :)⟩
  | goesOn v n hv _ hm ht =>
    have hc : t.c.toNat = s.c.toNat + 1 := by rw [ht]; exact hv.nextIndex_toNat
    exact .inr ⟨v, n, hv, ht, by omega, fun he => by rw [he] at hc; omega⟩
  | fills v hv hm ht =>
    rw [ht, finish_ctx, finish_band, finish_c]
    exact .inl ⟨(congrArg State.ctx hv.frame :), (congrArg State.band hv.frame :), .inr (hv.nextIndex_toNat.trans hm)⟩
  | enters he _ => exact absurd he hn
  | writesBack _ _ _ ht => rw [ht]; exact .inl ⟨rfl, rfl, .inl rfl⟩

/-- CTX after RESELECT is the rounded average of the classes of the two neighbours (R144). -/
theorem ctx_of_reselected {ans : Answer} {n : Node} {s t v : State} (hv : Placed ans s v)
    (ht : t = goto n (reselected (nextIndex v))) :
    t.ctx.toNat = ((tokClass t (nbAt s (2 * t.c.toNat)).toNat).toNat
      + (tokClass t (nbAt s (2 * t.c.toNat + 1)).toNat).toNat + 1) / 2 := by
  have hnb : nbAt s = nbAt t := by
    rw [ht]
    exact (congrArg nbAt hv.frame :).symm
  rw [hnb, ht]
  exact average_toNat _ _

theorem band_of_reselected {ans : Answer} {n : Node} {s t v : State} (hv : Placed ans s v)
    (ht : t = goto n (reselected (nextIndex v))) : t.band = bandAt s t.c.toNat := by
  have hb : bandAt v = bandAt s := (congrArg bandAt hv.frame :)
  rw [ht, ← hb]
  rfl

/-- DECODE_COEFS, where it is accepted and launched, leaves C = 0, CTX = ECTX and BANDT[t][0] (R149). -/
theorem execDecodeCoefs_eq_next {s t : State} (hb : s.busy = false) (he : s.err = .none) (hx : s.ectx.toNat ≤ 5)
    (h : execDecodeCoefs s = .next t) : t = startCoefs s := by
  rw [execDecodeCoefs, accept_eq hb he, if_neg (by omega)] at h
  obtain ⟨-, -, -, rfl⟩ := launch_eq_next.mp h
  rfl

/-! ## The obligations -/

/-- Settles O54: by the cases of a visit. -/
theorem visitsWriteNoControlRegister : Obligations.VisitsWriteNoControlRegister :=
  fun _ _ h => ⟨(visit_cases h).frame, (visit_cases h).ectx_eq⟩

/-- Settles O56: C is advanced only after a store, from below ME. -/
theorem indexOnlyCountsUp : Obligations.IndexOnlyCountsUp := by
  intro s t _ h
  obtain hc | ⟨v, hv, hc⟩ := (visit_cases h).c_eq
  · exact .inl hc
  · refine .inr ⟨by rw [hc, hv.nextIndex_toNat], ?_⟩
    obtain ⟨hn, ha⟩ | ⟨hn, b, ha⟩ := hv.node
    · exact ⟨.inr hn, by rw [ha]; exact nofun, fun _ => ha⟩
    · exact ⟨.inl hn, by rw [ha]; exact nofun, fun hz => by rw [hz] at hn; cases hn⟩

/-- Settles O57: a visit that changes EOB finishes the block. -/
theorem eobRegisterIsWrittenOnlyByFinish : Obligations.EobRegisterIsWrittenOnlyByFinish := by
  refine ⟨fun s t hs h hne => ?_, fun _ _ => rfl, fun s t h => ?_⟩
  · obtain he | ⟨u, hn, rfl, herr, hc⟩ := (visit_cases h).eob_eq hs.c_lt
    · exact absurd he hne
    · have hbusy : s.busy = true := by
        rw [← Bool.not_eq_false, ← hs.idle_iff]
        obtain h | h | h := hn <;> rw [h] <;> decide
      refine ⟨hn, by simp, by simpa using hc, by rw [finish_err, herr]; exact (hs.status.1 hbusy).2, ?_⟩
      by_cases hk : u.cmdk = 1#1 <;> simp [hk]
  · exact h.elim execDecodeCoefs_eob execDecodeBlock_eob

/-- Settles O58: a visit RESELECTs or leaves CTX and BAND. -/
theorem contextAndBandFollowTheIndex : Obligations.ContextAndBandFollowTheIndex := by
  refine ⟨fun s t hb he hx h => ?_, fun s t hn h => ?_, fun s t hn h => ?_⟩
  · rw [execDecodeCoefs_eq_next hb he hx h]
    exact ⟨rfl, rfl, rfl⟩
  · rw [visit, visitWith, hn] at h
    obtain ⟨-, -, rfl⟩ := nodeEntry_eq_next.mp h
    exact ⟨rfl, rfl⟩
  · obtain ⟨hx, hb, hc⟩ | ⟨v, n, hv, ht, hlt, hne⟩ := (visit_cases h).reselects hn
    · exact ⟨fun hne hlt => absurd hlt (by have := hc.resolve_left hne; omega), fun _ => ⟨hx, hb⟩⟩
    · exact ⟨fun _ _ => ⟨band_of_reselected hv ht, ctx_of_reselected hv ht⟩,
        fun hc => absurd hlt (Nat.not_lt.mpr (hc.resolve_left hne))⟩

end Sys2Proof.Machine
end

section
/-! PROOF. The invariant in three parts: the data, which every state keeps; a command that has been launched; and CORE at
rest or running. Every visit and every action of HOST keeps them (R8, R24, R32, R35, R70, R203, R255). -/

namespace Sys2Proof.Machine

/-! ## The parts of the invariant -/

/-- What the invariant says of the parameters, of C, EOB and the control registers, and of the spaces, at any node. -/
structure DataLawful (s : State) : Prop where
  par : ParamsLegal s.par
  c_le : s.c.toNat ≤ 1024
  eob_le : s.eob.toNat ≤ 1024
  registers : s.dqDc < 2 ^ s.par.dqW ∧ s.dqAc < 2 ^ s.par.dqW ∧ s.pmode < 2 ^ s.par.pmodeW
  coef_wf : Memory.wf s.coef ∧ Below 1024 s.coef ∧
    ∀ e ∈ s.coef, -((2 ^ (s.par.coefW - 1) : Nat) : Int) ≤ e.2 ∧ e.2 < ((2 ^ (s.par.coefW - 1) : Nat) : Int)
  tokc_wf : Memory.wf s.tokc ∧ Below 1024 s.tokc
  ctxa_wf : Memory.wf s.ctxa ∧ Below s.par.ctxaLen s.ctxa
  ctxl_wf : Memory.wf s.ctxl ∧ Below s.par.ctxlLen s.ctxl
  prob_wf : Memory.wf s.prob ∧ Below 1728 s.prob ∧ Fits (2 ^ s.par.probW) s.prob
  cntc_wf : Memory.wf s.cntc ∧ Below (576 * s.par.nsym) s.cntc ∧ Fits (2 ^ s.par.cntW) s.cntc
  cnte_wf : Memory.wf s.cnte ∧ Below 576 s.cnte ∧ Fits (2 ^ s.par.cntW) s.cnte

/-- CORE between commands (R32, R255). -/
structure AtRest (s : State) : Prop where
  node : s.node = .idle
  busy : s.busy = false
  done : s.done = true → s.err = .none

/-- A command has been launched and has not ended, whatever the node (R24, R32, R326, R327, R329). -/
structure Launched (s : State) : Prop where
  busy : s.busy = true
  done : s.done = false
  err : s.err = .none
  c_le : s.c.toNat ≤ me s
  scan : ScanLegal s
  nb : NbLegal s
  footprint : s.cmdk = 1#1 → FootprintLegal s

/-- A launched command at its node (R24, R258, R261). -/
structure Running (s : State) : Prop where
  launched : Launched s
  node : s.node ≠ .idle
  c_lt : walking s.node = true → s.c.toNat < me s
  entry : s.node = .entry → s.c = 0#11 ∧ s.cmdk = 1#1
  wb : s.node = .wb → s.cmdk = 1#1
  token : TokenLawful s

theorem DataLawful.lawful_of_atRest {s : State} (h : DataLawful s) (hr : AtRest s) : Lawful s := by
  obtain ⟨hn, hb, hd⟩ := hr
  have ht : TokenLawful s := tokenLawful_of_outside (.inl hn)
  exact { h, ht with
    idle_iff := by simp [hn, hb]
    status := ⟨by simp [hb], hd⟩
    c_le := ⟨h.c_le, by simp [hb]⟩
    c_lt := by simp [hn, walking]
    entry := by simp [hn]
    wb := by simp [hn]
    launched := by simp [hb] }

theorem DataLawful.lawful_of_running {s : State} (h : DataLawful s) (hr : Running s) : Lawful s := by
  obtain ⟨hl, hn, hlt, he, hw, ht⟩ := hr
  exact { h, ht with
    idle_iff := by simp [hn, hl.busy]
    status := ⟨fun _ => ⟨hl.done, hl.err⟩, fun _ => hl.err⟩
    c_le := ⟨h.c_le, fun _ => hl.c_le⟩
    c_lt := hlt
    entry := he
    wb := hw
    launched := fun _ => ⟨hl.scan, hl.nb, hl.footprint⟩ }

theorem Lawful.data {s : State} (h : Lawful s) : DataLawful s := { h with c_le := h.c_le.1 }

theorem Lawful.atRest {s : State} (h : Lawful s) (hb : s.busy = false) : AtRest s :=
  ⟨h.idle_iff.mpr hb, hb, h.status.2⟩

theorem Lawful.running {s : State} (h : Lawful s) (hn : s.node ≠ .idle) : Running s := by
  have hb : s.busy = true := by rw [← Bool.not_eq_false, ← h.idle_iff]; exact hn
  obtain ⟨hd, he⟩ := h.status.1 hb
  obtain ⟨hs, hnb, hf⟩ := h.launched hb
  exact ⟨⟨hb, hd, he, h.c_le.2 hb, hs, hnb, hf⟩, hn, h.c_lt, h.entry, h.wb, ⟨h.row, h.extra, h.cat6, h.sign⟩⟩

/-! ## The data after each operation -/

theorem rowIndex_lt {s : State} (h : InRow s) : rowIndex s < 576 := by
  obtain ⟨hb, hc⟩ := h
  have ht := s.txsize.isLt
  have hp := s.ptype.isLt
  have hr := s.ref.isLt
  unfold rowIndex
  omega

/-- The classes of R244 have elements of their own in CNTC. -/
theorem classIndex_lt {s : State} (h : InRow s) (hp : 4 ≤ s.par.nsym) (y : Sym) :
    classIndex y s < 576 * s.par.nsym := by
  have hy : y.num < s.par.nsym := by cases y <;> simp [Sym.num] <;> omega
  calc classIndex y s < (rowIndex s + 1) * s.par.nsym := by rw [classIndex, Nat.succ_mul]; omega
    _ ≤ 576 * s.par.nsym := Nat.mul_le_mul_right _ (rowIndex_lt h)

theorem DataLawful.within {s u : State} (h : DataLawful s) (hu : Within s u) : DataLawful u := by
  have hd : DataLawful (putBackWithin s u) := hu.frame.symm ▸ h
  have hp : u.par = s.par := (congrArg State.par hu.frame :)
  refine { hd with cntc_wf := ?_, cnte_wf := ?_ }
  · rw [hp]
    obtain hc | ⟨hr, y, n, hc⟩ := hu.cntc
    · rw [hc]; exact h.cntc_wf
    · obtain ⟨hwf, hb, hf⟩ := h.cntc_wf
      rw [hc]
      exact ⟨Memory.wf_insert _ _ _ hwf, Memory.forall_mem_insert hb (classIndex_lt hr h.par.nsym y),
        Memory.forall_mem_insert hf (Nat.mod_lt _ (Nat.two_pow_pos _))⟩
  · rw [hp]
    obtain hc | ⟨hr, n, hc⟩ := hu.cnte
    · rw [hc]; exact h.cnte_wf
    · obtain ⟨hwf, hb, hf⟩ := h.cnte_wf
      rw [hc]
      exact ⟨Memory.wf_insert _ _ _ hwf, Memory.forall_mem_insert hb (rowIndex_lt hr),
        Memory.forall_mem_insert hf (Nat.mod_lt _ (Nat.two_pow_pos _))⟩

theorem DataLawful.raise {s : State} (h : DataLawful s) (e : Err) : DataLawful (raise e s) := { h with }

theorem DataLawful.finish {s : State} (h : DataLawful s) {e : BitVec 11} (he : e.toNat ≤ 1024) :
    DataLawful (finish e s) := by
  unfold Machine.finish
  split
  · exact { h with eob_le := he }
  · exact { h with eob_le := he }

theorem DataLawful.storeCoef {s : State} (h : DataLawful s) {p : Nat} (hp : p < 1024) (z : Int) :
    DataLawful (storeCoef p (wrap s.par.coefW z) s) := by
  obtain ⟨hwf, hb, hr⟩ := h.coef_wf
  exact { h with coef_wf := ⟨Memory.wf_insert _ _ _ hwf, Memory.forall_mem_insert hb hp,
    Memory.forall_mem_insert hr (wrap_range h.par.coefW z)⟩ }

theorem DataLawful.storeToken {s : State} (h : DataLawful s) {p : Nat} (hp : p < 1024) (k : Token) :
    DataLawful (storeToken p k s) := by
  obtain ⟨hwf, hb⟩ := h.tokc_wf
  exact { h with tokc_wf := ⟨Memory.wf_insert _ _ _ hwf, Memory.forall_mem_insert hb hp⟩ }

theorem DataLawful.placed {ans : Answer} {s v : State} (h : DataLawful s) (hv : Placed ans s v) : DataLawful v := by
  have hp := hv.position_lt.trans_le (me_le s)
  obtain ⟨u, k, z, o, hu, rfl⟩ := hv.stored
  have hpar : s.par = u.par := (congrArg State.par hu.frame :).symm
  have hc := (h.within hu).storeCoef hp z
  have ho : DataLawful (noteOverflow o (Machine.storeCoef (position s) (wrap u.par.coefW z) u)) := { hc with }
  rw [hpar]
  exact ho.storeToken hp k

theorem DataLawful.nextIndex_placed {ans : Answer} {s v : State} (h : DataLawful s) (hv : Placed ans s v) :
    DataLawful (nextIndex v) := by
  have hc : (nextIndex v).c.toNat ≤ 1024 := by
    have := hv.nextIndex_toNat
    have := hv.c_lt.trans_le (me_le s)
    omega
  exact { h.placed hv with c_le := hc }

theorem DataLawful.writeBack {s : State} (h : DataLawful s)
    (ha : s.aoff.toNat + Machine.footprint s.txsize ≤ s.par.ctxaLen)
    (hl : s.loff.toNat + Machine.footprint s.txsize ≤ s.par.ctxlLen) : DataLawful (writeBack s) :=
  { h with
    ctxa_wf := ⟨wf_fill _ _ _ _ h.ctxa_wf.1, below_fill _ _ _ _ h.ctxa_wf.2 ha⟩
    ctxl_wf := ⟨wf_fill _ _ _ _ h.ctxl_wf.1, below_fill _ _ _ _ h.ctxl_wf.2 hl⟩ }

theorem VisitCase.data {ans : Answer} {s t : State} (hc : VisitCase ans s t) (h : DataLawful s) : DataLawful t := by
  cases hc with
  | rest _ ht => exact ht ▸ h
  | abort u e _ hu _ ht => exact ht ▸ (h.within hu).raise e
  | move _ ht => exact h.within ht.within
  | ends u _ hu ht => exact ht ▸ (h.within hu).finish h.c_le
  | goesOn v n hv _ _ ht => exact ht ▸ { h.nextIndex_placed hv with }
  | fills v hv _ ht => exact ht ▸ (h.nextIndex_placed hv).finish (by rw [ofNat_me]; exact me_le s)
  | enters _ ht => exact ht ▸ { h with }
  | writesBack _ ha hl ht => exact ht ▸ h.writeBack ha hl

/-! ## The running command after a visit -/

theorem Launched.within {s u : State} (h : Launched s) (hu : Within s u) : Launched u :=
  have hl : Launched (putBackWithin s u) := hu.frame.symm ▸ h
  { hl with }

theorem Launched.placed {ans : Answer} {s v : State} (h : Launched s) (hv : Placed ans s v) : Launched v :=
  have hl : Launched (putBackPlaced s v) := hv.frame.symm ▸ h
  { hl with }

theorem Launched.nextIndex_placed {ans : Answer} {s v : State} (h : Launched s) (hv : Placed ans s v) :
    Launched (nextIndex v) := by
  have hc : (nextIndex v).c.toNat ≤ me v := by
    have := hv.nextIndex_toNat
    have := hv.c_lt
    rw [hv.me_eq]
    omega
  exact { h.placed hv with c_le := hc }

/-- The end of a block: N_WB of a DECODE_BLOCK, or CORE at rest (R258). -/
theorem Launched.finish {s : State} (h : Launched s) (e : BitVec 11) : AtRest (finish e s) ∨ Running (finish e s) := by
  unfold Machine.finish
  split
  · next hk =>
    exact .inr ⟨{ h with }, nofun, nofun, nofun, fun _ => hk, tokenLawful_of_outside (by simp)⟩
  · exact .inl ⟨rfl, rfl, fun _ => h.err⟩

theorem node_ne_of_walking {n m : Node} (hn : walking n = true) (hm : walking m = false) : n ≠ m :=
  fun h => by simp [h, hm] at hn

theorem Running.move {s t : State} (h : Running s) (ht : Moves s t) (hn : walking s.node = true) : Running t where
  launched := h.launched.within ht.within
  node := node_ne_of_walking ht.walking rfl
  c_lt := fun _ => by
    have hc : t.c = s.c := (congrArg State.c ht.within.frame :)
    have hm : me t = me s := (congrArg me ht.within.frame :)
    rw [hc, hm]
    exact h.c_lt hn
  entry := fun he => absurd he (node_ne_of_walking ht.walking rfl)
  wb := fun he => absurd he (node_ne_of_walking ht.walking rfl)
  token := ht.token h.token

/-- The next scan index begins (R148, R224). -/
theorem Launched.goto_reselected {n : Node} {s : State} (h : Launched s) (hn : n = .eob ∨ n = .zero)
    (hc : s.c.toNat < me s) : Running (goto n (reselected s)) where
  launched := { h with }
  node := by obtain rfl | rfl := hn <;> exact nofun
  c_lt := fun _ => hc
  entry := by obtain rfl | rfl := hn <;> exact nofun
  wb := by obtain rfl | rfl := hn <;> exact nofun
  token := tokenLawful_of_outside (by obtain rfl | rfl := hn <;> simp)

theorem Running.enter {s : State} (h : Running s) (hn : s.node = .entry) : Running (entered s) where
  launched := { h.launched with }
  node := nofun
  c_lt := fun _ => by
    change s.c.toNat < me s
    rw [(h.entry hn).1]
    exact Nat.lt_of_lt_of_le (by decide) (me_pos s)
  entry := nofun
  wb := nofun
  token := tokenLawful_of_outside (.inr (.inl rfl))

theorem VisitCase.rest_or_running {ans : Answer} {s t : State} (hc : VisitCase ans s t) (h : Running s) :
    AtRest t ∨ Running t := by
  cases hc with
  | rest hn _ => exact absurd hn h.node
  | abort u e _ _ _ ht => exact .inl (ht ▸ ⟨rfl, rfl, nofun⟩)
  | move hn ht => exact .inr (h.move ht hn)
  | ends u _ hu ht => exact ht ▸ (h.launched.within hu).finish s.c
  | goesOn v n hv hn hlt ht =>
    refine .inr (ht ▸ (h.launched.nextIndex_placed hv).goto_reselected hn ?_)
    rw [hv.nextIndex_toNat, me_nextIndex, hv.me_eq]
    exact hlt
  | fills v hv _ ht => exact ht ▸ (h.launched.nextIndex_placed hv).finish _
  | enters hn ht => exact .inr (ht ▸ h.enter hn)
  | writesBack _ _ _ ht => exact .inl (ht ▸ ⟨rfl, rfl, fun _ => h.launched.err⟩)

/-- A visit keeps the invariant. -/
theorem Lawful.visit {s t : State} (h : Lawful s) (hv : visit s = .next t) : Lawful t := by
  have hc := visit_cases hv
  by_cases hn : s.node = .idle
  · rw [Machine.visit, visitWith, hn] at hv
    exact next_inj.mp hv ▸ h
  · exact (hc.rest_or_running (h.running hn)).elim (hc.data h.data).lawful_of_atRest (hc.data h.data).lawful_of_running

theorem Lawful.runVisits {k : Nat} {s t : State} (h : Lawful s) (hv : runVisits k s = .next t) : Lawful t := by
  induction k generalizing s with
  | zero => exact next_inj.mp hv ▸ h
  | succ k ih =>
    obtain ⟨u, hu, ht⟩ := thenDo_eq_next.mp hv
    exact ih (h.visit hu) ht

/-! ## The actions of HOST -/

/-- No rule speaks of HOST's pending actions. -/
theorem Lawful.withHost {s : State} (h : Lawful s) (es : List HostEvent) : Lawful { s with host := es } := { h with }

theorem Lawful.clearCore {s : State} (h : Lawful s) : Lawful (clearCore s) :=
  DataLawful.lawful_of_atRest { h.data with c_le := Nat.zero_le _, eob_le := Nat.zero_le _ } ⟨rfl, rfl, nofun⟩

theorem Lawful.raise {s : State} (h : Lawful s) (e : Err) : Lawful (raise e s) :=
  (h.data.raise e).lawful_of_atRest ⟨rfl, rfl, nofun⟩

/-- A command that goes on from the launch check runs, at N_EOB or N_ENTRY with C = 0 (R256). -/
theorem DataLawful.launch {s t : State} (h : DataLawful s) (hb : s.busy = true) (hd : s.done = false) (he : s.err = .none)
    (hc : s.c = 0#11) (hn : s.node = .eob ∨ s.node = .entry ∧ s.cmdk = 1#1) (hl : launch s = .next t) : Lawful t := by
  obtain ⟨hscan, hnb, hf, rfl⟩ := launch_eq_next.mp hl
  have hlt : t.c.toNat < me t := by
    rw [hc]
    exact Nat.lt_of_lt_of_le (by decide) (me_pos t)
  refine h.lawful_of_running ⟨⟨hb, hd, he, hlt.le, hscan, hnb, hf⟩, ?_, fun _ => hlt, ?_, ?_, tokenLawful_of_outside ?_⟩
  · obtain hn | ⟨hn, -⟩ := hn <;> simp [hn]
  · obtain hn | ⟨hn, hk⟩ := hn
    · simp [hn]
    · exact fun _ => ⟨hc, hk⟩
  · obtain hn | ⟨hn, -⟩ := hn <;> simp [hn]
  · obtain hn | ⟨hn, -⟩ := hn <;> simp [hn]

/-- A command is ignored, or accepted by a CORE at rest with no error (R256). -/
theorem accept_cases {s t : State} {k : State → Result} (h : accept s k = .next t) :
    t = s ∨ s.err = .none ∧ k s = .next t := by
  by_cases he : s.err = .none
  · exact (accept_eq_next h).imp_right fun h => ⟨he, h⟩
  · rw [accept_err he] at h
    exact .inl (next_inj.mp h)

theorem Lawful.execDecodeCoefs {s t : State} (h : Lawful s) (hx : execDecodeCoefs s = .next t) : Lawful t := by
  obtain rfl | ⟨he, hk⟩ := accept_cases hx
  · exact h
  · split at hk
    · exact next_inj.mp hk ▸ h.raise _
    · exact DataLawful.launch (s := startCoefs s) { h.data with c_le := Nat.zero_le _ } rfl rfl he rfl (.inl rfl) hk

theorem Lawful.execDecodeBlock {s t : State} (h : Lawful s) (hx : execDecodeBlock s = .next t) : Lawful t := by
  obtain rfl | ⟨he, hk⟩ := accept_cases hx
  · exact h
  · exact DataLawful.launch (s := startBlock s) { h.data with c_le := Nat.zero_le _ } rfl rfl he rfl (.inr ⟨rfl, rfl⟩) hk

theorem Lawful.execSoftReset {s t : State} (h : Lawful s) (hx : execSoftReset s = .next t) : Lawful t := by
  unfold Machine.execSoftReset at hx
  split at hx
  · exact next_inj.mp hx ▸ h
  · exact next_inj.mp hx ▸ h.clearCore

theorem Lawful.command {w : Word} {s t : State} (h : Lawful s) (hx : command w s = .next t) : Lawful t := by
  unfold Machine.command at hx
  split at hx
  · next i hi =>
    obtain rfl | rfl | rfl := decodeCmd_eq_some hi
    · exact h.execDecodeCoefs hx
    · exact h.execDecodeBlock hx
    · exact h.execSoftReset hx
  · obtain rfl | ⟨-, hk⟩ := accept_cases hx
    · exact h
    · exact next_inj.mp hk ▸ h.raise _

theorem DataLawful.storeReg {s : State} (h : DataLawful s) (n : Nat) (w : Word) : DataLawful (storeReg n w s) := by
  obtain ⟨hdc, hac, hpm⟩ := h.registers
  have hlt : ∀ k, w.toNat % 2 ^ k < 2 ^ k := fun k => Nat.mod_lt _ (Nat.two_pow_pos k)
  unfold Machine.storeReg
  split
  case h_5 => exact { h with registers := ⟨hlt _, hac, hpm⟩ }
  case h_6 => exact { h with registers := ⟨hdc, hlt _, hpm⟩ }
  case h_10 => exact { h with registers := ⟨hdc, hac, hlt _⟩ }
  all_goals exact { h with }

theorem AtRest.storeReg {s : State} (h : AtRest s) (n : Nat) (w : Word) : AtRest (storeReg n w s) := by
  unfold Machine.storeReg
  split <;> exact { h with }

theorem Lawful.writeReg {n : Nat} {w : Word} {s t : State} (h : Lawful s) (hx : writeReg n w s = .next t) : Lawful t := by
  unfold Machine.writeReg at hx
  split at hx
  · exact next_inj.mp hx ▸ h
  · next hb =>
    split at hx
    · exact h.command hx
    · exact next_inj.mp hx ▸
        (h.data.storeReg n w).lawful_of_atRest ((h.atRest (Bool.eq_false_iff.mpr hb)).storeReg n w)

theorem DataLawful.storeSpace {s : State} (h : DataLawful s) {sp : HostSpace} {i : Nat} (hi : i < spaceSize s sp)
    (v : Nat) : DataLawful (storeSpace sp i v s) := by
  have hlt : ∀ k, v % 2 ^ k < 2 ^ k := fun k => Nat.mod_lt _ (Nat.two_pow_pos k)
  cases sp with
  | coef => exact h.storeCoef hi v
  | ctxa =>
    obtain ⟨hwf, hb⟩ := h.ctxa_wf
    exact { h with ctxa_wf := ⟨Memory.wf_insert _ _ _ hwf, Memory.forall_mem_insert hb hi⟩ }
  | ctxl =>
    obtain ⟨hwf, hb⟩ := h.ctxl_wf
    exact { h with ctxl_wf := ⟨Memory.wf_insert _ _ _ hwf, Memory.forall_mem_insert hb hi⟩ }
  | prob =>
    obtain ⟨hwf, hb, hf⟩ := h.prob_wf
    exact { h with prob_wf := ⟨Memory.wf_insert _ _ _ hwf, Memory.forall_mem_insert hb hi,
      Memory.forall_mem_insert hf (hlt _)⟩ }
  | cntc =>
    obtain ⟨hwf, hb, hf⟩ := h.cntc_wf
    exact { h with cntc_wf := ⟨Memory.wf_insert _ _ _ hwf, Memory.forall_mem_insert hb hi,
      Memory.forall_mem_insert hf (hlt _)⟩ }
  | cnte =>
    obtain ⟨hwf, hb, hf⟩ := h.cnte_wf
    exact { h with cnte_wf := ⟨Memory.wf_insert _ _ _ hwf, Memory.forall_mem_insert hb hi,
      Memory.forall_mem_insert hf (hlt _)⟩ }

theorem AtRest.storeSpace {s : State} (h : AtRest s) (sp : HostSpace) (i v : Nat) : AtRest (storeSpace sp i v s) := by
  cases sp <;> exact { h with }

theorem Lawful.hardwareReset {s : State} (h : Lawful s) : Lawful (hardwareReset s) :=
  DataLawful.lawful_of_atRest
    { h.clearCore.data with
      registers := ⟨Nat.two_pow_pos _, Nat.two_pow_pos _, Nat.two_pow_pos _⟩
      ctxa_wf := ⟨Memory.wf_nil, nofun⟩
      ctxl_wf := ⟨Memory.wf_nil, nofun⟩
      prob_wf := ⟨Memory.wf_nil, nofun, nofun⟩ }
    ⟨rfl, rfl, nofun⟩

/-- An action of HOST keeps the invariant. -/
theorem Lawful.hostAct {a : HostAct} {s t : State} (h : Lawful s) (hx : hostAct a s = .next t) : Lawful t := by
  cases a <;> simp only [Machine.hostAct] at hx
  case writeReg n w => exact h.writeReg hx
  case readReg n => exact next_inj.mp hx ▸ { h with }
  case writeSpace sp i v =>
    obtain ⟨hb, hx⟩ := whileIdle_eq_next hx
    obtain ⟨hi, hx⟩ := withinSpace_eq_next hx
    exact next_inj.mp hx ▸ (h.data.storeSpace hi v).lawful_of_atRest ((h.atRest hb).storeSpace sp i v)
  case readSpace sp i =>
    obtain ⟨-, hx⟩ := withinSpace_eq_next (whileIdle_eq_next hx).2
    exact next_inj.mp hx ▸ { h with }
  case bindSource as => exact next_inj.mp (whileIdle_eq_next hx).2 ▸ { h with }
  case hardwareReset => exact next_inj.mp hx ▸ h.hardwareReset

/-! ## The step -/

/-- A step is a run of visits, HOST's next action waiting one visit less or none being pending, or HOST's next action. -/
theorem step_cases (s : State) :
    (∃ es k, step s = runVisits k { s with host := es }) ∨
    ∃ e rest, s.host = e :: rest ∧ step s = hostAct e.act { s with host := rest } := by
  cases hh : s.host with
  | nil =>
    obtain ⟨k, -, -, hk⟩ := step_silent_eq_runVisits hh
    exact .inl ⟨s.host, k, hk⟩
  | cons e rest =>
    cases hm : hostMoves s e with
    | true => exact .inr ⟨e, rest, rfl, step_host_moves hh hm⟩
    | false => exact .inl ⟨_, 1, by rw [step_host_waits hh hm, runVisits_one]⟩

/-! ## The obligations -/

/-- Settles O2: the reset state is at rest, and its spaces list nothing. -/
theorem resetMeetsInvariant : Obligations.ResetMeetsInvariant := by
  refine DataLawful.lawful_of_atRest ?_ ⟨rfl, rfl, nofun⟩
  exact {
    par := ⟨by decide, by decide, by decide, by decide, by decide, by decide⟩
    c_le := by decide
    eob_le := by decide
    registers := by decide
    coef_wf := ⟨Memory.wf_nil, nofun, nofun⟩
    tokc_wf := ⟨Memory.wf_nil, nofun⟩
    ctxa_wf := ⟨Memory.wf_nil, nofun⟩
    ctxl_wf := ⟨Memory.wf_nil, nofun⟩
    prob_wf := ⟨Memory.wf_nil, nofun, nofun⟩
    cntc_wf := ⟨Memory.wf_nil, nofun, nofun⟩
    cnte_wf := ⟨Memory.wf_nil, nofun, nofun⟩ }

/-- Settles O46: visits and actions of HOST keep the invariant, and a step is made of them. -/
theorem everyStepKeepsTheInvariant : Obligations.EveryStepKeepsTheInvariant := by
  intro s t h hx
  obtain ⟨es, k, hk⟩ | ⟨e, rest, -, he⟩ := step_cases s
  · exact (h.withHost es).runVisits (hk ▸ hx)
  · exact (h.withHost rest).hostAct (he ▸ hx)

end Sys2Proof.Machine
end

section
/-! PROOF. Under the invariant no step faults (R24, R203). -/

namespace Sys2Proof.Machine

/-! ## Results that are no fault -/

/-- The result is a next state or a refusal. -/
def FaultFree (r : Result) : Prop := ∀ f, r ≠ .fault f

theorem faultFree_next (s : State) : FaultFree (.next s) := nofun

theorem faultFree_refused (e : Refusal) : FaultFree (.refused e) := nofun

theorem faultFree_need {α : Type} {x : Except Stop α} {k : α → Result} (hx : ∀ f, x ≠ .error (.fault f))
    (hk : ∀ a, FaultFree (k a)) : FaultFree (need x k) := by
  match x with
  | .ok a => exact hk a
  | .error (.fault f) => exact absurd rfl (hx f)
  | .error (.refuse e) => exact faultFree_refused e

theorem faultFree_request {r : Request} {ans : Answer} {s : State} {k : Bool → State → Result}
    (hk : ∀ b, FaultFree (k b (sent r s))) : FaultFree (request r ans s k) := by
  cases ans with
  | bit b => exact hk b
  | exhausted => exact faultFree_next _

theorem faultFree_withFootprint {s : State} {k : State → Result} (hk : FaultFree (k s)) :
    FaultFree (withFootprint s k) := by
  unfold withFootprint
  split
  · split
    · exact hk
    · exact faultFree_refused _
  · exact faultFree_refused _

/-! ## Reads -/

theorem probSel_ne_fault (s : State) (j : Nat) (f : Fault) : probSel s j ≠ .error (.fault f) := by
  unfold probSel
  split <;> exact nofun

theorem neighbourPos_ne_fault (s : State) (i : Nat) (f : Fault) : neighbourPos s i ≠ .error (.fault f) := by
  unfold neighbourPos
  split <;> exact nofun

theorem reselect_ne_fault (s : State) (f : Fault) : reselect s ≠ .error (.fault f) := by
  have h0 := neighbourPos_ne_fault s (2 * s.c.toNat) f
  have h1 := neighbourPos_ne_fault s (2 * s.c.toNat + 1) f
  unfold reselect ctxsel
  cases h : neighbourPos s (2 * s.c.toNat) <;> cases h' : neighbourPos s (2 * s.c.toNat + 1) <;> simp_all

/-- SCAN is read below ME (R24). -/
theorem scanPos_ne_fault {s : State} (hc : s.c.toNat < me s) (f : Fault) : scanPos s ≠ .error (.fault f) := by
  rw [scanPos, if_neg (by omega)]
  split <;> exact nofun

/-! ## Visits -/

theorem faultFree_advance (n : Node) (s : State) : FaultFree (advance n s) := by
  unfold advance
  split
  · exact faultFree_need (reselect_ne_fault _) fun _ => faultFree_next _
  · exact faultFree_next _

theorem faultFree_nodeEob (ans : Answer) (s : State) : FaultFree (nodeEob ans s) :=
  faultFree_need (probSel_ne_fault s 0) fun _ => faultFree_request fun b => by
    cases b <;> exact faultFree_next _

theorem faultFree_nodeZero {ans : Answer} {s : State} (hc : s.c.toNat < me s) : FaultFree (nodeZero ans s) :=
  faultFree_need (probSel_ne_fault s 1) fun p => faultFree_request fun b => by
    cases b
    · exact faultFree_need (scanPos_ne_fault (s := sent (.p p) s) hc) fun _ => faultFree_advance _ _
    · exact faultFree_next _

theorem faultFree_nodeOne (ans : Answer) (s : State) : FaultFree (nodeOne ans s) :=
  faultFree_need (probSel_ne_fault s 2) fun p => faultFree_request fun b => by
    cases b
    · exact faultFree_next _
    · change FaultFree (if paretoRow (sent (.p p) s) p then _ else _)
      split <;> exact faultFree_next _

/-- CATP is read at an extra bit of a category (R203). -/
theorem faultFree_nodeExtra {ans : Answer} {s : State}
    (h : 1 ≤ category s ∧ category s ≤ 5 ∧ s.xi < category s) : FaultFree (nodeExtra ans s) := by
  obtain ⟨p, hp⟩ := catpSel_eq_ok (s := s) h
  rw [nodeExtra, hp, need_ok]
  exact faultFree_request fun _ => faultFree_next _

theorem faultFree_nodeCat6 (ans : Answer) (s : State) : FaultFree (nodeCat6 ans s) := by
  unfold nodeCat6
  split
  · exact faultFree_next _
  · split
    · exact faultFree_next _
    · exact faultFree_request fun _ => faultFree_next _

theorem faultFree_nodeSign {ans : Answer} {s : State} (hc : s.c.toNat < me s) : FaultFree (nodeSign ans s) := by
  rw [nodeSign, readRaw_eq]
  exact faultFree_request fun _ =>
    faultFree_need (scanPos_ne_fault (s := sent .raw s) hc) fun _ => faultFree_advance _ _

theorem Lawful.faultFree_visit {s : State} (h : Lawful s) : FaultFree (Machine.visit s) := by
  have hc : ∀ n, s.node = n → walking n = true → s.c.toNat < me s := fun _ hn hw => h.c_lt (hn ▸ hw)
  unfold Machine.visit
  cases hn : s.node <;> simp only [visitWith, hn]
  case idle => exact faultFree_next s
  case eob => exact faultFree_nodeEob _ s
  case zero => exact faultFree_nodeZero (hc _ hn rfl)
  case one => exact faultFree_nodeOne _ s
  case extra =>
    obtain ⟨h1, h5, hx, -⟩ := h.extra hn
    exact faultFree_nodeExtra ⟨h1, h5, hx⟩
  case cat6 => exact faultFree_nodeCat6 _ s
  case sign => exact faultFree_nodeSign (hc _ hn rfl)
  case wb => exact faultFree_withFootprint (faultFree_next _)
  case entry => exact faultFree_withFootprint (faultFree_next _)
  all_goals
    simp only [nodeLowval, nodeTwo, nodeThree, nodeHighlow, nodeCatone, nodeCat34, nodeCatthree, nodeCatfive, readBit_eq]
    exact faultFree_request fun _ => faultFree_next _

theorem Lawful.faultFree_runVisits {k : Nat} {s : State} (h : Lawful s) : FaultFree (Machine.runVisits k s) := by
  induction k generalizing s with
  | zero => exact faultFree_next s
  | succ k ih =>
    change FaultFree (thenDo (Machine.visit s) (Machine.runVisits k))
    cases hv : Machine.visit s with
    | next t => exact ih (h.visit hv)
    | fault f => exact absurd hv (h.faultFree_visit f)
    | refused e => exact faultFree_refused e

/-! ## Actions of HOST -/

theorem faultFree_accept {s : State} {k : State → Result} (hk : FaultFree (k s)) : FaultFree (accept s k) := by
  unfold accept
  split
  · exact faultFree_next s
  · split
    · exact faultFree_next s
    · exact hk

theorem faultFree_launch (t : State) : FaultFree (launch t) := by
  unfold launch
  split
  · split
    · split
      · exact faultFree_withFootprint (faultFree_next t)
      · exact faultFree_next t
    · exact faultFree_refused _
  · exact faultFree_refused _

theorem faultFree_execDecodeCoefs (s : State) : FaultFree (execDecodeCoefs s) := by
  refine faultFree_accept ?_
  split
  · exact faultFree_next _
  · exact faultFree_launch _

theorem faultFree_execSoftReset (s : State) : FaultFree (execSoftReset s) := by
  unfold execSoftReset
  split <;> exact faultFree_next _

theorem faultFree_command (w : Word) (s : State) : FaultFree (command w s) := by
  unfold command
  split
  · next i hi =>
    obtain rfl | rfl | rfl := decodeCmd_eq_some hi
    · exact faultFree_execDecodeCoefs s
    · exact faultFree_accept (k := fun s => launch (startBlock s)) (faultFree_launch _)
    · exact faultFree_execSoftReset s
  · exact faultFree_accept (faultFree_next _)

theorem faultFree_whileIdle {s : State} {k : State → Result} (hk : FaultFree (k s)) : FaultFree (whileIdle s k) := by
  unfold whileIdle
  split
  · exact faultFree_refused _
  · exact hk

theorem faultFree_withinSpace {sp : HostSpace} {i : Nat} {s : State} {k : State → Result} (hk : FaultFree (k s)) :
    FaultFree (withinSpace sp i s k) := by
  unfold withinSpace
  split
  · exact hk
  · exact faultFree_refused _

theorem faultFree_writeReg (n : Nat) (w : Word) (s : State) : FaultFree (writeReg n w s) := by
  unfold writeReg
  split
  · exact faultFree_next s
  · split
    · exact faultFree_command w s
    · exact faultFree_next _

theorem faultFree_hostAct (a : HostAct) (s : State) : FaultFree (hostAct a s) := by
  cases a <;> simp only [hostAct]
  case writeReg n w => exact faultFree_writeReg n w s
  case readReg n => exact faultFree_next _
  case writeSpace sp i v => exact faultFree_whileIdle (faultFree_withinSpace (faultFree_next _))
  case readSpace sp i => exact faultFree_whileIdle (faultFree_withinSpace (faultFree_next _))
  case bindSource as => exact faultFree_whileIdle (faultFree_next _)
  case hardwareReset => exact faultFree_next _

/-- Settles O47: SCAN and CATP are read inside their range in every visit, and HOST's actions fault nowhere. -/
theorem noFaultUnderTheInvariant : Obligations.NoFaultUnderTheInvariant := by
  intro s f h hf
  obtain ⟨es, k, hk⟩ | ⟨e, rest, -, he⟩ := step_cases s
  · exact (h.withHost es).faultFree_runVisits f (hk ▸ hf)
  · exact faultFree_hostAct _ _ f (he ▸ hf)

end Sys2Proof.Machine
end

section
/-! PROOF. OVF and ERR are sticky (R32, R287). -/

namespace Sys2Proof.Machine

/-- From `s` to `t` OVF and ERR have not been cleared: OVF is still set where it was, and an error is still the same. -/
structure KeepsOvfErr (s t : State) : Prop where
  ovf : s.ovf = true → t.ovf = true
  err : s.err ≠ .none → t.err = s.err

theorem keepsOvfErr_of_eq {s t : State} (ho : t.ovf = s.ovf) (he : t.err = s.err) : KeepsOvfErr s t :=
  ⟨fun h => ho ▸ h, fun _ => he⟩

theorem KeepsOvfErr.trans {s t u : State} (h : KeepsOvfErr s t) (h' : KeepsOvfErr t u) : KeepsOvfErr s u :=
  ⟨fun ho => h'.ovf (h.ovf ho), fun he => (h'.err (h.err he ▸ he)).trans (h.err he)⟩

/-! ## Visits -/

theorem Placed.ovf {ans : Answer} {s v : State} (h : Placed ans s v) (ho : s.ovf = true) : v.ovf = true := by
  obtain ⟨u, k, z, o, hu, rfl⟩ := h.stored
  have hs : u.ovf = s.ovf := (congrArg State.ovf hu.frame :)
  simp [hs, ho]

theorem VisitCase.ovf {ans : Answer} {s t : State} (h : VisitCase ans s t) (ho : s.ovf = true) : t.ovf = true := by
  have hw : ∀ u, Within s u → u.ovf = true := fun u hu => (congrArg State.ovf hu.frame :).trans ho
  cases h with
  | rest _ ht => exact ht ▸ ho
  | abort u e _ hu _ ht => exact ht ▸ hw u hu
  | move _ ht => exact hw t ht.within
  | ends u _ hu ht => rw [ht, finish_ovf]; exact hw u hu
  | goesOn v n hv _ _ ht => exact ht ▸ hv.ovf ho
  | fills v hv _ ht => rw [ht, finish_ovf]; exact hv.ovf ho
  | enters _ ht => exact ht ▸ ho
  | writesBack _ _ _ ht => exact ht ▸ ho

/-- With an error set CORE is at rest, where a visit changes nothing (R255, R287). -/
theorem Lawful.keepsOvfErr_visit {s t : State} (h : Lawful s) (hv : Machine.visit s = .next t) : KeepsOvfErr s t where
  ovf := (visit_cases hv).ovf
  err := fun he => by
    have hn : s.node = .idle := by
      by_contra hn
      exact he (h.running hn).launched.err
    rw [Machine.visit, visitWith, hn] at hv
    rw [next_inj.mp hv]

theorem Lawful.keepsOvfErr_runVisits {k : Nat} {s t : State} (h : Lawful s) (hv : Machine.runVisits k s = .next t) :
    KeepsOvfErr s t := by
  induction k generalizing s with
  | zero => exact next_inj.mp hv ▸ keepsOvfErr_of_eq rfl rfl
  | succ k ih =>
    obtain ⟨u, hu, ht⟩ := thenDo_eq_next.mp hv
    exact (h.keepsOvfErr_visit hu).trans (ih (h.visit hu) ht)

/-! ## Actions of HOST -/

/-- A command that is ignored while ERR is set keeps both, where what it does otherwise keeps OVF (R256). -/
theorem keepsOvfErr_accept {s t : State} {k : State → Result} (h : accept s k = .next t)
    (hk : k s = .next t → t.ovf = s.ovf) : KeepsOvfErr s t := by
  obtain rfl | ⟨he, h⟩ := accept_cases h
  · exact keepsOvfErr_of_eq rfl rfl
  · exact ⟨fun ho => hk h ▸ ho, fun hne => absurd he hne⟩

theorem decodeCmd_eq_softReset {w : Word} (h : decodeCmd w = some .softReset) : w.toNat % 256 = 3 := by
  unfold decodeCmd at h
  split at h
  case h_3 hw => simpa using hw
  all_goals cases h

theorem execDecodeCoefs_keepsOvfErr {s t : State} (h : execDecodeCoefs s = .next t) : KeepsOvfErr s t := by
  refine keepsOvfErr_accept h fun hk => ?_
  split at hk
  · rw [next_inj.mp hk]; rfl
  · obtain ⟨-, -, -, rfl⟩ := launch_eq_next.mp hk
    rfl

theorem execDecodeBlock_keepsOvfErr {s t : State} (h : execDecodeBlock s = .next t) : KeepsOvfErr s t := by
  refine keepsOvfErr_accept h fun hk => ?_
  obtain ⟨-, -, -, rfl⟩ := launch_eq_next.mp hk
  rfl

theorem command_keepsOvfErr {w : Word} {s t : State} (h : command w s = .next t) :
    KeepsOvfErr s t ∨ w.toNat % 256 = 3 := by
  unfold command at h
  split at h
  · next i hi =>
    obtain rfl | rfl | rfl := decodeCmd_eq_some hi
    · exact .inl (execDecodeCoefs_keepsOvfErr h)
    · exact .inl (execDecodeBlock_keepsOvfErr h)
    · exact .inr (decodeCmd_eq_softReset hi)
  · exact .inl (keepsOvfErr_accept h fun hk => by rw [next_inj.mp hk]; rfl)

theorem keepsOvfErr_storeReg (n : Nat) (w : Word) (s : State) : KeepsOvfErr s (storeReg n w s) := by
  unfold storeReg
  split <;> exact keepsOvfErr_of_eq rfl rfl

/-- Of HOST's actions only the two resets clear OVF or ERR (R287). -/
theorem hostAct_keepsOvfErr {a : HostAct} {s t : State} (h : hostAct a s = .next t) :
    KeepsOvfErr s t ∨ a = .hardwareReset ∨ ∃ w, a = .writeReg 0 w ∧ w.toNat % 256 = 3 := by
  cases a <;> simp only [hostAct] at h
  case writeReg n w =>
    unfold writeReg at h
    split at h
    · exact .inl (next_inj.mp h ▸ keepsOvfErr_of_eq rfl rfl)
    · split at h
      · next hn =>
        subst hn
        exact (command_keepsOvfErr h).imp_right fun hw => .inr ⟨w, rfl, hw⟩
      · exact .inl (next_inj.mp h ▸ keepsOvfErr_storeReg n w s)
  case readReg n => exact .inl (next_inj.mp h ▸ keepsOvfErr_of_eq rfl rfl)
  case writeSpace sp i v =>
    obtain ⟨-, h⟩ := withinSpace_eq_next (whileIdle_eq_next h).2
    exact .inl (next_inj.mp h ▸ by cases sp <;> exact keepsOvfErr_of_eq rfl rfl)
  case readSpace sp i =>
    obtain ⟨-, h⟩ := withinSpace_eq_next (whileIdle_eq_next h).2
    exact .inl (next_inj.mp h ▸ keepsOvfErr_of_eq rfl rfl)
  case bindSource as => exact .inl (next_inj.mp (whileIdle_eq_next h).2 ▸ keepsOvfErr_of_eq rfl rfl)
  case hardwareReset => exact .inr (.inl rfl)

/-- A step that clears OVF or ERR has not kept both. -/
theorem KeepsOvfErr.not_cleared {s t : State} (h : KeepsOvfErr s t) :
    ¬ ((s.ovf = true ∧ t.ovf = false) ∨ (s.err ≠ .none ∧ t.err ≠ s.err)) := by
  rintro (⟨ho, hf⟩ | ⟨he, hne⟩)
  · exact absurd (h.ovf ho) (by simp [hf])
  · exact hne (h.err he)

/-- Settles O59: visits keep OVF and ERR, and so does every action of HOST but the two resets. -/
theorem onlyResetsClearOvfAndErr : Obligations.OnlyResetsClearOvfAndErr := by
  intro s t hs h hcleared
  obtain ⟨es, k, hk⟩ | ⟨e, rest, hh, he⟩ := step_cases s
  · have hkeep := (hs.withHost es).keepsOvfErr_runVisits (hk ▸ h)
    exact absurd hcleared (KeepsOvfErr.not_cleared ⟨hkeep.ovf, hkeep.err⟩)
  · obtain hkeep | hreset := hostAct_keepsOvfErr (he ▸ h)
    · exact absurd hcleared (KeepsOvfErr.not_cleared ⟨hkeep.ovf, hkeep.err⟩)
    · exact ⟨e, rest, hh, hreset⟩

end Sys2Proof.Machine
end

section
/-! PROOF. HOST's accesses to the spaces and to the bit source (R70, R90): what an access reads or writes while CORE is idle, and
its refusal while CORE is busy. -/

namespace Sys2Proof.Machine

/-! ## The guards of an access -/

theorem whileIdle_idle {s : State} (hb : s.busy = false) (k : State → Result) : whileIdle s k = k s := by
  simp [whileIdle, hb]

theorem whileIdle_busy {s : State} (hb : s.busy = true) (k : State → Result) :
    whileIdle s k = .refused .hostAccessWhileBusy := if_pos hb

theorem withinSpace_below {sp : HostSpace} {i : Nat} {s : State} (hi : i < spaceSize s sp) (k : State → Result) :
    withinSpace sp i s k = k s := if_pos hi

theorem withinSpace_above {sp : HostSpace} {i : Nat} {s : State} (hi : spaceSize s sp ≤ i) (k : State → Result) :
    withinSpace sp i s k = .refused .hostIndex := if_neg (Nat.not_lt.mpr hi)

theorem hostAct_writeSpace_idle {s : State} (hb : s.busy = false) {sp : HostSpace} {i : Nat} (hi : i < spaceSize s sp)
    (v : Nat) : hostAct (.writeSpace sp i v) s = .next (storeSpace sp i v s) := by
  rw [hostAct, whileIdle_idle hb, withinSpace_below hi]

theorem hostAct_readSpace_idle {s : State} (hb : s.busy = false) {sp : HostSpace} {i : Nat} (hi : i < spaceSize s sp) :
    hostAct (.readSpace sp i) s = .next { s with rdata := spaceElem s sp i } := by
  rw [hostAct, whileIdle_idle hb, withinSpace_below hi]

/-! ## The element written -/

/-- The COEF_W-bit pattern of a coefficient, as HOST reads it (log 18). -/
theorem spaceElem_coef (s : State) (i : Nat) : (spaceElem s .coef i : Int) = coefAt s i % 2 ^ s.par.coefW := by
  have h := Int.emod_nonneg (coefAt s i) (b := ((2 ^ s.par.coefW : Nat) : Int)) (by positivity)
  exact_mod_cast Int.toNat_of_nonneg h

theorem spaceElem_storeSpace_same (sp : HostSpace) (i v : Nat) (s : State) :
    spaceElem (storeSpace sp i v s) sp i = v % 2 ^ spaceWidth s.par sp := by
  cases sp
  case coef =>
    have hc : coefAt (storeSpace .coef i v s) i = wrap s.par.coefW v := by
      rw [coefAt_insert (s := s) (t := storeSpace .coef i v s) rfl rfl, if_pos rfl]
    have hp : (storeSpace .coef i v s).par = s.par := rfl
    rw [spaceElem, hc, hp, wrap_emod]
    exact Int.toNat_natCast (v % 2 ^ s.par.coefW)
  all_goals simp [spaceElem, storeSpace, spaceWidth, ctxaAt, ctxlAt, probAt, cntcAt, cnteAt, Memory.lookup_insert_same]

theorem spaceElem_storeSpace_other {sp sq : HostSpace} {i j : Nat} (h : sq ≠ sp ∨ j ≠ i) (v : Nat) (s : State) :
    spaceElem (storeSpace sp i v s) sq j = spaceElem s sq j := by
  by_cases hs : sq = sp
  · subst hs
    have hj : j ≠ i := h.resolve_left (fun h => h rfl)
    cases sq <;>
      simp [spaceElem, storeSpace, coefAt, ctxaAt, ctxlAt, probAt, cntcAt, cnteAt, Memory.lookup_insert_other hj]
  · cases sp <;> cases sq
    any_goals exact absurd rfl hs
    all_goals rfl

theorem putBackSpaces_storeSpace (sp : HostSpace) (i v : Nat) (s : State) : putBackSpaces s (storeSpace sp i v s) = s := by
  cases sp <;> rfl

/-! ## The obligations -/

/-- Settles O12: the write is `storeSpace`, which lists one element of one space. -/
theorem hostSpaceWritesChangeOneElement : Obligations.HostSpaceWritesChangeOneElement :=
  fun s sp i v hb hi => ⟨storeSpace sp i v s, hostAct_writeSpace_idle hb hi v, spaceElem_storeSpace_same sp i v s,
    fun _ _ h => spaceElem_storeSpace_other h v s, putBackSpaces_storeSpace sp i v s⟩

/-- Settles O13: every access checks BUSY first. -/
theorem hostSpaceAccessWhileBusyIsRefused : Obligations.HostSpaceAccessWhileBusyIsRefused := by
  intro s hb
  refine ⟨fun sp i v => ?_, fun sp i => ?_, fun as => ?_⟩ <;> rw [hostAct, whileIdle_busy hb]

/-- Settles O14: the element read is CORE's own; only COEF's is read by its bit pattern. -/
theorem hostReadsSpacesAndBindsTheSource : Obligations.HostReadsSpacesAndBindsTheSource := by
  refine ⟨fun s hb => ⟨fun sp i hi => hostAct_readSpace_idle hb hi, fun as => ?_⟩,
    fun s i => ⟨spaceElem_coef s i, rfl, rfl, rfl, rfl⟩, fun _ _ => rfl, fun _ => ⟨rfl, rfl, rfl, rfl, rfl, rfl⟩⟩
  rw [hostAct, whileIdle_idle hb]

end Sys2Proof.Machine
end

section
/-! PROOF. What a visit asks of the bit source, and which spaces it writes (R23, R70, R75, R163, R220, R242, R243, R265). -/

namespace Sys2Proof.Machine

/-! ## COEF and TOKC -/

/-- What a visit that stores lists in COEF and in TOKC, at scan[c] (R163, R223, R224). -/
theorem Placed.stores {ans : Answer} {s v : State} (h : Placed ans s v) :
    ∃ z e, v.coef = Memory.insert s.coef (position s) z ∧ v.tokc = Memory.insert s.tokc (position s) ⟨e, s.cmdNo⟩ := by
  obtain ⟨u, k, z, o, hu, rfl⟩ := h.stored
  have hc : u.coef = s.coef := (congrArg State.coef hu.frame :)
  have ht : u.tokc = s.tokc := (congrArg State.tokc hu.frame :)
  have hn : u.cmdNo = s.cmdNo := (congrArg State.cmdNo hu.frame :)
  refine ⟨wrap s.par.coefW z, energyOf u k, ?_, ?_⟩
  · rw [← hc]; rfl
  · rw [← ht, ← hn]; rfl

/-- A visit leaves COEF and TOKC, or it stores one element of each. -/
theorem VisitCase.stores {ans : Answer} {s t : State} (h : VisitCase ans s t) :
    (t.coef = s.coef ∧ t.tokc = s.tokc) ∨ ∃ v, Placed ans s v ∧ t.coef = v.coef ∧ t.tokc = v.tokc := by
  have hw : ∀ u, Within s u → u.coef = s.coef ∧ u.tokc = s.tokc :=
    fun u hu => ⟨(congrArg State.coef hu.frame :), (congrArg State.tokc hu.frame :)⟩
  cases h with
  | rest _ ht => exact .inl (ht ▸ ⟨rfl, rfl⟩)
  | abort u e _ hu _ ht => exact .inl (ht ▸ hw u hu)
  | move _ ht => exact .inl (hw t ht.within)
  | ends u _ hu ht => rw [ht, finish_coef, finish_tokc]; exact .inl (hw u hu)
  | goesOn v n hv _ _ ht => exact .inr ⟨v, hv, ht ▸ ⟨rfl, rfl⟩⟩
  | fills v hv _ ht => rw [ht, finish_coef, finish_tokc]; exact .inr ⟨v, hv, rfl, rfl⟩
  | enters _ ht => exact .inl (ht ▸ ⟨rfl, rfl⟩)
  | writesBack _ _ _ ht => exact .inl (ht ▸ ⟨rfl, rfl⟩)

/-- Where a visit is not one that stores, COEF and TOKC are as before. -/
theorem VisitCase.keepsCoef {ans : Answer} {s t : State} (h : VisitCase ans s t)
    (hn : ¬ (s.node = .zero ∧ ans = .bit false ∨ s.node = .sign ∧ ∃ b, ans = .bit b)) :
    t.coef = s.coef ∧ t.tokc = s.tokc :=
  h.stores.resolve_right fun ⟨_, hv, _⟩ => hn hv.node

/-- Away from scan[c] COEF and TOKC read as before. -/
theorem VisitCase.elsewhere {ans : Answer} {s t : State} (h : VisitCase ans s t) {p : Nat} (hp : p ≠ position s) :
    coefAt t p = coefAt s p ∧ tokClass t p = tokClass s p := by
  have hpar : t.par = s.par := (congrArg State.par h.frame :)
  have hno : t.cmdNo = s.cmdNo := (congrArg State.cmdNo h.frame :)
  obtain ⟨hc, ht⟩ | ⟨v, hv, hc, ht⟩ := h.stores
  · exact ⟨by rw [coefAt, coefAt, hc, hpar], by rw [tokClass, tokClass, ht, hno]⟩
  · obtain ⟨z, e, hz, he⟩ := hv.stores
    exact ⟨by rw [coefAt_insert (hc.trans hz) hpar, if_neg hp], by rw [tokClass_of_insert (ht.trans he) hno, if_neg hp]⟩

/-! ## CTXA and CTXL -/

/-- CTXA and CTXL are written by N_WB alone (R265). -/
theorem VisitCase.ctx_arrays {ans : Answer} {s t : State} (h : VisitCase ans s t) (hn : s.node ≠ .wb) :
    t.ctxa = s.ctxa ∧ t.ctxl = s.ctxl := by
  have hw : ∀ u, Within s u → u.ctxa = s.ctxa ∧ u.ctxl = s.ctxl :=
    fun u hu => ⟨(congrArg State.ctxa hu.frame :), (congrArg State.ctxl hu.frame :)⟩
  have hp : ∀ v, Placed ans s v → v.ctxa = s.ctxa ∧ v.ctxl = s.ctxl :=
    fun v hv => ⟨(congrArg State.ctxa hv.frame :), (congrArg State.ctxl hv.frame :)⟩
  cases h with
  | rest _ ht => exact ht ▸ ⟨rfl, rfl⟩
  | abort u e _ hu _ ht => exact ht ▸ hw u hu
  | move _ ht => exact hw t ht.within
  | ends u _ hu ht => rw [ht, finish_ctxa, finish_ctxl]; exact hw u hu
  | goesOn v n hv _ _ ht => exact ht ▸ hp v hv
  | fills v hv _ ht => rw [ht, finish_ctxa, finish_ctxl]; exact hp v hv
  | enters _ ht => exact ht ▸ ⟨rfl, rfl⟩
  | writesBack hwb _ _ _ => exact absurd hwb hn

/-- N_WB does not abort (R264). -/
theorem visit_wb_err {s t : State} (hn : s.node = .wb) (h : visit s = .next t) : t.err = s.err := by
  rw [visit, visitWith, hn] at h
  obtain ⟨-, -, rfl⟩ := nodeWb_eq_next.mp h
  rfl

/-! ## The counters -/

/-- CNTC and CNTE. -/
def counters (s : State) : List (Nat × Count) × List (Nat × Count) := (s.cntc, s.cnte)

/-- `s` after the counts of a visit answered `ans` (R161, R163, R166). -/
def counted (ans : Answer) (s : State) : State :=
  match s.node, ans with
  | .eob, .bit true => countE s
  | .eob, .bit false => count .eobModel (countE s)
  | .zero, .bit false => count .zero s
  | .one, .bit true => count .twoPlus s
  | .one, .bit false => count .one s
  | _, _ => s

/-- A request and a count do not meet. -/
theorem count_sent (y : Sym) (r : Request) (s : State) : count y (sent r s) = sent r (count y s) := by
  rw [count, count, apply_ite (sent r)]
  rfl

theorem countE_sent (r : Request) (s : State) : countE (sent r s) = sent r (countE s) := by
  rw [countE, countE, apply_ite (sent r)]
  rfl

theorem counters_advance {n : Node} {s t : State} (h : advance n s = .next t) : counters t = counters s := by
  obtain ⟨-, -, -, rfl⟩ | ⟨-, rfl⟩ := advance_eq_next.mp h
  · rfl
  · simp [counters]

/-- A request counts nothing; an exhausted source aborts before any count (R282). -/
theorem counters_request {r : Request} {ans : Answer} {s t : State} {k : Bool → State → Result}
    (h : request r ans s k = .next t) (hk : ∀ b, k b (sent r s) = .next t → counters t = counters s) :
    counters t = counters s := by
  obtain ⟨-, rfl⟩ | ⟨b, -, hb⟩ := request_eq_next.mp h
  · rfl
  · exact hk b hb

/-- The counts of a visit are those of its node and answer. -/
theorem counters_visitWith {ans : Answer} {s t : State} (h : visitWith ans s = .next t) :
    counters t = counters (counted ans s) := by
  cases hn : s.node <;> simp only [visitWith, counted, hn] at h ⊢
  case idle => rw [next_inj.mp h]
  case eob =>
    obtain ⟨-, ⟨rfl, rfl⟩ | ⟨rfl, rfl⟩ | ⟨rfl, rfl⟩⟩ := nodeEob_eq_next.mp h
    · rfl
    · rw [countE_sent]; rfl
    · rw [countE_sent, count_sent]; simp [counters]
  case zero =>
    obtain ⟨-, ⟨rfl, rfl⟩ | ⟨rfl, rfl⟩ | ⟨rfl, hz⟩⟩ := nodeZero_eq_next.mp h
    · rfl
    · rfl
    · obtain ⟨-, -, h⟩ := zeroToken_eq_next.mp hz
      exact (counters_advance h).trans (by rw [zeroStored, count_sent]; simp [counters])
  case one =>
    obtain ⟨-, ⟨rfl, rfl⟩ | ⟨rfl, -, rfl⟩ | ⟨rfl, -, rfl⟩ | ⟨rfl, rfl⟩⟩ := nodeOne_eq_next.mp h
    · rfl
    all_goals rw [count_sent]; rfl
  case extra =>
    obtain ⟨p, -, h⟩ := need_eq_next.mp h
    exact counters_request h fun b hb => next_inj.mp hb ▸ rfl
  case cat6 =>
    obtain ⟨-, rfl⟩ | ⟨-, rfl⟩ | ⟨p, -, -, ⟨-, rfl⟩ | ⟨b, -, rfl⟩⟩ := nodeCat6_eq_next.mp h <;> rfl
  case sign =>
    obtain ⟨-, rfl⟩ | ⟨neg, -, -, -, h⟩ := nodeSign_eq_next.mp h
    · rfl
    · exact (counters_advance h).trans (by simp [counters])
  case wb =>
    obtain ⟨-, -, rfl⟩ := nodeWb_eq_next.mp h
    rfl
  case entry =>
    obtain ⟨-, -, rfl⟩ := nodeEntry_eq_next.mp h
    rfl
  all_goals
    simp only [nodeLowval, nodeTwo, nodeThree, nodeHighlow, nodeCatone, nodeCat34, nodeCatthree, nodeCatfive, readBit_eq] at h
    exact counters_request h fun b hb => by cases b <;> exact next_inj.mp hb ▸ rfl

theorem cntc_visit {s t : State} (h : visit s = .next t) : t.cntc = (counted (nextAnswer s) s).cntc :=
  congrArg Prod.fst (counters_visitWith h)

theorem cnte_visit {s t : State} (h : visit s = .next t) : t.cnte = (counted (nextAnswer s) s).cnte :=
  congrArg Prod.snd (counters_visitWith h)

/-- Outside N_EOB, N_ZERO and N_ONE a visit counts nothing (R244). -/
theorem counted_of_ne {ans : Answer} {s : State} (he : s.node ≠ .eob) (hz : s.node ≠ .zero) (ho : s.node ≠ .one) :
    counted ans s = s := by
  unfold counted
  split
  any_goals contradiction
  rfl

/-- The eob-branch is counted at N_EOB alone (R243). -/
theorem counted_cnte {ans : Answer} {s : State} (he : s.node ≠ .eob) : (counted ans s).cnte = s.cnte := by
  unfold counted
  split <;> simp_all

/-- With FPAR = 1 nothing is counted (R33, R241). -/
theorem counted_of_fpar {ans : Answer} {s : State} (hf : s.fpar = 1#1) : counted ans s = s := by
  have hc : ∀ y, count y s = s := fun y => if_neg (by simp [hf])
  have he : countE s = s := if_neg (by simp [hf])
  unfold counted
  split <;> simp only [hc, he]

/-! ## The obligations -/

/-- Settles O34: `traffic_visit` says it of the state after the request of the node. -/
theorem everyVisitMakesTheRequestOfItsNode : Obligations.EveryVisitMakesTheRequestOfItsNode := by
  intro s t h
  have ht := traffic_visit h
  refine ⟨fun r hr => ?_, fun hr => ?_⟩
  · rw [asked_of_some hr] at ht
    exact ⟨requests_of_traffic ht, answers_of_traffic ht⟩
  · rw [asked_of_none hr] at ht
    exact ⟨requests_of_traffic ht, answers_of_traffic ht⟩

/-- Settles O55: by the cases of a visit, and by what its node and answer count. -/
theorem visitsStoreOnlyWhereTheRulesSay : Obligations.VisitsStoreOnlyWhereTheRulesSay := by
  intro s t h
  have hv := visit_cases h
  refine ⟨fun p hp => hv.elsewhere hp, fun hz hs => hv.keepsCoef ?_, fun hz ha => hv.keepsCoef ?_,
    fun hs ha => hv.keepsCoef ?_, fun hw => hv.ctx_arrays ?_, fun he => ?_, fun he hz ho => ?_, fun hf => ?_⟩
  · simp [hz, hs]
  · simp [hz, ha]
  · simp [hs, ha]
  · exact fun hn => hw.elim (fun hne => hne hn) fun hne => hne (visit_wb_err hn h)
  · rw [cnte_visit h, counted_cnte he]
  · rw [cntc_visit h, counted_of_ne he hz ho]
  · rw [cntc_visit h, cnte_visit h, counted_of_fpar hf]
    exact ⟨rfl, rfl⟩

end Sys2Proof.Machine
end

section
/-! PROOF. The stops: the launch that breaks an obligation, the visit outside PROB, SCAN, NB, CTXA or CTXL, and HOST's access outside
a space (R73, R147, R326, R327, R329, D33). -/

namespace Sys2Proof.Machine

/-! ## The launch -/

theorem launch_scanTable {t : State} (hs : ¬ ScanLegal t) : launch t = .refused .scanTable :=
  if_neg (scanOk_iff.not.mpr hs)

theorem launch_neighbourTable {t : State} (hs : ScanLegal t) (hn : ¬ NbLegal t) : launch t = .refused .neighbourTable := by
  rw [launch, if_pos (scanOk_iff.mpr hs), if_neg (nbOk_iff.not.mpr hn)]

theorem launch_block {t : State} (hs : ScanLegal t) (hn : NbLegal t) (hk : t.cmdk = 1#1) :
    launch t = withFootprint t .next := by
  rw [launch, if_pos (scanOk_iff.mpr hs), if_pos (nbOk_iff.mpr hn), if_pos hk]

theorem withFootprint_above {s : State} (h : s.par.ctxaLen < s.aoff.toNat + 2 ^ s.txsize.toNat) (k : State → Result) :
    withFootprint s k = .refused .footprintAbove := by
  rw [withFootprint, footprint_eq, if_neg (Nat.not_le.mpr h)]

theorem withFootprint_left {s : State} (ha : s.aoff.toNat + 2 ^ s.txsize.toNat ≤ s.par.ctxaLen)
    (h : s.par.ctxlLen < s.loff.toNat + 2 ^ s.txsize.toNat) (k : State → Result) :
    withFootprint s k = .refused .footprintLeft := by
  rw [withFootprint, footprint_eq, if_pos ha, if_neg (Nat.not_le.mpr h)]

theorem exec_decodeCoefs_eq_launch {s : State} (hb : s.busy = false) (he : s.err = .none) (hx : s.ectx.toNat ≤ 5) :
    exec .decodeCoefs s = launch (startCoefs s) := by
  rw [exec, execDecodeCoefs, accept_eq hb he, if_neg (Nat.not_lt.mpr hx)]

theorem exec_decodeBlock_eq_launch {s : State} (hb : s.busy = false) (he : s.err = .none) :
    exec .decodeBlock s = launch (startBlock s) := by
  rw [exec, execDecodeBlock, accept_eq hb he]

/-! ## Reads -/

theorem probSel_outside {s : State} (h : ¬ InRow s) (j : Nat) : probSel s j = .error (.refuse .outsideProb) := if_neg h

theorem scanPos_outside {s : State} (hc : s.c.toNat < me s) (hp : me s ≤ position s) :
    scanPos s = .error (.refuse .scanTable) :=
  (if_neg (Nat.not_le.mpr hc)).trans (if_neg (Nat.not_lt.mpr hp))

theorem neighbourPos_outside {s : State} {i : Nat} (h : me s ≤ (nbAt s i).toNat) :
    neighbourPos s i = .error (.refuse .neighbourTable) := if_neg (Nat.not_lt.mpr h)

/-- A neighbour outside the block stops RESELECT, whichever of the two it is. -/
theorem reselect_outside {s : State}
    (h : me s ≤ (nbAt s (2 * s.c.toNat)).toNat ∨ me s ≤ (nbAt s (2 * s.c.toNat + 1)).toNat) :
    reselect s = .error (.refuse .neighbourTable) := by
  by_cases h0 : me s ≤ (nbAt s (2 * s.c.toNat)).toNat
  · rw [reselect, ctxsel, neighbourPos_outside h0]
  · have h0' := neighbourPos_eq_ok.mpr ⟨Nat.not_le.mp h0, rfl⟩
    rw [reselect, ctxsel, h0', neighbourPos_outside (h.resolve_left h0)]

/-! ## Visits -/

theorem advance_outside {n : Node} {s : State} (hc : (nextIndex s).c.toNat < me s)
    (h : me s ≤ (nbAt s (2 * (nextIndex s).c.toNat)).toNat ∨ me s ≤ (nbAt s (2 * (nextIndex s).c.toNat + 1)).toNat) :
    advance n s = .refused .neighbourTable := by
  rw [advance, if_pos hc, reselect_outside (s := nextIndex s) h]
  rfl

theorem visit_outsideProb {s : State} (hn : s.node = .eob ∨ s.node = .zero ∨ s.node = .one) (h : ¬ InRow s) :
    visit s = .refused .outsideProb := by
  have hp := probSel_outside h
  obtain hn | hn | hn := hn
  · rw [visit, visitWith, hn, nodeEob, hp]; rfl
  · rw [visit, visitWith, hn, nodeZero, hp]; rfl
  · rw [visit, visitWith, hn, nodeOne, hp]; rfl

/-- A visit that stores reads SCAN, stores, and advances C in the state `store pos`, which has the scan index and SCANPROV's tables
of `s` (R163, R221). -/
theorem visit_storing {s : State} {b : Bool} (hn : s.node = .sign ∨ s.node = .zero ∧ b = false ∧ InRow s)
    (ha : nextAnswer s = .bit b) :
    ∃ (n : Node) (store : Nat → State), (visit s = need (scanPos s) fun pos => advance n (store pos)) ∧
      ∀ pos, (store pos).c = s.c ∧ me (store pos) = me s ∧ nbAt (store pos) = nbAt s := by
  obtain hn | ⟨hn, rfl, hr⟩ := hn
  · refine ⟨.eob, fun pos => storeSigned pos b (sent .raw s), ?_, fun _ => ⟨rfl, rfl, rfl⟩⟩
    rw [visit, visitWith, hn, ha]
    rfl
  · refine ⟨.zero, fun pos => setTok .zero (storeToken pos .zero (storeCoef pos 0 (count .zero (sent (.p (probOf s 1)) s)))),
      ?_, fun pos => ⟨by simp, by simp, by funext; simp⟩⟩
    rw [visit, visitWith, hn, ha]
    simp only [nodeZero, probSel_of_inRow hr, need_ok]
    rfl

theorem visit_scanTable {s : State} {b : Bool} (hn : s.node = .sign ∨ s.node = .zero ∧ b = false ∧ InRow s)
    (ha : nextAnswer s = .bit b) (hc : s.c.toNat < me s) (hp : me s ≤ position s) : visit s = .refused .scanTable := by
  obtain ⟨n, store, hv, -⟩ := visit_storing hn ha
  rw [hv, scanPos_outside hc hp]
  rfl

theorem visit_neighbourTable {s : State} {b : Bool} (hn : s.node = .sign ∨ s.node = .zero ∧ b = false ∧ InRow s)
    (ha : nextAnswer s = .bit b) (hp : position s < me s) (hc : s.c.toNat + 1 < me s)
    (h : me s ≤ (nbAt s (2 * (s.c.toNat + 1))).toNat ∨ me s ≤ (nbAt s (2 * (s.c.toNat + 1) + 1)).toNat) :
    visit s = .refused .neighbourTable := by
  obtain ⟨n, store, hv, hstore⟩ := visit_storing hn ha
  obtain ⟨hsc, hme, hnb⟩ := hstore (position s)
  have hi : (nextIndex (store (position s))).c.toNat = s.c.toNat + 1 := by
    rw [nextIndex_c, hsc]
    exact c_succ (by have := me_le s; omega)
  rw [hv, scanPos_eq_ok.mpr ⟨by omega, hp, rfl⟩, need_ok]
  apply advance_outside <;> rw [hi, hme]
  · exact hc
  · rw [hnb]; exact h

theorem visit_footprint {s : State} (hn : s.node = .entry ∨ s.node = .wb) : ∃ k, visit s = withFootprint s k := by
  obtain hn | hn := hn
  · exact ⟨_, by rw [visit, visitWith, hn]; rfl⟩
  · exact ⟨_, by rw [visit, visitWith, hn]; rfl⟩

/-! ## The obligation -/

/-- Settles O45: each check of the launch, each read of a visit and each index of HOST is refused where it fails. -/
theorem brokenObligationsAreRefused : Obligations.BrokenObligationsAreRefused := by
  refine ⟨fun s hb he hx => ?_, fun s hb he => ?_, fun s hn hr => visit_outsideProb hn hr, fun s b hn ha hc => ?_,
    fun s hn => ?_, fun s sp i v hb hi => ?_⟩
  · rw [exec_decodeCoefs_eq_launch hb he hx]
    exact ⟨fun hs => launch_scanTable hs, fun hs hn => launch_neighbourTable hs hn⟩
  · rw [exec_decodeBlock_eq_launch hb he]
    refine ⟨fun hs => launch_scanTable hs, fun hs hn => launch_neighbourTable hs hn, fun hs hn ha => ?_,
      fun hs hn ha hl => ?_⟩
    · rw [launch_block (t := startBlock s) hs hn rfl]; exact withFootprint_above (s := startBlock s) ha _
    · rw [launch_block (t := startBlock s) hs hn rfl]; exact withFootprint_left (s := startBlock s) ha hl _
  · exact ⟨visit_scanTable hn ha hc, visit_neighbourTable hn ha⟩
  · obtain ⟨k, hk⟩ := visit_footprint hn
    rw [hk]
    exact ⟨fun ha => withFootprint_above ha k, fun ha hl => withFootprint_left ha hl k⟩
  · rw [hostAct, hostAct, whileIdle_idle hb, whileIdle_idle hb]
    exact ⟨withinSpace_above hi _, withinSpace_above hi _⟩

end Sys2Proof.Machine
end

section
/-! PROOF. The codes (R110, R113 to R115, R121, R122): a decoder answers an instruction exactly where the instruction is well
formed, is of the decoder's format, and its own code stands at the front. -/

namespace Sys2Proof

/-! ## Commands -/

/-- A CMD word decodes to the command whose OPC its bits[7:0] are (R110). -/
theorem decodeCmd_eq_some_iff {w : Word} {i : Instr} :
    decodeCmd w = some i ↔ i.form = .cmd ∧ w.toNat % 256 = (encodeWord i).toNat := by
  have hopc : (w.setWidth 8).toNat = w.toNat % 256 := by simp
  rw [decodeCmd, hopc]
  constructor
  · intro h
    split at h <;> cases h <;> exact ⟨rfl, ‹_›⟩
  · rintro ⟨hf, hw⟩
    rw [hw]
    cases i <;> cases hf <;> rfl

/-! ## Tokens below the EOB node -/

/-- The token of an instruction without its form; ZERO where the instruction has none. -/
def Instr.leaf : Instr → Leaf
  | .decodeCoefs | .decodeBlock | .softReset | .eob | .zero | .zeroZ => .zero
  | .one s | .oneZ s => .one s
  | .two s | .twoZ s => .two s
  | .three s | .threeZ s => .three s
  | .four s | .fourZ s => .four s
  | .cat1 a s | .cat1Z a s => .cat1 a s
  | .cat2 a s | .cat2Z a s => .cat2 a s
  | .cat3 a s | .cat3Z a s => .cat3 a s
  | .cat4 a s | .cat4Z a s => .cat4 a s
  | .cat5 a s | .cat5Z a s => .cat5 a s
  | .cat6 a s | .cat6Z a s => .cat6 a s

/-- A Z-form instruction is the Z-form of its token (R115). -/
theorem Instr.zForm_leaf {i : Instr} (h : i.form = .tokenZ) : i.leaf.zForm = i := by
  cases i <;> cases h <;> rfl

/-- An E-form instruction is EOB or the E-form of its token (R114). -/
theorem Instr.eq_eob_or_eForm_leaf {i : Instr} (h : i.form = .tokenE) : i = .eob ∨ i.leaf.eForm = i := by
  cases i <;> cases h
  case eob => exact .inl rfl
  all_goals exact .inr rfl

@[simp] theorem form_zForm (l : Leaf) : l.zForm.form = .tokenZ := by cases l <;> rfl

@[simp] theorem form_eForm (l : Leaf) : l.eForm.form = .tokenE := by cases l <;> rfl

/-- Both forms of a token are well formed or neither is (R119). -/
@[simp] theorem wf_eForm (m : Nat) (l : Leaf) : l.eForm.wf m = l.zForm.wf m := by cases l <;> rfl

/-- The E-form string is `1` and the Z-form string (R113). -/
@[simp] theorem encodeBits_eForm (l : Leaf) : encodeBits l.eForm = true :: encodeBits l.zForm := by cases l <;> rfl

/-- The token that is decoded has as many extra bits as the table (R119). -/
theorem wf_of_decodeLeaf {m : Nat} {bs rest : List Bool} {l : Leaf} (h : decodeLeaf (some m) bs = some (l, rest)) :
    l.zForm.wf m = true := by
  obtain rfl := decodeLeaf_eq_some h
  cases l
  case cat6 a s =>
    obtain ⟨⟨a', s', r⟩, hx, he⟩ := Option.map_eq_some_iff.mp h
    obtain ⟨⟨rfl, -⟩, -⟩ : (a' = a ∧ s' = s) ∧ r = rest := by simpa using he
    exact beq_iff_eq.mpr (extraThenSign_eq_some.mp hx).2
  all_goals rfl

/-- A token's Z-form string at the front of a string is decoded to the token (R115). -/
theorem decodeLeaf_encodeBits {m : Nat} {l : Leaf} (hw : l.zForm.wf m = true) (rest : List Bool) :
    decodeLeaf (some m) (encodeBits l.zForm ++ rest) = some (l, rest) := by
  cases l
  case cat6 a s =>
    obtain rfl : a.length = m := beq_iff_eq.mp hw
    simp [encodeBits, Leaf.zForm, decodeLeaf]
  all_goals simp [encodeBits, Leaf.zForm, decodeLeaf, catLeaf_msbFirst]

/-- R115: what is decoded is the well-formed token whose Z-form string stands at the front. -/
theorem decodeLeaf_eq_some_iff {m : Nat} {bs rest : List Bool} {l : Leaf} :
    decodeLeaf (some m) bs = some (l, rest) ↔ l.zForm.wf m = true ∧ bs = encodeBits l.zForm ++ rest :=
  ⟨fun h => ⟨wf_of_decodeLeaf h, decodeLeaf_eq_some h⟩, fun ⟨hw, hs⟩ => hs ▸ decodeLeaf_encodeBits hw rest⟩

/-- A string with room for `n` extra bits and a sign has them (R121). -/
theorem extraThenSign_isSome {n : Nat} {bs : List Bool} (h : n < bs.length) : (extraThenSign n bs).isSome := by
  rw [extraThenSign, List.drop_eq_getElem_cons h]
  rfl

theorem catLeaf_isSome {n : Nat} (mk : BitVec n → Bool → Leaf) {bs : List Bool} (h : n < bs.length) :
    (catLeaf n mk bs).isSome := by
  rw [catLeaf, Option.isSome_map]
  exact extraThenSign_isSome h

/-- R121: a string as long as the longest Z-form token begins with a token. The splits are the branches of the token tree. -/
theorem decodeLeaf_isSome {m : Nat} {bs : List Bool} (h : 12 + m ≤ bs.length) : (decodeLeaf (some m) bs).isSome := by
  match bs, h with
  | b₁ :: b₂ :: b₃ :: b₄ :: b₅ :: b₆ :: r, h =>
    have hr : 5 < (b₆ :: r).length ∧ 5 < r.length ∧ m < r.length := by
      simp only [List.length_cons] at h ⊢
      omega
    obtain ⟨hr₆, hr₅, hm⟩ := hr
    match b₁, b₂, b₃, b₄, b₅ with
    | false, _, _, _, _ => rfl
    | true, false, _, _, _ => rfl
    | true, true, false, false, _ => rfl
    | true, true, false, true, false => rfl
    | true, true, false, true, true => rfl
    | true, true, true, false, false => exact catLeaf_isSome .cat1 (by omega)
    | true, true, true, false, true => exact catLeaf_isSome .cat2 (by omega)
    | true, true, true, true, false =>
      cases b₆
      · exact catLeaf_isSome .cat3 (by omega)
      · exact catLeaf_isSome .cat4 (by omega)
    | true, true, true, true, true =>
      cases b₆
      · exact catLeaf_isSome .cat5 (by omega)
      · rw [decodeLeaf, Option.isSome_map]; exact extraThenSign_isSome hm
  | [], h | [_], h | [_, _], h | [_, _, _], h | [_, _, _, _], h | [_, _, _, _, _], h =>
    simp only [List.length_cons, List.length_nil] at h
    omega

/-! ## The two forms -/

/-- What is decoded in Z-form is the well-formed Z-form token whose string stands at the front (R115, R122). -/
theorem decodeZ_eq_some_iff {m : Nat} {bs rest : List Bool} {i : Instr} :
    decodeZ (some m) bs = some (i, rest) ↔ i.form = .tokenZ ∧ i.wf m = true ∧ bs = encodeBits i ++ rest := by
  constructor
  · intro h
    obtain ⟨⟨l, r⟩, hl, he⟩ := Option.map_eq_some_iff.mp h
    obtain ⟨rfl, rfl⟩ := Prod.mk.inj he
    exact ⟨form_zForm l, decodeLeaf_eq_some_iff.mp hl⟩
  · rintro ⟨hf, hw, hs⟩
    rw [← i.zForm_leaf hf] at hw hs
    rw [decodeZ, decodeLeaf_eq_some_iff.mpr ⟨hw, hs⟩, Option.map_some, i.zForm_leaf hf]

/-- What is decoded in E-form is the well-formed E-form token whose string stands at the front (R113, R114, R122). -/
theorem decodeE_eq_some_iff {m : Nat} {bs rest : List Bool} {i : Instr} :
    decodeE (some m) bs = some (i, rest) ↔ i.form = .tokenE ∧ i.wf m = true ∧ bs = encodeBits i ++ rest := by
  constructor
  · intro h
    match bs with
    | [] => cases h
    | false :: r => cases h; exact ⟨rfl, rfl, rfl⟩
    | true :: r =>
      obtain ⟨⟨l, r'⟩, hl, he⟩ := Option.map_eq_some_iff.mp h
      obtain ⟨rfl, rfl⟩ := Prod.mk.inj he
      obtain ⟨hw, rfl⟩ := decodeLeaf_eq_some_iff.mp hl
      exact ⟨form_eForm l, by rw [wf_eForm, hw], by simp⟩
  · rintro ⟨hf, hw, rfl⟩
    obtain rfl | hl := i.eq_eob_or_eForm_leaf hf
    · rfl
    · rw [← hl] at hw ⊢
      rw [encodeBits_eForm, List.cons_append, decodeE, decodeLeaf_encodeBits (wf_eForm m _ ▸ hw), Option.map_some]

theorem decodeZ_isSome {m : Nat} {bs : List Bool} (h : 12 + m ≤ bs.length) : (decodeZ (some m) bs).isSome := by
  rw [decodeZ, Option.isSome_map]
  exact decodeLeaf_isSome h

theorem decodeE_isSome {m : Nat} {bs : List Bool} (h : 13 + m ≤ bs.length) : (decodeE (some m) bs).isSome := by
  match bs with
  | [] => simp at h
  | false :: r => rfl
  | true :: r =>
    rw [decodeE, Option.isSome_map]
    exact decodeLeaf_isSome (by rw [List.length_cons] at h; omega)

/-- Where what is decoded of a string is the token of a form that begins it, no other token of the form begins it (R122). -/
theorem spells_exactly_one {x : Option (Instr × List Bool)} {f : Form} {m : Nat} {bs : List Bool}
    (hd : ∀ {i rest}, x = some (i, rest) ↔ i.form = f ∧ i.wf m = true ∧ bs = encodeBits i ++ rest)
    (hs : (x).isSome) :
    ∃ i rest, x = some (i, rest) ∧ bs = encodeBits i ++ rest ∧
      ∀ j, j.form = f → j.wf m = true → encodeBits j <+: bs → j = i := by
  obtain ⟨⟨i, rest⟩, hi⟩ := Option.isSome_iff_exists.mp hs
  refine ⟨i, rest, hi, (hd.mp hi).2.2, fun j hf hw ⟨r, hr⟩ => ?_⟩
  have hj : x = some (j, r) := hd.mpr ⟨hf, hw, hr.symm⟩
  exact (Prod.mk.inj (Option.some.inj (hj.symm.trans hi))).1

/-! ## Whole codes -/

theorem wholeString_eq_some_iff {x : Option (Instr × List Bool)} {i : Instr} :
    wholeString x = some i ↔ x = some (i, []) := by
  match x with
  | none => simp [wholeString]
  | some (j, []) => simp [wholeString]
  | some (j, _ :: _) => simp [wholeString]

/-- A whole string in E-form is the string of the token it decodes to (R114). -/
theorem wholeString_decodeE_eq_some_iff {m : Nat} {bs : List Bool} {i : Instr} :
    wholeString (decodeE (some m) bs) = some i ↔ i.form = .tokenE ∧ i.wf m = true ∧ bs = encodeBits i := by
  rw [wholeString_eq_some_iff, decodeE_eq_some_iff, List.append_nil]

/-- A whole string in Z-form is the string of the token it decodes to (R115). -/
theorem wholeString_decodeZ_eq_some_iff {m : Nat} {bs : List Bool} {i : Instr} :
    wholeString (decodeZ (some m) bs) = some i ↔ i.form = .tokenZ ∧ i.wf m = true ∧ bs = encodeBits i := by
  rw [wholeString_eq_some_iff, decodeZ_eq_some_iff, List.append_nil]

theorem wf_of_form_cmd {m : Nat} {i : Instr} (h : i.form = .cmd) : i.wf m = true := by
  cases i <;> cases h <;> rfl

/-- The word of a command is its OPC with the upper bits zero (R110). -/
theorem encodeWord_lt {i : Instr} (h : i.form = .cmd) : (encodeWord i).toNat < 256 := by
  cases i <;> cases h <;> decide

/-! ## The obligations -/

/-- Settles O16: each format's decoder finds the instruction at the front of its own code. -/
theorem decodeReadsBackEveryEncoding : Obligations.DecodeReadsBackEveryEncoding := by
  intro m i hw
  rw [encode]
  cases hf : i.form with
  | cmd => exact decodeCmd_eq_some_iff.mpr ⟨hf, Nat.mod_eq_of_lt (encodeWord_lt hf)⟩
  | tokenE => exact wholeString_decodeE_eq_some_iff.mpr ⟨hf, hw, rfl⟩
  | tokenZ => exact wholeString_decodeZ_eq_some_iff.mpr ⟨hf, hw, rfl⟩

/-- Settles O17: what each format's decoder answers is the instruction whose code it has read. -/
theorem decodedCodesAreEncodings : Obligations.DecodedCodesAreEncodings := by
  intro m f code i h
  match f, code with
  | .cmd, .word w =>
    obtain ⟨hf, hw⟩ := decodeCmd_eq_some_iff.mp h
    exact ⟨hf, wf_of_form_cmd hf, hw⟩
  | .tokenE, .answers bs => exact wholeString_decodeE_eq_some_iff.mp h
  | .tokenZ, .answers bs => exact wholeString_decodeZ_eq_some_iff.mp h

/-- Settles O18: a string that is long enough decodes in both forms, and a decoder answers every token that begins it. -/
theorem everyStringSpellsExactlyOneToken : Obligations.EveryStringSpellsExactlyOneToken := fun _ _ h =>
  ⟨spells_exactly_one decodeE_eq_some_iff (decodeE_isSome h),
    spells_exactly_one decodeZ_eq_some_iff (decodeZ_isSome (by omega))⟩

/-- Settles O15: the decoder evaluated on the words and strings. -/
theorem spelledOutCodesDecode : Obligations.SpelledOutCodesDecode := by
  unfold Obligations.SpelledOutCodesDecode
  decide

end Sys2Proof
end

section
/-! PROOF. The step runs the instruction that stands next: the CMD word that HOST writes, the token that BITSRC's answers spell,
the opcode table's word that has been placed (R110, R113, R125, R256; log 1, log 14). -/

namespace Sys2Proof.Machine

/-! ## A due write of CMD -/

/-- While BUSY a command changes nothing (R31, R256, R268). -/
theorem exec_cmd_busy {s : State} {i : Instr} (hb : s.busy = true) (hf : i.form = .cmd) : exec i s = .next s := by
  cases i <;> cases hf
  case decodeCoefs => rw [exec, execDecodeCoefs, accept_busy hb]
  case decodeBlock => rw [exec, execDecodeBlock, accept_busy hb]
  case softReset => exact if_pos hb

/-- A write of CMD runs the command the word decodes to, while BUSY too (R31, R110, R256). -/
theorem hostAct_writeCmd {s : State} {w : Word} {i : Instr} (hd : decodeCmd w = some i) :
    hostAct (.writeReg 0 w) s = exec i s := by
  cases hb : s.busy with
  | true => rw [hostAct_writeReg_busy hb, exec_cmd_busy hb (decodeCmd_eq_some_iff.mp hd).1]
  | false => simp [hostAct, writeReg, hb, command, hd]

theorem step_placeCommand {s : State} {w : Word} {i : Instr} (hd : decodeCmd w = some i) :
    step (placeCommand w s) = exec i s := by
  rw [step_host_moves (s := placeCommand w s) rfl (by simp [hostMoves]), hostAct_writeCmd hd]
  rfl

/-! ## The coming token -/

theorem step_of_fetch {s : State} {i : Instr} (hh : s.host = []) (ht : s.tokenSteps = true) (hf : fetch s = some i) :
    step s = exec i s := by
  simp [step, hh, ht, hf]

/-- Bits at the front of BITSRC's answers are the first ones answered (R7, R84). -/
theorem answeredBits_append {bs : List Bool} {n : Nat} (h : bs.length ≤ n) (as : List Answer) :
    answeredBits n (bs.map .bit ++ as) = bs ++ answeredBits (n - bs.length) as := by
  induction bs generalizing n with
  | nil => rfl
  | cons b bs ih =>
    cases n with
    | zero => cases h
    | succ n =>
      simp only [List.map_cons, List.cons_append, answeredBits, List.length_cons, Nat.add_sub_add_right,
        ih (Nat.le_of_succ_le_succ h)]

/-- No token has a longer string than `longestToken` counts (R121). -/
theorem length_encodeBits_le {m : Nat} {i : Instr} (hw : i.wf m = true) : (encodeBits i).length ≤ 13 + m := by
  cases i
  case cat6 a s | cat6Z a s =>
    obtain rfl : a.length = m := beq_iff_eq.mp hw
    simp only [encodeBits, List.length_append, List.length_cons, List.length_nil]
    omega
  all_goals
    simp only [encodeBits, List.length_append, List.length_cons, List.length_nil, length_msbFirst]
    omega

/-! ## The placed token -/

section
variable (n : Node) (bs : List Bool) (s : State)

@[simp] theorem placeToken_node : (placeToken n bs s).node = n := by
  unfold placeToken
  split
  · assumption
  · rfl

@[simp] theorem placeToken_par : (placeToken n bs s).par = s.par := by
  unfold placeToken
  split <;> rfl

/-- The answers that are looked at for a placed token begin with its string (log 14). -/
theorem answeredBits_placeToken {m : Nat} (hc : cat6Bits s.par = some m) (hl : bs.length ≤ 13 + m) :
    ∃ r, answeredBits (longestToken (placeToken n bs s)) (placeToken n bs s).answers = bs ++ r := by
  rw [longestToken, placeToken_par, hc]
  exact ⟨_, answeredBits_append hl _⟩

end

/-- At N_EOB the placed E-form token is the one that is fetched (R113). -/
theorem fetch_placeToken_eob {m : Nat} {s : State} {i : Instr} (hc : cat6Bits s.par = some m) (hf : i.form = .tokenE)
    (hw : i.wf m = true) : fetch (placeToken .eob (encodeBits i) s) = some i := by
  obtain ⟨r, hr⟩ := answeredBits_placeToken .eob (encodeBits i) s hc (length_encodeBits_le hw)
  have hd : decodeE (some m) (encodeBits i ++ r) = some (i, r) := decodeE_eq_some_iff.mpr ⟨hf, hw, rfl⟩
  simp [fetch, hr, hc, hd]

/-- At N_ZERO the placed Z-form token is the one that is fetched (R113). -/
theorem fetch_placeToken_zero {m : Nat} {s : State} {i : Instr} (hc : cat6Bits s.par = some m) (hf : i.form = .tokenZ)
    (hw : i.wf m = true) : fetch (placeToken .zero (encodeBits i) s) = some i := by
  obtain ⟨r, hr⟩ := answeredBits_placeToken .zero (encodeBits i) s hc (length_encodeBits_le hw)
  have hd : decodeZ (some m) (encodeBits i ++ r) = some (i, r) := decodeZ_eq_some_iff.mpr ⟨hf, hw, rfl⟩
  simp [fetch, hr, hc, hd]

/-! ## The opcode table's words -/

/-- A word of the opcode table is a CMD word or spells a token, in E-form or in Z-form (R125; log 15). -/
theorem decodeTableWord_cases {nbits w : Nat} {i : Instr} (h : decodeTableWord nbits w = some i) :
    decodeCmd (BitVec.ofNat 32 (w % 2 ^ nbits)) = some i ∨
      wholeString (decodeE (some 14) (tableString (w % 2 ^ nbits))) = some i ∨
      wholeString (decodeZ (some 14) (tableString (w % 2 ^ nbits))) = some i := by
  have token {x y : Option Instr} (h : (match x with | some j => some j | none => y) = some i) :
      x = some i ∨ y = some i := by
    cases x with
    | none => exact .inr h
    | some j => exact .inl h
  simp only [decodeTableWord] at h
  split at h
  · exact .inl h
  · split at h
    · split at h
      · next hc => exact .inl (hc.trans h)
      · exact .inr (token h)
    · exact .inr (token h)

theorem decodeCmd_of_decodeTableWord {nbits w : Nat} {i : Instr} (h : decodeTableWord nbits w = some i)
    (hf : i.form = .cmd) : decodeCmd (BitVec.ofNat 32 (w % 2 ^ nbits)) = some i := by
  obtain h | h | h := decodeTableWord_cases h
  · exact h
  · cases hf.symm.trans (wholeString_decodeE_eq_some_iff.mp h).1
  · cases hf.symm.trans (wholeString_decodeZ_eq_some_iff.mp h).1

/-- CAT6 has the table's 14 extra bits (R125). -/
theorem wf_of_decodeTableWord {nbits w : Nat} {i : Instr} (h : decodeTableWord nbits w = some i) : i.wf 14 = true := by
  obtain h | h | h := decodeTableWord_cases h
  · exact wf_of_form_cmd (decodeCmd_eq_some_iff.mp h).1
  · exact (wholeString_decodeE_eq_some_iff.mp h).2.1
  · exact (wholeString_decodeZ_eq_some_iff.mp h).2.1

/-- Where the word is a command's, HOST's write of it is placed (log 14). -/
theorem withFetchWord_cmd {s : State} {nbits w : Nat} {i : Instr} (h : decodeTableWord nbits w = some i)
    (hf : i.form = .cmd) : s.withFetchWord nbits w = placeCommand (BitVec.ofNat 32 (w % 2 ^ nbits)) s := by
  simp only [State.withFetchWord, placeWord, h, hf]

/-- Where the word is an E-form token's, its answers are placed at N_EOB (log 14). -/
theorem withFetchWord_tokenE {s : State} {nbits w : Nat} {i : Instr} (h : decodeTableWord nbits w = some i)
    (hf : i.form = .tokenE) : s.withFetchWord nbits w = placeToken .eob (encodeBits i) s := by
  simp only [State.withFetchWord, placeWord, h, hf]

/-- Where the word is a Z-form token's, its answers are placed at N_ZERO (log 14). -/
theorem withFetchWord_tokenZ {s : State} {nbits w : Nat} {i : Instr} (h : decodeTableWord nbits w = some i)
    (hf : i.form = .tokenZ) : s.withFetchWord nbits w = placeToken .zero (encodeBits i) s := by
  simp only [State.withFetchWord, placeWord, h, hf]

/-! ## The obligations -/

/-- Settles O22: the placed command is HOST's due write, the placed token is the one that is fetched. -/
theorem placedWordRunsItsInstruction : Obligations.PlacedWordRunsItsInstruction := by
  intro s nbits w i hc h
  have hw := wf_of_decodeTableWord h
  cases hf : i.form with
  | cmd =>
    rw [withFetchWord_cmd h hf]
    exact step_placeCommand (decodeCmd_of_decodeTableWord h hf)
  | tokenE =>
    rw [withFetchWord_tokenE h hf]
    exact step_of_fetch rfl rfl (fetch_placeToken_eob hc hf hw)
  | tokenZ =>
    rw [withFetchWord_tokenZ h hf]
    exact step_of_fetch rfl rfl (fetch_placeToken_zero hc hf hw)

/-- Settles O19: HOST's write is due at an idle CORE. -/
theorem stepRunsTheCommandWord : Obligations.StepRunsTheCommandWord := by
  intro s e rest w i hh he hn _ hd
  rw [step_host_moves hh (by simp [hostMoves, hn]), he, hostAct_writeCmd hd]

/-- Settles O20: the token the answers spell is the one that is fetched. -/
theorem stepRunsTheComingToken : Obligations.StepRunsTheComingToken := by
  rintro s i rest hh ht (⟨hn, hd⟩ | ⟨hn, hd⟩)
  · exact step_of_fetch hh ht (by simp [fetch, hn, hd])
  · exact step_of_fetch hh ht (by simp [fetch, hn, hd])

/-- Settles O24: the E-form script is the EOB node answering 1 before the Z-form script. -/
theorem eFormIsEobContinueThenZForm : Obligations.EFormIsEobContinueThenZForm := by
  intro l s hn
  rw [exec_rowOf_true, walk_cons hn (by decide), funext (exec_rowOf_false l)]

end Sys2Proof.Machine
end

section
/-! PROOF. CTXSEL: the rounded average of the classes of the two neighbours, and CTX alone is written (R144, R145, R147). -/

namespace Sys2Proof.Machine

/-! ## The rounded average -/

/-- A single neighbour, held twice, gives its own class (R145). -/
theorem average_self (a : BitVec 3) : average a a = a := by
  apply BitVec.eq_of_toNat_eq
  rw [average_toNat]
  omega

/-- CTX stays in 0..5 (R147). -/
theorem average_le_five {a b : BitVec 3} (ha : a.toNat ≤ 5) (hb : b.toNat ≤ 5) : (average a b).toNat ≤ 5 := by
  rw [average_toNat]
  omega

/-! ## CTXSEL -/

/-- CTXSEL writes CTX, where both neighbours are positions of the block (R144). -/
theorem ctxsel_eq_ok {s : State} {c : Nat} (h₀ : (nbAt s (2 * c)).toNat < me s) (h₁ : (nbAt s (2 * c + 1)).toNat < me s) :
    ctxsel c s = .ok (setCtx
      (average (tokClass s (nbAt s (2 * c)).toNat) (tokClass s (nbAt s (2 * c + 1)).toNat)) s) := by
  rw [ctxsel, neighbourPos_eq_ok.mpr ⟨h₀, rfl⟩, neighbourPos_eq_ok.mpr ⟨h₁, rfl⟩]

/-! ## The obligation -/

/-- Settles O42: CTX is the average of the two classes, with what the average gives for equal classes and for classes in 0..5. -/
theorem contextIsTheRoundedAverage : Obligations.ContextIsTheRoundedAverage := by
  intro s c h₀ h₁
  refine ⟨_, ctxsel_eq_ok h₀ h₁, average_toNat _ _, fun hn => ?_, average_le_five, rfl⟩
  rw [setCtx_ctx, ← hn, average_self]

end Sys2Proof.Machine
end

section
/-! PROOF. The tokens of the tree: EOB, ZERO, ONE, TWO, THREE and FOUR complete in both forms (R162 to R175). -/

namespace Sys2Proof.Machine

/-! ## Token EOB -/

/-- The state in which token EOB leaves the machine (R162). -/
def endedByEob (s : State) : State := finish s.c (setTok .eob (count .eobModel (countE (sent (.p (probOf s 0)) s))))

theorem exec_eob {s : State} (hn : s.node = .eob) (hr : InRow s) : exec .eob s = .next (endedByEob s) := by
  change walk [(.eob, false)] s = _
  rw [walk_cons hn (by decide), thenDo_walk_nil, visitWith, hn]
  exact nodeEob_eq_next.mpr ⟨hr, .inr (.inr ⟨rfl, rfl⟩)⟩

/-- Settles O25: token EOB is the one visit of N_EOB answered 0. -/
theorem eobTokenEndsTheBlock : Obligations.EobTokenEndsTheBlock := by
  intro s hn hr
  refine ⟨endedByEob s, exec_eob hn hr, finish_eob _ _, ?_, fun i => ?_, fun i => ?_, ?_, ?_, ?_, ?_⟩
  · simp [endedByEob]
  · simp only [endedByEob, cnteAt_finish, cnteAt_setTok, cnteAt_count]
    exact cnteAt_countE _ i
  · simp [endedByEob, cntcAt_count, Sym.num]
  · simp [endedByEob]
  · simp [endedByEob]
  · by_cases hk : s.cmdk = 1#1 <;> simp [endedByEob, hk]
  · unfold endedByEob finish count countE
    split <;> split <;> rfl

/-! ## A token completes where its store does -/

/-- `u` is `s` when the characters of the token `l` have been read and its store is still to come (R117, R27). -/
structure Resolved (l : Leaf) (s u : State) : Prop where
  frame : putBackWithin s u = s
  cnte : u.cnte = s.cnte
  requests : u.requests = (leafRequests s l).reverse ++ s.requests
  answers : u.answers = s.answers.drop (leafRequests s l).length
  magnitude : u.val = if l = .zero then s.val else leafMagnitude l
  prow : u.prow = leafProw s l
  xi : u.xi = leafXi s l
  acc : u.acc = leafAcc s l

/-- The store of a resolved token and the advance after it are what the rules say of the token in Z-form. -/
theorem Resolved.tokenDone {l : Leaf} {s u t : State} {v : Int} (hu : Resolved l s u)
    (hv : v = coefValue s (leafMagnitude l) (leafSign l))
    (hs : Stored (if l = .zero then .zero else .eob) (leafToken l) v u t) (htok : t.tok = leafToken l)
    (hovf : t.ovf = (s.ovf || decide (wrap s.par.coefW v ≠ v))) (hcount : t.cntc = (count (leafClass l) s).cntc) :
    TokenDone false l s t := by
  have hf := hu.frame
  have hpar : u.par = s.par := (congrArg State.par hf :)
  have hno : u.cmdNo = s.cmdNo := (congrArg State.cmdNo hf :)
  have hpos : position u = position s := (congrArg position hf :)
  have henergy : energyOf u = energyOf s := (congrArg energyOf hf :)
  have hcoef : u.coef = s.coef := (congrArg State.coef hf :)
  have htokc : u.tokc = s.tokc := (congrArg State.tokc hf :)
  have hafter : ∀ n, AfterToken n u t = AfterToken n s t := fun n => (congrArg (AfterToken n · t) hf :)
  have hput : putBack s t = s :=
    calc putBack s t = putBack s { putBackAdvance u t with coef := u.coef, tokc := u.tokc } := rfl
      _ = putBack s (putBackWithin s u) := by rw [hs.frame]; rfl
      _ = s := by rw [hf]; rfl
  have htpar : t.par = s.par := (congrArg State.par hput :)
  have hkeep {α : Type} (f : State → α) (ht : f t = f { putBackAdvance u t with coef := u.coef, tokc := u.tokc })
      (hu : f u = f { u with tok := t.tok, ovf := t.ovf, cntc := t.cntc }) : f t = f u := by rw [ht, hs.frame, hu]
  subst hv
  exact {
    coef := coefAt_insert (by rw [hs.coef, hpos, hcoef, hpar]) htpar
    token := tokClass_of_insert (by rw [hs.tokc, hpos, htokc, hno, henergy]) (congrArg State.cmdNo hput :)
    overflow := hovf
    classCount := fun i => by rw [← cntcAt_count, cntcAt, cntcAt, hcount, htpar, count_par]
    eobCount := fun i => by simp [cnteAt, (hkeep State.cnte rfl rfl).trans hu.cnte, htpar]
    requests := (hkeep State.requests rfl rfl).trans hu.requests
    answers := (hkeep State.answers rfl rfl).trans hu.answers
    tok := htok
    magnitude := (hkeep State.val rfl rfl).trans hu.magnitude
    prow := (hkeep State.prow rfl rfl).trans hu.prow
    xi := (hkeep State.xi rfl rfl).trans hu.xi
    acc := (hkeep State.acc rfl rfl).trans hu.acc
    after := hafter _ ▸ hs.after
    frame := hput }

/-- A non-zero token completes in Z-form where its script leads to N_SIGN with TOK and VAL known and its class counted. -/
theorem Resolved.completes {l : Leaf} {s u : State} (hu : Resolved l s (sent .raw u)) (hl : l ≠ .zero) (hp : PlaceReady s)
    (hw : walk (leafScript l) s = walk [(.sign, leafSign l)] u) (hn : u.node = .sign) (htok : u.tok = leafToken l)
    (hcount : u.cntc = (count (leafClass l) s).cntc) : Completes false l s := by
  have hf := hu.frame
  have hplace : PlaceReady u = PlaceReady s := (congrArg PlaceReady hf :)
  have hpar : u.par = s.par := (congrArg State.par hf :)
  have hovf : u.ovf = s.ovf := (congrArg State.ovf hf :)
  have hvalue : ∀ m, coefValue u m (leafSign l) = coefValue s m (leafSign l) :=
    fun m => (congrArg (coefValue · m (leafSign l)) hf :)
  have hval : u.val = leafMagnitude l := by simpa [hl] using hu.magnitude
  obtain ⟨t, ht, hs, ht₁, ht₂, ht₃⟩ := nodeSign_done (hplace ▸ hp) (leafSign l)
  rw [hval, hvalue] at hs ht₂
  rw [htok] at hs ht₁
  refine ⟨t, ?_, hu.tokenDone rfl (by rwa [if_neg hl]) ht₁ (by rw [ht₂, hpar, hovf]) (ht₃.trans hcount)⟩
  rw [exec_rowOf_false, hw, walk_cons hn (by decide), thenDo_walk_nil, visitWith, hn]
  exact ht

/-! ## The E-form -/

/-- The state in which the answer 1 of N_EOB leaves the machine (R161). -/
def continued (s : State) : State := goto .zero (countE (sent (.p (probOf s 0)) s))

theorem visitWith_eob_true {s : State} (hn : s.node = .eob) (hr : InRow s) :
    visitWith (.bit true) s = .next (continued s) := by
  rw [visitWith, hn]
  exact nodeEob_eq_next.mpr ⟨hr, .inr (.inl ⟨rfl, rfl⟩)⟩

theorem cnteAt_continued (s : State) (i : Nat) :
    cnteAt (continued s) i =
      if s.fpar = 0#1 ∧ i = rowIndex s then (cnteAt s i + 1) % 2 ^ s.par.cntW else cnteAt s i :=
  cnteAt_countE (sent _ s) i

theorem continued_eq (s : State) :
    continued s = { s with
      node := .zero
      cnte := (continued s).cnte
      requests := .p (probOf s 0) :: s.requests
      answers := s.answers.tail } := by
  unfold continued countE
  split <;> rfl

/-- What a token in Z-form does after the answer 1 of N_EOB is what it does in E-form (R113). -/
theorem TokenDone.eForm {l : Leaf} {s t : State} (h : TokenDone false l (continued s) t) : TokenDone true l s t := by
  have hreq : rowRequests false (continued s) l = leafRequests s l := by rw [continued_eq]; rfl
  have hrequests : t.requests = (rowRequests true s l).reverse ++ s.requests := by
    rw [h.requests, hreq]; simp [rowRequests, continued]
  have hanswers : t.answers = s.answers.drop (rowRequests true s l).length := by
    rw [h.answers, hreq]; simp [rowRequests, continued]
  have hcount := h.eobCount
  rw [continued_eq] at h
  exact {
    coef := h.coef
    token := h.token
    overflow := h.overflow
    classCount := h.classCount
    eobCount := fun i => by simp [hcount, cnteAt_continued]
    requests := hrequests
    answers := hanswers
    tok := h.tok
    magnitude := h.magnitude
    prow := h.prow
    xi := h.xi
    acc := h.acc
    after := h.after
    frame := (congrArg (putBack s) h.frame :) }

/-- A token completes in either form where it completes in Z-form, at N_ZERO: the E-form comes there with the answer 1 of N_EOB,
and SCAN, NB, PROB and the current row are as before (R113, R161). -/
theorem completes_of_zForm {eForm : Bool} {l : Leaf} {s : State} (hn : s.node = startNode eForm) (hr : InRow s)
    (hp : PlaceReady s)
    (h : ∀ z, z.node = .zero → InRow z → PlaceReady z → (ParetoReady s → ParetoReady z) → Completes false l z) :
    Completes eForm l s := by
  cases eForm with
  | false => exact h s hn hr hp id
  | true =>
    obtain ⟨t, ht, hd⟩ : Completes false l (continued s) := by
      apply h <;> rw [continued_eq]
      · exact hr
      · exact hp
      · exact id
    refine ⟨t, ?_, hd.eForm⟩
    rw [eFormIsEobContinueThenZForm l s hn, visitWith_eob_true hn hr]
    exact ht

/-! ## Token ZERO -/

theorem resolved_zero (s : State) : Resolved .zero s (sent (.p (probOf s 1)) s) :=
  ⟨rfl, rfl, rfl, by simp [leafRequests], rfl, rfl, rfl, rfl⟩

theorem zeroToken_completes {s : State} (hn : s.node = .zero) (hr : InRow s) (hp : PlaceReady s) :
    Completes false .zero s := by
  obtain ⟨t, ht, hs, htok, hovf, hcount⟩ := zeroToken_done (s := sent (.p (probOf s 1)) s) hp
  have hv : (0 : Int) = coefValue s 0 false := by simp [coefValue]
  have h0 : wrap s.par.coefW 0 = 0 := by simp [wrap, sext]
  refine ⟨t, ?_, (resolved_zero s).tokenDone hv hs htok (by simp [hovf, h0]) (by simp [hcount, count_sent, leafClass])⟩
  rw [exec_rowOf_false, leafScript, walk_cons hn (by decide), thenDo_walk_nil, visitWith, hn]
  exact nodeZero_eq_next.mpr ⟨hr, .inr (.inr ⟨rfl, ht⟩)⟩

/-- Settles O26: the visit of N_ZERO answered 0, behind the answer 1 of N_EOB in E-form. -/
theorem zeroTokenCompletes : Obligations.ZeroTokenCompletes :=
  fun _ _ hn hr hp => completes_of_zForm hn hr hp fun _ hn hr hp _ => zeroToken_completes hn hr hp

/-! ## Scripts, node by node -/

theorem count_goto (y : Sym) (n : Node) (s : State) : count y (goto n s) = goto n (count y s) := by
  rw [count, count, apply_ite (goto n)]
  rfl

/-- One item of a script at a node other than N_CAT6, whose visit answers a next state. -/
theorem walk_visit {n : Node} {b : Bool} {rest : List (Node × Bool)} {s t : State} (hn : s.node = n) (h6 : n ≠ .cat6)
    (ht : visitWith (.bit b) s = .next t) : walk ((n, b) :: rest) s = walk rest t := by
  rw [walk_cons hn h6, ht, thenDo_next]

/-- The state in which the answer 1 of N_ZERO leaves the machine (R163). -/
def pastZero (s : State) : State := goto .one (sent (.p (probOf s 1)) s)

theorem walk_zero_true {rest : List (Node × Bool)} {s : State} (hn : s.node = .zero) (hr : InRow s) :
    walk ((.zero, true) :: rest) s = walk rest (pastZero s) :=
  walk_visit hn (by decide) (by rw [visitWith, hn]; exact nodeZero_eq_next.mpr ⟨hr, .inr (.inl ⟨rfl, rfl⟩)⟩)

/-- N_ONE answered 0 (R166). -/
theorem walk_one_false {rest : List (Node × Bool)} {s : State} (hn : s.node = .one) (hr : InRow s) :
    walk ((.one, false) :: rest) s = walk rest (resolve .one 1 (count .one (sent (.p (probOf s 2)) s))) :=
  walk_visit hn (by decide) (by
    rw [visitWith, hn]; exact nodeOne_eq_next.mpr ⟨hr, .inr (.inr (.inr ⟨rfl, rfl⟩))⟩)

/-- N_ONE answered 1, where the pareto row exists (R166). -/
theorem walk_one_true {rest : List (Node × Bool)} {s : State} (hn : s.node = .one) (hr : InRow s) (hq : ParetoReady s) :
    walk ((.one, true) :: rest) s =
      walk rest (selectRow (probOf s 2) (count .twoPlus (sent (.p (probOf s 2)) s))) :=
  walk_visit hn (by decide) (by
    rw [visitWith, hn]; exact nodeOne_eq_next.mpr ⟨hr, .inr (.inl ⟨rfl, hq, rfl⟩)⟩)

/-- N_LOWVAL (R169). -/
theorem walk_lowval {b : Bool} {rest : List (Node × Bool)} {s : State} (hn : s.node = .lowval) :
    walk ((.lowval, b) :: rest) s = walk rest (goto (if b then .highlow else .two) (sent (.p (parSel s 0)) s)) :=
  walk_visit hn (by decide) (by rw [visitWith, hn]; exact nodeLowval_eq_next.mpr (.inr ⟨b, rfl, rfl⟩))

/-- N_TWO (R171). -/
theorem walk_two {b : Bool} {rest : List (Node × Bool)} {s : State} (hn : s.node = .two) :
    walk ((.two, b) :: rest) s =
      walk rest (if b then goto .three (sent (.p (parSel s 1)) s) else resolve .two 2 (sent (.p (parSel s 1)) s)) :=
  walk_visit hn (by decide) (by rw [visitWith, hn]; exact nodeTwo_eq_next.mpr (.inr ⟨b, rfl, rfl⟩))

/-- N_THREE (R173). -/
theorem walk_three {b : Bool} {rest : List (Node × Bool)} {s : State} (hn : s.node = .three) :
    walk ((.three, b) :: rest) s =
      walk rest (if b then resolve .four 4 (sent (.p (parSel s 2)) s) else resolve .three 3 (sent (.p (parSel s 2)) s)) :=
  walk_visit hn (by decide) (by rw [visitWith, hn]; exact nodeThree_eq_next.mpr (.inr ⟨b, rfl, rfl⟩))

/-! ## Token ONE -/

/-- The state in which the characters of token ONE before its sign leave the machine (R166, R167). -/
def oneRead (s : State) : State := resolve .one 1 (count .one (sent (.p (probOf s 2)) (pastZero s)))

theorem resolved_one (neg : Bool) (s : State) : Resolved (.one neg) s (sent .raw (oneRead s)) where
  frame := by unfold oneRead count; split <;> rfl
  cnte := by simp [oneRead, pastZero]
  requests := by simp [oneRead, pastZero, leafRequests]
  answers := by simp [oneRead, pastZero, leafRequests, -List.drop_one, ← List.drop_one]
  magnitude := rfl
  prow := by simp [oneRead, pastZero, leafProw, isLarge, leafClass]
  xi := by simp [oneRead, pastZero, leafXi]
  acc := by simp [oneRead, pastZero, leafAcc]

theorem oneToken_completes {s : State} (neg : Bool) (hn : s.node = .zero) (hr : InRow s) (hp : PlaceReady s) :
    Completes false (.one neg) s := by
  refine (resolved_one neg s).completes nofun hp ?_ rfl rfl
    (by simp [oneRead, pastZero, leafClass, count_sent, count_goto])
  rw [leafScript, walk_zero_true hn hr, walk_one_false (s := pastZero s) rfl hr]
  rfl

/-- Settles O27: N_ZERO answered 1, N_ONE answered 0 and the sign, in E-form behind the answer 1 of N_EOB. -/
theorem oneTokenCompletes : Obligations.OneTokenCompletes :=
  fun _ neg _ hn hr hp => completes_of_zForm hn hr hp fun _ hn hr hp _ => oneToken_completes neg hn hr hp

/-! ## Tokens TWO, THREE and FOUR -/

/-- The state in which the answers 1 of N_ZERO and of N_ONE leave the machine, where the pareto row exists (R166). -/
def largeRead (s : State) : State := selectRow (probOf s 2) (count .twoPlus (sent (.p (probOf s 2)) (pastZero s)))

theorem walk_large {rest : List (Node × Bool)} {s : State} (hn : s.node = .zero) (hr : InRow s) (hq : ParetoReady s) :
    walk ((.zero, true) :: (.one, true) :: rest) s = walk rest (largeRead s) := by
  rw [walk_zero_true hn hr, walk_one_true (s := pastZero s) rfl hr hq]
  rfl

theorem largeRead_eq (s : State) :
    largeRead s = { s with
      node := .lowval
      prow := probOf s 2 - 1
      cntc := (count .twoPlus s).cntc
      requests := .p (probOf s 2) :: .p (probOf s 1) :: s.requests
      answers := s.answers.tail.tail } := by
  rw [largeRead, pastZero, count_sent, count_goto, count_sent]
  unfold count
  split <;> rfl

/-- The request of a selecting node in a token past N_ONE is the one of R117 for the row that N_ONE selected. -/
theorem parSel_largeRead (s : State) (j : Nat) : .p (parSel (largeRead s) j) = paretoRequest s j := by
  rw [largeRead_eq]
  rfl

/-- The state in which the answers 1, 1, 0 of N_ZERO, N_ONE and N_LOWVAL leave the machine (R169). -/
def lowRead (s : State) : State := goto .two (sent (paretoRequest s 0) (largeRead s))

theorem walk_low {rest : List (Node × Bool)} {s : State} (hn : s.node = .zero) (hr : InRow s) (hq : ParetoReady s) :
    walk ((.zero, true) :: (.one, true) :: (.lowval, false) :: rest) s = walk rest (lowRead s) := by
  rw [walk_large hn hr hq, walk_lowval rfl, parSel_largeRead]
  rfl

/-- The state in which the characters of token TWO before its sign leave the machine (R172). -/
def twoRead (s : State) : State := resolve .two 2 (sent (paretoRequest s 1) (lowRead s))

theorem resolved_two (neg : Bool) (s : State) : Resolved (.two neg) s (sent .raw (twoRead s)) := by
  rw [twoRead, lowRead, largeRead_eq]
  exact ⟨rfl, rfl, rfl, by simp [leafRequests, -List.drop_one, ← List.drop_one], rfl, rfl, rfl, rfl⟩

theorem twoToken_completes {s : State} (neg : Bool) (hn : s.node = .zero) (hr : InRow s) (hp : PlaceReady s)
    (hq : ParetoReady s) : Completes false (.two neg) s := by
  refine (resolved_two neg s).completes nofun hp ?_ rfl rfl (by rw [twoRead, lowRead, largeRead_eq]; rfl)
  rw [leafScript, walk_low hn hr hq, walk_two rfl]
  simp [twoRead, lowRead, parSel_largeRead, leafSign]

/-- The state in which the characters before the sign leave the machine in token THREE (`k` = THREE, `m` = 3) or FOUR (R173). -/
def threeRead (k : Token) (m : Nat) (s : State) : State :=
  resolve k m (sent (paretoRequest s 2) (goto .three (sent (paretoRequest s 1) (lowRead s))))

theorem walk_three_or_four {b : Bool} {rest : List (Node × Bool)} {s : State} (hn : s.node = .zero) (hr : InRow s)
    (hq : ParetoReady s) :
    walk ((.zero, true) :: (.one, true) :: (.lowval, false) :: (.two, true) :: (.three, b) :: rest) s =
      walk rest (if b then threeRead .four 4 s else threeRead .three 3 s) := by
  rw [walk_low hn hr hq, walk_two rfl, if_pos rfl, walk_three rfl]
  simp [threeRead, lowRead, parSel_largeRead]

theorem resolved_three (neg : Bool) (s : State) : Resolved (.three neg) s (sent .raw (threeRead .three 3 s)) := by
  rw [threeRead, lowRead, largeRead_eq]
  exact ⟨rfl, rfl, rfl, by simp [leafRequests, -List.drop_one, ← List.drop_one], rfl, rfl, rfl, rfl⟩

theorem resolved_four (neg : Bool) (s : State) : Resolved (.four neg) s (sent .raw (threeRead .four 4 s)) := by
  rw [threeRead, lowRead, largeRead_eq]
  exact ⟨rfl, rfl, rfl, by simp [leafRequests, -List.drop_one, ← List.drop_one], rfl, rfl, rfl, rfl⟩

theorem threeRead_cntc (k : Token) (m : Nat) (s : State) : (threeRead k m s).cntc = (count .twoPlus s).cntc := by
  rw [threeRead, lowRead, largeRead_eq]
  rfl

theorem threeToken_completes {s : State} (neg : Bool) (hn : s.node = .zero) (hr : InRow s) (hp : PlaceReady s)
    (hq : ParetoReady s) : Completes false (.three neg) s :=
  (resolved_three neg s).completes nofun hp (walk_three_or_four (b := false) hn hr hq) rfl rfl (threeRead_cntc _ _ s)

theorem fourToken_completes {s : State} (neg : Bool) (hn : s.node = .zero) (hr : InRow s) (hp : PlaceReady s)
    (hq : ParetoReady s) : Completes false (.four neg) s :=
  (resolved_four neg s).completes nofun hp (walk_three_or_four (b := true) hn hr hq) rfl rfl (threeRead_cntc _ _ s)

/-- Settles O28: N_ZERO and N_ONE answered 1 select the row, N_LOWVAL, N_TWO and N_THREE the token, in E-form behind the answer 1
of N_EOB. -/
theorem lowValueTokensComplete : Obligations.LowValueTokensComplete := fun _ neg _ hn hr hp hq =>
  ⟨completes_of_zForm hn hr hp fun _ hn hr hp hz => twoToken_completes neg hn hr hp (hz hq),
   completes_of_zForm hn hr hp fun _ hn hr hp hz => threeToken_completes neg hn hr hp (hz hq),
   completes_of_zForm hn hr hp fun _ hn hr hp hz => fourToken_completes neg hn hr hp (hz hq)⟩

end Sys2Proof.Machine
end

section
/-! PROOF. The transition table of the tree (R176), the abort of an exhausted source with it (R282). -/

namespace Sys2Proof.Machine

/-! ## An exhausted source -/

/-- Where the source is exhausted, a visit that asks it does nothing but ask and abort (R86, R282). -/
theorem visitWith_exhausted {s t : State} {r : Request} (hr : visitRequest s = some r)
    (h : visitWith .exhausted s = .next t) : t = raise .bitstreamExhausted (sent r s) := by
  cases hn : s.node <;>
    simp only [visitWith, visitRequest, hn, Option.some.injEq, reduceCtorEq] at h hr
  case eob =>
    obtain ⟨-, ⟨-, ht⟩ | ⟨⟨⟩, -⟩ | ⟨⟨⟩, -⟩⟩ := nodeEob_eq_next.mp h
    rw [ht, hr]
  case zero =>
    obtain ⟨-, ⟨-, ht⟩ | ⟨⟨⟩, -⟩ | ⟨⟨⟩, -⟩⟩ := nodeZero_eq_next.mp h
    rw [ht, hr]
  case one =>
    obtain ⟨-, ⟨-, ht⟩ | ⟨⟨⟩, -⟩ | ⟨⟨⟩, -⟩ | ⟨⟨⟩, -⟩⟩ := nodeOne_eq_next.mp h
    rw [ht, hr]
  case extra =>
    obtain ⟨p, hp, ⟨-, ht⟩ | ⟨b, ⟨⟩, -⟩⟩ := nodeExtra_eq_next.mp h
    rw [hp] at hr
    rw [ht, Option.some.inj hr]
  case cat6 =>
    obtain ⟨hp, -⟩ | ⟨hp, -⟩ | ⟨p, hp, hne, ⟨-, ht⟩ | ⟨b, ⟨⟩, -⟩⟩ := nodeCat6_eq_next.mp h
    · simp [hp] at hr
    · simp [hp] at hr
    · simp [hp, hne] at hr
      rw [ht, hr]
  all_goals exact hr ▸ next_inj.mp h

/-! ## The rows of the table -/

/-- The node after the end of a block: N_WB for DECODE_BLOCK, N_IDLE for DECODE_COEFS (R258). -/
def blockEnd (s : State) : Node := if s.cmdk = 1#1 then .wb else .idle

/-- After a store C is advanced, and the block is full or the node `n` follows (R224). -/
theorem advance_follows {n : Node} {s v t : State} (hc : v.c = s.c) (hm : me v = me s) (hk : v.cmdk = s.cmdk)
    (hlt : s.c.toNat < me s) (h : advance n v = .next t) :
    t.c = s.c + 1#11 ∧ if s.c.toNat + 1 < me s then t.node = n else t.node = blockEnd s ∧ t.eob.toNat = me s := by
  have hi : (nextIndex v).c.toNat = s.c.toNat + 1 := by
    rw [nextIndex_c, hc]
    exact c_succ (hlt.trans_le (me_le s))
  rw [advance_eq_next, hi, hm] at h
  obtain ⟨hl, -, -, rfl⟩ | ⟨hl, rfl⟩ := h
  · rw [if_pos hl]
    exact ⟨congrArg (· + 1#11) hc, rfl⟩
  · rw [if_neg hl]
    refine ⟨by simp [hc], by simp [blockEnd, hk], ?_⟩
    rw [finish_eob]
    exact ofNat_me s

/-- A node that picks its next state by the answer picks the one of the bit it is given. -/
theorem eq_of_picked {b : Bool} {t u : State} {f : Bool → State}
    (h : (Answer.bit b = .exhausted ∧ t = u) ∨ ∃ b', Answer.bit b = .bit b' ∧ t = f b') : t = f b := by
  obtain ⟨⟨⟩, -⟩ | ⟨_, ⟨⟩, ht⟩ := h
  exact ht

/-- Settles O35: the table's rows, node by node, from what each node's visit leaves. -/
theorem visitsFollowTheTransitionTable : Obligations.VisitsFollowTheTransitionTable := by
  refine ⟨fun s t ha hr h => ?_, fun s b t ha h => ?_⟩
  · obtain ⟨r, hr⟩ := Option.ne_none_iff_exists'.mp hr
    rw [visit, ha] at h
    rw [visitWith_exhausted hr h]
    exact ⟨rfl, rfl⟩
  rw [visit, ha] at h
  cases hn : s.node <;> simp only [visitWith, hn] at h ⊢
  case idle => exact next_inj.mp h
  case eob =>
    obtain ⟨-, ⟨⟨⟩, -⟩ | ⟨⟨⟩, rfl⟩ | ⟨⟨⟩, rfl⟩⟩ := nodeEob_eq_next.mp h
    · rfl
    · simp
  case zero =>
    obtain ⟨-, ⟨⟨⟩, -⟩ | ⟨⟨⟩, rfl⟩ | ⟨⟨⟩, hz⟩⟩ := nodeZero_eq_next.mp h
    · rfl
    · obtain ⟨hlt, -, hadv⟩ := zeroToken_eq_next.mp hz
      have hlt : s.c.toNat < me s := hlt
      obtain ⟨hc, hnext⟩ := advance_follows (by simp [zeroStored]) (by simp [zeroStored]) (by simp [zeroStored]) hlt hadv
      refine ⟨hc, ?_⟩
      split at hnext
      · rwa [if_neg (by omega)]
      · rwa [if_pos (by omega)]
  case one =>
    obtain ⟨-, ⟨⟨⟩, -⟩ | ⟨⟨⟩, hq, rfl⟩ | ⟨⟨⟩, hq, rfl⟩ | ⟨⟨⟩, rfl⟩⟩ := nodeOne_eq_next.mp h
    · exact ⟨fun _ => rfl, fun hn => absurd hq hn⟩
    · exact ⟨fun hy => absurd hy hq, fun _ => ⟨rfl, rfl⟩⟩
    · exact ⟨rfl, rfl⟩
  case lowval => rw [eq_of_picked (nodeLowval_eq_next.mp h)]; cases b <;> rfl
  case two => rw [eq_of_picked (nodeTwo_eq_next.mp h)]; cases b <;> simp
  case three => rw [eq_of_picked (nodeThree_eq_next.mp h)]; cases b <;> exact ⟨rfl, rfl⟩
  case highlow => rw [eq_of_picked (nodeHighlow_eq_next.mp h)]; cases b <;> rfl
  case catone => rw [eq_of_picked (nodeCatone_eq_next.mp h)]; cases b <;> exact ⟨rfl, rfl⟩
  case cat34 => rw [eq_of_picked (nodeCat34_eq_next.mp h)]; cases b <;> rfl
  case catthree => rw [eq_of_picked (nodeCatthree_eq_next.mp h)]; cases b <;> exact ⟨rfl, rfl⟩
  case catfive => rw [eq_of_picked (nodeCatfive_eq_next.mp h)]; cases b <;> exact ⟨rfl, rfl⟩
  case extra =>
    obtain ⟨p, -, h⟩ := nodeExtra_eq_next.mp h
    rw [eq_of_picked h]
    rfl
  case cat6 =>
    obtain ⟨hp, rfl⟩ | ⟨hp, rfl⟩ | ⟨p, hp, hne, h⟩ := nodeCat6_eq_next.mp h
    · simp [hp]
    · simp [hp]
    · rw [eq_of_picked h]; simp [hp, hne]
  case sign =>
    obtain ⟨⟨⟩, -⟩ | ⟨neg, -, hlt, -, h⟩ := nodeSign_eq_next.mp h
    exact advance_follows (by simp) (by simp) (by simp) hlt h
  case wb =>
    obtain ⟨-, -, rfl⟩ := nodeWb_eq_next.mp h
    rfl
  case entry =>
    obtain ⟨-, -, rfl⟩ := nodeEntry_eq_next.mp h
    rfl

end Sys2Proof.Machine
end

section
/-! PROOF. Where the obligations hold, every visit keeps them (R147, R326, R327, R330). -/

namespace Sys2Proof.Machine

/-! ## What the obligations give at a token -/

/-- SCAN and NB of a launched command are readable at the current scan index and at the next (R24, R326, R327). -/
theorem Lawful.placeReady {s : State} (h : Lawful s) (hw : walking s.node = true) : PlaceReady s := by
  have hl := (h.running (node_ne_of_walking hw rfl)).launched
  refine ⟨h.c_lt hw, hl.scan.1 _ (h.c_lt hw), fun hc => ?_⟩
  obtain ⟨⟨i, hi, hni⟩, ⟨j, hj, hnj⟩⟩ := hl.nb _ (Nat.le_add_left 1 _) hc
  rw [hni, hnj]
  exact ⟨hl.scan.1 i (by omega), hl.scan.1 j (by omega)⟩

/-- The running command has written a class in 0..5 at the positions of the scan indices below `n` (R46, R330). -/
def WrittenBelow (n : Nat) (s : State) : Prop :=
  ∀ j < n, ∃ e, Memory.lookup s.tokc (scanAt s j).toNat = some e ∧ e.cmd = s.cmdNo ∧ e.cls.toNat ≤ 5

theorem WrittenBelow.class_le {n j : Nat} {s : State} (h : WrittenBelow n s) (hj : j < n) :
    (tokClass s (scanAt s j).toNat).toNat ≤ 5 := by
  obtain ⟨e, hl, hc, he⟩ := h j hj
  rw [tokClass, hl]
  simpa [hc] using he

/-- A store writes the class of the current scan index (R224). -/
theorem WrittenBelow.placed {ans : Answer} {s v : State} (h : WrittenBelow s.c.toNat s) (ho : Obliged s)
    (hv : Placed ans s v) : WrittenBelow (s.c.toNat + 1) v := by
  obtain ⟨u, k, z, o, hu, rfl⟩ := hv.stored
  have htokc : u.tokc = s.tokc := (congrArg State.tokc hu.frame :)
  have hno : u.cmdNo = s.cmdNo := (congrArg State.cmdNo hu.frame :)
  have henergy : energyOf u k = energyOf s k := (congrArg (energyOf · k) hu.frame :)
  have hscan : scanAt u = scanAt s := (congrArg scanAt hu.frame :)
  intro j hj
  change ∃ e, Memory.lookup (Memory.insert u.tokc (position s) ⟨energyOf u k, u.cmdNo⟩) (scanAt u j).toNat = some e ∧
    e.cmd = u.cmdNo ∧ e.cls.toNat ≤ 5
  rw [Memory.lookup_insert, htokc, hno, henergy, hscan]
  split
  · exact ⟨_, rfl, rfl, ho.energies k⟩
  · next hne =>
    refine h j (Nat.lt_of_le_of_ne (Nat.le_of_lt_succ hj) fun hjc => hne ?_)
    rw [hjc, position]

/-- RESELECT at a scan index above 0 whose neighbours are written leaves CTX and BAND in 0..5 (R147, R327, R330). -/
theorem inRow_reselected {s : State} (ho : Obliged s) (hnb : NbLegal s) (hw : WrittenBelow s.c.toNat s) (h1 : 1 ≤ s.c.toNat)
    (hc : s.c.toNat < me s) : InRow (reselected s) := by
  obtain ⟨⟨i, hi, hni⟩, ⟨j, hj, hnj⟩⟩ := hnb _ h1 hc
  refine ⟨ho.bands _ hc, average_le_five ?_ ?_⟩
  · rw [hni]; exact hw.class_le hi
  · rw [hnj]; exact hw.class_le hj

/-- The context of N_ENTRY counts two sides (R261). -/
theorem entryContext_le (s : State) : (entryContext s).toNat ≤ 5 := by
  have h₁ := (anySet (ctxaAt s) s.aoff.toNat (footprint s.txsize)).toNat_le
  have h₂ := (anySet (ctxlAt s) s.loff.toNat (footprint s.txsize)).toNat_le
  rw [entryContext, BitVec.toNat_ofNat]
  omega

/-! ## The invariant of a run -/

theorem Obliged.of_frame {s t : State} (h : Obliged s) (hf : putBackVisit s t = s) : Obliged t where
  bands := by
    have hm : me t = me s := (congrArg me hf :)
    have hb : bandAt t = bandAt s := (congrArg bandAt hf :)
    rw [hm, hb]
    exact h.bands
  energies := by
    have he : energyOf t = energyOf s := (congrArg energyOf hf :)
    rw [he]
    exact h.energies

/-- Outside the nodes 1 to 14 only the tables' obligation is left. -/
theorem decoding_of_outside {s : State} (hl : Lawful s) (ho : Obliged s) (hn : walking s.node = false) : Decoding s :=
  ⟨hl, ho, fun hw => absurd hw (by simp [hn]), fun hw => absurd hw (by simp [hn])⟩

theorem walking_finish (e : BitVec 11) (s : State) : walking (finish e s).node = false := by
  rw [finish_node]
  split <;> rfl

/-- A visit keeps the obligations and what they give. -/
theorem Decoding.visit {s t : State} (h : Decoding s) (hv : visit s = .next t) : Decoding t := by
  have hc := visit_cases hv
  have hl : Lawful t := h.lawful.visit hv
  have ho : Obliged t := h.obliged.of_frame hc.frame
  cases hc with
  | rest _ ht => exact ht ▸ h
  | abort u e _ _ _ ht => exact decoding_of_outside hl ho (ht ▸ rfl)
  | ends u _ _ ht => exact decoding_of_outside hl ho (ht ▸ walking_finish _ _)
  | fills v _ _ ht => exact decoding_of_outside hl ho (ht ▸ walking_finish _ _)
  | writesBack _ _ _ ht => exact decoding_of_outside hl ho (ht ▸ rfl)
  | move hn ht =>
    have hrow : InRow t = InRow s := (congrArg InRow ht.within.frame :)
    have hw : ∀ n, WrittenBelow n t = WrittenBelow n s := fun n => (congrArg (WrittenBelow n) ht.within.frame :)
    have hidx : t.c = s.c := (congrArg State.c ht.within.frame :)
    exact ⟨hl, ho, fun _ => hrow ▸ h.inRow hn, fun _ => by
      rw [hidx]; exact (hw _).mpr (h.written hn)⟩
  | goesOn v n hp _ hlt ht =>
    have hn : walking s.node = true := by obtain ⟨hn, -⟩ | ⟨hn, -⟩ := hp.node <;> rw [hn] <;> rfl
    have hidx := hp.nextIndex_toNat
    have hw : WrittenBelow (nextIndex v).c.toNat (nextIndex v) :=
      hidx ▸ (WrittenBelow.placed (h.written hn) h.obliged hp :)
    have hob : Obliged (nextIndex v) := h.obliged.of_frame hp.frameVisit
    have hnb : NbLegal (nextIndex v) :=
      ((h.lawful.running (node_ne_of_walking hn rfl)).launched.nextIndex_placed hp).nb
    have hm : me (nextIndex v) = me s := hp.me_eq
    exact ⟨hl, ho, fun _ => ht ▸ inRow_reselected hob hnb hw (by omega) (by omega), fun _ => ht ▸ hw⟩
  | enters hn ht =>
    have hidx : t.c = 0#11 := ht ▸ (h.lawful.entry hn).1
    refine ⟨hl, ho, fun _ => ?_, fun _ j hj => ?_⟩
    · rw [ht]
      exact ⟨h.obliged.bands 0 (Nat.lt_of_lt_of_le (by decide) (me_pos s)), entryContext_le s⟩
    · rw [hidx] at hj
      exact absurd hj (Nat.not_lt_zero j)

end Sys2Proof.Machine
end

section
/-! PROOF. A block of zeros (R165): behind the one answer 1 of N_EOB, ZERO tokens to the end of the block. -/

namespace Sys2Proof.Machine

/-- A visit of N_ZERO answered 0 is the ZERO token in Z-form. -/
theorem visit_zero_false {s : State} (h : Decoding s) (hn : s.node = .zero) (ha : nextAnswer s = .bit false) :
    ∃ t, visit s = .next t ∧ TokenDone false .zero s t := by
  have hw : walking s.node = true := hn ▸ rfl
  obtain ⟨t, ht, hd⟩ := zeroToken_completes hn (h.inRow hw) (h.lawful.placeReady hw)
  rw [exec_rowOf_false, leafScript, walk_cons hn (by decide), thenDo_walk_nil] at ht
  exact ⟨t, by rw [visit, ha, ht], hd⟩

/-- `t` is `z` after `n` ZERO tokens in Z-form (R163, R165). -/
structure ZeroRun (n : Nat) (z t : State) : Prop where
  frame : putBack z t = z
  requests : t.requests.length = z.requests.length + n
  answers : t.answers = z.answers.drop n
  eobCount : ∀ i, cnteAt t i = cnteAt z i
  eobModel : ∀ r, cntcAt t (r * z.par.nsym + 3) = cntcAt z (r * z.par.nsym + 3)
  zeros : ∀ j, z.c.toNat ≤ j → j < z.c.toNat + n → coefAt t (scanAt z j).toNat = 0
  keeps : ∀ p, coefAt z p = 0 → coefAt t p = 0

/-- The elements of CNTC for EOB_MODEL are none of those for ZERO (R244). -/
theorem eobModel_ne_zero {n : Nat} (h : 4 ≤ n) (r q : Nat) : r * n + 3 ≠ q * n + 0 := by
  intro he
  have := congrArg (· % n) he
  simp [Nat.mod_eq_of_lt h] at this

theorem TokenDone.zeroRun {z t : State} (h : TokenDone false .zero z t) (hp : ParamsLegal z.par) : ZeroRun 1 z t where
  frame := h.frame
  requests := by simp [h.requests, rowRequests, leafRequests]
  answers := h.answers
  eobCount := fun i => by simp [h.eobCount i]
  eobModel := fun r => by
    rw [h.classCount, if_neg]
    exact fun he => eobModel_ne_zero hp.nsym _ _ he.2
  zeros := fun j h1 h2 => by
    obtain rfl : j = z.c.toNat := by omega
    rw [h.coef, position, if_pos rfl]
    simp [coefValue, leafMagnitude, leafSign, wrap, sext]
  keeps := fun p hp => by
    rw [h.coef, hp]
    simp [coefValue, leafMagnitude, leafSign, wrap, sext]

theorem ZeroRun.cons {n : Nat} {z y t : State} (h : ZeroRun 1 z y) (hc : y.c.toNat = z.c.toNat + 1) (ht : ZeroRun n y t) :
    ZeroRun (n + 1) z t := by
  have hpar : y.par = z.par := (congrArg State.par h.frame :)
  have hscan : scanAt y = scanAt z := (congrArg scanAt h.frame :)
  have hmodel := ht.eobModel
  have hzeros := ht.zeros
  rw [hpar] at hmodel
  rw [hscan, hc] at hzeros
  exact {
    frame := by
      have : putBack z t = putBack z (putBack y t) := rfl
      rw [this, ht.frame, h.frame]
    requests := by rw [ht.requests, h.requests]; omega
    answers := by rw [ht.answers, h.answers, List.drop_drop, Nat.add_comm]
    eobCount := fun i => (ht.eobCount i).trans (h.eobCount i)
    eobModel := fun r => (hmodel r).trans (h.eobModel r)
    zeros := fun j h1 h2 => by
      obtain rfl | hlt := Nat.eq_or_lt_of_le h1
      · exact ht.keeps _ (h.zeros _ le_rfl (by omega))
      · exact hzeros j hlt (by omega)
    keeps := fun p hp => ht.keeps p (h.keeps p hp) }

/-- The block of `z` is full in `t` (R165, R258). -/
def BlockFull (z t : State) : Prop :=
  t.eob.toNat = me z ∧ if z.cmdk = 1#1 then t.node = .wb else t.node = .idle ∧ t.done = true

theorem AfterToken.blockFull {n : Node} {z t : State} (h : AfterToken n z t) (hc : z.c.toNat + 1 = me z) : BlockFull z t := by
  obtain ⟨-, h⟩ := h
  rw [if_neg (by omega)] at h
  obtain ⟨he, -, -, h⟩ := h
  refine ⟨he, ?_⟩
  split at h
  · next hk => rw [if_pos hk]; exact h.1
  · next hk => rw [if_neg hk]; exact ⟨h.1, h.2.2⟩

/-- As many answers 0 as there are scan indices left fill the block with zeros. -/
theorem runVisits_zeros {n : Nat} {rest : List Answer} {z : State} (h : Decoding z) (hn : z.node = .zero)
    (hc : z.c.toNat + (n + 1) = me z) (ha : z.answers = List.replicate (n + 1) (.bit false) ++ rest) :
    ∃ t, runVisits (n + 1) z = .next t ∧ ZeroRun (n + 1) z t ∧ BlockFull z t := by
  induction n generalizing z with
  | zero =>
    obtain ⟨t, ht, hd⟩ := visit_zero_false h hn (by simp [nextAnswer, ha])
    exact ⟨t, by rw [runVisits_one, ht], hd.zeroRun h.lawful.par, hd.after.blockFull hc⟩
  | succ n ih =>
    obtain ⟨y, hy, hd⟩ := visit_zero_false h hn (by simp [nextAnswer, ha, List.replicate_succ])
    have hm : me y = me z := (congrArg me hd.frame :)
    have hk : y.cmdk = z.cmdk := (congrArg State.cmdk hd.frame :)
    obtain ⟨hyc, hnext⟩ := hd.after
    rw [if_pos (by omega)] at hnext
    have hya : y.answers = List.replicate (n + 1) (.bit false) ++ rest := by
      rw [hd.answers, ha]
      simp [rowRequests, leafRequests, List.replicate_succ]
    obtain ⟨t, ht, hz, hf⟩ := ih (h.visit hy) hnext.1 (by omega) hya
    refine ⟨t, by rw [runVisits, hy, thenDo_next, ht], (hd.zeroRun h.lawful.par).cons hyc hz, ?_⟩
    rwa [BlockFull, hm, hk] at hf

theorem visit_eob_true {s : State} (h : Decoding s) (hn : s.node = .eob) (ha : nextAnswer s = .bit true) :
    visit s = .next (continued s) := by
  rw [visit, ha]
  exact visitWith_eob_true hn (h.inRow (hn ▸ rfl))

/-- Settles O51: the answer 1 of N_EOB, and then the ZERO tokens of the whole block. -/
theorem trailingZeroRunEndsAtMaxEob : Obligations.TrailingZeroRunEndsAtMaxEob := by
  intro s rest h hn hc ha
  have hvisit := visit_eob_true h hn (by simp [nextAnswer, ha])
  obtain ⟨n, hme⟩ : ∃ n, me s = n + 1 := ⟨me s - 1, by have := me_pos s; omega⟩
  have hans : (continued s).answers = List.replicate (me s) (.bit false) ++ rest := by
    rw [continued_eq, ha]
    rfl
  obtain ⟨t, ht, hz, heob, hend⟩ := runVisits_zeros (n := n) (rest := rest) (h.visit hvisit) rfl
    (by simp [continued, hc, hme]) (hme ▸ hans)
  rw [← hme] at ht hz
  have hzeros := hz.zeros
  have hmodel := hz.eobModel
  have hreq := hz.requests
  rw [continued_eq] at heob hend hzeros hmodel hreq
  refine ⟨t, by rw [runVisits, hvisit, thenDo_next, ht], heob, ?_, ?_, fun i => ?_, fun r => ?_, fun j hj => ?_, hend⟩
  · rw [hz.answers, hans]
    simp
  · rw [hreq, List.length_cons]
    omega
  · rw [hz.eobCount, cnteAt_continued]
  · exact hmodel r
  · exact hzeros j (by simp [hc]) (by simpa [hc] using hj)

end Sys2Proof.Machine
end

section
/-! PROOF. One visit of each reader of extra bits: N_EXTRA for CAT1 to CAT5, N_CAT6 for CAT6 (R203, R206, R285). -/

namespace Sys2Proof.Machine

/-! ## N_EXTRA -/

/-- What CATP answers inside its range is the entry of the row of the category (R203). -/
theorem catp_entry_of_catpSel {s : State} {k i : Nat} {p : Prob} (h : catpSel s k i = .ok p) :
    (s.par.catp[k - 1]?.bind fun row => row[i]?) = some p := by
  unfold catpSel at h
  split at h
  · next hr =>
    rw [Vector.getElem?_eq_getElem (by omega), Option.bind_some, Vector.getElem?_eq_getElem (by omega)]
    exact congrArg some (Except.ok.inj h)
  · cases h

/-- N_EXTRA at an extra bit that CATP has an entry for (R203). -/
theorem visitWith_extra_bit {s : State} {p : Prob} (hn : s.node = .extra) (hp : catpSel s (category s) s.xi = .ok p)
    (b : Bool) : visitWith (.bit b) s = .next (takeExtra (category s) b (sent (.p p) s)) := by
  rw [visitWith, hn]
  exact nodeExtra_eq_next.mpr ⟨p, hp, .inr ⟨b, rfl, rfl⟩⟩

theorem visitWith_extra_exhausted {s : State} {p : Prob} (hn : s.node = .extra)
    (hp : catpSel s (category s) s.xi = .ok p) :
    visitWith .exhausted s = .next (raise .bitstreamExhausted (sent (.p p) s)) := by
  rw [visitWith, hn]
  exact nodeExtra_eq_next.mpr ⟨p, hp, .inl ⟨rfl, rfl⟩⟩

/-- The place value of an extra bit (R203). -/
theorem bit_shiftLeft (b : Bool) (k : Nat) : b.toNat <<< k = if b then 2 ^ k else 0 := by
  cases b
  · exact Nat.zero_shiftLeft k
  · exact Nat.one_shiftLeft k

/-- Settles O36: CATP has the entry, and the visit takes the bit at its place value or is aborted. -/
theorem extraBitsAreReadMostSignificantFirst : Obligations.ExtraBitsAreReadMostSignificantFirst := by
  intro s hn h1 h5 hx
  obtain ⟨p, hp⟩ := catpSel_eq_ok (s := s) ⟨h1, h5, hx⟩
  have hentry := catp_entry_of_catpSel hp
  rw [visit]
  cases nextAnswer s with
  | bit b =>
    exact ⟨p, _, hentry, visitWith_extra_bit hn hp b, rfl, rfl, congrArg (s.val + ·) (bit_shiftLeft b _), rfl, rfl, rfl⟩
  | exhausted => exact ⟨p, _, hentry, visitWith_extra_exhausted hn hp, rfl, rfl, rfl, rfl, rfl, rfl⟩

/-! ## N_CAT6 -/

/-- N_CAT6 at an entry that is not the terminator (R206). -/
theorem visitWith_cat6_bit {s : State} {p : Prob} (hn : s.node = .cat6) (hp : s.par.cat6p[s.xi]? = some p) (h0 : p ≠ 0)
    (b : Bool) : visitWith (.bit b) s = .next (takeCat6 b (sent (.p p) s)) := by
  rw [visitWith, hn]
  exact nodeCat6_eq_next.mpr (.inr (.inr ⟨p, hp, h0, .inr ⟨b, rfl, rfl⟩⟩))

/-- N_CAT6 at the terminator asks nothing, whatever the source would answer (R206). -/
theorem visitWith_cat6_terminator {s : State} (hn : s.node = .cat6) (hp : s.par.cat6p[s.xi]? = some 0) (ans : Answer) :
    visitWith ans s = .next (endCat6 s) := by
  rw [visitWith, hn]
  exact nodeCat6_eq_next.mpr (.inr (.inl ⟨hp, rfl⟩))

/-- N_CAT6 past the last entry of CAT6P (R285). -/
theorem visitWith_cat6_cap {s : State} (hn : s.node = .cat6) (hp : s.par.cat6p[s.xi]? = none) (ans : Answer) :
    visitWith ans s = .next (raise .malformedCategory6 s) := by
  rw [visitWith, hn]
  exact nodeCat6_eq_next.mpr (.inl ⟨hp, rfl⟩)

theorem visitWith_cat6_exhausted {s : State} {p : Prob} (hn : s.node = .cat6) (hp : s.par.cat6p[s.xi]? = some p)
    (h0 : p ≠ 0) : visitWith .exhausted s = .next (raise .bitstreamExhausted (sent (.p p) s)) := by
  rw [visitWith, hn]
  exact nodeCat6_eq_next.mpr (.inr (.inr ⟨p, hp, h0, .inl ⟨rfl, rfl⟩⟩))

/-- Settles O37: the entry of CAT6P at XI, and the answer where it is not zero, give the four outcomes. -/
theorem cat6LoopAccumulatesUntilTheTerminator : Obligations.Cat6LoopAccumulatesUntilTheTerminator := by
  intro s hn
  refine ⟨fun p b hp h0 ha => ?_, fun p hp h0 ha => ?_, fun hp => ?_, fun hx hb => ?_⟩
  · rw [visit, ha, visitWith_cat6_bit hn hp h0]
    simp [takeCat6, sent, hn]
  · rw [visit, ha, visitWith_cat6_exhausted hn hp h0]
    exact ⟨_, rfl, rfl, rfl, rfl, rfl, rfl⟩
  · exact visitWith_cat6_terminator hn hp _
  · refine ⟨_, visitWith_cat6_cap hn (by simp [hx]) _, ?_, rfl, rfl⟩
    exact {
      err := rfl
      enode := by simp [hb, hn]
      ec := by simp [hb]
      status := ⟨rfl, rfl⟩
      node := rfl
      coef := rfl
      tokc := rfl
      contexts := ⟨rfl, rfl⟩
      eob := rfl
      c := rfl }

end Sys2Proof.Machine
end

section
/-! PROOF. The category tokens: CAT1 to CAT6 complete in both forms with every operand (R190 to R213). -/

namespace Sys2Proof.Machine

/-! ## The selecting nodes -/

/-- The state of a token past N_ONE when CORE has come to the node `n` by the selecting nodes that ask par[j], `j` in `js`
(R169, R191 to R199). -/
def selecting (n : Node) (js : List Nat) (s : State) : State :=
  { largeRead s with
    node := n
    requests := (js.map (paretoRequest s)).reverse ++ (largeRead s).requests
    answers := (largeRead s).answers.drop js.length }

theorem selecting_eq (n : Node) (js : List Nat) (s : State) :
    selecting n js s = { s with
      node := n
      prow := probOf s 2 - 1
      cntc := (count .twoPlus s).cntc
      requests := (js.map (paretoRequest s)).reverse ++ .p (probOf s 2) :: .p (probOf s 1) :: s.requests
      answers := s.answers.tail.tail.drop js.length } := by
  rw [selecting, largeRead_eq]

theorem goto_selecting (n m : Node) (js : List Nat) (s : State) : goto n (selecting m js s) = selecting n js s := rfl

/-- The requests and the answers of a selecting node (R117). -/
theorem sent_selecting (n : Node) (js : List Nat) (j : Nat) (s : State) :
    sent (.p (parSel (selecting n js s) j)) (selecting n js s) = selecting n (js ++ [j]) s := by
  have hp : Request.p (parSel (selecting n js s) j) = paretoRequest s j := parSel_largeRead s j
  rw [hp]
  simp [sent, selecting]

/-- The nodes N_ZERO, N_ONE and N_LOWVAL of a category token (R190). -/
theorem walk_high {rest : List (Node × Bool)} {s : State} (hn : s.node = .zero) (hr : InRow s) (hq : ParetoReady s) :
    walk ((.zero, true) :: (.one, true) :: (.lowval, true) :: rest) s = walk rest (selecting .highlow [0] s) := by
  have h : largeRead s = selecting .lowval [] s := by rw [selecting_eq, largeRead_eq]; rfl
  rw [walk_large hn hr hq, walk_lowval rfl, h, sent_selecting, goto_selecting]
  rfl

section
variable {b : Bool} {rest : List (Node × Bool)} {s : State}

/-- N_HIGHLOW (R191). -/
theorem walk_highlow (hn : s.node = .highlow) :
    walk ((.highlow, b) :: rest) s = walk rest (goto (if b then .cat34 else .catone) (sent (.p (parSel s 3)) s)) :=
  walk_visit hn (by decide) (by rw [visitWith, hn]; exact nodeHighlow_eq_next.mpr (.inr ⟨b, rfl, rfl⟩))

/-- N_CATONE (R193). -/
theorem walk_catone (hn : s.node = .catone) :
    walk ((.catone, b) :: rest) s = walk rest
      (if b then startExtra .cat2 2 (sent (.p (parSel s 4)) s) else startExtra .cat1 1 (sent (.p (parSel s 4)) s)) :=
  walk_visit hn (by decide) (by rw [visitWith, hn]; exact nodeCatone_eq_next.mpr (.inr ⟨b, rfl, rfl⟩))

/-- N_CAT34 (R195). -/
theorem walk_cat34 (hn : s.node = .cat34) :
    walk ((.cat34, b) :: rest) s = walk rest (goto (if b then .catfive else .catthree) (sent (.p (parSel s 5)) s)) :=
  walk_visit hn (by decide) (by rw [visitWith, hn]; exact nodeCat34_eq_next.mpr (.inr ⟨b, rfl, rfl⟩))

/-- N_CATTHREE (R197). -/
theorem walk_catthree (hn : s.node = .catthree) :
    walk ((.catthree, b) :: rest) s = walk rest
      (if b then startExtra .cat4 4 (sent (.p (parSel s 6)) s) else startExtra .cat3 3 (sent (.p (parSel s 6)) s)) :=
  walk_visit hn (by decide) (by rw [visitWith, hn]; exact nodeCatthree_eq_next.mpr (.inr ⟨b, rfl, rfl⟩))

/-- N_CATFIVE (R199). -/
theorem walk_catfive (hn : s.node = .catfive) :
    walk ((.catfive, b) :: rest) s = walk rest
      (if b then startCat6 (sent (.p (parSel s 7)) s) else startExtra .cat5 5 (sent (.p (parSel s 7)) s)) :=
  walk_visit hn (by decide) (by rw [visitWith, hn]; exact nodeCatfive_eq_next.mpr (.inr ⟨b, rfl, rfl⟩))

variable (hn : s.node = .zero) (hr : InRow s) (hq : ParetoReady s)
include hn hr hq

/-- The selecting nodes of CAT1 and CAT2 (R208, R209). -/
theorem walk_cat1_or_cat2 :
    walk ((.zero, true) :: (.one, true) :: (.lowval, true) :: (.highlow, false) :: (.catone, b) :: rest) s =
      walk rest (if b then startExtra .cat2 2 (selecting .catone [0, 3, 4] s)
        else startExtra .cat1 1 (selecting .catone [0, 3, 4] s)) := by
  rw [walk_high hn hr hq, walk_highlow rfl, sent_selecting, goto_selecting, walk_catone rfl,
    if_neg Bool.false_ne_true, sent_selecting]
  rfl

/-- The selecting nodes of CAT3 and CAT4 (R210, R211). -/
theorem walk_cat3_or_cat4 :
    walk ((.zero, true) :: (.one, true) :: (.lowval, true) :: (.highlow, true) :: (.cat34, false) :: (.catthree, b) :: rest)
        s =
      walk rest (if b then startExtra .cat4 4 (selecting .catthree [0, 3, 5, 6] s)
        else startExtra .cat3 3 (selecting .catthree [0, 3, 5, 6] s)) := by
  rw [walk_high hn hr hq, walk_highlow rfl, sent_selecting, goto_selecting, walk_cat34 rfl, if_pos rfl, sent_selecting,
    goto_selecting, walk_catthree rfl, if_neg Bool.false_ne_true, sent_selecting]
  rfl

/-- The selecting nodes of CAT5 and CAT6 (R212, R213). -/
theorem walk_cat5_or_cat6 :
    walk ((.zero, true) :: (.one, true) :: (.lowval, true) :: (.highlow, true) :: (.cat34, true) :: (.catfive, b) :: rest)
        s =
      walk rest (if b then startCat6 (selecting .catfive [0, 3, 5, 7] s)
        else startExtra .cat5 5 (selecting .catfive [0, 3, 5, 7] s)) := by
  rw [walk_high hn hr hq, walk_highlow rfl, sent_selecting, goto_selecting, walk_cat34 rfl, if_pos rfl, sent_selecting,
    goto_selecting, walk_catfive rfl, sent_selecting]
  rfl

end

/-! ## The extra bits of CAT1 to CAT5 -/

/-- The first extra bit is the most significant (R118). -/
theorem bitsValue_cons (b : Bool) (bs : List Bool) : bitsValue (b :: bs) = b.toNat <<< bs.length + bitsValue bs := by
  induction bs using List.reverseRecOn with
  | nil => simp [bitsValue]
  | append_singleton bs c ih =>
    rw [← List.cons_append, bitsValue_append_singleton, bitsValue_append_singleton, ih, List.length_append,
      List.length_singleton, Nat.shiftLeft_succ]
    omega

/-- The state in which `bits`, the extra bits still to be read of the category number k + 1, leave the machine (R203). -/
def extraRead (k : Fin 5) (bits : List Bool) (s : State) : State :=
  { s with
    node := .sign
    val := s.val + bitsValue bits
    xi := k + 1
    requests := ((catpRequests s k (k + 1)).drop s.xi).reverse ++ s.requests
    answers := s.answers.drop bits.length }

/-- The request for the extra bit at XI, ahead of those for the later ones (R117). -/
theorem catpRequests_drop {s : State} {k : Fin 5} {p : Prob} (hx : s.xi < k + 1)
    (hp : catpSel s (k + 1) s.xi = .ok p) :
    (catpRequests s k (k + 1)).drop s.xi = .p p :: (catpRequests s k (k + 1)).drop (s.xi + 1) := by
  have h := catp_entry_of_catpSel hp
  rw [Nat.add_sub_cancel, Vector.getElem?_eq_getElem k.isLt, Option.bind_some] at h
  rw [List.drop_eq_getElem_cons (by simpa [catpRequests] using hx)]
  simp [catpRequests, h]

/-- N_EXTRA for each bit still to be read, up to N_SIGN (R203). -/
theorem walk_extra {k : Fin 5} {bits : List Bool} {rest : List (Node × Bool)} {s : State}
    (hn : s.node = if s.xi = k + 1 then .sign else .extra) (hk : category s = k + 1) (hx : s.xi + bits.length = k + 1) :
    walk (bits.map (fun b => (.extra, b)) ++ rest) s = walk rest (extraRead k bits s) := by
  induction bits generalizing s with
  | nil =>
    have hx : s.xi = k + 1 := hx
    have hreq : (catpRequests s k (k + 1)).drop s.xi = [] := by simp [catpRequests, hx]
    rw [if_pos hx] at hn
    rw [extraRead, hreq, ← hn, ← hx]
    rfl
  | cons b bs ih =>
    rw [List.length_cons] at hx
    have hlt : s.xi < k + 1 := by omega
    rw [if_neg hlt.ne] at hn
    obtain ⟨p, hp⟩ := catpSel_eq_ok (s := s) (k := k + 1) ⟨by omega, by omega, hlt⟩
    have ht := visitWith_extra_bit hn (hk ▸ hp) b
    rw [hk] at ht
    have hplace : k - s.xi = bs.length := by omega
    rw [List.map_cons, List.cons_append, walk_visit hn (by decide) ht,
      ih (s := takeExtra (k + 1) b (sent (.p p) s)) rfl hk (by rw [takeExtra_xi, sent_xi]; omega)]
    congr 1
    rw [extraRead, extraRead, catpRequests_drop hlt hp, bitsValue_cons]
    simp [takeExtra, sent, catpRequests, hplace, Nat.add_assoc]

/-- What the tables of the spec say of a token of CAT1 to CAT5: of the category number k + 1, with the extra bits `a`, selected by
the nodes that ask par[j], `j` in `js` (R114, R117, R190). -/
structure CategoryRow (l : Leaf) (k : Fin 5) (a : BitVec (k + 1)) (js : List Nat) : Prop where
  number : (leafToken l).num.val - 4 = k + 1
  magnitude : leafMagnitude l = catMin (k + 1) + a.toNat
  counted : leafClass l = .twoPlus
  requests : ∀ s, leafRequests s l =
    [.p (probOf s 1), .p (probOf s 2)] ++ js.map (paretoRequest s) ++ catpRequests s k (k + 1) ++ [.raw]
  xi : ∀ s, leafXi s l = k + 1
  acc : ∀ s, leafAcc s l = s.acc

/-- The characters before the sign of a token of CAT1 to CAT5 leave what its row says (R190, R203). -/
theorem CategoryRow.resolved {l : Leaf} {k : Fin 5} {a : BitVec (k + 1)} {js : List Nat} (h : CategoryRow l k a js)
    (hl : l ≠ .zero) (n : Node) (s : State) :
    Resolved l s (sent .raw (extraRead k (msbFirst a) (startExtra (leafToken l) (k + 1) (selecting n js s)))) := by
  rw [selecting_eq]
  exact {
    frame := rfl
    cnte := rfl
    requests := by simp [h.requests, sent, extraRead, startExtra, catpRequests]
    answers := by simp +arith [h.requests, sent, extraRead, startExtra, catpRequests]
    magnitude := by
      rw [if_neg hl, h.magnitude, ← bitsValue_msbFirst a]
      rfl
    prow := by simp [leafProw, isLarge, h.counted, extraRead, startExtra]
    xi := (h.xi s).symm
    acc := (h.acc s).symm }

/-- A token of CAT1 to CAT5 completes in Z-form where its selecting nodes come to N_EXTRA. -/
theorem CategoryRow.completes {l : Leaf} {k : Fin 5} {a : BitVec (k + 1)} {js : List Nat} {n : Node} {s : State}
    (h : CategoryRow l k a js) (hp : PlaceReady s)
    (hw : walk (leafScript l) s =
      walk (extraScript a ++ [(.sign, leafSign l)]) (startExtra (leafToken l) (k + 1) (selecting n js s))) :
    Completes false l s := by
  have hl : l ≠ .zero := by
    rintro rfl
    cases h.counted
  refine (h.resolved hl n s).completes hl hp ?_ rfl rfl ?_
  · rw [hw, extraScript]
    exact walk_extra rfl h.number (by simp)
  · rw [selecting_eq, h.counted]
    rfl

section
variable {s : State} (neg : Bool) (hn : s.node = .zero) (hr : InRow s) (hp : PlaceReady s) (hq : ParetoReady s)
include hn hr hp hq

theorem cat1Token_completes (a : BitVec 1) : Completes false (.cat1 a neg) s :=
  CategoryRow.completes (k := 0) (a := a) (js := [0, 3, 4]) (n := .catone)
    ⟨rfl, rfl, rfl, fun _ => rfl, fun _ => rfl, fun _ => rfl⟩ hp (walk_cat1_or_cat2 hn hr hq)

theorem cat2Token_completes (a : BitVec 2) : Completes false (.cat2 a neg) s :=
  CategoryRow.completes (k := 1) (a := a) (js := [0, 3, 4]) (n := .catone)
    ⟨rfl, rfl, rfl, fun _ => rfl, fun _ => rfl, fun _ => rfl⟩ hp (walk_cat1_or_cat2 hn hr hq)

theorem cat3Token_completes (a : BitVec 3) : Completes false (.cat3 a neg) s :=
  CategoryRow.completes (k := 2) (a := a) (js := [0, 3, 5, 6]) (n := .catthree)
    ⟨rfl, rfl, rfl, fun _ => rfl, fun _ => rfl, fun _ => rfl⟩ hp (walk_cat3_or_cat4 hn hr hq)

theorem cat4Token_completes (a : BitVec 4) : Completes false (.cat4 a neg) s :=
  CategoryRow.completes (k := 3) (a := a) (js := [0, 3, 5, 6]) (n := .catthree)
    ⟨rfl, rfl, rfl, fun _ => rfl, fun _ => rfl, fun _ => rfl⟩ hp (walk_cat3_or_cat4 hn hr hq)

theorem cat5Token_completes (a : BitVec 5) : Completes false (.cat5 a neg) s :=
  CategoryRow.completes (k := 4) (a := a) (js := [0, 3, 5, 7]) (n := .catfive)
    ⟨rfl, rfl, rfl, fun _ => rfl, fun _ => rfl, fun _ => rfl⟩ hp (walk_cat5_or_cat6 hn hr hq)

end

/-- Settles O29: the selecting nodes, N_EXTRA for each extra bit and the sign, in E-form behind the answer 1 of N_EOB. -/
theorem categoryTokensComplete : Obligations.CategoryTokensComplete := by
  intro eForm neg s hn hr hp hq
  refine ⟨fun a => ?_, fun a => ?_, fun a => ?_, fun a => ?_, fun a => ?_⟩ <;>
    refine completes_of_zForm hn hr hp fun z hn hr hp hz => ?_
  · exact cat1Token_completes neg hn hr hp (hz hq) a
  · exact cat2Token_completes neg hn hr hp (hz hq) a
  · exact cat3Token_completes neg hn hr hp (hz hq) a
  · exact cat4Token_completes neg hn hr hp (hz hq) a
  · exact cat5Token_completes neg hn hr hp (hz hq) a

/-! ## The extra bits of CAT6 -/

/-- The state in which the extra bits `a` of CAT6 leave the machine (R206). -/
def cat6Read (a : List Bool) (s : State) : State :=
  { s with
    node := .cat6
    acc := a.foldl (fun v b => 2 * v + b.toNat) s.acc
    xi := s.xi + a.length
    requests := (((s.par.cat6p.drop s.xi).take a.length).map .p).reverse ++ s.requests
    answers := s.answers.drop a.length }

/-- N_CAT6 for each extra bit that the table has an entry for (R206). -/
theorem walk_cat6 {a : List Bool} {rest : List (Node × Bool)} {s : State} (hn : s.node = .cat6)
    (hx : s.xi + a.length ≤ s.par.cat6p.length)
    (h0 : ∀ i, s.xi ≤ i → i < s.xi + a.length → s.par.cat6p[i]? ≠ some 0) :
    walk (cat6Script a ++ rest) s = walk rest (cat6Read a s) := by
  induction a generalizing s with
  | nil => rw [cat6Read, ← hn]; rfl
  | cons b bs ih =>
    rw [List.length_cons] at hx h0
    have hlt : s.xi < s.par.cat6p.length := by omega
    have hp := List.getElem?_eq_getElem hlt
    have hne : s.par.cat6p[s.xi] ≠ 0 := fun h => h0 s.xi (Nat.le_refl _) (by omega) (h ▸ hp)
    have hasks : cat6AsksNothing s = false := by simp [cat6AsksNothing, hp, hne]
    have hstep : walk (cat6Script (b :: bs) ++ rest) s =
        walk (cat6Script bs ++ rest) (takeCat6 b (sent (.p s.par.cat6p[s.xi]) s)) := by
      rw [cat6Script, List.map_cons, List.cons_append, walk, settle_of_asks hasks, thenDo_next, if_pos hn,
        visitWith_cat6_bit hn hp hne, thenDo_next]
      rfl
    rw [hstep, ih (s := takeCat6 b (sent (.p s.par.cat6p[s.xi]) s)) rfl (by simp; omega)
      fun i h1 h2 => h0 i (Nat.le_of_succ_le h1) (by simp at h2; omega)]
    simp [cat6Read, takeCat6, sent, List.drop_eq_getElem_cons hlt, -List.getElem_cons_drop, Nat.add_assoc, Nat.add_comm 1]

/-- The terminator stands between the last extra bit and the sign, and asks nothing (R206). -/
theorem walk_terminator {n : Node} {b : Bool} {rest : List (Node × Bool)} {s : State} (hn : s.node = .cat6)
    (h0 : s.par.cat6p[s.xi]? = some 0) :
    walk ((n, b) :: rest) s = walk ((n, b) :: rest) (endCat6 s) := by
  have hasks : cat6AsksNothing s = true := by simp [cat6AsksNothing, hn, h0]
  rw [walk, walk, settle_eq_visit hasks, visit, visitWith_cat6_terminator hn h0,
    settle_of_asks (cat6AsksNothing_of_ne (by simp))]

/-- The terminator stands at index m, and no entry below it is zero (R119). -/
theorem terminator_of_cat6Bits {par : Params} {m : Nat} (h : cat6Bits par = some m) :
    par.cat6p[m]? = some 0 ∧ ∀ i < m, par.cat6p[i]? ≠ some 0 := by
  obtain ⟨hm, h0, hlt⟩ := List.findIdx?_eq_some_iff_getElem.mp h
  refine ⟨List.getElem?_eq_some_iff.mpr ⟨hm, by simpa using h0⟩, fun i hi he => ?_⟩
  obtain ⟨_, he⟩ := List.getElem?_eq_some_iff.mp he
  exact hlt i hi (beq_iff_eq.mpr he)

/-- The state in which the characters of token CAT6 before its sign leave the machine (R213). -/
def cat6TokenRead (a : List Bool) (s : State) : State :=
  endCat6 (cat6Read a (startCat6 (selecting .catfive [0, 3, 5, 7] s)))

theorem resolved_cat6 {a : List Bool} {s : State} (neg : Bool) (ha : a.length ≤ s.par.cat6p.length) :
    Resolved (.cat6 a neg) s (sent .raw (cat6TokenRead a s)) := by
  rw [cat6TokenRead, selecting_eq]
  exact {
    frame := rfl
    cnte := rfl
    requests := by simp [sent, endCat6, cat6Read, startCat6, leafRequests, cat6Requests]
    answers := by simp +arith [sent, endCat6, cat6Read, startCat6, leafRequests, cat6Requests, ha]
    magnitude := rfl
    prow := rfl
    xi := by simp [cat6Read, startCat6, endCat6, leafXi]
    acc := rfl }

theorem cat6Token_completes {a : List Bool} {s : State} (neg : Bool) (hn : s.node = .zero) (hr : InRow s)
    (hp : PlaceReady s) (hq : ParetoReady s) (hm : cat6Bits s.par = some a.length) : Completes false (.cat6 a neg) s := by
  obtain ⟨hend, hbelow⟩ := terminator_of_cat6Bits hm
  have hlen : a.length < s.par.cat6p.length := (List.getElem?_eq_some_iff.mp hend).1
  refine (resolved_cat6 neg hlen.le).completes nofun hp ?_ rfl rfl (by rw [cat6TokenRead, selecting_eq]; rfl)
  refine (walk_cat5_or_cat6 (b := true) hn hr hq).trans ?_
  rw [if_pos rfl]
  refine (walk_cat6 rfl ?_ ?_).trans (walk_terminator rfl ?_) <;> rw [selecting_eq]
  · simpa using hlen.le
  · simpa using hbelow
  · simpa [cat6Read] using hend

/-- A token completes in E-form where it completes in Z-form after the answer 1 of N_EOB (R113). -/
theorem completes_of_continued {l : Leaf} {s : State} (hn : s.node = .eob) (hr : InRow s)
    (h : Completes false l (continued s)) : Completes true l s := by
  obtain ⟨t, ht, hd⟩ := h
  refine ⟨t, ?_, hd.eForm⟩
  rw [eFormIsEobContinueThenZForm l s hn, visitWith_eob_true hn hr]
  exact ht

/-- Settles O30: the selecting nodes, N_CAT6 for each extra bit and for the terminator, and the sign, in E-form behind the answer 1
of N_EOB. -/
theorem cat6TokenCompletes : Obligations.Cat6TokenCompletes := by
  intro eForm a neg s hn hr hp hq hm
  cases eForm with
  | false => exact cat6Token_completes neg hn hr hp hq hm
  | true =>
    apply completes_of_continued hn hr
    rw [continued_eq]
    exact cat6Token_completes neg rfl hr hp hq hm

end Sys2Proof.Machine
end

section
/-! PROOF. The stored coefficient: wrapping to COEF_W bits and OVF (43_dequant.md). -/

namespace Sys2Proof.Machine

/-- R10: wrap_N changes a number by a multiple of 2^N. -/
theorem two_pow_dvd_sub_wrap (n : Nat) (v : Int) : ((2 ^ n : Nat) : Int) ∣ v - wrap n v :=
  Int.ModEq.dvd (wrap_emod n v)

/-- R223: OVF is set exactly outside the range of the numbers of N bits. -/
theorem overflows_iff {n : Nat} (hn : 1 ≤ n) {v : Int} :
    overflows n v = true ↔ v < -((2 ^ (n - 1) : Nat) : Int) ∨ ((2 ^ (n - 1) : Nat) : Int) ≤ v := by
  rw [overflows, bne_iff_ne, ne_eq, wrap_eq_self hn, not_and_or, not_le, not_lt]

/-- Settles O44: the stored number is in range and congruent to the value, and it differs from the value exactly out of range. -/
theorem storedCoefficientWrapsAndSetsOvf : Obligations.StoredCoefficientWrapsAndSetsOvf := by
  intro n v hn
  obtain ⟨hlow, hhigh⟩ := wrap_range hn v
  have hdvd := two_pow_dvd_sub_wrap n v
  have hovf := overflows_iff hn (v := v)
  push_cast at hlow hhigh hdvd hovf
  exact ⟨hlow, hhigh, hdvd, hovf⟩

end Sys2Proof.Machine
end

section
/-! PROOF. The counters (44_counters.md): one element per micro-operation, and the gate CFG.FPAR, which no visit shows but in FPAR
and the counters themselves. -/

namespace Sys2Proof.Machine

/-! ## The micro-operations -/

theorem count_of_fpar (y : Sym) {s : State} (hf : s.fpar = 1#1) : count y s = s := if_neg (by simp [hf])

theorem countE_of_fpar {s : State} (hf : s.fpar = 1#1) : countE s = s := if_neg (by simp [hf])

theorem count_frame (y : Sym) (s : State) : { count y s with cntc := s.cntc } = s := by unfold count; split <;> rfl

theorem countE_frame (s : State) : { countE s with cnte := s.cnte } = s := by unfold countE; split <;> rfl

/-- Settles O43: `cntcAt_count` and `cnteAt_countE` for FPAR = 0, and the frames of the two micro-operations. -/
theorem countersAddOneToOneElement : Obligations.CountersAddOneToOneElement := by
  refine fun y s => ⟨fun hf => ⟨fun i => ?_, fun i => ?_, count_frame y s, countE_frame s⟩,
    fun hf => ⟨count_of_fpar y hf, countE_of_fpar hf⟩⟩
  · simp only [cntcAt_count, hf, true_and]
  · simp only [cnteAt_countE, hf, true_and]

/-! ## Results that depend on a view alone -/

section
variable {view : State → State}

/-- A result as the view shows it. -/
def shown (view : State → State) : Result → Result
  | .next s => .next (view s)
  | .fault e => .fault e
  | .refused e => .refused e

theorem sameResult_iff {a b : Result} : SameResult view a b ↔ shown view a = shown view b := by
  cases a <;> cases b <;> simp [SameResult, shown]

/-- What `k` answers, as far as the view shows, is what it answers in the state that the view shows. -/
def Respects (view : State → State) (k : State → Result) : Prop := ∀ s, SameResult view (k s) (k (view s))

theorem Respects.result {k : State → Result} (hk : Respects view k) (s : State) : SameResult view (k s) (k (view s)) := hk s

theorem Respects.sameResult {k : State → Result} (hk : Respects view k) {s t : State} (h : view s = view t) :
    SameResult view (k s) (k t) := by
  rw [sameResult_iff]
  calc
    shown view (k s) = shown view (k (view s)) := sameResult_iff.mp (hk s)
    _ = shown view (k (view t)) := by rw [h]
    _ = shown view (k t) := (sameResult_iff.mp (hk t)).symm

theorem respects_next {f : State → State} (hf : ∀ s, view (f s) = view (f (view s))) :
    Respects view fun s => .next (f s) := hf

theorem respects_refused (e : Refusal) : Respects view fun _ => .refused e := fun _ => rfl

theorem Respects.after {k : State → Result} (hk : Respects view k) {f : State → State}
    (hf : ∀ s, view (f s) = view (f (view s))) : Respects view fun s => k (f s) :=
  fun s => hk.sameResult (hf s)

theorem respects_ite {p : State → Prop} [∀ s, Decidable (p s)] {k l : State → Result} (hp : ∀ s, p (view s) ↔ p s)
    (hk : Respects view k) (hl : Respects view l) : Respects view fun s => if p s then k s else l s := by
  intro s
  simp only [hp s]
  split
  · exact hk s
  · exact hl s

theorem respects_need {α : Type} {x : State → Except Stop α} {k : α → State → Result} (hx : ∀ s, x (view s) = x s)
    (hk : ∀ a, Respects view (k a)) : Respects view fun s => need (x s) fun a => k a s := by
  intro s
  simp only [hx s]
  rcases x s with ⟨f⟩ | a
  · cases f <;> exact rfl
  · exact hk a s

end

/-! ## The state operations without FPAR and the counters -/

@[simp] theorem hideCounts_hideCounts (s : State) : hideCounts (hideCounts s) = hideCounts s := rfl
@[simp] theorem hideCounts_c (s : State) : (hideCounts s).c = s.c := rfl
@[simp] theorem hideCounts_node (s : State) : (hideCounts s).node = s.node := rfl
@[simp] theorem hideCounts_count (y : Sym) (s : State) : hideCounts (count y s) = hideCounts s := by
  unfold count; split <;> rfl
@[simp] theorem hideCounts_countE (s : State) : hideCounts (countE s) = hideCounts s := by unfold countE; split <;> rfl
@[simp] theorem hideCounts_goto (n : Node) (s : State) : hideCounts (goto n s) = goto n (hideCounts s) := rfl
@[simp] theorem hideCounts_setTok (k : Token) (s : State) : hideCounts (setTok k s) = setTok k (hideCounts s) := rfl
@[simp] theorem hideCounts_raise (e : Err) (s : State) : hideCounts (raise e s) = raise e (hideCounts s) := rfl
@[simp] theorem hideCounts_resolve (k : Token) (m : Nat) (s : State) :
    hideCounts (resolve k m s) = resolve k m (hideCounts s) := rfl
@[simp] theorem hideCounts_selectRow (p : Prob) (s : State) : hideCounts (selectRow p s) = selectRow p (hideCounts s) := rfl
@[simp] theorem hideCounts_storeCoef (p : Nat) (v : Coef) (s : State) :
    hideCounts (storeCoef p v s) = storeCoef p v (hideCounts s) := rfl
@[simp] theorem hideCounts_storeToken (p : Nat) (k : Token) (s : State) :
    hideCounts (storeToken p k s) = storeToken p k (hideCounts s) := rfl
@[simp] theorem hideCounts_finish (e : BitVec 11) (s : State) : hideCounts (finish e s) = finish e (hideCounts s) := by
  rw [finish, finish, apply_ite hideCounts]; rfl

/-! ## The parts of a node rule -/

theorem respects_request {r : State → Request} {ans : Answer} {k : Bool → State → Result}
    (hr : ∀ s, r (hideCounts s) = r s) (hk : ∀ b, Respects hideCounts (k b)) :
    Respects hideCounts fun s => request (r s) ans s k := by
  intro s
  simp only [hr s]
  cases ans with
  | bit b => exact hk b (sent (r s) s)
  | exhausted => exact rfl

theorem respects_readBit {p : State → Prob} {ans : Answer} {k : Bool → State → Result} (hp : ∀ s, p (hideCounts s) = p s)
    (hk : ∀ b, Respects hideCounts (k b)) : Respects hideCounts fun s => readBit (p s) ans s k :=
  respects_request (fun s => congrArg Request.p (hp s)) hk

theorem respects_withFootprint {k : State → Result} (hk : Respects hideCounts k) :
    Respects hideCounts fun s => withFootprint s k :=
  respects_ite (fun _ => Iff.rfl) (respects_ite (fun _ => Iff.rfl) hk (respects_refused _)) (respects_refused _)

theorem need_error {α β : Type} (e : Stop) (k : α → Result) (l : β → Result) : need (.error e) k = need (.error e) l := by
  cases e <;> rfl

/-- RESELECT, read by read: the two neighbours, then CTX and BAND (R144, R148). -/
theorem need_reselect (s : State) (k : State → Result) :
    need (reselect s) k =
      need (neighbourPos s (2 * s.c.toNat)) fun n₀ => need (neighbourPos s (2 * s.c.toNat + 1)) fun n₁ =>
        k (bandsel s.c.toNat (setCtx (average (tokClass s n₀) (tokClass s n₁)) s)) := by
  unfold reselect ctxsel
  rcases neighbourPos s (2 * s.c.toNat) with e | n₀
  · exact need_error e _ _
  · rcases neighbourPos s (2 * s.c.toNat + 1) with e | n₁
    · exact need_error e _ _
    · rfl

theorem respects_advance (n : Node) : Respects hideCounts (advance n) := by
  unfold advance
  simp only [need_reselect]
  refine respects_ite (fun _ => Iff.rfl) ?_ (respects_next fun s => ?_)
  · exact respects_need (fun _ => rfl) fun _ => respects_need (fun _ => rfl) fun _ => respects_next fun _ => rfl
  · rw [hideCounts_finish, hideCounts_finish]; rfl

/-! ## The node rules -/

theorem respects_nodeEob (ans : Answer) : Respects hideCounts (nodeEob ans) := by
  refine respects_need (fun _ => rfl) fun p => respects_readBit (fun _ => rfl) fun b => respects_ite (fun _ => Iff.rfl) ?_ ?_
  · exact respects_next fun s => by simp
  · exact respects_next fun s => by simp

theorem respects_zeroToken : Respects hideCounts zeroToken :=
  respects_need (fun _ => rfl) fun _ => (respects_advance .zero).after fun s => by simp

theorem respects_nodeZero (ans : Answer) : Respects hideCounts (nodeZero ans) := by
  refine respects_need (fun _ => rfl) fun p => respects_readBit (fun _ => rfl) fun b => respects_ite (fun _ => Iff.rfl) ?_ ?_
  · exact respects_next fun _ => rfl
  · exact respects_zeroToken

theorem respects_nodeOne (ans : Answer) : Respects hideCounts (nodeOne ans) := by
  refine respects_need (fun _ => rfl) fun p => respects_readBit (fun _ => rfl) fun b =>
    respects_ite (fun _ => Iff.rfl) (respects_ite (fun _ => Iff.rfl) ?_ ?_) ?_
  · exact respects_next fun s => by simp
  · exact respects_next fun s => by simp
  · exact respects_next fun s => by simp

theorem respects_nodeCat6 (ans : Answer) : Respects hideCounts (nodeCat6 ans) := by
  intro s
  have he : (hideCounts s).par.cat6p[(hideCounts s).xi]? = s.par.cat6p[s.xi]? := rfl
  rw [nodeCat6, nodeCat6, he]
  cases s.par.cat6p[s.xi]? with
  | none => exact rfl
  | some p =>
    have hbit : Respects hideCounts fun s => readBit p ans s fun b s => .next (takeCat6 b s) :=
      respects_readBit (fun _ => rfl) fun _ => respects_next fun _ => rfl
    dsimp only
    split
    · exact rfl
    · exact hbit s

theorem respects_nodeSign (ans : Answer) : Respects hideCounts (nodeSign ans) :=
  respects_request (fun _ => rfl) fun _ => respects_need (fun _ => rfl) fun _ => (respects_advance .eob).after fun _ => rfl

/-- R241: what a visit does, but for FPAR and the counters, does not depend on them. -/
theorem respects_visitWith (ans : Answer) : Respects hideCounts (visitWith ans) := by
  intro s
  rw [visitWith, visitWith, hideCounts_node]
  cases s.node <;> dsimp only <;> refine Respects.result ?_ s
  case idle => exact respects_next fun _ => rfl
  case eob => exact respects_nodeEob ans
  case zero => exact respects_nodeZero ans
  case one => exact respects_nodeOne ans
  case extra => exact respects_need (fun _ => rfl) fun _ => respects_readBit (fun _ => rfl) fun _ => respects_next fun _ => rfl
  case cat6 => exact respects_nodeCat6 ans
  case sign => exact respects_nodeSign ans
  case wb | entry => exact respects_withFootprint (respects_next fun _ => rfl)
  all_goals exact respects_readBit (fun _ => rfl) fun b => respects_next fun _ => by cases b <;> rfl

theorem respects_visit : Respects hideCounts visit := fun s => respects_visitWith (nextAnswer s) s

/-- Settles O52: the gate is that of `count` and `countE`, and every node rule respects the view without FPAR and the counters. -/
theorem counterGateAffectsNothingElse : Obligations.CounterGateAffectsNothingElse := by
  refine ⟨fun y s hf => ⟨count_of_fpar y hf, countE_of_fpar hf⟩, fun y s hf => ⟨?_, ?_⟩,
    fun s t h => respects_visit.sameResult h⟩
  · rw [cntcAt_count, if_pos ⟨hf, rfl⟩]
  · rw [cnteAt_countE, if_pos ⟨hf, rfl⟩]

end Sys2Proof.Machine
end

section
/-! PROOF. The commands: what a write of CMD does, and what each command starts or clears (R255, R256, R259, R260, R268). -/

namespace Sys2Proof.Machine

/-! ## A write of CMD while idle -/

/-- Every OPC but the three commands' is reserved (R110, R112). -/
theorem decodeCmd_eq_none {w : Word} (h1 : w.toNat % 256 ≠ 1) (h2 : w.toNat % 256 ≠ 2) (h3 : w.toNat % 256 ≠ 3) :
    decodeCmd w = none := by
  refine Option.eq_none_iff_forall_ne_some.mpr fun i hi => ?_
  obtain ⟨-, hopc⟩ := decodeCmd_eq_some_iff.mp hi
  obtain rfl | rfl | rfl := decodeCmd_eq_some hi
  · exact h1 hopc
  · exact h2 hopc
  · exact h3 hopc

theorem hostAct_writeCmd_reserved {s : State} {w : Word} (hb : s.busy = false) (hd : decodeCmd w = none) :
    hostAct (.writeReg 0 w) s = reservedCommand s := by simp [hostAct, writeReg, hb, command, hd]

/-- With an error set every write of CMD but SOFT_RESET is ignored (R256, R287). -/
theorem hostAct_writeCmd_err {s : State} {w : Word} (hb : s.busy = false) (h3 : w.toNat % 256 ≠ 3) (he : s.err ≠ .none) :
    hostAct (.writeReg 0 w) s = .next s := by
  cases hd : decodeCmd w with
  | none => exact (hostAct_writeCmd_reserved hb hd).trans (accept_err he)
  | some i =>
    rw [hostAct_writeCmd hd]
    obtain rfl | rfl | rfl := decodeCmd_eq_some hd
    · rw [exec, execDecodeCoefs, accept_err he]
    · rw [exec, execDecodeBlock, accept_err he]
    · exact absurd (decodeCmd_eq_softReset hd) h3

theorem reservedCommand_idle {s : State} (hb : s.busy = false) (he : s.err = .none) :
    reservedCommand s = .next (raise .illegalCommand s) := accept_eq hb he

/-- With no command running `raise` has no node and no scan index to save (R286). -/
theorem raise_idle {s : State} (hb : s.busy = false) (e : Err) :
    raise e s = { s with err := e, done := false, enode := .idle, ec := 0#11, node := .idle } := by
  simp only [raise, hb]
  rfl

/-- Settles O7: the checks of BUSY, of SOFT_RESET, of ERR and of the OPC, in this order. -/
theorem commandWritesFollowTheOrderOfChecks : Obligations.CommandWritesFollowTheOrderOfChecks := by
  refine fun s w => ⟨fun hb => hostAct_writeReg_busy hb 0 w, fun _ h3 => ?_, hostAct_writeCmd_err,
    fun hb he h1 h2 h3 => ?_, fun _ _ h1 => ?_, fun _ _ h2 => ?_⟩
  · exact hostAct_writeCmd (decodeCmd_eq_some_iff.mpr ⟨rfl, h3⟩)
  · rw [hostAct_writeCmd_reserved hb (decodeCmd_eq_none h1 h2 h3), reservedCommand_idle hb he, raise_idle hb]
  · exact hostAct_writeCmd (decodeCmd_eq_some_iff.mpr ⟨rfl, h1⟩)
  · exact hostAct_writeCmd (decodeCmd_eq_some_iff.mpr ⟨rfl, h2⟩)

/-! ## The three commands -/

/-- Settles O8: the launch of DECODE_COEFS passes its checks, of which SCAN's and NB's are on the presented table. -/
theorem decodeCoefsStartsTheWalk : Obligations.DecodeCoefsStartsTheWalk := by
  intro s hb he hx hscan hnb
  have hlaunch : launch (startCoefs s) = .next (startCoefs s) := launch_eq_next.mpr ⟨hscan, hnb, nofun, rfl⟩
  exact (exec_decodeCoefs_eq_launch hb he hx).trans hlaunch

/-- Settles O10: the launch of DECODE_BLOCK passes its checks, the footprint's among them. -/
theorem decodeBlockStartsAtEntry : Obligations.DecodeBlockStartsAtEntry := by
  intro s hb he hscan hnb hfoot
  have hlaunch : launch (startBlock s) = .next (startBlock s) := launch_eq_next.mpr ⟨hscan, hnb, fun _ => hfoot, rfl⟩
  exact (exec_decodeBlock_eq_launch hb he).trans hlaunch

theorem exec_softReset_idle {s : State} (hb : s.busy = false) : exec .softReset s = .next (clearCore s) :=
  if_neg (by simp [hb])

/-- Settles O11: while idle SOFT_RESET is `clearCore`, which leaves BUSY at 0. -/
theorem softResetClearsTheErrorState : Obligations.SoftResetClearsTheErrorState := by
  refine ⟨fun s hb => ?_, fun s hb => exec_cmd_busy hb rfl⟩
  rw [exec_softReset_idle hb]
  simp only [clearCore, hb]

/-! ## Leaving N_IDLE -/

/-- A write of CMD makes a CORE at rest leave N_IDLE by DECODE_COEFS or DECODE_BLOCK only (R255). -/
theorem AtRest.node_of_writeCmd {w : Word} {s t : State} (h : AtRest s) (hx : hostAct (.writeReg 0 w) s = .next t) :
    t.node = .idle ∨ w.toNat % 256 = 1 ∨ w.toNat % 256 = 2 := by
  cases hd : decodeCmd w with
  | none =>
    rw [hostAct_writeCmd_reserved h.busy hd] at hx
    obtain rfl | hx := accept_eq_next hx
    · exact .inl h.node
    · exact .inl (next_inj.mp hx ▸ rfl)
  | some i =>
    obtain ⟨-, hopc⟩ := decodeCmd_eq_some_iff.mp hd
    obtain rfl | rfl | rfl := decodeCmd_eq_some hd
    · exact .inr (.inl hopc)
    · exact .inr (.inr hopc)
    · rw [hostAct_writeCmd hd, exec_softReset_idle h.busy] at hx
      exact .inl (next_inj.mp hx ▸ rfl)

/-- Every other action of HOST leaves a CORE at rest in N_IDLE. -/
theorem AtRest.node_of_hostAct {a : HostAct} {s t : State} (h : AtRest s) (hx : hostAct a s = .next t) :
    t.node = .idle ∨ ∃ w, a = .writeReg 0 w ∧ (w.toNat % 256 = 1 ∨ w.toNat % 256 = 2) := by
  cases a
  case writeReg n w =>
    by_cases hn : n = 0
    · subst hn
      exact (h.node_of_writeCmd hx).imp_right fun hopc => ⟨w, rfl, hopc⟩
    · rw [hostAct_writeReg_idle h.busy hn] at hx
      exact .inl (next_inj.mp hx ▸ (h.storeReg n w).node)
  case readReg n => exact .inl (next_inj.mp hx ▸ h.node)
  case writeSpace sp i v =>
    rw [hostAct] at hx
    obtain ⟨-, hx⟩ := withinSpace_eq_next (whileIdle_eq_next hx).2
    exact .inl (next_inj.mp hx ▸ (h.storeSpace sp i v).node)
  case readSpace sp i =>
    rw [hostAct] at hx
    obtain ⟨-, hx⟩ := withinSpace_eq_next (whileIdle_eq_next hx).2
    exact .inl (next_inj.mp hx ▸ h.node)
  case bindSource as =>
    rw [hostAct] at hx
    exact .inl (next_inj.mp (whileIdle_eq_next hx).2 ▸ h.node)
  case hardwareReset => exact .inl (next_inj.mp hx ▸ rfl)

theorem visit_idle {s : State} (hn : s.node = .idle) : visit s = .next s := by rw [visit, visitWith, hn]

/-- Settles O60: an idle CORE is at rest, and only the two decode commands end that. -/
theorem idleIsLeftOnlyByADecodeCommand : Obligations.IdleIsLeftOnlyByADecodeCommand := by
  refine fun s hs hn => ⟨visit_idle hn, fun a t hx hne => ?_⟩
  have hrest : AtRest s := hs.atRest (hs.idle_iff.mp hn)
  exact (hrest.node_of_hostAct hx).resolve_left hne

end Sys2Proof.Machine
end

section
/-! PROOF. The end of a block and the two nodes of DECODE_BLOCK: finish, N_ENTRY and N_WB (R258, R261, R262, R264). -/

namespace Sys2Proof.Machine

/-! ## finish -/

theorem finish_frame (e : BitVec 11) (s : State) :
    { finish e s with eob := s.eob, node := s.node, busy := s.busy, done := s.done } = s := by
  unfold finish
  split <;> rfl

/-- With which e a visit finishes the block: N_EOB with C, the two nodes that store with ME (R258). -/
theorem VisitCase.eob_written {ans : Answer} {s t : State} (h : VisitCase ans s t) :
    t.eob = s.eob ∨ s.node = .eob ∧ t.eob = s.c ∨ (s.node = .zero ∨ s.node = .sign) ∧ t.eob.toNat = me s := by
  cases h with
  | rest _ ht => exact .inl (by rw [ht])
  | abort u e _ hu _ ht => exact .inl (by rw [ht]; exact (congrArg State.eob hu.frame :))
  | move _ ht => exact .inl (congrArg State.eob ht.within.frame :)
  | ends u hn _ ht => exact .inr (.inl ⟨hn, by rw [ht, finish_eob]⟩)
  | goesOn v n hv _ _ ht => exact .inl (by rw [ht]; exact (congrArg State.eob hv.frame :))
  | fills v hv _ ht => exact .inr (.inr ⟨hv.node.imp And.left And.left, by rw [ht, finish_eob, ofNat_me]⟩)
  | enters _ ht => exact .inl (by rw [ht]; rfl)
  | writesBack _ _ _ ht => exact .inl (by rw [ht]; rfl)

/-- Settles O39: the two branches of `finish`, and its two callers among the cases of a visit. -/
theorem finishWritesEobAndEndsOrWritesBack : Obligations.FinishWritesEobAndEndsOrWritesBack := by
  refine ⟨fun e s => ⟨finish_eob e s, fun hk => ?_, fun hk => ?_, finish_frame e s⟩, fun s t hs h hne => ?_⟩
  · simp [hk]
  · simp [hk]
  · have hcall := (visit_cases h).eob_written.resolve_left hne
    refine ⟨hcall, ?_⟩
    obtain ⟨hn, he⟩ | ⟨-, he⟩ := hcall
    · have hlt : s.c.toNat < me s := hs.c_lt (hn ▸ rfl)
      exact he ▸ hlt.le
    · exact he.le

/-! ## N_ENTRY -/

/-- One side of the footprint counts 1 where some covered entry is not zero (R261). -/
theorem toNat_anySet (read : Nat → BitVec 8) (off n : Nat) :
    (anySet read off n).toNat = 1 ↔ ∃ i < n, read (off + i) ≠ 0#8 := by
  rw [Bool.toNat_eq_one, anySet_iff]

/-- The sum of the two sides fits CTX and ECTX (R261). -/
theorem entryContext_toNat (s : State) :
    (entryContext s).toNat = (anySet (ctxaAt s) s.aoff.toNat (2 ^ s.txsize.toNat)).toNat
      + (anySet (ctxlAt s) s.loff.toNat (2 ^ s.txsize.toNat)).toNat := by
  have h₁ := (anySet (ctxaAt s) s.aoff.toNat (footprint s.txsize)).toNat_le
  have h₂ := (anySet (ctxlAt s) s.loff.toNat (footprint s.txsize)).toNat_le
  rw [← footprint_eq, entryContext, BitVec.toNat_ofNat]
  exact Nat.mod_eq_of_lt (by omega)

theorem visit_entry {s : State} (hn : s.node = .entry) (hf : FootprintLegal s) : visit s = .next (entered s) := by
  rw [visit, visitWith, hn]
  exact nodeEntry_eq_next.mpr (by rw [footprint_eq]; exact ⟨hf.1, hf.2, rfl⟩)

/-- Settles O40: N_ENTRY leaves `entered`, whose context is the sum of the two sides. -/
theorem entryContextCountsTheSidesThatAreSet : Obligations.EntryContextCountsTheSidesThatAreSet := by
  intro s hn ha hl
  exact ⟨entered s, (anySet (ctxaAt s) s.aoff.toNat (2 ^ s.txsize.toNat)).toNat,
    (anySet (ctxlAt s) s.loff.toNat (2 ^ s.txsize.toNat)).toNat, visit_entry hn ⟨ha, hl⟩,
    toNat_anySet _ _ _, toNat_anySet _ _ _, Bool.toNat_le _, Bool.toNat_le _, entryContext_toNat s, rfl, rfl, rfl, rfl⟩

/-! ## N_WB -/

theorem ctxaAt_writeBack (s : State) (i : Nat) :
    ctxaAt (writeBack s) i =
      if s.aoff.toNat ≤ i ∧ i < s.aoff.toNat + 2 ^ s.txsize.toNat then nonzeroFlag s else ctxaAt s i := by
  rw [ctxaAt, writeBack_ctxa, lookup_fill, footprint_eq]
  split <;> rfl

theorem ctxlAt_writeBack (s : State) (i : Nat) :
    ctxlAt (writeBack s) i =
      if s.loff.toNat ≤ i ∧ i < s.loff.toNat + 2 ^ s.txsize.toNat then nonzeroFlag s else ctxlAt s i := by
  rw [ctxlAt, writeBack_ctxl, lookup_fill, footprint_eq]
  split <;> rfl

theorem visit_wb {s : State} (hn : s.node = .wb) (hf : FootprintLegal s) : visit s = .next (writeBack s) := by
  rw [visit, visitWith, hn]
  exact nodeWb_eq_next.mpr (by rw [footprint_eq]; exact ⟨hf.1, hf.2, rfl⟩)

/-- Settles O41: N_WB leaves `writeBack`, which fills the footprint of each array. -/
theorem writeBackFillsTheFootprintOnly : Obligations.WriteBackFillsTheFootprintOnly := by
  intro s hn ha hl
  exact ⟨writeBack s, nonzeroFlag s, visit_wb hn ⟨ha, hl⟩, rfl, ctxaAt_writeBack s, ctxlAt_writeBack s,
    rfl, rfl, rfl, rfl⟩

end Sys2Proof.Machine
end

section
/-! PROOF. Aborts: what `raise` saves and leaves, the refused DECODE_COEFS, and the visit that an exhausted source aborts (R282,
R284, R286). -/

namespace Sys2Proof.Machine

/-- Settles O38: the fields of `raise`, of which ENODE and EC depend on BUSY. -/
theorem raiseSavesNodeAndIndex : Obligations.RaiseSavesNodeAndIndex :=
  fun e s => ⟨fun hb => ⟨by simp [hb], by simp [hb]⟩, fun hb => ⟨by simp [hb, Node.num], by simp [hb]⟩,
    raise_err e s, raise_busy e s, raise_done e s, raise_node e s, rfl⟩

/-- DECODE_COEFS with ECTX out of range is accepted and raises before anything starts (R284). -/
theorem exec_decodeCoefs_illegal {s : State} (hb : s.busy = false) (he : s.err = .none) (hx : 5 < s.ectx.toNat) :
    exec .decodeCoefs s = .next (raise .illegalConfig s) := by
  rw [exec, execDecodeCoefs, accept_eq hb he, if_pos hx]

/-- Settles O9: the check of ECTX comes before the launch, and an idle CORE has no node and no scan index to save. -/
theorem decodeCoefsRejectsABadEntryContext : Obligations.DecodeCoefsRejectsABadEntryContext := by
  intro s hb hn he hx
  rw [exec_decodeCoefs_illegal hb he hx, raise_idle hb, ← hn]

/-! ## An exhausted source -/

/-- A visit that makes a request completes where the source is exhausted, for BAND and CTX are in range where it reads PROB
(R147, R282). -/
theorem exists_visitWith_exhausted {s : State} {r : Request} (hi : InRow s) (hr : visitRequest s = some r) :
    ∃ t, visitWith .exhausted s = .next t := by
  cases hn : s.node <;> simp only [visitRequest, hn, reduceCtorEq] at hr
  case eob => exact ⟨_, by rw [visitWith, hn]; exact nodeEob_eq_next.mpr ⟨hi, .inl ⟨rfl, rfl⟩⟩⟩
  case zero => exact ⟨_, by rw [visitWith, hn]; exact nodeZero_eq_next.mpr ⟨hi, .inl ⟨rfl, rfl⟩⟩⟩
  case one => exact ⟨_, by rw [visitWith, hn]; exact nodeOne_eq_next.mpr ⟨hi, .inl ⟨rfl, rfl⟩⟩⟩
  case extra =>
    cases hp : catpSel s (category s) s.xi with
    | ok p => exact ⟨_, visitWith_extra_exhausted hn hp⟩
    | error e => simp [hp] at hr
  case cat6 =>
    cases hp : s.par.cat6p[s.xi]? with
    | none => simp [hp] at hr
    | some p => exact ⟨_, visitWith_cat6_exhausted hn hp fun h0 => by simp [hp, h0] at hr⟩
  all_goals exact ⟨_, by rw [visitWith, hn]; rfl⟩

/-- A visit that makes no request does not raise BitstreamExhausted: it raises MalformedCategory6 or leaves ERR (R206, R282). -/
theorem err_of_no_request {ans : Answer} {s t : State} (hr : visitRequest s = none) (h : visitWith ans s = .next t) :
    t.err = s.err ∨ t.err = .malformedCategory6 := by
  cases hn : s.node <;> simp only [visitRequest, hn, reduceCtorEq] at hr <;> rw [visitWith, hn] at h
  case idle => exact .inl (next_inj.mp h ▸ rfl)
  case extra =>
    obtain ⟨p, hp, -⟩ := nodeExtra_eq_next.mp h
    simp [hp] at hr
  case cat6 =>
    obtain ⟨-, rfl⟩ | ⟨-, rfl⟩ | ⟨p, hp, hne, -⟩ := nodeCat6_eq_next.mp h
    · exact .inr rfl
    · exact .inl rfl
    · simp [hp, hne] at hr
  case wb =>
    obtain ⟨-, -, rfl⟩ := nodeWb_eq_next.mp h
    exact .inl rfl
  case entry =>
    obtain ⟨-, -, rfl⟩ := nodeEntry_eq_next.mp h
    exact .inl rfl

/-- Settles O33: the visit that asks an exhausted source sends its request and aborts, and one that asks nothing cannot raise. -/
theorem exhaustionAbortsBeforeAnyEffect : Obligations.ExhaustionAbortsBeforeAnyEffect := by
  refine ⟨fun s r hb hi hr ha => ?_, fun s t hr h he => ?_⟩
  · obtain ⟨t, ht⟩ := exists_visitWith_exhausted hi hr
    rw [visit, ha, ht, visitWith_exhausted hr ht]
    simp [raise, sent, hb]
  · obtain hs | hs := err_of_no_request hr h
    · exact hs ▸ he
    · cases hs.symm.trans he

end Sys2Proof.Machine
end

section
/-! PROOF. The aborts inside a token: no pareto row at N_ONE, no terminator in CAT6P (R168, R206, R283, R285). -/

namespace Sys2Proof.Machine

/-! ## Both forms of a token -/

/-- The state in which the Z-form string of a token begins: that after the answer 1 of N_EOB in E-form (R113). -/
def formRead (eForm : Bool) (s : State) : State := if eForm then continued s else s

theorem formRead_eq {eForm : Bool} {s : State} (hn : s.node = startNode eForm) :
    ∃ e as, formRead eForm s = { s with
      node := .zero
      cnte := e
      requests := (if eForm then [.p (probOf s 0)] else []) ++ s.requests
      answers := as } := by
  cases eForm with
  | false =>
    have hn : s.node = .zero := hn
    exact ⟨s.cnte, s.answers, hn ▸ rfl⟩
  | true => exact ⟨(continued s).cnte, s.answers.tail, continued_eq s⟩

theorem cnteAt_formRead (eForm : Bool) (s : State) (i : Nat) :
    cnteAt (formRead eForm s) i =
      if eForm = true ∧ s.fpar = 0#1 ∧ i = rowIndex s then (cnteAt s i + 1) % 2 ^ s.par.cntW else cnteAt s i := by
  cases eForm with
  | false => rfl
  | true => simp [formRead, cnteAt_continued]

/-- A token in either form is its Z-form string, walked from where that begins (R113). -/
theorem exec_rowOf {eForm : Bool} {l : Leaf} {s : State} (hn : s.node = startNode eForm) (hr : InRow s) :
    exec (rowOf eForm l) s = walk (leafScript l) (formRead eForm s) := by
  cases eForm with
  | false => exact exec_rowOf_false l s
  | true => rw [eFormIsEobContinueThenZForm l s hn, visitWith_eob_true hn hr, thenDo_next, exec_rowOf_false]; rfl

/-! ## No pareto row -/

/-- Past an abort nothing more of a token's script is walked. -/
theorem TokenShaped.walk_idle {script : List (Node × Bool)} {s : State} (hs : TokenShaped script) (hn : s.node = .idle) :
    walk script s = .next s := by
  refine Machine.walk_idle hn fun e he => ?_
  induction script with
  | nil => cases he
  | cons head rest ih =>
    obtain ⟨hw, -, hrest⟩ := hs
    obtain rfl | he := List.mem_cons.mp he
    · intro hi
      rw [hi] at hw
      cases hw
    · exact ih hrest he

/-- A token of magnitude 2 or more is answered 1 at N_ZERO and at N_ONE (R166). -/
theorem leafScript_of_isLarge {l : Leaf} (h : isLarge l = true) :
    ∃ rest, leafScript l = (.zero, true) :: (.one, true) :: rest := by
  cases l
  case zero | one => cases h
  all_goals exact ⟨_, rfl⟩

/-- The state in which a token of magnitude 2 or more leaves the machine from N_ZERO, where no pareto row exists: aborted at N_ONE
after the TWO_PLUS count (R166, R283). -/
def rowMissing (s : State) : State :=
  { s with
    node := .idle
    cntc := (count .twoPlus s).cntc
    requests := .p (probOf s 2) :: .p (probOf s 1) :: s.requests
    answers := s.answers.tail.tail
    err := .outOfRangeProbability
    enode := .one
    ec := s.c
    busy := false
    done := false }

theorem raise_pastZero {s : State} (hb : s.busy = true) :
    raise .outOfRangeProbability (count .twoPlus (sent (.p (probOf s 2)) (pastZero s))) = rowMissing s := by
  rw [pastZero, count_sent, count_goto, count_sent]
  simp [raise, sent, goto, hb, rowMissing]

theorem cntcAt_rowMissing (s : State) (i : Nat) :
    cntcAt (rowMissing s) i =
      if s.fpar = 0#1 ∧ i = rowIndex s * s.par.nsym + 2 then (cntcAt s i + 1) % 2 ^ s.par.cntW else cntcAt s i := by
  have hcount : cntcAt (rowMissing s) i = cntcAt (count .twoPlus s) i := by simp [cntcAt, rowMissing]
  exact hcount.trans (cntcAt_count .twoPlus s i)

/-- N_ONE answered 1 ends the walk where the pareto row does not exist (R166, R283). -/
theorem walk_rowMissing {l : Leaf} {s : State} (hl : isLarge l = true) (hn : s.node = .zero) (hb : s.busy = true)
    (hr : InRow s) (hq : ¬ ParetoReady s) : walk (leafScript l) s = .next (rowMissing s) := by
  obtain ⟨rest, hscript⟩ := leafScript_of_isLarge hl
  have hshaped := tokenShaped_leafScript l
  rw [hscript] at hshaped ⊢
  obtain ⟨-, -, -, -, hrest⟩ := hshaped
  have hone : visitWith (.bit true) (pastZero s) = .next (rowMissing s) :=
    nodeOne_eq_next.mpr ⟨hr, .inr (.inr (.inl ⟨rfl, hq, (raise_pastZero hb).symm⟩))⟩
  rw [walk_zero_true hn hr, walk_visit (n := .one) rfl (by decide) hone]
  exact hrest.walk_idle rfl

/-- Settles O31: N_ZERO and N_ONE answered 1, in E-form behind the answer 1 of N_EOB, lead to the raise. -/
theorem noParetoRowAbortsLargeTokens : Obligations.NoParetoRowAbortsLargeTokens := by
  intro eForm l s hn hb hr hq hl
  have hcnte := cnteAt_formRead eForm s
  rw [exec_rowOf hn hr]
  obtain ⟨e, as, hz⟩ := formRead_eq hn
  rw [hz] at hcnte ⊢
  refine ⟨_, walk_rowMissing hl rfl hb hr hq, ?_, ?_, cntcAt_rowMissing _, hcnte, rfl, rfl, rfl⟩
  · exact ⟨rfl, rfl, rfl, ⟨rfl, rfl⟩, rfl, rfl, rfl, ⟨rfl, rfl⟩, rfl, rfl⟩
  · cases eForm <;> rfl

/-! ## No terminator -/

/-- A token at N_CAT6 past the last entry of CAT6P is aborted before its next character (R206, R285). -/
theorem walk_cap {n : Node} {b : Bool} {rest : List (Node × Bool)} {s : State} (hs : TokenShaped ((n, b) :: rest))
    (hn : s.node = .cat6) (hx : s.par.cat6p[s.xi]? = none) :
    walk ((n, b) :: rest) s = .next (raise .malformedCategory6 s) := by
  have hasks : cat6AsksNothing s = true := by simp [cat6AsksNothing, hn, hx]
  have hne : n ≠ .idle := by
    rintro rfl
    cases hs.1
  rw [walk, settle_eq_visit hasks, visit, visitWith_cat6_cap hn hx, thenDo_next,
    if_neg (by simpa using hne.symm)]

/-- CAT6P has no zero entry (R119). -/
theorem getElem?_ne_zero_of_cat6Bits {par : Params} (h : cat6Bits par = none) (i : Nat) : par.cat6p[i]? ≠ some 0 := by
  intro hi
  have hp := List.findIdx?_eq_none_iff.mp h 0 (List.mem_of_getElem? hi)
  cases hp

/-- Where CAT6P has no terminator the string of CAT6 ends past its last entry, in an abort (R213, R285). -/
theorem walk_unterminated {a : List Bool} {neg : Bool} {s : State} (hn : s.node = .zero) (hr : InRow s)
    (hq : ParetoReady s) (hm : cat6Bits s.par = none) (ha : a.length = s.par.cat6p.length) :
    walk (leafScript (.cat6 a neg)) s =
      .next (raise .malformedCategory6 (cat6Read a (startCat6 (selecting .catfive [0, 3, 5, 7] s)))) := by
  refine (walk_cat5_or_cat6 (b := true) hn hr hq).trans ?_
  rw [if_pos rfl]
  refine (walk_cat6 rfl ?_ ?_).trans (walk_cap ⟨rfl, fun _ => rfl, trivial⟩ rfl ?_) <;> rw [selecting_eq]
  · simp [ha]
  · exact fun i _ _ => getElem?_ne_zero_of_cat6Bits hm i
  · simp [cat6Read, ha]

/-- Settles O32: the selecting nodes, N_CAT6 for every entry of the table, and the visit past the last one. -/
theorem unterminatedTableAbortsCat6 : Obligations.UnterminatedTableAbortsCat6 := by
  intro eForm a neg s hn hb hr hq hm ha
  rw [exec_rowOf hn hr]
  obtain ⟨e, as, hz⟩ := formRead_eq hn
  rw [hz]
  refine ⟨_, walk_unterminated rfl hr hq hm ha, ?_⟩
  rw [selecting_eq]
  refine ⟨⟨rfl, if_pos hb, if_pos hb, ⟨rfl, rfl⟩, rfl, rfl, rfl, ⟨rfl, rfl⟩, rfl, rfl⟩, ?_, rfl, ?_⟩
  · simp [cat6Read, ha]
  · cases eForm <;> simp +arith [cat6Read, startCat6, ha]

end Sys2Proof.Machine
end

section
/-! PROOF. A visit does not look ahead: with BITSRC's answer to its request given, the answers still to come show in nothing but
themselves (R84, R289). -/

namespace Sys2Proof.Machine

/-! ## The counts and finish do not read the answers -/

theorem count_hideAnswers (y : Sym) (s : State) : count y (hideAnswers s) = hideAnswers (count y s) := by
  rw [count, count, apply_ite hideAnswers]; rfl

theorem countE_hideAnswers (s : State) : countE (hideAnswers s) = hideAnswers (countE s) := by
  rw [countE, countE, apply_ite hideAnswers]; rfl

theorem finish_hideAnswers (e : BitVec 11) (s : State) : finish e (hideAnswers s) = hideAnswers (finish e s) := by
  rw [finish, finish, apply_ite hideAnswers]; rfl

theorem hideAnswers_finish {u v : State} (h : hideAnswers u = hideAnswers v) (e : BitVec 11) :
    hideAnswers (finish e u) = hideAnswers (finish e v) := by
  rw [← finish_hideAnswers, h, finish_hideAnswers]

/-! ## The parts of a node rule -/

/-- A request uses up one answer, the one it is given (R75, R84). -/
theorem noLookAhead_request {r : State → Request} {ans : Answer} {k : Bool → State → Result}
    (hr : ∀ s, r (hideAnswers s) = r s) (hk : ∀ b, Respects hideAnswers (k b)) :
    Respects hideAnswers fun s => request (r s) ans s k := by
  intro s
  simp only [hr s]
  cases ans with
  | bit b => exact (hk b).sameResult rfl
  | exhausted => exact rfl

theorem noLookAhead_readBit {p : State → Prob} {ans : Answer} {k : Bool → State → Result}
    (hp : ∀ s, p (hideAnswers s) = p s) (hk : ∀ b, Respects hideAnswers (k b)) :
    Respects hideAnswers fun s => readBit (p s) ans s k :=
  noLookAhead_request (fun s => congrArg Request.p (hp s)) hk

theorem noLookAhead_advance (n : Node) : Respects hideAnswers (advance n) := by
  unfold advance
  simp only [need_reselect]
  refine respects_ite (fun _ => Iff.rfl) ?_ (respects_next fun s => ?_)
  · exact respects_need (fun _ => rfl) fun _ => respects_need (fun _ => rfl) fun _ => respects_next fun _ => rfl
  · exact hideAnswers_finish (by rfl) _

/-! ## The node rules -/

/-- The nodes that read PROB: the rule `k` goes on with the element and the bit (R146, R161, R163, R166). -/
theorem noLookAhead_probNode {ans : Answer} {j : Nat} {k : Prob → Bool → State → Result}
    (hk : ∀ p b, Respects hideAnswers (k p b)) :
    Respects hideAnswers fun s => need (probSel s j) fun p => readBit p ans s (k p) :=
  respects_need (fun _ => rfl) fun p => noLookAhead_readBit (fun _ => rfl) (hk p)

theorem noLookAhead_nodeEob (ans : Answer) : Respects hideAnswers (nodeEob ans) := by
  refine noLookAhead_probNode fun _ b =>
    respects_ite (fun _ => Iff.rfl) (respects_next fun s => ?_) (respects_next fun s => ?_)
  · rw [countE_hideAnswers]; rfl
  · rw [countE_hideAnswers, count_hideAnswers]
    exact hideAnswers_finish (by rfl) _

theorem noLookAhead_nodeZero (ans : Answer) : Respects hideAnswers (nodeZero ans) := by
  refine noLookAhead_probNode fun _ b => respects_ite (fun _ => Iff.rfl) (respects_next fun _ => rfl) ?_
  refine respects_need (fun _ => rfl) fun _ => (noLookAhead_advance .zero).after fun s => ?_
  rw [count_hideAnswers]; rfl

theorem noLookAhead_nodeOne (ans : Answer) : Respects hideAnswers (nodeOne ans) := by
  refine noLookAhead_probNode fun _ b =>
    respects_ite (fun _ => Iff.rfl) (respects_ite (fun _ => Iff.rfl) ?_ ?_) ?_
  all_goals
    refine respects_next fun s => ?_
    rw [count_hideAnswers]
    rfl

theorem noLookAhead_nodeCat6 (ans : Answer) : Respects hideAnswers (nodeCat6 ans) := by
  intro s
  have he : (hideAnswers s).par.cat6p[(hideAnswers s).xi]? = s.par.cat6p[s.xi]? := rfl
  rw [nodeCat6, nodeCat6, he]
  cases s.par.cat6p[s.xi]? with
  | none => exact rfl
  | some p =>
    dsimp only
    split
    · exact rfl
    · cases ans <;> exact rfl

/-- R289: with its answer given, a visit depends on no answer after it. -/
theorem noLookAhead_visitWith (ans : Answer) : Respects hideAnswers (visitWith ans) := by
  intro s
  have hn : (hideAnswers s).node = s.node := rfl
  rw [visitWith, visitWith, hn]
  cases s.node <;> dsimp only <;> refine Respects.result ?_ s
  case idle => exact respects_next fun _ => rfl
  case eob => exact noLookAhead_nodeEob ans
  case zero => exact noLookAhead_nodeZero ans
  case one => exact noLookAhead_nodeOne ans
  case extra =>
    exact respects_need (fun _ => rfl) fun _ => noLookAhead_readBit (fun _ => rfl) fun _ => respects_next fun _ => rfl
  case cat6 => exact noLookAhead_nodeCat6 ans
  case sign =>
    exact noLookAhead_request (fun _ => rfl) fun _ => respects_need (fun _ => rfl) fun _ =>
      (noLookAhead_advance .eob).after fun _ => rfl
  case wb | entry =>
    exact respects_ite (fun _ => Iff.rfl)
      (respects_ite (fun _ => Iff.rfl) (respects_next fun _ => rfl) (respects_refused _)) (respects_refused _)
  all_goals exact noLookAhead_readBit (fun _ => rfl) fun b => respects_next fun _ => by cases b <;> rfl

/-- Settles O53: both visits are given the same answer, and their states differ in the answers alone. -/
theorem visitsDoNotLookAhead : Obligations.VisitsDoNotLookAhead := by
  intro s t hview hnext
  rw [visit, visit, hnext]
  exact (noLookAhead_visitWith _).sameResult hview

end Sys2Proof.Machine
end

section
/-! PROOF. Where the obligations hold, no step stops, and a decode command establishes them (R147, R326, R327, R329, R330). -/

namespace Sys2Proof.Machine

/-! ## Every visit completes -/

/-- A visit that asks the bit source completes, for the answer EXHAUSTED aborts it, where it does for either bit (R84, R86). -/
theorem exists_request {r : Request} {s : State} {k : Bool → State → Result} (ans : Answer)
    (hk : ∀ b, ∃ t, k b (sent r s) = .next t) : ∃ t, request r ans s k = .next t := by
  cases ans with
  | bit b => exact hk b
  | exhausted => exact ⟨_, rfl⟩

theorem exists_nodeEob {s : State} (hr : InRow s) (ans : Answer) : ∃ t, nodeEob ans s = .next t := by
  rw [nodeEob, probSel_of_inRow hr, need_ok]
  exact exists_request ans (Bool.forall_bool.mpr ⟨⟨_, rfl⟩, ⟨_, rfl⟩⟩)

theorem exists_nodeZero {s : State} (hr : InRow s) (hp : PlaceReady s) (ans : Answer) : ∃ t, nodeZero ans s = .next t := by
  rw [nodeZero, probSel_of_inRow hr, need_ok]
  refine exists_request ans (Bool.forall_bool.mpr ⟨?_, ⟨_, rfl⟩⟩)
  obtain ⟨t, ht, -⟩ := zeroToken_done (s := sent (.p (probOf s 1)) s) hp
  exact ⟨t, ht⟩

theorem exists_nodeOne {s : State} (hr : InRow s) (ans : Answer) : ∃ t, nodeOne ans s = .next t := by
  rw [nodeOne, probSel_of_inRow hr, need_ok]
  refine exists_request ans (Bool.forall_bool.mpr ⟨⟨_, rfl⟩, ?_⟩)
  rw [if_pos rfl]
  split <;> exact ⟨_, rfl⟩

theorem exists_nodeExtra {s : State} (hx : 1 ≤ category s ∧ category s ≤ 5 ∧ s.xi < category s) (ans : Answer) :
    ∃ t, nodeExtra ans s = .next t := by
  obtain ⟨p, hp⟩ := catpSel_eq_ok hx
  rw [nodeExtra, hp, need_ok]
  exact exists_request ans fun _ => ⟨_, rfl⟩

theorem exists_nodeCat6 (s : State) (ans : Answer) : ∃ t, nodeCat6 ans s = .next t := by
  unfold nodeCat6
  split
  · exact ⟨_, rfl⟩
  · split
    · exact ⟨_, rfl⟩
    · exact exists_request ans fun _ => ⟨_, rfl⟩

theorem exists_nodeSign {s : State} (hp : PlaceReady s) (ans : Answer) : ∃ t, nodeSign ans s = .next t := by
  cases ans with
  | bit neg =>
    obtain ⟨t, ht, -⟩ := nodeSign_done hp neg
    exact ⟨t, ht⟩
  | exhausted => exact ⟨_, rfl⟩

/-- The footprint of a running DECODE_BLOCK lies in CTXA and CTXL (R329). -/
theorem Lawful.footprintLegal {s : State} (h : Lawful s) (hn : s.node = .entry ∨ s.node = .wb) : FootprintLegal s := by
  have hl := (h.running (by obtain hn | hn := hn <;> simp [hn])).launched
  exact hl.footprint (hn.elim (fun hn => (h.entry hn).2) h.wb)

/-- Where the obligations hold, no visit is refused and none faults. -/
theorem Decoding.exists_visit {s : State} (h : Decoding s) : ∃ t, Machine.visit s = .next t := by
  have hl := h.lawful
  have hrow := h.inRow
  have hplace := hl.placeReady
  have hfoot := hl.footprintLegal
  cases hn : s.node
  case idle => exact ⟨s, visit_idle hn⟩
  case wb => exact ⟨_, visit_wb hn (hfoot (.inr hn))⟩
  case entry => exact ⟨_, visit_entry hn (hfoot (.inl hn))⟩
  all_goals simp only [Machine.visit, visitWith, hn]
  case eob => exact exists_nodeEob (hrow (hn ▸ rfl)) _
  case zero => exact exists_nodeZero (hrow (hn ▸ rfl)) (hplace (hn ▸ rfl)) _
  case one => exact exists_nodeOne (hrow (hn ▸ rfl)) _
  case extra =>
    obtain ⟨h1, h5, hx, -⟩ := hl.extra hn
    exact exists_nodeExtra ⟨h1, h5, hx⟩ _
  case cat6 => exact exists_nodeCat6 s _
  case sign => exact exists_nodeSign (hplace (hn ▸ rfl)) _
  all_goals cases nextAnswer s <;> exact ⟨_, rfl⟩

theorem Decoding.exists_runVisits {s : State} (h : Decoding s) (k : Nat) :
    ∃ t, Machine.runVisits k s = .next t ∧ Decoding t ∧ t.host = s.host := by
  induction k generalizing s with
  | zero => exact ⟨s, rfl, h, rfl⟩
  | succ k ih =>
    obtain ⟨u, hu⟩ := h.exists_visit
    obtain ⟨t, ht, hd, hh⟩ := ih (h.visit hu)
    have hhost : u.host = s.host := (congrArg State.host (visit_cases hu).frame :)
    exact ⟨t, by rw [Machine.runVisits, hu, thenDo_next, ht], hd, hh.trans hhost⟩

/-! ## The launch -/

/-- An accepted DECODE_COEFS begins at N_EOB with C = 0, nothing read from TOKC before the first store (R46, R149). -/
theorem decoding_of_execDecodeCoefs {s t : State} (h : Lawful s) (hb : s.busy = false) (hx : execDecodeCoefs s = .next t)
    (hbusy : t.busy = true) (ho : Obliged t) : Decoding t := by
  have hl : Lawful t := h.execDecodeCoefs hx
  obtain rfl | ⟨-, hk⟩ := accept_cases hx
  · simp [hb] at hbusy
  · split at hk
    · simp [next_inj.mp hk] at hbusy
    · next hectx =>
      obtain ⟨-, -, -, rfl⟩ := launch_eq_next.mp hk
      exact ⟨hl, ho, fun _ => ⟨ho.bands 0 (Nat.lt_of_lt_of_le (by decide) (me_pos _)), Nat.not_lt.mp hectx⟩, fun _ => nofun⟩

/-- An accepted DECODE_BLOCK begins at N_ENTRY, before the first token (R256). -/
theorem decoding_of_execDecodeBlock {s t : State} (h : Lawful s) (hb : s.busy = false) (hx : execDecodeBlock s = .next t)
    (hbusy : t.busy = true) (ho : Obliged t) : Decoding t := by
  have hl : Lawful t := h.execDecodeBlock hx
  obtain rfl | ⟨-, hk⟩ := accept_cases hx
  · simp [hb] at hbusy
  · obtain ⟨-, -, -, rfl⟩ := launch_eq_next.mp hk
    exact decoding_of_outside hl ho rfl

/-- Settles O48: a step is a run of visits, each of which completes and keeps the obligations; the launch checks and the range of
ECTX give them at the first node. -/
theorem metObligationsNeverStop : Obligations.MetObligationsNeverStop := by
  refine ⟨fun s h hh => ?_, fun s t h hb hx hbusy ho => ?_⟩
  · obtain ⟨k, -, -, hk⟩ := step_silent_eq_runVisits hh
    obtain ⟨t, ht, hd, hhost⟩ := h.exists_runVisits k
    exact ⟨t, hk.trans ht, hd, hhost.trans hh⟩
  · exact hx.elim (fun hx => decoding_of_execDecodeCoefs h hb hx hbusy ho)
      fun hx => decoding_of_execDecodeBlock h hb hx hbusy ho

end Sys2Proof.Machine
end

section
/-! PROOF. The nodes a visit can go to within a token (R160, R176), and budgets: what a command spends, visit by visit, is bounded
by what each token may spend (R341, R342). -/

namespace Sys2Proof.Machine

/-! ## From node to node of a token -/

/-- The nodes that pick the next one by one answer and write nothing that a later node counts by, and where they go (R176). -/
def pickEdges : List (Node × Node) :=
  [(.one, .sign), (.one, .lowval), (.lowval, .two), (.lowval, .highlow), (.two, .sign), (.two, .three), (.three, .sign),
    (.highlow, .catone), (.highlow, .cat34), (.cat34, .catthree), (.cat34, .catfive)]

/-- The nodes that resolve CAT1 to CAT5, and the category (R193, R197, R199). -/
def categoryEdges : List (Node × Nat) := [(.catone, 1), (.catone, 2), (.catthree, 3), (.catthree, 4), (.catfive, 5)]

/-- Where a visit of `s` answered `ans` goes within a token, `t` being the next state. -/
inductive TokenMove (ans : Answer) (s t : State) : Prop
  /-- N_EOB (R161) -/
  | continues (hs : s.node = .eob) (ha : ans = .bit true) (ht : t.node = .zero)
  /-- N_ZERO (R163) -/
  | nonzero (hs : s.node = .zero) (ha : ans = .bit true) (ht : t.node = .one)
  /-- the nodes of the tree and the selectors (R166 to R195) -/
  | picks (h : (s.node, t.node) ∈ pickEdges)
  /-- CAT1 to CAT5 is resolved (R193, R197, R199) -/
  | startsCategory (hs : (s.node, category t) ∈ categoryEdges) (ht : t.node = .extra) (hx : t.xi = 0)
  /-- CAT6 is resolved (R199) -/
  | startsCat6 (hs : s.node = .catfive) (ht : t.node = .cat6) (hx : t.xi = 0)
  /-- N_EXTRA (R203) -/
  | extraBit (hs : s.node = .extra) (ht : t.node = if s.xi + 1 = category s then .sign else .extra)
      (hk : category t = category s) (hx : t.xi = s.xi + 1)
  /-- N_CAT6 at an entry that is not zero (R206) -/
  | cat6Bit (hs : s.node = .cat6) (ht : t.node = .cat6) (hx : t.xi = s.xi + 1) (hlt : s.xi < s.par.cat6p.length)
  /-- N_CAT6 at the terminator (R206) -/
  | cat6End (hs : s.node = .cat6) (ht : t.node = .sign) (hlt : s.xi < s.par.cat6p.length) (hr : visitRequest s = none)

/-- An abort leaves the token. -/
theorem not_walking_raise (e : Err) (s : State) : ¬ walking (raise e s).node = true := nofun

/-- A node that picks its next state by one answer moves within the token, unless its visit aborts. -/
theorem TokenMove.of_picked {ans : Answer} {e : Err} {s t u : State} {f : Bool → State}
    (h : (ans = .exhausted ∧ t = raise e u) ∨ ∃ b, ans = .bit b ∧ t = f b) (hw : walking t.node = true)
    (hf : ∀ b, TokenMove ans s (f b)) : TokenMove ans s t := by
  obtain ⟨-, rfl⟩ | ⟨b, -, rfl⟩ := h
  · exact absurd hw (not_walking_raise e u)
  · exact hf b

/-- A visit that advances C does not stay within its token. -/
theorem advance_c_ne {n : Node} {s v t : State} (hc : v.c = s.c) (h : advance n v = .next t) : t.c ≠ s.c := by
  have ht : t.c = s.c + 1#11 := by
    obtain ⟨-, -, -, rfl⟩ | ⟨-, rfl⟩ := advance_eq_next.mp h
    · exact congrArg (· + 1#11) hc
    · rw [finish_c, nextIndex_c, hc]
  rw [ht]
  exact fun he => by simpa using congrArg (· - s.c) he

theorem not_walking_finish (e : BitVec 11) (s : State) : ¬ walking (finish e s).node = true := by
  rw [walking_finish]
  exact nofun

/-- A visit that goes from a node that decodes a token to another at the same scan index moves within the token. -/
theorem tokenMove_of_visitWith {ans : Answer} {s t : State} (h : visitWith ans s = .next t) (hs : walking s.node = true)
    (hw : walking t.node = true) (hc : t.c = s.c) : TokenMove ans s t := by
  cases hn : s.node <;> simp only [visitWith, hn] at h
  case idle | wb | entry => simp [hn, walking] at hs
  case eob =>
    obtain ⟨-, ⟨-, rfl⟩ | ⟨ha, rfl⟩ | ⟨-, rfl⟩⟩ := nodeEob_eq_next.mp h
    · exact absurd hw (not_walking_raise _ _)
    · exact .continues hn ha rfl
    · exact absurd hw (not_walking_finish _ _)
  case zero =>
    obtain ⟨-, ⟨-, rfl⟩ | ⟨ha, rfl⟩ | ⟨-, hz⟩⟩ := nodeZero_eq_next.mp h
    · exact absurd hw (not_walking_raise _ _)
    · exact .nonzero hn ha rfl
    · obtain ⟨-, -, hadv⟩ := zeroToken_eq_next.mp hz
      exact absurd hc (advance_c_ne (by simp [zeroStored]) hadv)
  case one =>
    obtain ⟨-, ⟨-, rfl⟩ | ⟨-, -, rfl⟩ | ⟨-, -, rfl⟩ | ⟨-, rfl⟩⟩ := nodeOne_eq_next.mp h
    · exact absurd hw (not_walking_raise _ _)
    · exact .picks (by simp [hn, pickEdges])
    · exact absurd hw (not_walking_raise _ _)
    · exact .picks (by simp [hn, pickEdges])
  case lowval => exact .of_picked (nodeLowval_eq_next.mp h) hw fun b => .picks (by cases b <;> simp [hn, pickEdges])
  case two => exact .of_picked (nodeTwo_eq_next.mp h) hw fun b => .picks (by cases b <;> simp [hn, pickEdges])
  case three => exact .of_picked (nodeThree_eq_next.mp h) hw fun b => .picks (by cases b <;> simp [hn, pickEdges])
  case highlow => exact .of_picked (nodeHighlow_eq_next.mp h) hw fun b => .picks (by cases b <;> simp [hn, pickEdges])
  case cat34 => exact .of_picked (nodeCat34_eq_next.mp h) hw fun b => .picks (by cases b <;> simp [hn, pickEdges])
  case catone =>
    refine .of_picked (nodeCatone_eq_next.mp h) hw fun b => ?_
    cases b <;> exact .startsCategory (by simp [hn, categoryEdges, category, Token.num]) rfl rfl
  case catthree =>
    refine .of_picked (nodeCatthree_eq_next.mp h) hw fun b => ?_
    cases b <;> exact .startsCategory (by simp [hn, categoryEdges, category, Token.num]) rfl rfl
  case catfive =>
    refine .of_picked (nodeCatfive_eq_next.mp h) hw fun b => ?_
    cases b
    · exact .startsCategory (by simp [hn, categoryEdges, category, Token.num]) rfl rfl
    · exact .startsCat6 hn rfl rfl
  case extra =>
    obtain ⟨p, -, h⟩ := nodeExtra_eq_next.mp h
    exact .of_picked h hw fun _ => .extraBit hn rfl rfl rfl
  case cat6 =>
    obtain ⟨-, rfl⟩ | ⟨hp, rfl⟩ | ⟨p, hp, -, h⟩ := nodeCat6_eq_next.mp h
    · exact absurd hw (not_walking_raise _ _)
    · exact .cat6End hn rfl (List.getElem?_eq_some_iff.mp hp).1 (by simp [visitRequest, hn, hp])
    · exact .of_picked h hw fun _ => .cat6Bit hn rfl rfl (List.getElem?_eq_some_iff.mp hp).1
  case sign =>
    obtain ⟨-, rfl⟩ | ⟨neg, -, -, -, hadv⟩ := nodeSign_eq_next.mp h
    · exact absurd hw (not_walking_raise _ _)
    · exact absurd hc (advance_c_ne (by simp) hadv)

/-! ## Budgets -/

/-- `cost` is what a visit spends, at a node that decodes a token only. A token may spend `perToken`, and from a node of it on no
more than `rest`: what a visit within the token spends is no longer there after it. -/
structure Spends (cost rest perToken : State → Nat) : Prop where
  outside : ∀ s, walking s.node = false → cost s = 0
  within : ∀ s t, Lawful s → t.par = s.par → TokenMove (nextAnswer s) s t → cost s + rest t ≤ rest s
  last : ∀ s, Lawful s → walking s.node = true → cost s ≤ rest s
  rest_le : ∀ s, Lawful s → walking s.node = true → rest s ≤ perToken s
  fixed : ∀ s t, t.par = s.par → perToken t = perToken s

/-- What a running command may still spend: the rest of the current token, and whole tokens for the scan indices behind it. -/
def commandRest (rest perToken : State → Nat) (s : State) : Nat :=
  if walking s.node then (me s - s.c.toNat - 1) * perToken s + rest s
  else if s.node = .entry then me s * perToken s else 0

section
variable {cost rest perToken : State → Nat}

theorem commandRest_walking {s : State} (hn : walking s.node = true) :
    commandRest rest perToken s = (me s - s.c.toNat - 1) * perToken s + rest s := if_pos hn

theorem commandRest_entry {s : State} (hn : s.node = .entry) : commandRest rest perToken s = me s * perToken s := by
  simp [commandRest, hn, walking]

theorem commandRest_outside {s : State} (hw : walking s.node = false) (hn : s.node ≠ .entry) :
    commandRest rest perToken s = 0 := by
  simp [commandRest, hn, hw]

theorem finish_node_ne_entry (e : BitVec 11) (s : State) : (finish e s).node ≠ .entry := by
  rw [finish_node]
  split <;> exact nofun

theorem commandRest_finish (e : BitVec 11) (s : State) : commandRest rest perToken (finish e s) = 0 :=
  commandRest_outside (walking_finish e s) (finish_node_ne_entry e s)

/-- A token with those behind it spends no more than one token more than those behind it. -/
theorem Spends.commandRest_le_tokens (h : Spends cost rest perToken) {s : State} (hl : Lawful s)
    (hn : walking s.node = true) : commandRest rest perToken s ≤ (me s - s.c.toNat) * perToken s := by
  have hc := hl.c_lt hn
  have hr := h.rest_le s hl hn
  obtain ⟨k, hk⟩ : ∃ k, me s - s.c.toNat = k + 1 := ⟨me s - s.c.toNat - 1, by omega⟩
  rw [commandRest_walking hn, hk, Nat.add_sub_cancel, Nat.add_one_mul]
  omega

/-- A command may spend at most ME tokens (R341). -/
theorem Spends.commandRest_le (h : Spends cost rest perToken) {s : State} (hl : Lawful s) :
    commandRest rest perToken s ≤ me s * perToken s := by
  by_cases hw : walking s.node = true
  · exact (h.commandRest_le_tokens hl hw).trans (Nat.mul_le_mul_right _ (Nat.sub_le _ _))
  · rw [Bool.not_eq_true] at hw
    by_cases hn : s.node = .entry
    · exact (commandRest_entry hn).le
    · rw [commandRest_outside hw hn]
      exact Nat.zero_le _

theorem Spends.cost_le (h : Spends cost rest perToken) {s : State} (hl : Lawful s) : cost s ≤ commandRest rest perToken s := by
  by_cases hw : walking s.node = true
  · rw [commandRest_walking hw]
    exact (h.last s hl hw).trans (Nat.le_add_left _ _)
  · rw [h.outside s (Bool.not_eq_true _ ▸ hw)]
    exact Nat.zero_le _

/-- What a visit spends is no longer there after it. -/
theorem Spends.visit (h : Spends cost rest perToken) {s t : State} (hl : Lawful s) (hv : Machine.visit s = .next t) :
    cost s + commandRest rest perToken t ≤ commandRest rest perToken s := by
  have hv' := visit_cases hv
  have hm : me t = me s := (congrArg me hv'.frame :)
  have hp : t.par = s.par := (congrArg State.par hv'.frame :)
  have hper := h.fixed s t hp
  have hcost := h.cost_le hl
  cases hv' with
  | rest hn ht =>
    rw [h.outside s (by simp [hn, walking]), ht, Nat.zero_add]
  | abort u e _ _ _ ht =>
    have h0 : commandRest rest perToken t = 0 := commandRest_outside (ht ▸ rfl) (ht ▸ nofun)
    omega
  | move hn ht =>
    have hc : t.c = s.c := (congrArg State.c ht.within.frame :)
    have hspent := h.within s t hl hp (tokenMove_of_visitWith hv hn ht.walking hc)
    rw [commandRest_walking hn, commandRest_walking ht.walking, hm, hc, hper]
    omega
  | ends u _ _ ht => rwa [ht, commandRest_finish]
  | fills v _ _ ht => rwa [ht, commandRest_finish]
  | goesOn v n hpl hn hc ht =>
    have hidx : t.c.toNat = s.c.toNat + 1 := ht ▸ hpl.nextIndex_toNat
    have hws : walking s.node = true := by obtain ⟨hn, -⟩ | ⟨hn, -⟩ := hpl.node <;> rw [hn] <;> rfl
    have hwt : walking t.node = true := by rw [ht]; obtain rfl | rfl := hn <;> rfl
    have hnext := h.commandRest_le_tokens (hl.visit hv) hwt
    have hlast := h.last s hl hws
    rw [hm, hper, hidx, ← Nat.sub_sub] at hnext
    rw [commandRest_walking hws]
    omega
  | enters hn ht =>
    have hnext := h.commandRest_le (hl.visit hv)
    rwa [commandRest_entry hn, h.outside s (by simp [hn, walking]), Nat.zero_add, ← hm, ← hper]
  | writesBack hn _ _ ht =>
    have h0 : commandRest rest perToken t = 0 := commandRest_outside (ht ▸ rfl) (ht ▸ nofun)
    omega

/-! ## Totals of a run -/

theorem runTotal_of_visit {f : State → Nat} {n : Nat} {s t : State} (h : Machine.visit s = .next t) :
    runTotal f (n + 1) s = f s + runTotal f n t := by
  rw [runTotal, h]
  rfl

/-- A run spends no more than was there at its begin. -/
theorem Spends.runTotal_le (h : Spends cost rest perToken) {s : State} (hl : Lawful s) (n : Nat) :
    runTotal cost n s ≤ commandRest rest perToken s := by
  induction n generalizing s with
  | zero => exact Nat.zero_le _
  | succ n ih =>
    cases hv : Machine.visit s with
    | next t =>
      rw [runTotal_of_visit hv]
      exact (Nat.add_le_add_left (ih (hl.visit hv)) _).trans (h.visit hl hv)
    | fault e =>
      rw [runTotal, hv]
      exact h.cost_le hl
    | refused e =>
      rw [runTotal, hv]
      exact h.cost_le hl

/-- A run spends at most ME tokens (R341). -/
theorem Spends.runTotal_le_tokens (h : Spends cost rest perToken) {s : State} (hl : Lawful s) (n : Nat) :
    runTotal cost n s ≤ me s * perToken s := (h.runTotal_le hl n).trans (h.commandRest_le hl)

end

end Sys2Proof.Machine
end

section
/-! PROOF. The bounds of R341 and R342 on visits, requests, writes to COEF and TOKC and counter increments. -/

namespace Sys2Proof.Machine

/-! ## Visits and requests -/

/-- Visits (`e = 1`) or requests (`e = 0`) of the longest token (R341; log 20): the two differ in the visit of N_CAT6 that asks
nothing. -/
def tokenLength (e : Nat) (s : State) : Nat := max (s.par.cat6p.length + 7 + e) 13

/-- Visits (`e = 1`) or requests (`e = 0`) from the current node to the end of its token, at most (R341). -/
def tokenRest (e : Nat) (s : State) : Nat :=
  match s.node with
  | .idle | .wb | .entry => 0
  | .eob => tokenLength e s
  | .zero => tokenLength e s - 1
  | .one => tokenLength e s - 2
  | .lowval => tokenLength e s - 3
  | .highlow => tokenLength e s - 4
  | .cat34 => tokenLength e s - 5
  | .catfive => tokenLength e s - 6
  | .two => 3
  | .three => 2
  | .catone => 4
  | .catthree => 6
  | .extra => category s - s.xi + 1
  | .cat6 => s.par.cat6p.length + e - s.xi
  | .sign => 1

/-- A visit within a token is no longer there after it, nor is its request. -/
theorem tokenRest_of_move {e k : Nat} {ans : Answer} {s t : State} (hm : TokenMove ans s t) (hp : t.par = s.par)
    (hx : s.node = .extra → s.xi < category s) (h1 : k ≤ 1) (h6 : s.node = .cat6 → visitRequest s = none → k ≤ e) :
    k + tokenRest e t ≤ tokenRest e s := by
  cases hm with
  | continues hs _ ht | nonzero hs _ ht => simp only [tokenRest, tokenLength, hs, ht, hp]; omega
  | picks h =>
    simp only [pickEdges, List.mem_cons, Prod.mk.injEq, List.not_mem_nil, or_false] at h
    obtain h | h | h | h | h | h | h | h | h | h | h := h <;> obtain ⟨hs, ht⟩ := h <;>
      simp only [tokenRest, tokenLength, hs, ht, hp] <;> omega
  | startsCategory hs ht h0 =>
    simp only [categoryEdges, List.mem_cons, Prod.mk.injEq, List.not_mem_nil, or_false] at hs
    obtain h | h | h | h | h := hs <;> obtain ⟨hs, hk⟩ := h <;>
      simp only [tokenRest, tokenLength, hs, ht, hk, h0] <;> omega
  | startsCat6 hs ht h0 => simp only [tokenRest, tokenLength, hs, ht, hp, h0]; omega
  | extraBit hs ht hk hxi =>
    have hx := hx hs
    split at ht <;> simp only [tokenRest, hs, ht, hk, hxi] <;> omega
  | cat6Bit hs ht hxi hlt => simp only [tokenRest, hs, ht, hp, hxi]; omega
  | cat6End hs ht hlt hr =>
    have hk := h6 hs hr
    simp only [tokenRest, hs, ht]; omega

/-- What is counted once a visit, and at N_CAT6 `e` times where the visit asks nothing, is bounded by the longest token. -/
theorem spends_tokenRest {e : Nat} {cost : State → Nat} (h0 : ∀ s, walking s.node = false → cost s = 0)
    (h1 : ∀ s, cost s ≤ 1) (h6 : ∀ s, s.node = .cat6 → visitRequest s = none → cost s ≤ e) :
    Spends cost (tokenRest e) (tokenLength e) where
  outside := h0
  within := fun s t hl hp hm => tokenRest_of_move hm hp (fun hn => (hl.extra hn).2.2.1) (h1 s) (h6 s)
  last := fun s hl hw => by
    have hk := h1 s
    cases hn : s.node
    case cat6 =>
      obtain ⟨-, hx, -⟩ := hl.cat6 hn
      by_cases hr : visitRequest s = none
      · have := h6 s hn hr
        simp only [tokenRest, hn]; omega
      · obtain hlt | heq := Nat.lt_or_eq_of_le hx
        · simp only [tokenRest, hn]; omega
        · simp [visitRequest, hn, heq] at hr
    case idle | wb | entry => simp [hn, walking] at hw
    all_goals simp only [tokenRest, tokenLength, hn]; omega
  rest_le := fun s hl _ => by
    cases hn : s.node
    case extra =>
      obtain ⟨-, h5, -, -⟩ := hl.extra hn
      simp only [tokenRest, tokenLength, hn]; omega
    all_goals simp only [tokenRest, tokenLength, hn]; omega
  fixed := fun s t hp => by rw [tokenLength, hp, tokenLength]

/-- The visits of nodes 1 to 14. -/
def walkingVisits (s : State) : Nat := (walking s.node).toNat

theorem spends_walkingVisits : Spends walkingVisits (tokenRest 1) (tokenLength 1) :=
  have hle : ∀ s, walkingVisits s ≤ 1 := fun s => (walking s.node).toNat_le
  spends_tokenRest (fun s hw => by simp [walkingVisits, hw]) hle fun s _ _ => hle s

/-- The requests of the coming visit (R6). -/
def visitRequests (s : State) : Nat := (visitRequest s).toList.length

theorem visitRequests_le (s : State) : visitRequests s ≤ 1 := by
  unfold visitRequests
  cases visitRequest s <;> simp

theorem spends_visitRequests : Spends visitRequests (tokenRest 0) (tokenLength 0) := by
  refine spends_tokenRest (fun s hw => ?_) visitRequests_le fun s _ hr => by simp [visitRequests, hr]
  cases hn : s.node <;> simp [visitRequests, visitRequest, hn, walking] at hw ⊢

/-! ## Stores -/

/-- The coming visit stores a coefficient (R163, R220). -/
def Storing (s : State) : Prop :=
  s.node = .zero ∧ nextAnswer s = .bit false ∨ s.node = .sign ∧ ∃ b, nextAnswer s = .bit b

theorem visitStores_of_storing {s : State} (h : Storing s) : visitStores s = 1 := by
  obtain ⟨hn, ha⟩ | ⟨hn, b, ha⟩ := h <;> simp [visitStores, hn, ha]

theorem visitStores_of_not_storing {s : State} (h : ¬ Storing s) : visitStores s = 0 := by
  unfold visitStores
  split
  · next hn ha => exact absurd (.inl ⟨hn, ha⟩) h
  · next b hn ha => exact absurd (.inr ⟨hn, b, ha⟩) h
  · rfl

theorem visitStores_le (s : State) : visitStores s ≤ 1 := by
  by_cases h : Storing s
  · rw [visitStores_of_storing h]
  · rw [visitStores_of_not_storing h]
    exact Nat.zero_le 1

/-- A visit that stores ends its token. -/
theorem TokenMove.not_storing {s t : State} (h : TokenMove (nextAnswer s) s t) : ¬ Storing s := by
  cases h with
  | nonzero hs ha _ => simp [Storing, hs, ha]
  | continues hs | startsCat6 hs | extraBit hs | cat6Bit hs | cat6End hs => simp [Storing, hs]
  | picks h => rintro (⟨hn, -⟩ | ⟨hn, -⟩) <;> simp [hn, pickEdges] at h
  | startsCategory h => rintro (⟨hn, -⟩ | ⟨hn, -⟩) <;> simp [hn, categoryEdges] at h

/-- One store a token (R341). -/
theorem spends_visitStores : Spends visitStores (fun _ => 1) (fun _ => 1) where
  outside := fun s hw => visitStores_of_not_storing (by rintro (⟨hn, -⟩ | ⟨hn, -⟩) <;> simp [hn, walking] at hw)
  within := fun s t _ _ hm => by rw [visitStores_of_not_storing hm.not_storing]
  last := fun s _ _ => visitStores_le s
  rest_le := fun _ _ _ => le_rfl
  fixed := fun _ _ _ => rfl

/-- A visit that advances C stores one coefficient and its token at scan[c]. -/
theorem VisitCase.stores_of_c_ne {ans : Answer} {s t : State} (h : VisitCase ans s t) (hc : t.c ≠ s.c) :
    ∃ v, Placed ans s v ∧ t.coef = v.coef ∧ t.tokc = v.tokc := by
  cases h with
  | rest _ ht => exact absurd (by rw [ht]) hc
  | abort u e _ hu _ ht => exact absurd (by rw [ht]; exact (congrArg State.c hu.frame :)) hc
  | move _ ht => exact absurd (congrArg State.c ht.within.frame :) hc
  | ends u _ hu ht => exact absurd (by rw [ht, finish_c]; exact (congrArg State.c hu.frame :)) hc
  | goesOn v n hv _ _ ht => exact ⟨v, hv, ht ▸ ⟨rfl, rfl⟩⟩
  | fills v hv _ ht => rw [ht, finish_coef, finish_tokc]; exact ⟨v, hv, rfl, rfl⟩
  | enters _ ht => exact absurd (by rw [ht]; rfl) hc
  | writesBack _ _ _ ht => exact absurd (by rw [ht]; rfl) hc

theorem Storing.c_ne {s t : State} (h : Storing s) (hv : visit s = .next t) : t.c ≠ s.c := by
  obtain ⟨hn, ha⟩ | ⟨hn, b, ha⟩ := h <;> rw [visit, visitWith, hn, ha] at hv
  · obtain ⟨-, ⟨⟨⟩, -⟩ | ⟨⟨⟩, -⟩ | ⟨-, hz⟩⟩ := nodeZero_eq_next.mp hv
    obtain ⟨-, -, hadv⟩ := zeroToken_eq_next.mp hz
    exact advance_c_ne (by simp [zeroStored]) hadv
  · obtain ⟨⟨⟩, -⟩ | ⟨neg, -, -, -, hadv⟩ := nodeSign_eq_next.mp hv
    exact advance_c_ne (by simp) hadv

/-! ## Counter increments -/

/-- The counter increments from the current node to the end of its token, at most: one of CNTE at N_EOB and one of CNTC (R243,
R244). -/
def countsRest (s : State) : Nat :=
  match s.node with
  | .eob => 2
  | .zero | .one => 1
  | _ => 0

theorem visitIncrements_le (s : State) : visitIncrements s ≤ countsRest s := by
  unfold visitIncrements visitClassCount visitEobCount countsRest
  by_cases hf : s.fpar = 0#1
  · cases hn : s.node <;> rcases nextAnswer s with ⟨_ | _⟩ | _ <;> simp [hf]
  · simp [hf]

/-- With the answer 1 N_EOB counts its branch alone, and N_ZERO nothing. -/
theorem visitIncrements_of_true {s : State} (ha : nextAnswer s = .bit true) :
    (s.node = .eob → visitIncrements s ≤ 1) ∧ (s.node = .zero → visitIncrements s = 0) := by
  unfold visitIncrements visitClassCount visitEobCount
  by_cases hf : s.fpar = 0#1 <;> constructor <;> intro hn <;> simp [hf, hn, ha]

/-- Two counter increments a token (R341). -/
theorem spends_visitIncrements : Spends visitIncrements countsRest (fun _ => 2) where
  outside := fun s hw => by
    have h := visitIncrements_le s
    cases hn : s.node <;> simp_all [countsRest, walking]
  within := fun s t _ _ hm => by
    have hle := visitIncrements_le s
    cases hm with
    | continues hs ha ht =>
      have := (visitIncrements_of_true ha).1 hs
      simp only [countsRest, hs, ht]; omega
    | nonzero hs ha ht =>
      have := (visitIncrements_of_true ha).2 hs
      simp only [countsRest, hs, ht]; omega
    | picks h =>
      have : countsRest t = 0 := by
        cases ht : t.node <;> simp_all [countsRest, pickEdges]
      omega
    | extraBit _ ht =>
      have : countsRest t = 0 := by
        split at ht <;> simp [countsRest, ht]
      omega
    | startsCategory _ ht | startsCat6 _ ht | cat6Bit _ ht | cat6End _ ht =>
      have : countsRest t = 0 := by simp [countsRest, ht]
      omega
  last := fun s _ _ => visitIncrements_le s
  rest_le := fun s _ _ => by unfold countsRest; split <;> simp
  fixed := fun _ _ _ => rfl

theorem counted_par (ans : Answer) (s : State) : (counted ans s).par = s.par := by
  unfold counted
  split <;> simp

/-- The element of CNTC that a visit counts is that of `visitClassCount` (R242, R244). -/
theorem cntcAt_counted (s : State) (i : Nat) :
    cntcAt (counted (nextAnswer s) s) i =
      if visitClassCount s = some i then (cntcAt s i + 1) % 2 ^ s.par.cntW else cntcAt s i := by
  unfold counted visitClassCount
  by_cases hf : s.fpar = 0#1
  · cases s.node <;> rcases nextAnswer s with ⟨_ | _⟩ | _ <;> simp [hf, cntcAt_count, classIndex, eq_comm]
  · cases s.node <;> rcases nextAnswer s with ⟨_ | _⟩ | _ <;> simp [hf, cntcAt_count]

/-- The element of CNTE that a visit counts is that of `visitEobCount` (R243). -/
theorem cnteAt_counted (s : State) (i : Nat) :
    cnteAt (counted (nextAnswer s) s) i =
      if visitEobCount s = some i then (cnteAt s i + 1) % 2 ^ s.par.cntW else cnteAt s i := by
  unfold counted visitEobCount
  by_cases hf : s.fpar = 0#1
  · cases s.node <;> rcases nextAnswer s with ⟨_ | _⟩ | _ <;> simp [hf, cnteAt_countE, eq_comm]
  · cases s.node <;> rcases nextAnswer s with ⟨_ | _⟩ | _ <;> simp [hf, cnteAt_countE]

theorem cntcAt_visit {s t : State} (h : visit s = .next t) (i : Nat) :
    cntcAt t i = cntcAt (counted (nextAnswer s) s) i := by
  have hp : t.par = s.par := (congrArg State.par (visit_cases h).frame :)
  rw [cntcAt, cntcAt, cntc_visit h, hp, counted_par]

theorem cnteAt_visit {s t : State} (h : visit s = .next t) (i : Nat) :
    cnteAt t i = cnteAt (counted (nextAnswer s) s) i := by
  have hp : t.par = s.par := (congrArg State.par (visit_cases h).frame :)
  rw [cnteAt, cnteAt, cnte_visit h, hp, counted_par]

/-! ## The bound on visits -/

/-- The visits of a command outside its tokens: N_ENTRY and N_WB (R341). A node of a token has N_WB before it. -/
def blockVisits (n : Node) : Nat :=
  match n with
  | .idle => 0
  | .entry => 2
  | _ => 1

/-- The bound of R342: what is left of the tokens, and the visits outside them. -/
theorem visitsLeft_eq (s : State) :
    visitsLeft s = commandRest (tokenRest 1) (tokenLength 1) s + blockVisits s.node := by
  cases hn : s.node <;> simp [visitsLeft, commandRest, tokenRest, walking, blockVisits, hn, tokenVisits, tokenLength]

theorem blockVisits_le {n : Node} (h : n ≠ .entry) : blockVisits n ≤ 1 := by
  cases n <;> simp [blockVisits] at h ⊢

/-- No visit goes to N_ENTRY (R260). -/
theorem VisitCase.node_ne_entry {ans : Answer} {s t : State} (h : VisitCase ans s t) : t.node ≠ .entry := by
  cases h with
  | rest hn ht => rw [ht, hn]; exact nofun
  | abort u e _ _ _ ht => rw [ht]; exact nofun
  | move _ ht => exact node_ne_of_walking ht.walking rfl
  | ends u _ _ ht => rw [ht]; exact finish_node_ne_entry _ _
  | goesOn v n _ hn _ ht => rw [ht]; obtain rfl | rfl := hn <;> exact nofun
  | fills v _ _ ht => rw [ht]; exact finish_node_ne_entry _ _
  | enters _ ht => rw [ht]; exact nofun
  | writesBack _ _ _ ht => rw [ht]; exact nofun

theorem visit_wb_node {s t : State} (hn : s.node = .wb) (h : visit s = .next t) : t.node = .idle := by
  rw [visit, visitWith, hn] at h
  obtain ⟨-, -, rfl⟩ := nodeWb_eq_next.mp h
  rfl

/-- A visit of a running command is one of its tokens, or of N_ENTRY or N_WB, and is no longer there after it. -/
theorem Lawful.visitsLeft_lt {s t : State} (h : Lawful s) (hn : s.node ≠ .idle) (hv : Machine.visit s = .next t) :
    visitsLeft t < visitsLeft s := by
  have hspent := spends_walkingVisits.visit h hv
  have hle := blockVisits_le (visit_cases hv).node_ne_entry
  rw [visitsLeft_eq, visitsLeft_eq]
  by_cases hw : walking s.node = true
  · have hcost : walkingVisits s = 1 := by simp [walkingVisits, hw]
    have hb : 1 ≤ blockVisits s.node := by cases hs : s.node <;> simp_all [blockVisits]
    omega
  · obtain hs | hs : s.node = .wb ∨ s.node = .entry := by cases hs : s.node <;> simp_all [walking]
    · rw [visit_wb_node hs hv, hs]
      exact Nat.add_lt_add_of_le_of_lt (by omega) (by decide)
    · rw [hs]
      exact Nat.add_lt_add_of_le_of_lt (by omega) (Nat.lt_of_le_of_lt hle (by decide))

/-- Settles O49: `Lawful.visitsLeft_lt`, a running command being at a node other than N_IDLE. -/
theorem everyVisitLowersTheBound : Obligations.EveryVisitLowersTheBound :=
  fun _ _ h hb hv => h.visitsLeft_lt (fun hn => by simp [h.idle_iff.mp hn] at hb) hv

theorem Lawful.visitsLeft_le {s : State} (h : Lawful s) : visitsLeft s ≤ me s * tokenVisits s + 2 := by
  have hle : commandRest (tokenRest 1) (tokenLength 1) s ≤ me s * tokenVisits s := spends_walkingVisits.commandRest_le h
  have hb : blockVisits s.node ≤ 2 := by cases s.node <;> decide
  rw [visitsLeft_eq]
  omega

/-- Where the obligations hold, a command has ended after as many visits as the bound says (R342). -/
theorem Decoding.exists_runVisits_idle {s : State} (h : Decoding s) {n : Nat} (hn : visitsLeft s ≤ n) :
    ∃ t, Machine.runVisits n s = .next t ∧ t.node = .idle ∧ Lawful t := by
  induction n generalizing s with
  | zero =>
    refine ⟨s, rfl, ?_, h.lawful⟩
    rw [visitsLeft_eq] at hn
    cases hs : s.node <;> simp [hs, blockVisits] at hn ⊢
  | succ n ih =>
    obtain ⟨u, hu⟩ := h.exists_visit
    have hle : visitsLeft u ≤ n := by
      by_cases hs : s.node = .idle
      · rw [visit_idle hs] at hu
        rw [next_inj.mp hu, visitsLeft, hs]
        exact Nat.zero_le n
      · have := h.lawful.visitsLeft_lt hs hu
        omega
    obtain ⟨t, ht, hd⟩ := ih (h.visit hu) hle
    exact ⟨t, by rw [Machine.runVisits, hu, thenDo_next, ht], hd⟩

/-! ## The requests of a run -/

theorem length_requests_visit {s t : State} (h : visit s = .next t) :
    t.requests.length = s.requests.length + visitRequests s := by
  rw [requests_of_traffic (traffic_visit h), visitRequests]
  cases hr : visitRequest s with
  | none => rw [asked_of_none hr]; rfl
  | some r => rw [asked_of_some hr]; rfl

theorem length_requests_runVisits {n : Nat} {s t : State} (h : runVisits n s = .next t) :
    t.requests.length = s.requests.length + runTotal visitRequests n s := by
  induction n generalizing s with
  | zero => rw [next_inj.mp h]; rfl
  | succ n ih =>
    obtain ⟨u, hu, ht⟩ := thenDo_eq_next.mp h
    rw [ih ht, length_requests_visit hu, runTotal_of_visit hu, Nat.add_assoc]

/-- A command makes a request by its second visit, for N_EOB asks and N_ENTRY goes there (R23, R261). -/
theorem Decoding.one_le_requests {s : State} (h : Decoding s) (hn : s.node = .eob ∨ s.node = .entry) (n : Nat) :
    1 ≤ runTotal visitRequests (n + 2) s := by
  have heob : ∀ {u}, u.node = .eob → visitRequests u = 1 := fun hu => by simp [visitRequests, visitRequest, hu]
  obtain hn | hn := hn
  · obtain ⟨u, hu⟩ := h.exists_visit
    rw [runTotal_of_visit hu, heob hn]
    exact Nat.le_add_right 1 _
  · have hu := visit_entry hn (h.lawful.footprintLegal (.inl hn))
    obtain ⟨t, ht⟩ := (h.visit hu).exists_visit
    rw [runTotal_of_visit hu, runTotal_of_visit ht, heob (u := entered s) rfl]
    omega

/-! ## The obligation -/

/-- From a state of a run that meets the obligations a command ends within the bounds (R341, R342). -/
theorem Decoding.ends_within_bounds {s : State} (h : Decoding s) {n : Nat} (hn : n = me s * tokenVisits s + 2) :
    ∃ t, Machine.runVisits n s = .next t ∧ t.busy = false ∧ t.node = .idle ∧
      t.requests.length ≤ s.requests.length + me s * tokenRequests s ∧
      runTotal visitStores n s ≤ me s ∧ runTotal visitIncrements n s ≤ 2 * me s ∧
      (s.node = .eob ∨ s.node = .entry → s.requests.length + 1 ≤ t.requests.length) := by
  obtain ⟨t, ht, hidle, hl⟩ := h.exists_runVisits_idle (h.lawful.visitsLeft_le.trans hn.ge)
  have hreq : runTotal visitRequests n s ≤ me s * tokenRequests s := spends_visitRequests.runTotal_le_tokens h.lawful n
  have hstores := spends_visitStores.runTotal_le_tokens h.lawful n
  have hcounts := spends_visitIncrements.runTotal_le_tokens h.lawful n
  have hlen := length_requests_runVisits ht
  refine ⟨t, ht, hl.idle_iff.mp hidle, hidle, by omega, by omega, by omega, fun hs => ?_⟩
  have := h.one_le_requests hs (me s * tokenVisits s)
  rw [← hn] at this
  omega

/-- What is counted as stores of a visit is what it stores (R163, R223, R224). -/
theorem visitStores_counts {s t : State} (h : visit s = .next t) :
    (visitStores s = 0 → t.coef = s.coef ∧ t.tokc = s.tokc) ∧
    (visitStores s ≠ 0 → visitStores s = 1 ∧ ∃ v e,
      t.coef = Memory.insert s.coef (position s) v ∧ t.tokc = Memory.insert s.tokc (position s) e) := by
  by_cases hs : Storing s
  · rw [visitStores_of_storing hs]
    obtain ⟨v, hv, hc, ht⟩ := (visit_cases h).stores_of_c_ne (hs.c_ne h)
    obtain ⟨z, e, hz, he⟩ := hv.stores
    exact ⟨nofun, fun _ => ⟨rfl, z, _, hc.trans hz, ht.trans he⟩⟩
  · rw [visitStores_of_not_storing hs]
    exact ⟨fun _ => (visit_cases h).keepsCoef hs, fun h0 => absurd rfl h0⟩

/-- Settles O50: the budgets of the command, R341's numbers, and what each visit does of what is counted. -/
theorem everyCommandEndsWithinTheBound : Obligations.EveryCommandEndsWithinTheBound := by
  refine ⟨fun s n h hn => h.ends_within_bounds hn, fun s => ⟨fun h5 => ?_, fun h6 => ?_, fun ht hl => ?_⟩, fun s t h => ?_⟩
  · exact max_eq_left (by omega)
  · exact max_eq_left (by omega)
  · rw [tokenRequests, hl, me, ht]
    rfl
  · obtain ⟨h0, h1⟩ := visitStores_counts h
    exact ⟨h0, h1, fun i => (cntcAt_visit h i).trans (cntcAt_counted s i),
      fun i => (cnteAt_visit h i).trans (cnteAt_counted s i)⟩

end Sys2Proof.Machine
end

section
/-! PROOF. The hardware reset (R55, R321). -/

namespace Sys2Proof.Machine

/-- After a hardware reset every register reads as after power-on (R55, R321). -/
theorem regWord_hardwareReset (s : State) (n : Nat) : regWord (hardwareReset s) n = 0#32 := by
  have hr : regWord (hardwareReset s) n = regWord State.reset n := by
    unfold regWord
    split <;> rfl
  rw [hr, regWord_reset]

/-- Settles O3: the fields of `hardwareReset`. -/
theorem hardwareResetEndsTheCommand : Obligations.HardwareResetEndsTheCommand :=
  fun s => ⟨hardwareReset s, rfl, rfl, rfl, rfl, rfl, rfl, rfl, rfl, rfl, rfl, rfl, regWord_hardwareReset s,
    rfl, rfl, rfl, rfl, rfl, rfl, rfl, rfl⟩

end Sys2Proof.Machine
end
